-- ==== Sys2Proof/Word.lean ====
section
/-! DEFINITION. The widths the manual gives names to (R2, R26, R34, R42). -/
namespace Sys2Proof

/-- One byte of memory (R2). -/
abbrev Byte := BitVec 8
/-- One 32-bit element of a vector register, and one scalar instruction word (R26, R34). -/
abbrev Word := BitVec 32
/-- One scalar register, one virtual address (R26, R158). -/
abbrev DWord := BitVec 64
/-- One lane instruction word (R42). -/
abbrev LaneBits := BitVec 96
/-- One bit for each of the 96 lanes: the activity mask, a predicate register (R26, R69). -/
abbrev LaneMask := BitVec 96
/-- The 96 elements of a vector register or a latch, lane 0 first (R26). -/
abbrev LaneVec := List Word
/-- The number of a scalar register s0 to s63 (R35). -/
abbrev SReg := BitVec 6

/-- Lanes of a group (R9). -/
abbrev laneCount : Nat := 96

end Sys2Proof
end

