-- ==== Sys2Proof/Syntax.lean ====
section
/-! DEFINITION. The syntax: one constructor of `Instr` for each row of spec/opcode_table.json. The scalar words carry
their register numbers and their EXTENDED immediates (R39); the lane words share the fields of R42; the device steps
carry what names them. -/
namespace Sys2Proof

/-- The scopes of R189. -/
inductive Scope where
  | grp | team | cell | die | dev | sys
deriving DecidableEq, Repr

/-- Conditions of `br` (R37). -/
inductive BrCond where
  | always | eq | ne | lt | ge | gt | le
deriving DecidableEq, Repr

/-- Conditions of `brm` (R37). -/
inductive MaskCond where
  | any | none | all | nall
deriving DecidableEq, Repr

/-- Conditions of `await` (R206). -/
inductive AwaitCond where
  | eq | ne | lt | ge | ltn | gen | any | none
deriving DecidableEq, Repr

/-- The control and status words (R355). -/
inductive Csr where
  | ctlRound | ctlRpt | ctlRng | ctlLull | stFp | stQ | stFallback | stStale | clk
  | idGroup | idTeam | idCore | idDie | idLaunch | idPoint
deriving DecidableEq, Repr

/-- Element types (R49). -/
inductive ElemType where
  | i8 | i16 | i32 | i64 | n8 | n16 | n32 | n64 | f32 | f16 | bf16 | narrow | b32
deriving DecidableEq, Repr

/-- A guard field (R42, R43): always, or a predicate with its negation bit. -/
inductive Guard where
  | always
  | pred (k : Fin 12) (neg : Bool)
deriving DecidableEq, Repr

/-- The special operands (R46). -/
inductive Special where
  | lane | quad | group | team | die | role | pointX | pointY | pointZ | core
deriving DecidableEq, Repr

/-- A source operand field (R44): vector, scalar, latch, 7-bit immediate or special. The field value 0x000 of a field
that the opcode does not read is `v 0`. -/
inductive Src where
  | v (i : BitVec 8)
  | s (i : SReg)
  | l (k : Fin 3)
  | imm (k : BitVec 7)
  | spec (p : Special)
deriving DecidableEq, Repr

/-- A destination operand field (R47): vector, scalar, predicate, or class 11 (accumulator or tile, as the opcode
defines). -/
inductive Dst where
  | v (i : BitVec 8)
  | s (i : SReg)
  | p (i : Fin 12)
  | x (i : Fin 16)
deriving DecidableEq, Repr

/-- The RND field (R53, R97). -/
inductive Rnd where
  | ctl | rne | rtz | sr
deriving DecidableEq, Repr

/-- The HINT field (R51). -/
inductive Hint where
  | none | ev | lc | kp
deriving DecidableEq, Repr

/-- The fields of a lane word beside its opcode (R42). -/
structure LaneFields where
  ga : Guard
  gb : Guard
  d : Dst
  a : Src
  b : Src
  c : Src
  e : Src
  wbs : Bool
  lat : BitVec 2
  type : ElemType
  func : BitVec 8
  hint : Hint
  stall : BitVec 3
  yld : Bool
  rnd : Rnd
  sat : Bool
deriving DecidableEq, Repr

/-- A copy queue (R199, R215): queue q of a core, or die-to-die queue q of a die. -/
inductive QueueId where
  | core (die core q : Nat)
  | dd (die q : Nat)
deriving DecidableEq, Repr

/-- The team a host action names (R388): every team of the launch, or the team with this `%team` on this die. -/
inductive TeamName where
  | all
  | one (die num : Nat)
deriving DecidableEq, Repr

/-- What every frame of another part of a peer set says of its object (R325): which opening of the id in the launch it is, and
the descriptor there (log 23). -/
structure PeerHead where
  turn : Nat
  desc : List Byte
deriving DecidableEq, Repr

/-- A contribution frame of another part of a peer set: the elements, widened by the sender (R325). -/
structure PeerFrame where
  head : PeerHead
  data : List Word
deriving DecidableEq, Repr

/-- One firmware image and its signature (R394). -/
structure FwImage where
  image : List Byte
  signature : List Byte
deriving DecidableEq, Repr

/-- Why an instruction fetch fails (R32, R158, R161): an index at or beyond the section length, a page without execute
permission, a non-canonical address, or a page that does not translate. -/
inductive FetchFault where
  | beyond | noExecute | nonCanonical | notMapped
deriving DecidableEq, Repr

/-- The instructions and device steps of spec/opcode_table.json, one constructor a row. `t g` name a group by its
team's identity number and its group index. -/
inductive Instr where
  /-- ADD (R74): Scalar integer add of two registers, modulo 2^64. -/
  | add (d a b : SReg)
  /-- SUB (R74): Scalar integer subtract of two registers, modulo 2^64. -/
  | sub (d a b : SReg)
  /-- MUL (R74): Low 64 bits of the scalar product. -/
  | mul (d a b : SReg)
  /-- MULH (R74): High 64 bits of the signed 128-bit product. -/
  | mulh (d a b : SReg)
  /-- MULHN (R74): High 64 bits of the natural 128-bit product. -/
  | mulhn (d a b : SReg)
  /-- DIV (R74): Signed quotient rounded toward zero, with defined results for zero divisor and overflow. -/
  | div (d a b : SReg)
  /-- DIVN (R74): Natural quotient, all ones for a zero divisor. -/
  | divn (d a b : SReg)
  /-- REM (R74): Signed remainder with the sign of the dividend. -/
  | rem (d a b : SReg)
  /-- REMN (R74): Natural remainder, the dividend for a zero divisor. -/
  | remn (d a b : SReg)
  /-- AND (R74): Bitwise AND of two scalar registers. -/
  | and (d a b : SReg)
  /-- OR (R74): Bitwise OR of two scalar registers. -/
  | or (d a b : SReg)
  /-- XOR (R74): Bitwise XOR of two scalar registers. -/
  | xor (d a b : SReg)
  /-- ANDN (R74): a AND NOT b on scalar registers. -/
  | andn (d a b : SReg)
  /-- SHL (R74): Scalar shift left by b[5:0], zero-filled. -/
  | shl (d a b : SReg)
  /-- SHR (R74): Scalar logical shift right by b[5:0]. -/
  | shr (d a b : SReg)
  /-- SAR (R74): Scalar arithmetic shift right by b[5:0]. -/
  | sar (d a b : SReg)
  /-- MIN (R74): Signed minimum of two scalar registers. -/
  | min (d a b : SReg)
  /-- MAX (R74): Signed maximum of two scalar registers. -/
  | max (d a b : SReg)
  /-- MINN (R74): Natural minimum of two scalar registers. -/
  | minn (d a b : SReg)
  /-- MAXN (R74): Natural maximum of two scalar registers. -/
  | maxn (d a b : SReg)
  /-- SEQ (R74): Sets 1 if the registers are equal, else 0. -/
  | seq (d a b : SReg)
  /-- SNE (R74): Sets 1 if the registers differ, else 0. -/
  | sne (d a b : SReg)
  /-- SLT (R74): Sets 1 if a < b signed, else 0. -/
  | slt (d a b : SReg)
  /-- SLTN (R74): Sets 1 if a < b natural, else 0. -/
  | sltn (d a b : SReg)
  /-- CLZ (R74): Count of leading zero bits, 64 for zero. -/
  | clz (d a : SReg)
  /-- CTZ (R74): Count of trailing zero bits, 64 for zero. -/
  | ctz (d a : SReg)
  /-- POPC (R74): Count of one bits of a scalar register. -/
  | popc (d a : SReg)
  /-- MOV (R74): Copies one scalar register to another. -/
  | mov (d a : SReg)
  /-- SEL (R77): Selects S[SA] or S[SB] by whether the condition register is non-zero. -/
  | sel (d c a b : SReg)
  /-- ADDI (R75): Adds an extended immediate to a scalar register. -/
  | addi (d a : SReg) (k : DWord)
  /-- ANDI (R75): Bitwise AND with a sign-extended immediate. -/
  | andi (d a : SReg) (k : DWord)
  /-- ORI (R75): Bitwise OR with a sign-extended immediate. -/
  | ori (d a : SReg) (k : DWord)
  /-- XORI (R75): Bitwise XOR with a sign-extended immediate. -/
  | xori (d a : SReg) (k : DWord)
  /-- SHLI (R75): Shift left by an immediate count 0-63. -/
  | shli (d a : SReg) (k : DWord)
  /-- SHRI (R75): Logical shift right by an immediate count 0-63. -/
  | shri (d a : SReg) (k : DWord)
  /-- SARI (R75): Arithmetic shift right by an immediate count 0-63. -/
  | sari (d a : SReg) (k : DWord)
  /-- SLTI (R75): Sets 1 if S[SA] is below the immediate, signed. -/
  | slti (d a : SReg) (k : DWord)
  /-- SLTNI (R75): Sets 1 if S[SA] is below the immediate, natural. -/
  | sltni (d a : SReg) (k : DWord)
  /-- MULI (R75): Low 64 bits of S[SA] times the immediate. -/
  | muli (d a : SReg) (k : DWord)
  /-- LI (R76): Loads the extended IMM20 value into a scalar register. -/
  | li (d : SReg) (k : DWord)
  /-- ADDPC (R76): Sets a register to the instruction's address plus a byte offset. -/
  | addpc (d : SReg) (k : DWord)
  /-- BR (R78): Scalar branch, unconditional or on a signed test of S[SA]. -/
  | br (c : BrCond) (a : SReg) (k : DWord)
  /-- BRM (R78): Branch on a test of the 96-bit activity mask in program order. -/
  | brm (c : MaskCond) (k : DWord)
  /-- JMP (R78): Jumps by a word offset. -/
  | jmp (k : DWord)
  /-- CALL (R78): Writes the link register s59 and jumps by a word offset. -/
  | call (k : DWord)
  /-- JR (R78): Jumps to the word index in S[SA][31:0]. -/
  | jr (a : SReg)
  /-- JR_CALL (R78): Indirect call: writes s59 and jumps to S[SA][31:0]. -/
  | jrCall (a : SReg)
  /-- VRUN (R80): Releases n lane words with a scalar snapshot into the lane queue, waiting for room. -/
  | vrun (k : DWord)
  /-- VJMP (R81): Sets the LPC to S[SA] plus an immediate. -/
  | vjmp (a : SReg) (k : DWord)
  /-- VSET (R81): Writes the old LPC to S[SD] and sets the LPC from S[SA]. -/
  | vset (d a : SReg)
  /-- VDRAIN (R82): Waits until every released lane word has retired. -/
  | vdrain
  /-- VDRAIN_ISS (R82): Waits until the lane queue is empty. -/
  | vdrainIss
  /-- MPRED_SET (R83): Sets the mask to predicate pk after its writers retire. -/
  | mpredSet (k : Fin 12)
  /-- MPRED_AND (R83): ANDs the mask with predicate pk. -/
  | mpredAnd (k : Fin 12)
  /-- MPRED_ANDN (R83): ANDs the mask with NOT predicate pk. -/
  | mpredAndn (k : Fin 12)
  /-- MPRED_OR (R83): ORs the mask with predicate pk. -/
  | mpredOr (k : Fin 12)
  /-- MCOUNT (R84): Writes the number of set mask bits. -/
  | mcount (d : SReg)
  /-- MCOUNT_FIRST (R84): Writes the lowest active lane, or 96. -/
  | mcountFirst (d : SReg)
  /-- MCOUNT_LAST (R84): Writes the highest active lane, or 96. -/
  | mcountLast (d : SReg)
  /-- LD (R88): Scalar 64-bit load through the scalar/constant cache. -/
  | ld (d a : SReg) (k : DWord)
  /-- LDW (R88): Scalar 32-bit sign-extending load. -/
  | ldw (d a : SReg) (k : DWord)
  /-- ST (R88): Scalar 64-bit store. -/
  | st (d a : SReg) (k : DWord)
  /-- STW (R88): Scalar 32-bit store. -/
  | stw (d a : SReg) (k : DWord)
  /-- LDC (R90): Scalar 64-bit load through the non-coherent constant path. -/
  | ldc (d a : SReg) (k : DWord)
  /-- AMO_LD (R91): Atomic load at its home, optionally acquire at a scope. -/
  | amoLd (d a : SReg) (ord : Bool) (s : Scope)
  /-- AMO_ST (R91): Atomic store at its home, optionally release at a scope. -/
  | amoSt (a b : SReg) (ord : Bool) (s : Scope)
  /-- AMO_SWAP (R91): Atomic exchange returning the old value. -/
  | amoSwap (d a b : SReg) (ord : Bool) (s : Scope)
  /-- AMO_CAS (R91): Atomic compare-and-swap with compare value in SD. -/
  | amoCas (d a b : SReg) (ord : Bool) (s : Scope)
  /-- AMO_ADD (R91): Atomic add modulo 2^64 returning the old value. -/
  | amoAdd (d a b : SReg) (ord : Bool) (s : Scope)
  /-- AMO_AND (R91): Atomic bitwise AND returning the old value. -/
  | amoAnd (d a b : SReg) (ord : Bool) (s : Scope)
  /-- AMO_OR (R91): Atomic bitwise OR returning the old value. -/
  | amoOr (d a b : SReg) (ord : Bool) (s : Scope)
  /-- AMO_XOR (R91): Atomic bitwise XOR returning the old value. -/
  | amoXor (d a b : SReg) (ord : Bool) (s : Scope)
  /-- AMO_MIN (R91): Atomic signed minimum returning the old value. -/
  | amoMin (d a b : SReg) (ord : Bool) (s : Scope)
  /-- AMO_MAX (R91): Atomic signed maximum returning the old value. -/
  | amoMax (d a b : SReg) (ord : Bool) (s : Scope)
  /-- AMO_MINN (R91): Atomic natural minimum returning the old value. -/
  | amoMinn (d a b : SReg) (ord : Bool) (s : Scope)
  /-- AMO_MAXN (R91): Atomic natural maximum returning the old value. -/
  | amoMaxn (d a b : SReg) (ord : Bool) (s : Scope)
  /-- FENCE_ACQ (R193): Makes earlier loads acquires at the named scope. -/
  | fenceAcq (s : Scope)
  /-- FENCE_REL (R193): Makes later writes releases at the named scope. -/
  | fenceRel (s : Scope)
  /-- FENCE_FULL (R194): Release and acquire at the scope, in one total order of full fences. -/
  | fenceFull (s : Scope)
  /-- FENCE_Q (R201): Orders earlier plain accesses before later queue entries of the group. -/
  | fenceQ (s : Scope)
  /-- BAR (R204): Arrives at team barrier b and waits for all live groups. -/
  | bar (b : BitVec 2)
  /-- DBAR (R205): Arrives at the launch's die barrier and waits, a die-scope release and acquire. -/
  | dbar
  /-- AWAIT (R206): Waits until a memory word satisfies a condition against S[C], then acquires. -/
  | await (c : AwaitCond) (d a v : SReg) (s : Scope)
  /-- CJOIN (R232): Joins the cell named by an immediate id and returns the member index. -/
  | cjoin (d : SReg) (id : BitVec 8)
  /-- CJOIN_R (R232): Joins the cell whose id is in S[SA]. -/
  | cjoinR (d a : SReg)
  /-- CLEAVE (R233): Leaves the team's cell, revoking its mappings. -/
  | cleave
  /-- YIELD (R207): Offers the team for a lull once earlier lane words retire. -/
  | yield
  /-- CPY (R219): Places a checked copy descriptor on a core or die-to-die queue. -/
  | cpy (f a b : SReg) (dd after skind dkind : Bool) (q : BitVec 3)
  /-- QFENCE (R230): Places a fence entry in each named queue or stream. -/
  | qfence (q : BitVec 8)
  /-- QWAIT (R229): Waits until at most n of the group's entries in a queue are incomplete. -/
  | qwait (d : SReg) (dd : Bool) (q : BitVec 3) (n : BitVec 6)
  /-- MCLOSE (R279): Closes the open matrix batch and returns its number. -/
  | mclose (d : SReg)
  /-- MWAIT (R280): Waits until batch n and earlier batches are performed. -/
  | mwait (n : BitVec 8)
  /-- MWAIT_R (R280): Waits for the batch numbered in S[SA][7:0]. -/
  | mwaitR (a : SReg)
  /-- MWAIT_ALL (R280): Waits until every matrix-stream entry is performed. -/
  | mwaitAll
  /-- AMODE_ST (R248): Switches arrays into storage mode after a barrier on their accesses and passes. -/
  | amodeSt (j n : BitVec 5)
  /-- AMODE_CMP (R248): Switches arrays into compute mode after a barrier on their accesses. -/
  | amodeCmp (j n : BitVec 5)
  /-- TBIND (R251): Checks a tile descriptor and writes it to a tile register. -/
  | tbind (d : BitVec 4) (a : SReg)
  /-- TMAP (R252): Installs a map slot as the array's duplication map and copies duplicate rows. -/
  | tmap (k : BitVec 4)
  /-- LAUNCH (R305): Submits a plain launch record on the program route and returns its id or a refusal code. -/
  | launch (d a : SReg)
  /-- FLAUNCH (R306): Submits a front launch record, optionally with a front save record. -/
  | flaunch (d a b : SReg)
  /-- FPOST (R307): Completes the team's front point after the group's accesses perform. -/
  | fpost (d : SReg)
  /-- DRED_OPEN (R319): Reads a descriptor and asks the root to open a reduction object. -/
  | dredOpen (d a : SReg)
  /-- DRED_PUT (R320): Places a contribution on the group's reduction stream. -/
  | dredPut (a b : SReg)
  /-- DRED_CLOSE (R322): Closes a reduction object and returns its drop count. -/
  | dredClose (d a : SReg)
  /-- DRED_WAIT (R321): Waits until every earlier put of the group has completed. -/
  | dredWait
  /-- DTAKE (R323): Waits for and writes the early result, returning E. -/
  | dtake (d a b : SReg)
  /-- DTAKE_CORR (R323): Waits for and writes the corrected result, returning U. -/
  | dtakeCorr (d a b : SReg)
  /-- CBLK (R341): Reads and checks a command block and places it on the stack stream from an immediate start index. -/
  | cblk (a : SReg) (i : BitVec 4)
  /-- CBLK_R (R341): Places a command block with its start index taken from a register. -/
  | cblkR (d a : SReg)
  /-- CBLK_WAIT (R344): Waits until at most n of the group's blocks are incomplete. -/
  | cblkWait (d : SReg) (n : BitVec 3)
  /-- TRAP (R349): Raises a precise software trap with code n. -/
  | trap (n : BitVec 10)
  /-- BRK (R350): Debug stop when enabled for the address space, otherwise no effect. -/
  | brk (n : BitVec 10)
  /-- EXIT (R364): Ends the group, freeing its slot at once and its registers once writes land. -/
  | exit
  /-- CSRR (R352): Reads a control or status word into a scalar register. -/
  | csrr (d : SReg) (c : Csr)
  /-- CSRW (R352): Writes a control or status word under its field rules after lane words retire. -/
  | csrw (c : Csr) (a : SReg)
  /-- CLOCK (R353): Reads the part's wall clock in nanoseconds. -/
  | clock (d : SReg)
  /-- NOISE (R354): Takes one draw word from the group's noise stream. -/
  | noise (d : SReg)
  /-- NOISE_2 (R354): Takes two draw words into one 64-bit register. -/
  | noise2 (d : SReg)
  /-- PFX (R39): Prefix supplying 26 more immediate bits to its target as one indivisible instruction. -/
  | pfx (p : BitVec 26)
  /-- V_NOP (R55): Lane word that takes a turn and changes no state. -/
  | vNop (f : LaneFields)
  /-- V_ADD (R99): Lane integer add, optionally saturating. -/
  | vAdd (f : LaneFields)
  /-- V_SUB (R99): Lane integer subtract. -/
  | vSub (f : LaneFields)
  /-- V_MUL (R99): Lane integer multiply. -/
  | vMul (f : LaneFields)
  /-- V_MULH (R99): High w bits of the lane integer product. -/
  | vMulh (f : LaneFields)
  /-- V_MAD (R99): Lane integer multiply-add. -/
  | vMad (f : LaneFields)
  /-- V_ADDC (R100): Add with carry through a predicate. -/
  | vAddc (f : LaneFields)
  /-- V_SUBB (R100): Subtract with borrow through a predicate. -/
  | vSubb (f : LaneFields)
  /-- V_MIN (R99): Lane integer minimum. -/
  | vMin (f : LaneFields)
  /-- V_MAX (R99): Lane integer maximum. -/
  | vMax (f : LaneFields)
  /-- V_ABS (R99): Lane integer absolute value. -/
  | vAbs (f : LaneFields)
  /-- V_NEG (R99): Lane integer negation. -/
  | vNeg (f : LaneFields)
  /-- V_AND (R99): Lane bitwise AND. -/
  | vAnd (f : LaneFields)
  /-- V_OR (R99): Lane bitwise OR. -/
  | vOr (f : LaneFields)
  /-- V_XOR (R99): Lane bitwise XOR. -/
  | vXor (f : LaneFields)
  /-- V_NOT (R99): Lane bitwise complement. -/
  | vNot (f : LaneFields)
  /-- V_ANDN (R99): Lane a AND NOT b. -/
  | vAndn (f : LaneFields)
  /-- V_SHL (R99): Lane shift left by b mod w. -/
  | vShl (f : LaneFields)
  /-- V_SHR (R99): Lane logical shift right. -/
  | vShr (f : LaneFields)
  /-- V_SAR (R99): Lane arithmetic shift right. -/
  | vSar (f : LaneFields)
  /-- V_BFE (R100): Lane bit-field extract. -/
  | vBfe (f : LaneFields)
  /-- V_BFI (R100): Lane bit-field insert. -/
  | vBfi (f : LaneFields)
  /-- V_POPC (R99): Lane population count. -/
  | vPopc (f : LaneFields)
  /-- V_CLZ (R99): Lane leading-zero count. -/
  | vClz (f : LaneFields)
  /-- V_BREV (R99): Lane bit reversal. -/
  | vBrev (f : LaneFields)
  /-- V_SAD (R100): Lane sum of absolute difference into an n32 accumulator. -/
  | vSad (f : LaneFields)
  /-- V_FADD (R101): Lane floating-point add, correctly rounded. -/
  | vFadd (f : LaneFields)
  /-- V_FSUB (R101): Lane floating-point subtract. -/
  | vFsub (f : LaneFields)
  /-- V_FMUL (R101): Lane floating-point multiply. -/
  | vFmul (f : LaneFields)
  /-- V_FMA (R101): Lane fused multiply-add with one rounding. -/
  | vFma (f : LaneFields)
  /-- V_FMS (R101): Lane fused multiply-subtract with one rounding. -/
  | vFms (f : LaneFields)
  /-- V_FMIN (R105): Lane floating-point minimum, unrounded. -/
  | vFmin (f : LaneFields)
  /-- V_FMAX (R105): Lane floating-point maximum, unrounded. -/
  | vFmax (f : LaneFields)
  /-- V_FRCP (R101): Lane correctly rounded reciprocal. -/
  | vFrcp (f : LaneFields)
  /-- V_FRSQ (R101): Lane correctly rounded reciprocal square root. -/
  | vFrsq (f : LaneFields)
  /-- V_FSQRT (R101): Lane correctly rounded square root. -/
  | vFsqrt (f : LaneFields)
  /-- V_FEXP2 (R101): Lane correctly rounded 2^a. -/
  | vFexp2 (f : LaneFields)
  /-- V_FLOG2 (R101): Lane correctly rounded log2 a. -/
  | vFlog2 (f : LaneFields)
  /-- V_FSIN (R101): Lane correctly rounded sin(pi a). -/
  | vFsin (f : LaneFields)
  /-- V_FCOS (R101): Lane correctly rounded cos(pi a). -/
  | vFcos (f : LaneFields)
  /-- V_FDIVS (R101): Lane correctly rounded division. -/
  | vFdivs (f : LaneFields)
  /-- V_FFLOOR (R103): Lane round toward minus infinity to an integral value. -/
  | vFfloor (f : LaneFields)
  /-- V_FCEIL (R103): Lane round toward plus infinity to an integral value. -/
  | vFceil (f : LaneFields)
  /-- V_FTRUNC (R103): Lane round toward zero to an integral value. -/
  | vFtrunc (f : LaneFields)
  /-- V_FROUND (R103): Lane round to nearest even integral value. -/
  | vFround (f : LaneFields)
  /-- V_FCLASS (R104): Lane one-hot class of a floating-point value. -/
  | vFclass (f : LaneFields)
  /-- V_FSCALE (R101): Lane a times 2^b, b read as i32. -/
  | vFscale (f : LaneFields)
  /-- V_FFRAC (R101): Lane a minus floor(a), rounded. -/
  | vFfrac (f : LaneFields)
  /-- V_CMP (R106): Lane integer compare into a predicate. -/
  | vCmp (f : LaneFields)
  /-- V_FCMP (R106): Lane floating-point compare into a predicate. -/
  | vFcmp (f : LaneFields)
  /-- V_SEL (R107): Lane select by a predicate. -/
  | vSel (f : LaneFields)
  /-- V_PAND (R108): Lane predicate AND. -/
  | vPand (f : LaneFields)
  /-- V_POR (R108): Lane predicate OR. -/
  | vPor (f : LaneFields)
  /-- V_PXOR (R108): Lane predicate XOR. -/
  | vPxor (f : LaneFields)
  /-- V_PNOT (R108): Lane predicate NOT. -/
  | vPnot (f : LaneFields)
  /-- V_PMOV (R108): Sets a predicate to whether a value is non-zero (form 0). -/
  | vPmov (f : LaneFields)
  /-- V_PMOV_TO_VECTOR (R108): Writes a predicate bit zero-extended into a vector (form 1). -/
  | vPmovToVector (f : LaneFields)
  /-- V_PMOV_PRED_COPY (R108): Copies one predicate to another (form 2). -/
  | vPmovPredCopy (f : LaneFields)
  /-- V_MOV (R107): Lane move, broadcasting scalar or immediate sources. -/
  | vMov (f : LaneFields)
  /-- V_MOVS_FIRST (R110): Writes the lowest active lane's value to a scalar register. -/
  | vMovsFirst (f : LaneFields)
  /-- V_MOVS_LAST (R110): Writes the highest active lane's value to a scalar register. -/
  | vMovsLast (f : LaneFields)
  /-- V_MOVS_AT (R110): Writes lane (b mod 96)'s value to a scalar register. -/
  | vMovsAt (f : LaneFields)
  /-- V_BALLOT (R110): Writes 32 lanes' active-and-predicate bits to a scalar register. -/
  | vBallot (f : LaneFields)
  /-- V_CVT (R143): Converts between element TYPEs. -/
  | vCvt (f : LaneFields)
  /-- V_PACK (R145): Packs codes of a register quad into one element. -/
  | vPack (f : LaneFields)
  /-- V_UNPACK (R145): Unpacks one element into a register quad of codes. -/
  | vUnpack (f : LaneFields)
  /-- V_BSCALE (R146): Computes an E8M0 scale code per block of lanes. -/
  | vBscale (f : LaneFields)
  /-- V_QNT (R147): Quantises a value into a narrow code under a scale. -/
  | vQnt (f : LaneFields)
  /-- V_DQNT (R148): Dequantises a narrow code under a scale. -/
  | vDqnt (f : LaneFields)
  /-- V_QERR (R149): Quantises with error feedback, updating the error register. -/
  | vQerr (f : LaneFields)
  /-- V_HROT (R150): Seeded Hadamard rotation of a register quad. -/
  | vHrot (f : LaneFields)
  /-- V_OSPLIT (R152): Splits outlier channels and writes a team map slot. -/
  | vOsplit (f : LaneFields)
  /-- V_RAND (R154): Writes a draw word per active lane. -/
  | vRand (f : LaneFields)
  /-- V_QSWAP (R119): Swaps values within each quad. -/
  | vQswap (f : LaneFields)
  /-- V_QBCAST (R119): Broadcasts one lane of each quad. -/
  | vQbcast (f : LaneFields)
  /-- V_QRED (R121): Reduces the four values of each quad. -/
  | vQred (f : LaneFields)
  /-- V_SHFL (R122): Reads a value from a lane chosen per lane. -/
  | vShfl (f : LaneFields)
  /-- V_PUSH (R123): Sends values to destination lanes chosen by senders. -/
  | vPush (f : LaneFields)
  /-- V_BCAST (R124): Broadcasts lane (b mod 96) to all active lanes. -/
  | vBcast (f : LaneFields)
  /-- V_RED (R125): Reduces over active lanes by a fixed tree. -/
  | vRed (f : LaneFields)
  /-- V_SCAN (R126): Inclusive or exclusive scan over active lanes. -/
  | vScan (f : LaneFields)
  /-- V_MATCH (R127): Groups active lanes by key, writing leader or count. -/
  | vMatch (f : LaneFields)
  /-- V_VOTE (R128): Votes any, all or uniform over a predicate. -/
  | vVote (f : LaneFields)
  /-- V_LD (R179): Lane load from global virtual addresses. -/
  | vLd (f : LaneFields)
  /-- V_ST (R179): Lane store to global virtual addresses. -/
  | vSt (f : LaneFields)
  /-- V_LDS (R179): Lane load from scratchpad addresses. -/
  | vLds (f : LaneFields)
  /-- V_STS (R179): Lane store to scratchpad addresses. -/
  | vSts (f : LaneFields)
  /-- V_LDFE (R176): Scratchpad load that waits for full granules and optionally empties them. -/
  | vLdfe (f : LaneFields)
  /-- V_STFE (R180): Scratchpad store that sets granules full. -/
  | vStfe (f : LaneFields)
  /-- V_ATOM (R181): Per-lane atomic read-modify-write at the home, no return. -/
  | vAtom (f : LaneFields)
  /-- V_ATOMR (R181): Per-lane atomic returning the old value. -/
  | vAtomr (f : LaneFields)
  /-- V_BADD (R182): Sends one bank add per lane to HBM4E bank-add units. -/
  | vBadd (f : LaneFields)
  /-- V_AMM (R256): Enters charge-array passes of a tile into the matrix stream. -/
  | vAmm (f : LaneFields)
  /-- V_AMW (R261): Writes one weight column of a tile into bit-planes. -/
  | vAmw (f : LaneFields)
  /-- V_ACCMOV (R263): Moves an accumulator row into a vector register. -/
  | vAccmov (f : LaneFields)
  /-- V_ACCLD (R263): Loads an accumulator row from a vector register. -/
  | vAccld (f : LaneFields)
  /-- V_ACCCLR (R263): Clears N accumulators to +0. -/
  | vAccclr (f : LaneFields)
  /-- V_ACCSCL (R263): Scales an accumulator by row and column E8M0 scales. -/
  | vAccscl (f : LaneFields)
  /-- V_MMA (R268): Enters a digital matrix multiply-accumulate into the matrix stream. -/
  | vMma (f : LaneFields)
  /-- V_MMAC (R269): Enters a complex bf16 matrix multiply-accumulate. -/
  | vMmac (f : LaneFields)
  /-- FUSED_RUN (R112): Issues two or three fusible lane words as one operation at one turn. -/
  | fusedRun (n : Nat)
  /-- LANE_RESULT_WRITEBACK (R116): A long-latency lane result lands and frees waiting collectors. -/
  | laneResultWriteback (t g : Nat)
  /-- WAIT_COMPLETE (R71): A waiting scalar word resumes once its awaited condition or answer arrives. -/
  | waitComplete (t g : Nat)
  /-- AWAIT_POLL (R206): Periodic re-read of an await's memory word. -/
  | awaitPoll (t g : Nat)
  /-- MEMORY_RESPONSE (R167): A superblock request's response or acknowledgement arrives, freeing its miss entry. -/
  | memoryResponse (t g : Nat)
  /-- REQUEST_REPRESENT (R167): A rejected request is presented again at a later turn. -/
  | requestRepresent (t g : Nat)
  /-- PAGE_WALK (R160): A page walk completes and fills the TLBs. -/
  | pageWalk (die core : Nat) (asid : BitVec 16) (va : DWord)
  /-- HOME_SLICE_REQUEST (R172): A request reaches its home slice and is served, forwarded or parked. -/
  | homeSliceRequest (t g : Nat)
  /-- FABRIC_MESSAGE_RECEIVE (R381): A fabric message arrives and is dropped and counted if stale. -/
  | fabricMessageReceive (receiver sender : Nat) (gen : BitVec 4) (response : Bool)
  /-- COPY_ENTRY_START (R215): A copy entry starts once earlier entries of its queue complete. -/
  | copyEntryStart (q : QueueId)
  /-- COPY_STEP (R216): The engine moves one 256-byte step of a copy. -/
  | copyStep (q : QueueId)
  /-- COPY_COMPLETE (R226): A copy completes and adds its flag. -/
  | copyComplete (q : QueueId)
  /-- ARRAY_MODE_SWITCH_COMPLETE (R248): An array finishes switching mode after its barrier and settle time. -/
  | arrayModeSwitchComplete (t arr : Nat)
  /-- ARRAY_PASS_START (R238): A charge-array pass starts when its array is free. -/
  | arrayPassStart (t g : Nat)
  /-- ARRAY_PASS_COMPLETE (R258): A pass ends and its tail accumulates into the accumulator. -/
  | arrayPassComplete (t g : Nat)
  /-- DIGITAL_MATRIX_START (R265): The digital matrix path starts a ready stream entry. -/
  | digitalMatrixStart (t g : Nat)
  /-- DIGITAL_MATRIX_COMPLETE (R278): A digital matrix result lands in its C registers. -/
  | digitalMatrixComplete (t g : Nat)
  /-- ACC_ENTRY_PERFORM (R263): An accumulator-word stream entry takes effect. -/
  | accEntryPerform (t g : Nat)
  /-- STACK_BLOCK_START (R342): A command block starts as a stack-stream entry. -/
  | stackBlockStart (id : Nat)
  /-- SCAN (R336): Stack command that scans a region and writes selected entries. -/
  | scan (id : Nat)
  /-- ADDV (R337): Stack command that sends vector bank adds. -/
  | addv (id : Nat)
  /-- FLUSH (R338): Stack command that applies all accepted adds of the ASID at every unit. -/
  | flush (id : Nat)
  /-- MODE (R338): Stack command that sets deterministic mode of the ASID on every unit. -/
  | mode (id : Nat)
  /-- STACK_BLOCK_COMPLETE (R342): A block's last command ends and its flag add is performed. -/
  | stackBlockComplete (id : Nat)
  /-- BANK_ADD_ACCEPT (R330): A bank-add unit accepts an add, buffering it in deterministic mode. -/
  | bankAddAccept (k : Nat)
  /-- BANK_ADD_APPLY (R330): A unit applies an accepted add as one atomic read-modify-write. -/
  | bankAddApply (k : Nat)
  /-- CONTRIBUTION_ARRIVAL (R313): A put's data is accepted by its hub node and classed on time, late or dropped. -/
  | contributionArrival (id : Nat)
  /-- DEADLINE_EXPIRY (R314): At Td nodes forward their sums and the root forms the early result. -/
  | deadlineExpiry (launch obj : Nat)
  /-- CORRECTION_WINDOW_END (R314): At Td + corr the root forms the corrected result. -/
  | correctionWindowEnd (launch obj : Nat)
  /-- PEER_CONTRIBUTION (R325): A peer part's contribution frame reaches the deciding root. -/
  | peerContribution (launch obj idx : Nat) (frame : PeerFrame)
  /-- PEER_RESULT (R325): Results from the deciding root arrive at another part of the peer set. -/
  | peerResult (launch obj : Nat) (corr : Bool) (head : PeerHead) (r : List Word) (m : DWord)
  /-- HOST_RECORD_SUBMIT (R286): A whole aligned host write to a record window slot submits a launch record. -/
  | hostRecordSubmit (offset : Nat) (bytes : List Byte)
  /-- RECORD_DATAGRAM (R285): A UDP datagram of launch records arrives on an enabled port. -/
  | recordDatagram (port udpPort : Nat) (payload : List Byte)
  /-- FRONT_STORE_RESERVE (R299): A front launch reserves L front-store entries once a die has room. -/
  | frontStoreReserve (launch : Nat)
  /-- TEAM_PLACEMENT (R294): A die places a new team on a core with room and starts its groups. -/
  | teamPlacement (launch die core : Nat)
  /-- FRONT_POINT_FIRE (R301): A front point fires once its predecessors are complete. -/
  | frontPointFire (launch line inner : Nat)
  /-- TEAM_END (R365): After the last group exits the team drains copies, leaves its cell and writes back. -/
  | teamEnd (t : Nat)
  /-- LAUNCH_COMPLETION (R290): A launch completes and the dispatcher adds its done word. -/
  | launchCompletion (launch : Nat)
  /-- HANDOFF (R291): The dispatcher performs the handoff table's copies. -/
  | handoff (launch : Nat)
  /-- SUCCESSOR_RELEASE (R292): The successor record is read, checked and entered in its class. -/
  | successorRelease (launch : Nat)
  /-- ENERGY_WINDOW (R295): A 100 us window starts with a new energy budget per die. -/
  | energyWindow (die budget : Nat)
  /-- PREEMPTION_WAIT_EXPIRY (R297): A launch's 100 us wait for room expires and lower-priority teams are pre-empted. -/
  | preemptionWaitExpiry (launch die : Nat)
  /-- TEAM_SAVE (R367): A stopped team's save begins once its entries drain, writing the area and freeing resources. -/
  | teamSave (t : Nat)
  /-- DRAIN_TIMEOUT (R368): A draining team that has not ended within 200 us is stopped and saved. -/
  | drainTimeout (t : Nat)
  /-- LULL_THRESHOLD_EXPIRY (R209): A group's wait at a lull point exceeds its ctl.lull threshold. -/
  | lullThresholdExpiry (t g : Nat)
  /-- LULL_ENTRY (R210): A team whose groups all wait beyond threshold is swapped into a lull. -/
  | lullEntry (t : Nat)
  /-- THAW (R212): A lulled team becomes thawing when an awaited condition holds and moves ahead in placement. -/
  | thaw (t : Nat)
  /-- TEAM_RESTORE (R377): A saved or thawing team is restored onto a core of its die and resumes. -/
  | teamRestore (t core : Nat)
  /-- WATCHDOG_EXPIRY (R378): A team's hang watchdog expires and writes a class 10 record. -/
  | watchdogExpiry (t : Nat)
  /-- HOST_RESUME (R362): Host action resuming a frozen team or restoring a saved launch. -/
  | hostResume (launch : Nat) (team : TeamName)
  /-- HOST_SAVE (R362): Host action saving a frozen team into the pool. -/
  | hostSave (launch : Nat) (team : TeamName)
  /-- HOST_DISCARD (R362): Host action ending a team without write-back. -/
  | hostDiscard (launch : Nat) (team : TeamName)
  /-- HOST_CANCEL_LAUNCH (R362): Host action discarding every team of a launch. -/
  | hostCancelLaunch (launch : Nat)
  /-- HOST_RETRY (R379): Host action continuing a save stopped by the watchdog. -/
  | hostRetry (launch : Nat) (team : TeamName)
  /-- HOST_DUMP (R379): Host action writing a stopped save whole at a host-named address. -/
  | hostDump (launch : Nat) (team : TeamName)
  /-- HOST_PREEMPT (R388): Host action pre-empting a team or saving a whole launch. -/
  | hostPreempt (launch : Nat) (team : TeamName) (expert : Bool) (mode : BitVec 2)
  /-- HOST_RESTORE (R362): Host action restoring a pool-saved frozen team, still frozen. -/
  | hostRestore (launch : Nat) (team : TeamName)
  /-- INVAL (R387): Host invalidation of a page or ASID mapping, ending once old uses are performed. -/
  | inval (w : DWord)
  /-- CLOCK_PIN_WRITE (R295): Host pins die clocks, held until calibration for uncalibrated dies. -/
  | clockPinWrite (w : DWord)
  /-- ASID_ENTRY_COMMIT (R417): Write of an ASID entry's commit word checks and puts the held entry in force. -/
  | asidEntryCommit (slot : Nat) (w : DWord)
  /-- CLASS_ENTRY_COMMIT (R417): Write of a class entry's commit word checks and puts the held entry in force. -/
  | classEntryCommit (slot : Nat) (w : DWord)
  /-- FAULT_QUEUE_CONSUMER_WRITE (R386): Host write of fqc acts at once and may clear fqd. -/
  | faultQueueConsumerWrite (slot : Nat) (w : DWord)
  /-- CONTROL_PAGE_WRITE (R385): Host write to a control page word without behaviour of its own. -/
  | controlPageWrite (off : Nat) (w : DWord)
  /-- DIE_RESET (R380): Host resets one of dies 0-7 alone, discarding its teams and raising its generation. -/
  | dieReset (die : Nat)
  /-- P_DIE_RESET (R382): Host resets die 8 alone, ending every launch and clearing the control page. -/
  | pDieReset
  /-- GATE_CORE (R392): Power request to gate a core, granted only on an idle core. -/
  | gateCore (core : Nat)
  /-- UNGATE_CORE (R385): Power request to ungate a core. -/
  | ungateCore (core : Nat)
  /-- CHANNEL_DOWN (R345): Request to power down a stack channel, deferred while adds or scans are pending. -/
  | channelDown (ch : Nat)
  /-- SELF_REFRESH (R345): Request to place a channel in self-refresh, deferred likewise. -/
  | selfRefresh (ch : Nat)
  /-- CHANNEL_UP (R385): Request to return a channel to service. -/
  | channelUp (ch : Nat)
  /-- CHANNEL_REQUEST_GRANT (R345): A deferred channel request is granted once nothing pending remains. -/
  | channelRequestGrant (ch : Nat)
  /-- CHANNEL_REQUEST_REFUSE (R345): A channel request still deferred after 1 ms is refused and reported. -/
  | channelRequestRefuse (ch : Nat)
  /-- HOST_MEM_WRITE (R418): Host CXL.mem write to device memory, refused on a partially covered poisoned line. -/
  | hostMemWrite (pa : Nat) (bytes : List Byte)
  /-- HOST_MEM_READ (R418): Host CXL.mem read of device memory, returning poison where present. -/
  | hostMemRead (pa n : Nat)
  /-- FULL_RESET (R391): Full reset of the part into reduced service at 350 MHz. -/
  | fullReset
  /-- MEMORY_TRAINED (R391): Memory training finishes and status bit 8 is set. -/
  | memoryTrained
  /-- DIE_CALIBRATED (R391): A die finishes array calibration and rises to its clock, or fails and is reported. -/
  | dieCalibrated (die : Nat) (passed : Bool)
  /-- SECURITY_BOOT (R394): The security controller verifies and measures firmware, setting status bit 9. -/
  | securityBoot (images : List FwImage)
  /-- ATTESTATION_REQUEST (R394): An SPDM 1.2 request over CXL.io answered with signed measurements. -/
  | attestationRequest (request : List Byte)
  /-- NOISE_HEALTH_FAILURE (R393): A noise source health test fails, setting status bit 10 and reporting the core. -/
  | noiseHealthFailure (core : Nat)
  /-- UNIT_TEST_FAILURE (R13): A unit fails its tests in service and is reported to the host. -/
  | unitTestFailure (unit : Nat)
  /-- ILLEGAL_ENCODING_SCALAR_WORD (R57): A fetched scalar word with an unassigned OP, FN, SUB or COND, or a non-zero unused field, raises the illegal-encoding trap precise at the word. -/
  | illegalEncodingScalarWord (w : Word)
  /-- ILLEGAL_ENCODING_LANE_WORD (R57): A released lane word with an unassigned OPC reaches its fault point and raises the illegal-encoding trap at its releasing vrun. -/
  | illegalEncodingLaneWord (w : LaneBits)
  /-- INSTRUCTION_FETCH_FAULT (R32): A scalar or lane fetch at or beyond the section length, or from a page that does not translate, raises the protection or translation fault. -/
  | instructionFetchFault (f : FetchFault)
  /-- UNCORRECTABLE_MEMORY_ERROR (R30): A soft error in DRAM or a cache is corrected where the code allows, or else poisons the data and is reported. -/
  | uncorrectableMemoryError (pa : Nat) (correctable : Bool)
  /-- CHECKPOINT (R390): A checkpoint copies all device memory to a host-side safe tier over CXL and the Ethernet ports while launches keep running. -/
  | checkpoint (ports : Bool)
deriving DecidableEq, Repr

end Sys2Proof
end

