-- ==== Sys2Proof/Machine/Forms.lean ====
section
/-! DEFINITION. The field rules of the two kinds of instruction word, from the bits: which fields of a word break a
rule (R34 to R58), in the field order of R34 and R42, with the group's register budgets. -/
namespace Sys2Proof

/-- Bits [lo+len-1 : lo] of a natural number (R2). -/
def bits (w lo len : Nat) : Nat := w / 2 ^ lo % 2 ^ len

/-- The rounded register budgets of a group (R26). -/
structure Budget where
  v : Nat
  s : Nat
  t : Nat
  a : Nat
deriving DecidableEq, Repr

/-- The budgets that rule out no register of a class: legality that does not depend on the group. -/
def Budget.full : Budget := ⟨256, 56, 16, 8⟩

/-- A scalar register is within the budget: s0, s1 to budget - 1, and the fixed s56 to s63 (R26). -/
def Budget.sOk (b : Budget) (i : Nat) : Bool := i = 0 || decide (i < b.s) || (decide (56 ≤ i) && decide (i < 64))

/-- n vector registers from i lie within the budget. -/
def Budget.vOk (b : Budget) (i n : Nat) : Bool := decide (i + n ≤ b.v)

/-- The first field, in the order of the list, that a broken rule names; its lowest bit position (R58). -/
def firstBad (l : List (Nat × Bool)) : Option Nat := (l.find? (·.2)).map (·.1)

/-! ## Element types -/

/-- TYPE codes (R49); 13 to 15 are reserved. -/
def ElemType.ofCode (n : Nat) : Option ElemType :=
  match n with
  | 0 => some .i8 | 1 => some .i16 | 2 => some .i32 | 3 => some .i64
  | 4 => some .n8 | 5 => some .n16 | 6 => some .n32 | 7 => some .n64
  | 8 => some .f32 | 9 => some .f16 | 10 => some .bf16 | 11 => some .narrow | 12 => some .b32
  | _ => none

/-- The TYPE code of an element type (R49). -/
def ElemType.code : ElemType → Nat
  | .i8 => 0 | .i16 => 1 | .i32 => 2 | .i64 => 3 | .n8 => 4 | .n16 => 5 | .n32 => 6 | .n64 => 7
  | .f32 => 8 | .f16 => 9 | .bf16 => 10 | .narrow => 11 | .b32 => 12

/-- The pair TYPEs 3 and 7 (R44). -/
def ElemType.isPair : ElemType → Bool
  | .i64 | .n64 => true
  | _ => false

/-- "int" in the tables of R99: TYPEs 0, 1, 2, 4, 5, 6. -/
def ElemType.isInt : ElemType → Bool
  | .i8 | .i16 | .i32 | .n8 | .n16 | .n32 => true
  | _ => false

/-- The floating-point TYPEs 8, 9, 10 (R96). -/
def ElemType.isFloat : ElemType → Bool
  | .f32 | .f16 | .bf16 => true
  | _ => false

/-- Element width (R94); TYPE 11 has none of its own. -/
def ElemType.width : ElemType → Nat
  | .i8 | .n8 => 8
  | .i16 | .n16 | .f16 | .bf16 => 16
  | .i64 | .n64 => 64
  | _ => 32

/-- TYPEs read as signed integers (R94). -/
def ElemType.isSigned : ElemType → Bool
  | .i8 | .i16 | .i32 | .i64 => true
  | _ => false

/-! ## Lane words -/

/-- The bit fields of a lane word as numbers (R42). -/
structure Raw where
  opc : Nat
  ga : Nat
  gan : Nat
  gb : Nat
  gbn : Nat
  d : Nat
  a : Nat
  b : Nat
  c : Nat
  e : Nat
  wbs : Nat
  lat : Nat
  type : Nat
  func : Nat
  hint : Nat
  stall : Nat
  yld : Nat
  rnd : Nat
  sat : Nat
  resv : Nat
deriving DecidableEq, Repr

/-- The fields of R42 of a 96-bit word. -/
def Raw.ofBits (w : LaneBits) : Raw :=
  let n := w.toNat
  { opc := bits n 88 8, ga := bits n 84 4, gan := bits n 83 1, gb := bits n 79 4, gbn := bits n 78 1,
    d := bits n 68 10, a := bits n 58 10, b := bits n 48 10, c := bits n 38 10, e := bits n 28 10,
    wbs := bits n 27 1, lat := bits n 25 2, type := bits n 21 4, func := bits n 13 8, hint := bits n 11 2,
    stall := bits n 8 3, yld := bits n 7 1, rnd := bits n 5 2, sat := bits n 4 1, resv := bits n 0 4 }

/-- What a source field may be, beyond the checks every source field has. -/
inductive SrcRule where
  | zero                       -- the opcode does not read the field: 0x000
  | any (t : ElemType)         -- any source read under t (R44-R46)
  | noSpecial (t : ElemType)   -- no special operand
  | scalarOrImm                -- class 01 or an immediate
  | vec (n align : Nat)        -- n vector registers, the first a multiple of align (R142)
  | globalBase                 -- a scalar, or an even vector pair (R177)
  | scalar                     -- class 01
  | tile                       -- 0x300 + K, K within the tile budget (R256, R261)
  | accum                      -- 0x300 + A, A within the accumulator budget (R262)
  | immRow                     -- 0x300 to 0x307 (R262)
  | fmtBlock                   -- scalar sE, E = 1 to 61, with sE+1 and sE+2 (R256, R268)
deriving DecidableEq, Repr

/-- A source field obeys its rule (R44-R46, R57). -/
def srcOk (bud : Budget) (x : Nat) (r : SrcRule) : Bool :=
  let cls := x / 256
  let idx := x % 256
  let sreg : Bool := cls = 1 && decide (idx < 64) && bud.sOk idx
  let vreg (t : ElemType) : Bool :=
    cls = 0 && (if t.isPair then idx % 2 = 0 && bud.vOk idx 2 else bud.vOk idx 1)
  let latch (t : ElemType) : Bool := cls = 2 && decide (1 ≤ idx) && decide (idx ≤ 3) && !t.isPair
  let imm : Bool := cls = 3 && decide (idx < 128)
  let special : Bool := cls = 3 && decide (128 ≤ idx) && decide (idx < 138)
  match r with
  | .zero => x = 0
  | .any t => vreg t || sreg || latch t || (imm && t != .narrow) ||
      (special && (t.isInt || t.isPair || t == .b32))
  | .noSpecial t => vreg t || sreg || latch t || (imm && t != .narrow)
  | .scalarOrImm => sreg || imm
  | .vec n al => cls = 0 && idx % al = 0 && bud.vOk idx n
  | .globalBase => sreg || (cls = 0 && idx % 2 = 0 && bud.vOk idx 2)
  | .scalar => sreg
  | .tile => cls = 3 && decide (idx < 16) && decide (idx < bud.t)
  | .accum => cls = 3 && decide (idx < 8) && decide (idx < bud.a)
  | .immRow => cls = 3 && decide (idx < 8)
  | .fmtBlock => cls = 1 && decide (1 ≤ idx) && decide (idx ≤ 61) && bud.sOk idx && bud.sOk (idx + 1) && bud.sOk (idx + 2)

/-- What the D field may be (R47). -/
inductive DstRule where
  | zero                    -- 0x000
  | vec (n align : Nat)     -- n vector registers, the first a multiple of align; no WBS or LAT
  | vecT (t : ElemType)     -- a vector written under t, with WBS and LAT as R48
  | vecTx4 (t : ElemType)   -- an x4 load under t: a register quad with WBS and LAT as R48 (R179)
  | pred
  | scalar
  | vecOrScalar (t : ElemType)
  | predOrScalar
  | accum (n : Nat)         -- accumulators D to D + n - 1 of 8, within the budget
deriving DecidableEq, Repr

/-- A scalar register a lane word may write: s1 to s55 and s59 to s63 (R47). -/
def dstScalarOk (bud : Budget) (x : Nat) : Bool :=
  x / 256 = 1 && decide (1 ≤ x % 256) && decide (x % 256 < 64) &&
    !(decide (56 ≤ x % 256) && decide (x % 256 ≤ 58)) && bud.sOk (x % 256)

/-- The D field obeys its rule, WBS and LAT included where a rule ties them to D (R47, R48, R58): WBS = 1 with a LAT asks for
D = 0x000 also on a word that may not have them. -/
def dstOk (bud : Budget) (r : Raw) (rule : DstRule) : Bool :=
  let x := r.d
  let cls := x / 256
  let idx := x % 256
  let latchOnly : Bool := r.wbs = 1 && r.lat ≠ 0
  let noLatch : Bool := r.wbs = 0 && r.lat = 0
  let vecT (t : ElemType) : Bool :=
    if latchOnly then x = 0
    else if t.isPair then cls = 0 && idx % 2 = 0 && bud.vOk idx 2
    else cls = 0 && bud.vOk idx 1
  match rule with
  | .zero => x = 0
  | .vec n al => if latchOnly then x = 0 else cls = 0 && idx % al = 0 && bud.vOk idx n
  | .vecT t => vecT t
  | .vecTx4 _ => if latchOnly then x = 0 else cls = 0 && idx % 4 = 0 && bud.vOk idx 4
  | .pred => cls = 2 && decide (idx < 12) && noLatch
  | .scalar => dstScalarOk bud x && noLatch
  | .vecOrScalar t => vecT t || (dstScalarOk bud x && noLatch)
  | .predOrScalar => (cls = 2 && decide (idx < 12) && noLatch) || (dstScalarOk bud x && noLatch)
  | .accum n => cls = 3 && decide (idx + n ≤ 8) && decide (idx + n ≤ bud.a) && noLatch

/-- WBS and LAT may be set on this word at all (R48). On a word that writes several vector registers they may not: R145 and
R150 say so of `v.unpack` and `v.hrot`; of `v.osplit`, whose quad is written under TYPE 8, R152 says nothing, and that they may
not is a DESIGN CHOICE (log 53). -/
def DstRule.latches : DstRule → Bool
  | .vecT t | .vecTx4 t | .vecOrScalar t => !t.isPair
  | .pred | .scalar | .predOrScalar | .accum _ => true   -- misuse fails as D, the first field of the rule (R58)
  | _ => false

/-- The rules of one opcode under the word's own TYPE and FUNC. -/
structure Form where
  guards : Bool := true
  d : DstRule
  a : SrcRule := .zero
  b : SrcRule := .zero
  c : SrcRule := .zero
  e : SrcRule := .zero
  typeOk : Bool
  funcOk : Bool := true
  hintOk : Bool := false
  rndOk : Bool := false
  satOk : Bool := false
  /-- C must differ from D (R149). -/
  cNeD : Bool := false
  /-- Whether RND or SAT may be set depends on TYPE: a misuse fails as TYPE too (R58). -/
  tieType : Bool := false
  /-- Whether RND or SAT may be set depends on FUNC: a misuse fails as FUNC too (R58). -/
  tieFunc : Bool := false
deriving DecidableEq, Repr

/-- The element formats a narrow word may name in FUNC[5:0] (R50, R142). -/
def narrowCodeOk (c : Nat) : Bool :=
  (decide (1 ≤ c) && decide (c ≤ 7)) || (decide (9 ≤ c) && decide (c ≤ 15)) ||
  (decide (17 ≤ c) && decide (c ≤ 23)) || (decide (25 ≤ c) && decide (c ≤ 31)) ||
  (decide (33 ≤ c) && decide (c ≤ 35)) || (decide (41 ≤ c) && decide (c ≤ 43)) ||
  c = 57 || c = 58 || c = 59

/-- The combine operations of R120 and the TYPEs each accepts. -/
def combineOk (op : Nat) (t : ElemType) : Bool :=
  if op ≤ 2 then t.isInt || t.isPair
  else if op ≤ 5 then t.isInt || t.isPair || t == .b32
  else if 8 ≤ op && op ≤ 10 then t.isFloat
  else false

/-- The operation codes that R120 assigns. -/
def combineAssigned (op : Nat) : Bool := decide (op ≤ 5) || (decide (8 ≤ op) && decide (op ≤ 10))

/-- The TYPE rule of the combining words: an assigned operation accepts it, or, under an unassigned operation, which
fails as FUNC alone, some operation does (R58, R120). -/
def combineTypeOk (op : Nat) (t : ElemType) : Bool :=
  if combineAssigned op then combineOk op t else t != .narrow

/-- The atomic operations of R181 and the TYPEs each accepts. -/
def atomOk (op : Nat) (t : ElemType) (returning : Bool) : Bool :=
  let int : Bool := t == .i32 || t == .n32 || t.isPair
  if op = 0 || op = 4 || op = 5 then int
  else if op ≤ 3 then int || t == .b32
  else if op = 6 then int || t == .f32 || t == .b32
  else if op = 7 then returning && (int || t == .f32 || t == .b32)
  else if op ≤ 10 then t == .f32
  else false

/-- The TYPE rule of the atomic words: an assigned operation accepts it, or, under an unassigned operation, which fails
as FUNC alone, some operation does (R58, R181). -/
def atomTypeOk (op : Nat) (t : ElemType) (returning : Bool) : Bool :=
  if decide (op ≤ 10) && (returning || op ≠ 7) then atomOk op t returning
  else t == .i32 || t == .n32 || t.isPair || t == .f32 || t == .b32

/-- The rules of each opcode (R56 and the chapter of each class); none for an unassigned OPC. DESIGN CHOICE (log 53), where the
spec leaves open by which form a field is judged: A of `v.bscale` is a vector only; D of a `v.pmov` with FUNC[1:0] = 3 is judged
as a predicate; A of a `v.cvt` with source code 11 is judged under the narrow TYPE, which takes no immediate; B of a `v.mma` under
`.dup` with a TYPE other than 8 to 11 is judged over 48 registers, with an unassigned one, 13 to 15, over the 96 of `.f32`, as
which `laneFails` reads it. -/
def formOf (r : Raw) (t : ElemType) : Option Form :=
  let f := r.func
  let ip : Bool := t.isInt || t.isPair
  let ipb : Bool := ip || t == .b32
  let notNarrow : Bool := t != .narrow
  let k12 (lo : Nat) : Bool := decide (bits f lo 4 < 12)
  let alu2 (ok sat : Bool) : Option Form :=
    some { d := .vecT t, a := .any t, b := .any t, typeOk := ok, funcOk := f = 0, satOk := sat }
  let alu1 (ok sat : Bool) : Option Form :=
    some { d := .vecT t, a := .any t, typeOk := ok, funcOk := f = 0, satOk := sat }
  let f2 (rs : Bool) : Option Form :=
    some { d := .vecT t, a := .any t, b := .any t, typeOk := t.isFloat, funcOk := f = 0, rndOk := rs, satOk := rs }
  let f3 : Option Form :=
    some { d := .vecT t, a := .any t, b := .any t, c := .any t, typeOk := t.isFloat, funcOk := f = 0,
           rndOk := true, satOk := true }
  let f1 (rs : Bool) : Option Form :=
    some { d := .vecT t, a := .any t, typeOk := t.isFloat, funcOk := f = 0, rndOk := rs, satOk := rs }
  let predOp (funcOk : Bool) : Option Form := some { d := .pred, typeOk := t == .b32, funcOk := funcOk }
  match r.opc with
  | 0x01 | 0x02 | 0x03 => alu2 ip true
  | 0x04 => alu2 ip false
  | 0x05 => some { d := .vecT t, a := .any t, b := .any t, c := .any t, typeOk := t.isInt, funcOk := f = 0, satOk := true }
  | 0x06 | 0x07 =>
    some { d := .vecT t, a := .any t, b := .any t, typeOk := t == .n32, funcOk := k12 0 && bits f 4 4 = 0 }
  | 0x08 | 0x09 => alu2 ip false
  | 0x0A | 0x0B => alu1 t.isSigned true
  | 0x0C | 0x0D | 0x0E | 0x10 => alu2 ipb false
  | 0x0F => alu1 ipb false
  | 0x11 | 0x12 | 0x13 => alu2 ipb false
  | 0x14 => some { d := .vecT t, a := .any t, b := .any t, c := .any t, typeOk := t == .i32 || t == .n32, funcOk := f = 0 }
  | 0x15 =>
    some { d := .vecT t, a := .any t, b := .any t, c := .any t, e := .any t,
           typeOk := t == .i32 || t == .n32 || t == .b32, funcOk := f = 0 }
  | 0x16 | 0x17 | 0x18 => alu1 ipb false
  | 0x19 => some { d := .vecT t, a := .any t, b := .any t, c := .any t, typeOk := t.isInt, funcOk := f = 0, satOk := true }
  | 0x30 | 0x31 | 0x32 => f2 true
  | 0x33 | 0x34 => f3
  | 0x35 | 0x36 => f2 false
  | 0x37 | 0x38 | 0x39 | 0x3A | 0x3B | 0x3C | 0x3D => f1 true
  | 0x3E => f2 true
  | 0x3F | 0x40 | 0x41 | 0x42 | 0x43 => f1 false
  | 0x44 =>
    some { d := .vecT t, a := .any t, b := .any .i32, typeOk := t.isFloat, funcOk := f = 0, rndOk := true, satOk := true }
  | 0x45 => f1 true
  | 0x60 => some { d := .pred, a := .any t, b := .any t, typeOk := ip, funcOk := decide (f < 6) }
  | 0x61 => some { d := .pred, a := .any t, b := .any t, typeOk := t.isFloat, funcOk := decide (f < 8) }
  | 0x62 => some { d := .vecT t, a := .any t, b := .any t, typeOk := notNarrow, funcOk := k12 0 && bits f 5 3 = 0 }
  | 0x63 | 0x64 | 0x65 => predOp (k12 0 && k12 4)
  | 0x66 => predOp (k12 0 && bits f 4 4 = 0)
  | 0x67 =>
    match bits f 0 2 with
    | 0 => some { d := .pred, a := .any t, typeOk := t == .b32 || t == .i64, funcOk := f = 0 }
    | 1 => some { d := .vecT t, typeOk := t == .b32, funcOk := bits f 2 2 = 0 && k12 4 }
    | 2 => some { d := .pred, typeOk := t == .b32, funcOk := bits f 2 2 = 0 && k12 4 }
    | _ => some { d := .pred, a := .any t, typeOk := t == .b32 || t == .i64, funcOk := false }
  | 0x68 => alu1 notNarrow false
  | 0x69 =>
    some { d := .scalar, a := .any t, b := if bits f 0 2 = 2 then .scalarOrImm else .zero, typeOk := notNarrow,
           funcOk := decide (f < 3) }
  | 0x6A => some { d := .scalar, typeOk := t == .b32, funcOk := k12 0 && decide (bits f 4 2 < 3) && bits f 6 2 = 0 }
  | 0x70 =>
    match ElemType.ofCode (bits f 0 4) with
    | some s =>
      let sInt : Bool := s.isInt || s.isPair
      let tInt : Bool := t.isInt || t.isPair
      some { d := .vecT t, a := .any s, typeOk := t.isInt || t.isPair || t.isFloat,
             funcOk := bits f 4 4 = 0 && (sInt || s.isFloat),
             rndOk := !(sInt && tInt), satOk := !(s.isFloat && tInt), tieType := true, tieFunc := true }
    | none => some { d := .vecT t, a := .any .f32, typeOk := t.isInt || t.isPair || t.isFloat, funcOk := false }
  | 0x71 => some { d := .vecT t, a := .vec 4 4, typeOk := t == .b32, funcOk := decide (f < 3) }
  | 0x72 => some { d := .vec 4 4, a := .any t, typeOk := t == .b32, funcOk := decide (bits f 0 2 < 3) && bits f 3 5 = 0 }
  | 0x73 =>
    some { guards := false, d := .pred, a := if bits f 6 2 = 2 then .vec 2 2 else .vec 1 1, c := .vec 1 1,
           typeOk := t.isFloat, funcOk := decide (bits f 6 2 < 3) && narrowCodeOk (bits f 0 6) }
  | 0x74 | 0x75 =>
    some { d := .vecT t, a := .any t, b := .noSpecial .n32, typeOk := t.isFloat,
           funcOk := bits f 6 2 = 0 && narrowCodeOk (bits f 0 6), rndOk := true, satOk := true }
  | 0x76 =>
    some { d := .vecT t, a := .any t, b := .noSpecial .n32, c := .vec 1 1, typeOk := t == .f32,
           funcOk := bits f 6 2 = 0 && narrowCodeOk (bits f 0 6), rndOk := true, satOk := true, cNeD := true }
  | 0x77 =>
    some { guards := false, d := .vec 4 4, a := .vec 4 4, b := .scalarOrImm, typeOk := t == .f32,
           funcOk := decide (f < 2), rndOk := true, satOk := true }
  | 0x78 =>
    some { guards := false, d := .vec 4 4, a := .vec 4 4, b := .scalarOrImm, typeOk := t == .f32,
           funcOk := bits f 7 1 = 0 && k12 2 && (bits f 6 1 = 1 || bits f 2 4 = 0) }
  | 0x79 => some { d := .vecT t, typeOk := t == .b32 || t == .f32, funcOk := f = 0 }
  | 0x90 => some { d := .vecT t, a := .any t, typeOk := notNarrow, funcOk := decide (1 ≤ f) && decide (f < 4) }
  | 0x91 => some { d := .vecT t, a := .any t, typeOk := notNarrow, funcOk := decide (f < 4) }
  | 0x92 =>
    some { d := .vecT t, a := .any t, typeOk := combineTypeOk (bits f 0 4) t, funcOk := bits f 4 4 = 0 && combineOk (bits f 0 4) t,
           rndOk := bits f 0 4 = 8, satOk := bits f 0 4 = 0 || bits f 0 4 = 8, tieFunc := true }
  | 0x93 => some { d := .vecT t, a := .any t, b := .any .n32, typeOk := notNarrow, funcOk := decide (f < 4) }
  | 0x94 =>
    some { guards := false, d := .vecT t, a := .any t, b := .any .n32, typeOk := notNarrow,
           funcOk := bits f 5 3 = 0 && k12 0 && (bits f 4 1 = 1 || bits f 0 4 = 0) }
  | 0x95 => some { d := .vecT t, a := .any t, b := .scalarOrImm, typeOk := notNarrow, funcOk := f = 0 }
  | 0x96 =>
    some { guards := false, d := .vecOrScalar t, a := .any t, typeOk := combineTypeOk (bits f 0 4) t,
           funcOk := bits f 4 4 = 0 && combineOk (bits f 0 4) t, rndOk := bits f 0 4 = 8,
           satOk := bits f 0 4 = 0 || bits f 0 4 = 8, tieFunc := true }
  | 0x97 =>
    some { guards := false, d := .vecT t, a := .any t, typeOk := combineTypeOk (bits f 0 4) t,
           funcOk := bits f 5 3 = 0 && combineOk (bits f 0 4) t, rndOk := bits f 0 4 = 8,
           satOk := bits f 0 4 = 0 || bits f 0 4 = 8, tieFunc := true }
  | 0x98 =>
    some { guards := false, d := .vecT t, a := .any t, typeOk := notNarrow,
           funcOk := bits f 6 2 = 0 && k12 0 && (bits f 4 1 = 1 || bits f 0 4 = 0) }
  | 0x99 =>
    some { guards := false, d := .predOrScalar, typeOk := t == .b32, funcOk := k12 0 && decide (bits f 4 2 < 3) && bits f 6 2 = 0 }
  | 0xA0 | 0xA2 | 0xA1 | 0xA3 =>
    let global : Bool := r.opc = 0xA0 || r.opc = 0xA1
    let load : Bool := r.opc = 0xA0 || r.opc = 0xA2
    let x4 : Bool := bits f 3 1 = 1
    let w32 : Bool := t == .i32 || t == .n32 || t == .f32 || t == .b32
    some { d := if load then (if x4 then .vecTx4 t else .vecT t) else .zero,
           a := if global then .globalBase else .noSpecial .n32,
           b := .noSpecial .n32,
           c := if load then .zero
                else if x4 then .vec 4 4 else .noSpecial t,
           typeOk := notNarrow && (!x4 || w32),
           funcOk := (bits f 4 1 = 1 || bits f 5 3 = 0) && decide (bits f 5 3 < 6) && (!x4 || w32),
           hintOk := global }
  | 0xA4 | 0xA5 =>
    let load : Bool := r.opc = 0xA4
    let x4 : Bool := bits f 3 1 = 1
    let w32 : Bool := t == .i32 || t == .n32 || t == .f32 || t == .b32
    some { d := if load then (if x4 then .vecTx4 t else .vecT t) else .zero,
           a := .noSpecial .n32, b := .noSpecial .n32,
           c := if load then .zero else if x4 then .vec 4 4 else .noSpecial t,
           typeOk := w32, funcOk := bits f 5 3 = 0 && (load || bits f 4 1 = 0) }
  | 0xA6 | 0xA7 =>
    let ret : Bool := r.opc = 0xA7
    let op := bits f 0 4
    some { d := if ret then .vecT t else .zero, a := .globalBase, b := .noSpecial .n32, c := .noSpecial t,
           e := if op = 7 then .noSpecial t else .zero,
           typeOk := atomTypeOk op t ret, funcOk := atomOk op t ret && decide (bits f 5 3 < 6) }
  | 0xA8 =>
    some { d := .zero, a := .globalBase, b := .noSpecial .n32, c := .noSpecial t, typeOk := t == .i32 || t == .f32,
           funcOk := bits f 3 5 = 0 }
  | 0xC0 =>
    some { guards := false, d := .accum 1, a := .vec (bits f 0 3 + 1) 1, b := .tile, e := .fmtBlock,
           typeOk := t == .narrow, funcOk := bits f 5 3 = 0 }
  | 0xC1 => some { d := .zero, a := .vec 1 1, b := .tile, c := .scalarOrImm, typeOk := t == .b32, funcOk := f = 0 }
  | 0xC2 =>
    let rs : Bool := t == .f16 || t == .bf16
    some { d := .vecT t, a := .accum, b := .immRow, typeOk := t.isFloat, funcOk := f = 0, rndOk := rs, satOk := rs,
           tieType := true }
  | 0xC3 => some { d := .accum 1, a := .vec 1 1, b := .immRow, typeOk := t == .f32, funcOk := f = 0 }
  | 0xC4 => some { guards := false, d := .accum (bits f 0 3 + 1), typeOk := t == .f32, funcOk := bits f 3 5 = 0 }
  | 0xC5 => some { guards := false, d := .accum 1, a := .scalar, b := .vec 1 1, typeOk := t == .f32, funcOk := f = 0 }
  | 0xD0 =>
    let dup : Bool := bits f 1 1 = 1
    let k : Nat := if t == .narrow then 32 else if t == .f32 then 8 else 16
    some { guards := false, d := .vec 6 1, a := .vec 2 1, b := .vec (if dup then 2 * (384 / k) else 2) 1,
           e := if t == .narrow then .fmtBlock else .zero,
           typeOk := (t.isFloat || t == .narrow) && !(dup && t == .f32),
           funcOk := bits f 4 4 = 0 && (dup || bits f 2 2 = 0) && !(dup && t == .f32) }
  | 0xD1 =>
    some { guards := false, d := .vec 12 1, a := .vec 2 1, b := .vec 2 1, typeOk := t == .bf16, funcOk := bits f 3 5 = 0 }
  | _ => none

/-- The fields of a lane word that fail, in the order of R42 (R57, R58). Two points are a DESIGN CHOICE (log 53): WBS or LAT on
a word without a destination, such as a store or `v.amw`, fails as WBS or LAT and not as D; a `v.qerr` with WBS = 1, which
writes no register D, may name any C (R149). -/
def laneFails (bud : Budget) (r : Raw) : List (Nat × Bool) :=
  let gBad (g n : Nat) : Bool := (decide (12 ≤ g) && decide (g ≤ 14)) || (g = 15 && n = 1)
  let common (guards : Bool) : List (Nat × Bool) :=
    [(84, gBad r.ga r.gan || (!guards && r.ga ≠ 15)), (83, (r.ga = 15 || !guards) && r.gan = 1),
     (79, gBad r.gb r.gbn || (!guards && r.gb ≠ 15)), (78, (r.gb = 15 || !guards) && r.gbn = 1)]
  if r.opc = 0 then
    -- v.nop has one legal form (R55)
    common false ++ ([(68, r.d ≠ 0), (58, r.a ≠ 0), (48, r.b ≠ 0), (38, r.c ≠ 0), (28, r.e ≠ 0), (27, r.wbs ≠ 0),
      (25, r.lat ≠ 0), (21, r.type ≠ 0), (13, r.func ≠ 0), (11, r.hint ≠ 0), (5, r.rnd ≠ 0), (4, r.sat ≠ 0),
      (0, r.resv ≠ 0)] : List (Nat × Bool))
  else
    -- an unassigned TYPE, like an unassigned source code of `v.cvt`, takes no special constant, and fails itself below
    let t := (ElemType.ofCode r.type).getD .f32
    match formOf r t with
    | none => [(88, true)]
    | some f =>
      let latchMisuse : Bool := !f.d.latches
      let misuse : Bool := (r.rnd ≠ 0 && !f.rndOk) || (r.sat ≠ 0 && !f.satOk)
      common f.guards ++
      [(68, !dstOk bud r f.d || (f.cNeD && r.wbs = 0 && r.c = r.d)), (58, !srcOk bud r.a f.a), (48, !srcOk bud r.b f.b),
       (38, !srcOk bud r.c f.c || (f.cNeD && r.wbs = 0 && r.c = r.d)), (28, !srcOk bud r.e f.e),
       (27, r.wbs = 1 && (r.lat = 0 || latchMisuse)), (25, r.lat ≠ 0 && latchMisuse),
       (21, (ElemType.ofCode r.type).isNone || !f.typeOk || (f.tieType && misuse)),
       (13, !f.funcOk || (f.tieFunc && misuse)), (11, r.hint ≠ 0 && !f.hintOk),
       (5, r.rnd ≠ 0 && !f.rndOk), (4, r.sat ≠ 0 && !f.satOk), (0, r.resv ≠ 0)]

/-- The failing field of a lane word under a group's budgets, if any (R57, R58). -/
def laneIllegal (bud : Budget) (r : Raw) : Option Nat := firstBad (laneFails bud r)

/-! ## Scalar words -/

/-- The five formats of R34. -/
inductive SFormat where
  | sr | si | sb | sl | se
deriving DecidableEq, Repr

/-- The format of an operation code (R36); none for an unassigned OP and for the prefix. -/
def sformatOf (op : Nat) : Option SFormat :=
  if op = 0x01 || op = 0x02 || op = 0x14 || op = 0x1A || op = 0x1D || op = 0x25 || op = 0x30 || op = 0x36 ||
     op = 0x38 || op = 0x39 || op = 0x3B || op = 0x3C then some .sr
  else if (0x03 ≤ op && op ≤ 0x0C) || op = 0x18 || op = 0x19 || (0x20 ≤ op && op ≤ 0x24) then some .si
  else if op = 0x10 || op = 0x11 then some .sb
  else if op = 0x0D || op = 0x0E || op = 0x12 || op = 0x13 then some .sl
  else if op = 0x1B || op = 0x1C || (0x28 ≤ op && op ≤ 0x2E) || (0x31 ≤ op && op ≤ 0x35) || op = 0x37 ||
     op = 0x3A || op = 0x3D || op = 0x3E then some .se
  else none

/-- The value of an immediate field of `len` bits under the accepted prefixes, the earlier first (R39). -/
def extImm (len low : Nat) (pfx : List (BitVec 26)) : DWord :=
  match pfx with
  | [] => (BitVec.ofNat len low).signExtend 64
  | [p] => (BitVec.ofNat (len + 26) (p.toNat * 2 ^ len + low)).signExtend 64
  | p :: q :: _ => (BitVec.ofNat (len + 52) ((p.toNat * 2 ^ 26 + q.toNat) * 2 ^ len + low)).signExtend 64

/-- A control or status word's number (R355). -/
def Csr.number : Csr → Nat
  | .ctlRound => 0x000 | .ctlRpt => 0x001 | .ctlRng => 0x002 | .ctlLull => 0x003
  | .stFp => 0x010 | .stQ => 0x011 | .stFallback => 0x012 | .stStale => 0x013 | .clk => 0x020
  | .idGroup => 0x030 | .idTeam => 0x031 | .idCore => 0x032 | .idDie => 0x033 | .idLaunch => 0x034 | .idPoint => 0x035

/-- The word a number names (R355). -/
def Csr.ofNumber (n : Nat) : Option Csr :=
  match n with
  | 0x000 => some .ctlRound | 0x001 => some .ctlRpt | 0x002 => some .ctlRng | 0x003 => some .ctlLull
  | 0x010 => some .stFp | 0x011 => some .stQ | 0x012 => some .stFallback | 0x013 => some .stStale
  | 0x020 => some .clk
  | 0x030 => some .idGroup | 0x031 => some .idTeam | 0x032 => some .idCore | 0x033 => some .idDie
  | 0x034 => some .idLaunch | 0x035 => some .idPoint
  | _ => none

/-- The words `csrw` may write (R355). -/
def Csr.writable : Csr → Bool
  | .ctlRound | .ctlRpt | .ctlRng | .ctlLull | .stFp | .stQ | .stFallback => true
  | _ => false

/-- The fields of a scalar word that fail, in the order of R34, under the accepted prefixes (R35-R40, R57, R58). Under an
unassigned SUB, or an unassigned FN of `dred`, a field that only some SUB or FN uses does not fail for being non-zero, so that SUB or
FN is reported (DESIGN CHOICE, log 53). -/
def scalarFails (bud : Budget) (pfx : List (BitVec 26)) (w : Word) : List (Nat × Bool) :=
  let n := w.toNat
  let op := bits n 26 6
  let sd := bits n 20 6
  let sa := bits n 14 6
  let sb := bits n 8 6
  let fn := bits n 0 8
  let sub := bits n 10 4
  let arg := bits n 0 10
  let bad (i : Nat) : Bool := !bud.sOk i
  match sformatOf op with
  | none => if op = 0x3F then [(26, decide (2 ≤ pfx.length))] else [(26, true)]
  | some .sr =>
    (26, !pfx.isEmpty) ::
    (if op = 0x01 then
       [(20, bad sd), (14, bad sa), (8, bad sb || (0x18 ≤ fn && fn ≤ 0x1B && sb ≠ 0)), (0, decide (0x1C ≤ fn))]
     else if op = 0x02 then [(20, bad sd), (14, bad sa), (8, bad sb), (0, decide (64 ≤ fn) || bad fn)]
     else if op = 0x14 then [(20, sd ≠ 0), (14, bad sa), (8, sb ≠ 0), (0, decide (2 ≤ fn))]
     else if op = 0x1A then [(20, bad sd), (14, bad sa), (8, sb ≠ 0), (0, fn ≠ 0)]
     else if op = 0x1D then [(20, bad sd), (14, sa ≠ 0), (8, sb ≠ 0), (0, decide (3 ≤ fn))]
     else if op = 0x25 then
       let aop := bits fn 4 4
       [(20, bad sd || (aop = 1 && sd ≠ 0)), (14, bad sa), (8, bad sb || (aop = 0 && sb ≠ 0)),
        (0, decide (12 ≤ aop) || decide (6 ≤ bits fn 0 3))]
     else if op = 0x30 then
       let dd : Bool := bits fn 7 1 = 1
       [(20, bad sd), (14, sa = 0 || decide (53 < sa) || bad sa || bad (sa + 1) || bad (sa + 2)), (8, bad sb),
        (0, bits fn 3 1 = 1 || (!dd && decide (4 ≤ bits fn 0 3)) || (dd && (bits fn 5 1 = 1 || bits fn 4 1 = 1)))]
     else if op = 0x36 then [(20, decide (16 ≤ sd) || decide (bud.t ≤ sd)), (14, bad sa), (8, sb ≠ 0), (0, fn ≠ 0)]
     else if op = 0x38 then [(20, bad sd), (14, bad sa), (8, sb ≠ 0), (0, fn ≠ 0)]
     else if op = 0x39 then [(20, bad sd), (14, bad sa), (8, bad sb), (0, fn ≠ 0)]
     else if op = 0x3B then
       match fn with
       | 0 => [(20, bad sd), (14, bad sa), (8, sb ≠ 0)]
       | 1 => [(20, sd ≠ 0), (14, bad sa), (8, bad sb)]
       | 2 => [(20, bad sd), (14, bad sa), (8, sb ≠ 0)]
       | 3 => [(20, sd ≠ 0), (14, sa ≠ 0), (8, sb ≠ 0)]
       | _ => [(20, bad sd), (14, bad sa), (8, bad sb), (0, true)]
     else [(20, bad sd), (14, bad sa), (8, bad sb), (0, decide (2 ≤ fn))])
  | some .si =>
    let k := extImm 14 (bits n 0 14) pfx
    if 0x07 ≤ op && op ≤ 0x09 then [(20, bad sd), (14, bad sa), (0, decide (64 ≤ k.toNat))]
    else if op = 0x18 then [(20, sd ≠ 0), (14, sa ≠ 0), (0, decide (k.toNat < 1) || decide (32 < k.toNat))]
    else if op = 0x19 then [(20, sd ≠ 0), (14, bad sa)]
    else [(20, bad sd), (14, bad sa)]
  | some .sb =>
    let cond := bits n 22 4
    let sa16 := bits n 16 6
    if op = 0x10 then [(22, decide (7 ≤ cond)), (16, bad sa16 || (cond = 0 && sa16 ≠ 0))]
    else [(22, decide (4 ≤ cond)), (16, sa16 ≠ 0)]
  | some .sl => if op = 0x12 || op = 0x13 then [(20, sd ≠ 0)] else [(20, bad sd)]
  | some .se =>
    (26, !pfx.isEmpty) ::
    (match op with
     | 0x1B => [(20, sd ≠ 0), (14, sa ≠ 0), (10, decide (2 ≤ sub)), (0, arg ≠ 0)]
     | 0x1C => [(20, sd ≠ 0), (14, sa ≠ 0), (10, decide (4 ≤ sub)), (0, decide (12 ≤ arg))]
     | 0x28 => [(20, sd ≠ 0), (14, sa ≠ 0), (10, decide (4 ≤ sub)), (0, decide (6 ≤ arg) || (sub = 3 && arg = 0))]
     | 0x29 => [(20, sd ≠ 0), (14, sa ≠ 0), (10, sub ≠ 0), (0, decide (4 ≤ arg))]
     | 0x2A | 0x2D | 0x2E => [(20, sd ≠ 0), (14, sa ≠ 0), (10, sub ≠ 0), (0, arg ≠ 0)]
     | 0x2B => [(20, bad sd), (14, bad sa), (10, decide (8 ≤ sub)),
                (0, bad (bits arg 0 6) || decide (6 ≤ bits arg 6 3) || bits arg 9 1 = 1)]
     | 0x2C => [(20, bad sd), (14, bad sa || (sub = 0 && sa ≠ 0)), (10, decide (2 ≤ sub)),
                (0, if sub = 1 then arg ≠ 0 else decide (256 ≤ arg))]
     | 0x31 => [(20, sd ≠ 0), (14, sa ≠ 0), (10, sub ≠ 0), (0, arg = 0 || decide (256 ≤ arg))]
     | 0x32 => [(20, bad sd), (14, sa ≠ 0), (10, sub ≠ 0), (0, bits arg 3 1 = 0 && decide (4 ≤ bits arg 0 3))]
     | 0x33 => [(20, bad sd), (14, sa ≠ 0), (10, sub ≠ 0), (0, arg ≠ 0)]
     | 0x34 => [(20, sd ≠ 0), (14, bad sa || ((sub = 0 || sub = 2) && sa ≠ 0)), (10, decide (3 ≤ sub)),
                (0, if sub = 0 then decide (256 ≤ arg) else arg ≠ 0)]
     | 0x35 => [(20, sd ≠ 0), (14, sa ≠ 0), (10, decide (2 ≤ sub))]
     | 0x37 => [(20, sd ≠ 0), (14, sa ≠ 0), (10, sub ≠ 0), (0, decide (16 ≤ arg) || decide (bud.t ≤ arg))]
     | 0x3A => [(20, bad sd), (14, sa ≠ 0), (10, sub ≠ 0), (0, arg ≠ 0)]
     | 0x3D => [(20, bad sd || (sub = 0 && sd ≠ 0)), (14, bad sa || (sub = 2 && sa ≠ 0)), (10, decide (3 ≤ sub)),
                (0, if sub = 0 then decide (16 ≤ arg) else if sub = 1 then arg ≠ 0 else decide (8 ≤ arg))]
     | _ =>  -- 0x3E, the system group (R348)
       match sub with
       | 0 | 1 => [(20, sd ≠ 0), (14, sa ≠ 0)]
       | 2 => [(20, sd ≠ 0), (14, sa ≠ 0), (0, arg ≠ 0)]
       | 3 => [(20, bad sd), (14, sa ≠ 0), (0, (Csr.ofNumber arg).isNone)]
       | 4 => [(20, sd ≠ 0), (14, bad sa), (0, !((Csr.ofNumber arg).any Csr.writable))]
       | 5 => [(20, bad sd), (14, sa ≠ 0), (0, arg ≠ 0)]
       | 6 => [(20, bad sd), (14, sa ≠ 0), (0, decide (2 ≤ arg))]
       | _ => [(20, bad sd), (14, bad sa), (10, true)])

/-- The failing field of a scalar word, if any. -/
def scalarIllegal (bud : Budget) (pfx : List (BitVec 26)) (w : Word) : Option Nat := firstBad (scalarFails bud pfx w)

end Sys2Proof
end

