-- ==== Sys2Proof/Decode.lean ====
section
/-! DEFINITION. Decoding the two kinds of instruction word, total, with the failing field of an illegal one (R34 to R58);
and the encoder of the same tables. -/
namespace Sys2Proof

/-! ## Code tables -/

/-- Scope codes (R91, R189). -/
def Scope.ofCode (n : Nat) : Scope :=
  match n with
  | 0 => .grp | 1 => .team | 2 => .cell | 3 => .die | 4 => .dev | _ => .sys

/-- The code of a scope. -/
def Scope.code : Scope → Nat
  | .grp => 0 | .team => 1 | .cell => 2 | .die => 3 | .dev => 4 | .sys => 5

/-- COND codes of `br` (R37). -/
def BrCond.ofCode (n : Nat) : BrCond :=
  match n with
  | 0 => .always | 1 => .eq | 2 => .ne | 3 => .lt | 4 => .ge | 5 => .gt | _ => .le

/-- The COND code of a branch condition. -/
def BrCond.code : BrCond → Nat
  | .always => 0 | .eq => 1 | .ne => 2 | .lt => 3 | .ge => 4 | .gt => 5 | .le => 6

/-- COND codes of `brm` (R37). -/
def MaskCond.ofCode (n : Nat) : MaskCond :=
  match n with
  | 0 => .any | 1 => .none | 2 => .all | _ => .nall

/-- The COND code of a mask condition. -/
def MaskCond.code : MaskCond → Nat
  | .any => 0 | .none => 1 | .all => 2 | .nall => 3

/-- SUB codes of `await` (R206). -/
def AwaitCond.ofCode (n : Nat) : AwaitCond :=
  match n with
  | 0 => .eq | 1 => .ne | 2 => .lt | 3 => .ge | 4 => .ltn | 5 => .gen | 6 => .any | _ => .none

/-- The SUB code of an await condition. -/
def AwaitCond.code : AwaitCond → Nat
  | .eq => 0 | .ne => 1 | .lt => 2 | .ge => 3 | .ltn => 4 | .gen => 5 | .any => 6 | .none => 7

/-- HINT codes (R51). -/
def Hint.ofCode (n : Nat) : Hint :=
  match n with
  | 0 => .none | 1 => .ev | 2 => .lc | _ => .kp

/-- The code of a hint. -/
def Hint.code : Hint → Nat
  | .none => 0 | .ev => 1 | .lc => 2 | .kp => 3

/-- RND codes (R42). -/
def Rnd.ofCode (n : Nat) : Rnd :=
  match n with
  | 0 => .ctl | 1 => .rne | 2 => .rtz | _ => .sr

/-- The code of a rounding field. -/
def Rnd.code : Rnd → Nat
  | .ctl => 0 | .rne => 1 | .rtz => 2 | .sr => 3

/-- Special operand numbers, from 0x380 (R46). -/
def Special.ofCode (n : Nat) : Option Special :=
  match n with
  | 0 => some .lane | 1 => some .quad | 2 => some .group | 3 => some .team | 4 => some .die | 5 => some .role
  | 6 => some .pointX | 7 => some .pointY | 8 => some .pointZ | 9 => some .core
  | _ => none

/-- The number of a special operand. -/
def Special.code : Special → Nat
  | .lane => 0 | .quad => 1 | .group => 2 | .team => 3 | .die => 4 | .role => 5
  | .pointX => 6 | .pointY => 7 | .pointZ => 8 | .core => 9

/-- A source field (R44); a field value that no rule admits reads as v0 here and is refused by `laneIllegal`. -/
def Src.ofField (x : Nat) : Src :=
  let i := x % 256
  match x / 256 with
  | 0 => .v (BitVec.ofNat 8 i)
  | 1 => .s (BitVec.ofNat 6 i)
  | 2 => if i = 1 then .l 0 else if i = 2 then .l 1 else .l 2
  | _ => if i < 128 then .imm (BitVec.ofNat 7 i) else
    match Special.ofCode (i - 128) with
    | some p => .spec p
    | none => .v 0

/-- The field value of a source. -/
def Src.toField : Src → Nat
  | .v i => i.toNat
  | .s i => 256 + i.toNat
  | .l k => 512 + (k.val + 1)
  | .imm k => 768 + k.toNat
  | .spec p => 768 + (128 + p.code)

/-- A destination field (R47). -/
def Dst.ofField (x : Nat) : Dst :=
  let i := x % 256
  match x / 256 with
  | 0 => .v (BitVec.ofNat 8 i)
  | 1 => .s (BitVec.ofNat 6 i)
  | 2 => .p (Fin.ofNat 12 i)
  | _ => .x (Fin.ofNat 16 i)

/-- The field value of a destination. -/
def Dst.toField : Dst → Nat
  | .v i => i.toNat
  | .s i => 256 + i.toNat
  | .p i => 512 + i.val
  | .x i => 768 + i.val

/-- A guard from its two fields (R42). -/
def Guard.ofFields (g n : Nat) : Guard := if g = 15 then .always else .pred (Fin.ofNat 12 g) (n = 1)

/-- A Bool as a bit. -/
def b2n (b : Bool) : Nat := if b then 1 else 0

/-- The predicate field of a guard. -/
def Guard.index : Guard → Nat
  | .always => 15
  | .pred k _ => k.val

/-- The negation bit of a guard. -/
def Guard.negBit : Guard → Nat
  | .always => 0
  | .pred _ n => b2n n

/-! ## Lane words -/

/-- The typed fields of a lane word. -/
def LaneFields.ofRaw (r : Raw) : LaneFields :=
  { ga := .ofFields r.ga r.gan, gb := .ofFields r.gb r.gbn, d := .ofField r.d, a := .ofField r.a, b := .ofField r.b,
    c := .ofField r.c, e := .ofField r.e, wbs := r.wbs = 1, lat := BitVec.ofNat 2 r.lat,
    type := (ElemType.ofCode r.type).getD .b32, func := BitVec.ofNat 8 r.func, hint := .ofCode r.hint,
    stall := BitVec.ofNat 3 r.stall, yld := r.yld = 1, rnd := .ofCode r.rnd, sat := r.sat = 1 }

/-- The bit fields of a lane word with opcode `opc`. -/
def LaneFields.toRaw (f : LaneFields) (opc : Nat) : Raw :=
  { opc := opc, ga := f.ga.index, gan := f.ga.negBit, gb := f.gb.index, gbn := f.gb.negBit, d := f.d.toField,
    a := f.a.toField, b := f.b.toField, c := f.c.toField, e := f.e.toField, wbs := b2n f.wbs, lat := f.lat.toNat,
    type := f.type.code, func := f.func.toNat, hint := f.hint.code, stall := f.stall.toNat, yld := b2n f.yld,
    rnd := f.rnd.code, sat := b2n f.sat, resv := 0 }

/-- The 96 bits of the fields (R42). -/
def Raw.toBits (r : Raw) : LaneBits :=
  BitVec.ofNat 96
    (r.resv + 2 ^ 4 * (r.sat + 2 * (r.rnd + 2 ^ 2 * (r.yld + 2 * (r.stall + 2 ^ 3 * (r.hint + 2 ^ 2 * (r.func + 2 ^ 8 *
      (r.type + 2 ^ 4 * (r.lat + 2 ^ 2 * (r.wbs + 2 * (r.e + 2 ^ 10 * (r.c + 2 ^ 10 * (r.b + 2 ^ 10 * (r.a + 2 ^ 10 *
        (r.d + 2 ^ 10 * (r.gbn + 2 * (r.gb + 2 ^ 4 * (r.gan + 2 * (r.ga + 2 ^ 4 * r.opc)))))))))))))))))))

/-- The instruction of an assigned opcode (R56); rows of one opcode are told apart by FUNC (R108, R110). The NOP row
keeps its STALL and YLD in the fields (R55). -/
def laneInstr (opc func : Nat) (f : LaneFields) : Option Instr :=
  match opc with
  | 0x00 => some (.vNop f)
  | 0x01 => some (.vAdd f)
  | 0x02 => some (.vSub f)
  | 0x03 => some (.vMul f)
  | 0x04 => some (.vMulh f)
  | 0x05 => some (.vMad f)
  | 0x06 => some (.vAddc f)
  | 0x07 => some (.vSubb f)
  | 0x08 => some (.vMin f)
  | 0x09 => some (.vMax f)
  | 0x0A => some (.vAbs f)
  | 0x0B => some (.vNeg f)
  | 0x0C => some (.vAnd f)
  | 0x0D => some (.vOr f)
  | 0x0E => some (.vXor f)
  | 0x0F => some (.vNot f)
  | 0x10 => some (.vAndn f)
  | 0x11 => some (.vShl f)
  | 0x12 => some (.vShr f)
  | 0x13 => some (.vSar f)
  | 0x14 => some (.vBfe f)
  | 0x15 => some (.vBfi f)
  | 0x16 => some (.vPopc f)
  | 0x17 => some (.vClz f)
  | 0x18 => some (.vBrev f)
  | 0x19 => some (.vSad f)
  | 0x30 => some (.vFadd f)
  | 0x31 => some (.vFsub f)
  | 0x32 => some (.vFmul f)
  | 0x33 => some (.vFma f)
  | 0x34 => some (.vFms f)
  | 0x35 => some (.vFmin f)
  | 0x36 => some (.vFmax f)
  | 0x37 => some (.vFrcp f)
  | 0x38 => some (.vFrsq f)
  | 0x39 => some (.vFsqrt f)
  | 0x3A => some (.vFexp2 f)
  | 0x3B => some (.vFlog2 f)
  | 0x3C => some (.vFsin f)
  | 0x3D => some (.vFcos f)
  | 0x3E => some (.vFdivs f)
  | 0x3F => some (.vFfloor f)
  | 0x40 => some (.vFceil f)
  | 0x41 => some (.vFtrunc f)
  | 0x42 => some (.vFround f)
  | 0x43 => some (.vFclass f)
  | 0x44 => some (.vFscale f)
  | 0x45 => some (.vFfrac f)
  | 0x60 => some (.vCmp f)
  | 0x61 => some (.vFcmp f)
  | 0x62 => some (.vSel f)
  | 0x63 => some (.vPand f)
  | 0x64 => some (.vPor f)
  | 0x65 => some (.vPxor f)
  | 0x66 => some (.vPnot f)
  | 0x68 => some (.vMov f)
  | 0x6A => some (.vBallot f)
  | 0x70 => some (.vCvt f)
  | 0x71 => some (.vPack f)
  | 0x72 => some (.vUnpack f)
  | 0x73 => some (.vBscale f)
  | 0x74 => some (.vQnt f)
  | 0x75 => some (.vDqnt f)
  | 0x76 => some (.vQerr f)
  | 0x77 => some (.vHrot f)
  | 0x78 => some (.vOsplit f)
  | 0x79 => some (.vRand f)
  | 0x90 => some (.vQswap f)
  | 0x91 => some (.vQbcast f)
  | 0x92 => some (.vQred f)
  | 0x93 => some (.vShfl f)
  | 0x94 => some (.vPush f)
  | 0x95 => some (.vBcast f)
  | 0x96 => some (.vRed f)
  | 0x97 => some (.vScan f)
  | 0x98 => some (.vMatch f)
  | 0x99 => some (.vVote f)
  | 0xA0 => some (.vLd f)
  | 0xA1 => some (.vSt f)
  | 0xA2 => some (.vLds f)
  | 0xA3 => some (.vSts f)
  | 0xA4 => some (.vLdfe f)
  | 0xA5 => some (.vStfe f)
  | 0xA6 => some (.vAtom f)
  | 0xA7 => some (.vAtomr f)
  | 0xA8 => some (.vBadd f)
  | 0xC0 => some (.vAmm f)
  | 0xC1 => some (.vAmw f)
  | 0xC2 => some (.vAccmov f)
  | 0xC3 => some (.vAccld f)
  | 0xC4 => some (.vAccclr f)
  | 0xC5 => some (.vAccscl f)
  | 0xD0 => some (.vMma f)
  | 0xD1 => some (.vMmac f)
  | 0x67 => if bits func 0 2 = 0 then some (.vPmov f) else if bits func 0 2 = 1 then some (.vPmovToVector f) else some (.vPmovPredCopy f)
  | 0x69 => if bits func 0 2 = 0 then some (.vMovsFirst f) else if bits func 0 2 = 1 then some (.vMovsLast f) else some (.vMovsAt f)
  | _ => none

/-- Decoding a lane word: the instruction, or the lowest bit position of the failing field (R57, R58). Register
budgets are the group's and are checked when the word is released. -/
def decodeLane (w : LaneBits) : Except Nat Instr :=
  let r := Raw.ofBits w
  match laneIllegal .full r with
  | some p => .error p
  | none =>
    match laneInstr r.opc r.func (.ofRaw r) with
    | some i => .ok i
    | none => .error 88

/-- The word of a lane instruction; none for the other rows. -/
def encodeLane (i : Instr) : Option LaneBits :=
  match i with
  | .vNop f => some (f.toRaw 0x00).toBits
  | .vAdd f => some (f.toRaw 0x01).toBits
  | .vSub f => some (f.toRaw 0x02).toBits
  | .vMul f => some (f.toRaw 0x03).toBits
  | .vMulh f => some (f.toRaw 0x04).toBits
  | .vMad f => some (f.toRaw 0x05).toBits
  | .vAddc f => some (f.toRaw 0x06).toBits
  | .vSubb f => some (f.toRaw 0x07).toBits
  | .vMin f => some (f.toRaw 0x08).toBits
  | .vMax f => some (f.toRaw 0x09).toBits
  | .vAbs f => some (f.toRaw 0x0A).toBits
  | .vNeg f => some (f.toRaw 0x0B).toBits
  | .vAnd f => some (f.toRaw 0x0C).toBits
  | .vOr f => some (f.toRaw 0x0D).toBits
  | .vXor f => some (f.toRaw 0x0E).toBits
  | .vNot f => some (f.toRaw 0x0F).toBits
  | .vAndn f => some (f.toRaw 0x10).toBits
  | .vShl f => some (f.toRaw 0x11).toBits
  | .vShr f => some (f.toRaw 0x12).toBits
  | .vSar f => some (f.toRaw 0x13).toBits
  | .vBfe f => some (f.toRaw 0x14).toBits
  | .vBfi f => some (f.toRaw 0x15).toBits
  | .vPopc f => some (f.toRaw 0x16).toBits
  | .vClz f => some (f.toRaw 0x17).toBits
  | .vBrev f => some (f.toRaw 0x18).toBits
  | .vSad f => some (f.toRaw 0x19).toBits
  | .vFadd f => some (f.toRaw 0x30).toBits
  | .vFsub f => some (f.toRaw 0x31).toBits
  | .vFmul f => some (f.toRaw 0x32).toBits
  | .vFma f => some (f.toRaw 0x33).toBits
  | .vFms f => some (f.toRaw 0x34).toBits
  | .vFmin f => some (f.toRaw 0x35).toBits
  | .vFmax f => some (f.toRaw 0x36).toBits
  | .vFrcp f => some (f.toRaw 0x37).toBits
  | .vFrsq f => some (f.toRaw 0x38).toBits
  | .vFsqrt f => some (f.toRaw 0x39).toBits
  | .vFexp2 f => some (f.toRaw 0x3A).toBits
  | .vFlog2 f => some (f.toRaw 0x3B).toBits
  | .vFsin f => some (f.toRaw 0x3C).toBits
  | .vFcos f => some (f.toRaw 0x3D).toBits
  | .vFdivs f => some (f.toRaw 0x3E).toBits
  | .vFfloor f => some (f.toRaw 0x3F).toBits
  | .vFceil f => some (f.toRaw 0x40).toBits
  | .vFtrunc f => some (f.toRaw 0x41).toBits
  | .vFround f => some (f.toRaw 0x42).toBits
  | .vFclass f => some (f.toRaw 0x43).toBits
  | .vFscale f => some (f.toRaw 0x44).toBits
  | .vFfrac f => some (f.toRaw 0x45).toBits
  | .vCmp f => some (f.toRaw 0x60).toBits
  | .vFcmp f => some (f.toRaw 0x61).toBits
  | .vSel f => some (f.toRaw 0x62).toBits
  | .vPand f => some (f.toRaw 0x63).toBits
  | .vPor f => some (f.toRaw 0x64).toBits
  | .vPxor f => some (f.toRaw 0x65).toBits
  | .vPnot f => some (f.toRaw 0x66).toBits
  | .vMov f => some (f.toRaw 0x68).toBits
  | .vBallot f => some (f.toRaw 0x6A).toBits
  | .vCvt f => some (f.toRaw 0x70).toBits
  | .vPack f => some (f.toRaw 0x71).toBits
  | .vUnpack f => some (f.toRaw 0x72).toBits
  | .vBscale f => some (f.toRaw 0x73).toBits
  | .vQnt f => some (f.toRaw 0x74).toBits
  | .vDqnt f => some (f.toRaw 0x75).toBits
  | .vQerr f => some (f.toRaw 0x76).toBits
  | .vHrot f => some (f.toRaw 0x77).toBits
  | .vOsplit f => some (f.toRaw 0x78).toBits
  | .vRand f => some (f.toRaw 0x79).toBits
  | .vQswap f => some (f.toRaw 0x90).toBits
  | .vQbcast f => some (f.toRaw 0x91).toBits
  | .vQred f => some (f.toRaw 0x92).toBits
  | .vShfl f => some (f.toRaw 0x93).toBits
  | .vPush f => some (f.toRaw 0x94).toBits
  | .vBcast f => some (f.toRaw 0x95).toBits
  | .vRed f => some (f.toRaw 0x96).toBits
  | .vScan f => some (f.toRaw 0x97).toBits
  | .vMatch f => some (f.toRaw 0x98).toBits
  | .vVote f => some (f.toRaw 0x99).toBits
  | .vLd f => some (f.toRaw 0xA0).toBits
  | .vSt f => some (f.toRaw 0xA1).toBits
  | .vLds f => some (f.toRaw 0xA2).toBits
  | .vSts f => some (f.toRaw 0xA3).toBits
  | .vLdfe f => some (f.toRaw 0xA4).toBits
  | .vStfe f => some (f.toRaw 0xA5).toBits
  | .vAtom f => some (f.toRaw 0xA6).toBits
  | .vAtomr f => some (f.toRaw 0xA7).toBits
  | .vBadd f => some (f.toRaw 0xA8).toBits
  | .vAmm f => some (f.toRaw 0xC0).toBits
  | .vAmw f => some (f.toRaw 0xC1).toBits
  | .vAccmov f => some (f.toRaw 0xC2).toBits
  | .vAccld f => some (f.toRaw 0xC3).toBits
  | .vAccclr f => some (f.toRaw 0xC4).toBits
  | .vAccscl f => some (f.toRaw 0xC5).toBits
  | .vMma f => some (f.toRaw 0xD0).toBits
  | .vMmac f => some (f.toRaw 0xD1).toBits
  | .vPmov f => some (f.toRaw 0x67).toBits
  | .vPmovToVector f => some (f.toRaw 0x67).toBits
  | .vPmovPredCopy f => some (f.toRaw 0x67).toBits
  | .vMovsFirst f => some (f.toRaw 0x69).toBits
  | .vMovsLast f => some (f.toRaw 0x69).toBits
  | .vMovsAt f => some (f.toRaw 0x69).toBits
  | _ => none

/-! ## Scalar words -/

/-- The instruction a legal scalar word stands for, under the accepted prefixes (R36-R40). -/
def scalarInstr (pfx : List (BitVec 26)) (w : Word) : Option Instr :=
  let n := w.toNat
  let sd : SReg := BitVec.ofNat 6 (bits n 20 6)
  let sa : SReg := BitVec.ofNat 6 (bits n 14 6)
  let sb : SReg := BitVec.ofNat 6 (bits n 8 6)
  let fn := bits n 0 8
  let sub := bits n 10 4
  let arg := bits n 0 10
  let k14 := extImm 14 (bits n 0 14) pfx
  let k20 := extImm 20 (bits n 0 20) pfx
  let k16 := extImm 16 (bits n 0 16) pfx
  match bits n 26 6 with
  | 0x01 =>
    (match fn with
     | 0x00 => some (.add sd sa sb)
     | 0x01 => some (.sub sd sa sb)
     | 0x02 => some (.mul sd sa sb)
     | 0x03 => some (.mulh sd sa sb)
     | 0x04 => some (.mulhn sd sa sb)
     | 0x05 => some (.div sd sa sb)
     | 0x06 => some (.divn sd sa sb)
     | 0x07 => some (.rem sd sa sb)
     | 0x08 => some (.remn sd sa sb)
     | 0x09 => some (.and sd sa sb)
     | 0x0A => some (.or sd sa sb)
     | 0x0B => some (.xor sd sa sb)
     | 0x0C => some (.andn sd sa sb)
     | 0x0D => some (.shl sd sa sb)
     | 0x0E => some (.shr sd sa sb)
     | 0x0F => some (.sar sd sa sb)
     | 0x10 => some (.min sd sa sb)
     | 0x11 => some (.max sd sa sb)
     | 0x12 => some (.minn sd sa sb)
     | 0x13 => some (.maxn sd sa sb)
     | 0x14 => some (.seq sd sa sb)
     | 0x15 => some (.sne sd sa sb)
     | 0x16 => some (.slt sd sa sb)
     | 0x17 => some (.sltn sd sa sb)
     | 0x18 => some (.clz sd sa)
     | 0x19 => some (.ctz sd sa)
     | 0x1A => some (.popc sd sa)
     | 0x1B => some (.mov sd sa)
     | _ => none)
  | 0x02 => some (.sel sd (BitVec.ofNat 6 fn) sa sb)
  | 0x03 => some (.addi sd sa k14)
  | 0x04 => some (.andi sd sa k14)
  | 0x05 => some (.ori sd sa k14)
  | 0x06 => some (.xori sd sa k14)
  | 0x07 => some (.shli sd sa k14)
  | 0x08 => some (.shri sd sa k14)
  | 0x09 => some (.sari sd sa k14)
  | 0x0A => some (.slti sd sa k14)
  | 0x0B => some (.sltni sd sa k14)
  | 0x0C => some (.muli sd sa k14)
  | 0x20 => some (.ld sd sa k14)
  | 0x21 => some (.ldw sd sa k14)
  | 0x22 => some (.st sd sa k14)
  | 0x23 => some (.stw sd sa k14)
  | 0x24 => some (.ldc sd sa k14)
  | 0x0D => some (.li sd k20)
  | 0x0E => some (.addpc sd k20)
  | 0x10 => some (.br (.ofCode (bits n 22 4)) (BitVec.ofNat 6 (bits n 16 6)) k16)
  | 0x11 => some (.brm (.ofCode (bits n 22 4)) k16)
  | 0x12 => some (.jmp k20)
  | 0x13 => some (.call k20)
  | 0x14 => if fn = 0 then some (.jr sa) else some (.jrCall sa)
  | 0x18 => some (.vrun k14)
  | 0x19 => some (.vjmp sa k14)
  | 0x1A => some (.vset sd sa)
  | 0x1B => if sub = 0 then some .vdrain else some .vdrainIss
  | 0x1C =>
    let k : Fin 12 := Fin.ofNat 12 arg
    if sub = 0 then some (.mpredSet k) else if sub = 1 then some (.mpredAnd k)
    else if sub = 2 then some (.mpredAndn k) else some (.mpredOr k)
  | 0x1D => if fn = 0 then some (.mcount sd) else if fn = 1 then some (.mcountFirst sd) else some (.mcountLast sd)
  | 0x25 =>
     let ord : Bool := bits fn 3 1 = 1
     let sc := Scope.ofCode (bits fn 0 3)
     (match bits fn 4 4 with
      | 0 => some (.amoLd sd sa ord sc)
      | 1 => some (.amoSt sa sb ord sc)
      | 2 => some (.amoSwap sd sa sb ord sc)
      | 3 => some (.amoCas sd sa sb ord sc)
      | 4 => some (.amoAdd sd sa sb ord sc)
      | 5 => some (.amoAnd sd sa sb ord sc)
      | 6 => some (.amoOr sd sa sb ord sc)
      | 7 => some (.amoXor sd sa sb ord sc)
      | 8 => some (.amoMin sd sa sb ord sc)
      | 9 => some (.amoMax sd sa sb ord sc)
      | 10 => some (.amoMinn sd sa sb ord sc)
      | 11 => some (.amoMaxn sd sa sb ord sc)
      | _ => none)
  | 0x28 =>
    let s := Scope.ofCode arg
    if sub = 0 then some (.fenceAcq s) else if sub = 1 then some (.fenceRel s)
    else if sub = 2 then some (.fenceFull s) else some (.fenceQ s)
  | 0x29 => some (.bar (BitVec.ofNat 2 arg))
  | 0x2A => some .dbar
  | 0x2B => some (.await (.ofCode sub) sd sa (BitVec.ofNat 6 (bits arg 0 6)) (.ofCode (bits arg 6 3)))
  | 0x2C => if sub = 0 then some (.cjoin sd (BitVec.ofNat 8 arg)) else some (.cjoinR sd sa)
  | 0x2D => some .cleave
  | 0x2E => some .yield
  | 0x30 =>
    some (.cpy sd sa sb (bits fn 7 1 = 1) (bits fn 6 1 = 1) (bits fn 5 1 = 1) (bits fn 4 1 = 1) (BitVec.ofNat 3 (bits fn 0 3)))
  | 0x31 => some (.qfence (BitVec.ofNat 8 arg))
  | 0x32 => some (.qwait sd (bits arg 3 1 = 1) (BitVec.ofNat 3 (bits arg 0 3)) (BitVec.ofNat 6 (bits arg 4 6)))
  | 0x33 => some (.mclose sd)
  | 0x34 => if sub = 0 then some (.mwait (BitVec.ofNat 8 arg)) else if sub = 1 then some (.mwaitR sa) else some .mwaitAll
  | 0x35 =>
    let j : BitVec 5 := BitVec.ofNat 5 (bits arg 0 5)
    let m : BitVec 5 := BitVec.ofNat 5 (bits arg 5 5)
    if sub = 0 then some (.amodeSt j m) else some (.amodeCmp j m)
  | 0x36 => some (.tbind (BitVec.ofNat 4 (bits n 20 6)) sa)
  | 0x37 => some (.tmap (BitVec.ofNat 4 arg))
  | 0x38 => some (.launch sd sa)
  | 0x39 => some (.flaunch sd sa sb)
  | 0x3A => some (.fpost sd)
  | 0x3B =>
    if fn = 0 then some (.dredOpen sd sa) else if fn = 1 then some (.dredPut sa sb)
    else if fn = 2 then some (.dredClose sd sa) else some .dredWait
  | 0x3C => if fn = 0 then some (.dtake sd sa sb) else some (.dtakeCorr sd sa sb)
  | 0x3D =>
    if sub = 0 then some (.cblk sa (BitVec.ofNat 4 arg)) else if sub = 1 then some (.cblkR sd sa)
    else some (.cblkWait sd (BitVec.ofNat 3 arg))
  | 0x3E =>
    (match sub with
     | 0 => some (.trap (BitVec.ofNat 10 arg))
     | 1 => some (.brk (BitVec.ofNat 10 arg))
     | 2 => some .exit
     | 3 => (Csr.ofNumber arg).map (.csrr sd)
     | 4 => (Csr.ofNumber arg).map (.csrw · sa)
     | 5 => some (.clock sd)
     | _ => if arg = 0 then some (.noise sd) else some (.noise2 sd))
  | 0x3F => some (.pfx (BitVec.ofNat 26 (bits n 0 26)))
  | _ => none

/-- Decoding a scalar word under the prefixes accepted before it: the instruction, or the lowest bit position of the
failing field (R57, R58). -/
def decodeScalar (pfx : List (BitVec 26)) (w : Word) : Except Nat Instr :=
  match scalarIllegal .full pfx w with
  | some p => .error p
  | none =>
    match scalarInstr pfx w with
    | some i => .ok i
    | none => .error 26

/-- Decoding a whole run: the prefixes and their target (R39, R40). -/
def decodeRun (ws : List Word) : Option Instr :=
  match ws with
  | [w] => (decodeScalar [] w).toOption
  | [p, w] =>
    match decodeScalar [] p with
    | .ok (.pfx x) => (decodeScalar [x] w).toOption
    | _ => none
  | [p, q, w] =>
    match decodeScalar [] p with
    | .ok (.pfx x) =>
      match decodeScalar [x] q with
      | .ok (.pfx y) => (decodeScalar [x, y] w).toOption
      | _ => none
    | _ => none
  | _ => none

/-! ## The encoder -/

/-- A scalar word in format SR (R34). -/
def wSR (op : Nat) (d a b : SReg) (fn : Nat) : Word :=
  BitVec.ofNat 32 (fn + 2 ^ 8 * (b.toNat + 2 ^ 6 * (a.toNat + 2 ^ 6 * (d.toNat + 2 ^ 6 * op))))

/-- A scalar word in format SE (R34). -/
def wSE (op : Nat) (d a : SReg) (sub arg : Nat) : Word :=
  BitVec.ofNat 32 (arg + 2 ^ 10 * (sub + 2 ^ 4 * (a.toNat + 2 ^ 6 * (d.toNat + 2 ^ 6 * op))))

/-- A prefix word (R39). -/
def wPfx (p : Nat) : Word := BitVec.ofNat 32 (p + 2 ^ 26 * 0x3F)

/-- The prefixes and the low field of an immediate of `len` bits: the fewest prefix words that hold it (R39, R63). -/
def splitImm (len : Nat) (k : DWord) : List Word × Nat :=
  let v := k.toInt
  let low := (v % (2 ^ len : Nat)).toNat
  let p2 := (v / (2 ^ len : Nat) % (2 ^ 26 : Nat)).toNat
  let p1 := (v / (2 ^ (len + 26) : Nat) % (2 ^ 26 : Nat)).toNat
  let fits (n : Nat) : Bool := decide (-(2 ^ (n - 1) : Nat) ≤ v) && decide (v < (2 ^ (n - 1) : Nat))
  if fits len then ([], low)
  else if fits (len + 26) then ([wPfx p2], low)
  else ([wPfx p1, wPfx p2], low)

/-- A run with a target in format SI. -/
def wSI (op : Nat) (d a : SReg) (k : DWord) : List Word :=
  let p := splitImm 14 k
  p.1 ++ [BitVec.ofNat 32 (p.2 + 2 ^ 14 * (a.toNat + 2 ^ 6 * (d.toNat + 2 ^ 6 * op)))]

/-- A run with a target in format SL. -/
def wSL (op : Nat) (d : SReg) (k : DWord) : List Word :=
  let p := splitImm 20 k
  p.1 ++ [BitVec.ofNat 32 (p.2 + 2 ^ 20 * (d.toNat + 2 ^ 6 * op))]

/-- A run with a target in format SB. -/
def wSB (op cond : Nat) (a : SReg) (k : DWord) : List Word :=
  let p := splitImm 16 k
  p.1 ++ [BitVec.ofNat 32 (p.2 + 2 ^ 16 * (a.toNat + 2 ^ 6 * (cond + 2 ^ 4 * op)))]

/-- The words of a scalar instruction, prefixes first; none for the rows without scalar words. -/
def encodeScalar (i : Instr) : List Word :=
  match i with
  | .add d a b => [wSR 0x01 d a b 0x00]
  | .sub d a b => [wSR 0x01 d a b 0x01]
  | .mul d a b => [wSR 0x01 d a b 0x02]
  | .mulh d a b => [wSR 0x01 d a b 0x03]
  | .mulhn d a b => [wSR 0x01 d a b 0x04]
  | .div d a b => [wSR 0x01 d a b 0x05]
  | .divn d a b => [wSR 0x01 d a b 0x06]
  | .rem d a b => [wSR 0x01 d a b 0x07]
  | .remn d a b => [wSR 0x01 d a b 0x08]
  | .and d a b => [wSR 0x01 d a b 0x09]
  | .or d a b => [wSR 0x01 d a b 0x0A]
  | .xor d a b => [wSR 0x01 d a b 0x0B]
  | .andn d a b => [wSR 0x01 d a b 0x0C]
  | .shl d a b => [wSR 0x01 d a b 0x0D]
  | .shr d a b => [wSR 0x01 d a b 0x0E]
  | .sar d a b => [wSR 0x01 d a b 0x0F]
  | .min d a b => [wSR 0x01 d a b 0x10]
  | .max d a b => [wSR 0x01 d a b 0x11]
  | .minn d a b => [wSR 0x01 d a b 0x12]
  | .maxn d a b => [wSR 0x01 d a b 0x13]
  | .seq d a b => [wSR 0x01 d a b 0x14]
  | .sne d a b => [wSR 0x01 d a b 0x15]
  | .slt d a b => [wSR 0x01 d a b 0x16]
  | .sltn d a b => [wSR 0x01 d a b 0x17]
  | .clz d a => [wSR 0x01 d a 0 0x18]
  | .ctz d a => [wSR 0x01 d a 0 0x19]
  | .popc d a => [wSR 0x01 d a 0 0x1A]
  | .mov d a => [wSR 0x01 d a 0 0x1B]
  | .addi d a k => wSI 0x03 d a k
  | .andi d a k => wSI 0x04 d a k
  | .ori d a k => wSI 0x05 d a k
  | .xori d a k => wSI 0x06 d a k
  | .shli d a k => wSI 0x07 d a k
  | .shri d a k => wSI 0x08 d a k
  | .sari d a k => wSI 0x09 d a k
  | .slti d a k => wSI 0x0A d a k
  | .sltni d a k => wSI 0x0B d a k
  | .muli d a k => wSI 0x0C d a k
  | .ld d a k => wSI 0x20 d a k
  | .ldw d a k => wSI 0x21 d a k
  | .st d a k => wSI 0x22 d a k
  | .stw d a k => wSI 0x23 d a k
  | .ldc d a k => wSI 0x24 d a k
  | .amoLd d a o s => [wSR 0x25 d a 0 (0x00 + b2n o * 8 + s.code)]
  | .amoSt a b o s => [wSR 0x25 0 a b (0x10 + b2n o * 8 + s.code)]
  | .amoSwap d a b o s => [wSR 0x25 d a b (0x20 + b2n o * 8 + s.code)]
  | .amoCas d a b o s => [wSR 0x25 d a b (0x30 + b2n o * 8 + s.code)]
  | .amoAdd d a b o s => [wSR 0x25 d a b (0x40 + b2n o * 8 + s.code)]
  | .amoAnd d a b o s => [wSR 0x25 d a b (0x50 + b2n o * 8 + s.code)]
  | .amoOr d a b o s => [wSR 0x25 d a b (0x60 + b2n o * 8 + s.code)]
  | .amoXor d a b o s => [wSR 0x25 d a b (0x70 + b2n o * 8 + s.code)]
  | .amoMin d a b o s => [wSR 0x25 d a b (0x80 + b2n o * 8 + s.code)]
  | .amoMax d a b o s => [wSR 0x25 d a b (0x90 + b2n o * 8 + s.code)]
  | .amoMinn d a b o s => [wSR 0x25 d a b (0xA0 + b2n o * 8 + s.code)]
  | .amoMaxn d a b o s => [wSR 0x25 d a b (0xB0 + b2n o * 8 + s.code)]
  | .sel d c a b => [wSR 0x02 d a b c.toNat]
  | .li d k => wSL 0x0D d k
  | .addpc d k => wSL 0x0E d k
  | .br c a k => wSB 0x10 c.code a k
  | .brm c k => wSB 0x11 c.code 0 k
  | .jmp k => wSL 0x12 0 k
  | .call k => wSL 0x13 0 k
  | .jr a => [wSR 0x14 0 a 0 0]
  | .jrCall a => [wSR 0x14 0 a 0 1]
  | .vrun k => wSI 0x18 0 0 k
  | .vjmp a k => wSI 0x19 0 a k
  | .vset d a => [wSR 0x1A d a 0 0]
  | .vdrain => [wSE 0x1B 0 0 0 0]
  | .vdrainIss => [wSE 0x1B 0 0 1 0]
  | .mpredSet k => [wSE 0x1C 0 0 0 k.val]
  | .mpredAnd k => [wSE 0x1C 0 0 1 k.val]
  | .mpredAndn k => [wSE 0x1C 0 0 2 k.val]
  | .mpredOr k => [wSE 0x1C 0 0 3 k.val]
  | .mcount d => [wSR 0x1D d 0 0 0]
  | .mcountFirst d => [wSR 0x1D d 0 0 1]
  | .mcountLast d => [wSR 0x1D d 0 0 2]
  | .fenceAcq s => [wSE 0x28 0 0 0 s.code]
  | .fenceRel s => [wSE 0x28 0 0 1 s.code]
  | .fenceFull s => [wSE 0x28 0 0 2 s.code]
  | .fenceQ s => [wSE 0x28 0 0 3 s.code]
  | .bar b => [wSE 0x29 0 0 0 b.toNat]
  | .dbar => [wSE 0x2A 0 0 0 0]
  | .await c d a v s => [wSE 0x2B d a c.code (s.code * 64 + v.toNat)]
  | .cjoin d i => [wSE 0x2C d 0 0 i.toNat]
  | .cjoinR d a => [wSE 0x2C d a 1 0]
  | .cleave => [wSE 0x2D 0 0 0 0]
  | .yield => [wSE 0x2E 0 0 0 0]
  | .cpy f a b dd af sk dk q =>
    [wSR 0x30 f a b (b2n dd * 128 + b2n af * 64 + b2n sk * 32 + b2n dk * 16 + q.toNat)]
  | .qfence q => [wSE 0x31 0 0 0 q.toNat]
  | .qwait d dd q n => [wSE 0x32 d 0 0 (n.toNat * 16 + b2n dd * 8 + q.toNat)]
  | .mclose d => [wSE 0x33 d 0 0 0]
  | .mwait n => [wSE 0x34 0 0 0 n.toNat]
  | .mwaitR a => [wSE 0x34 0 a 1 0]
  | .mwaitAll => [wSE 0x34 0 0 2 0]
  | .amodeSt j n => [wSE 0x35 0 0 0 (n.toNat * 32 + j.toNat)]
  | .amodeCmp j n => [wSE 0x35 0 0 1 (n.toNat * 32 + j.toNat)]
  | .tbind d a => [wSR 0x36 (d.setWidth 6) a 0 0]
  | .tmap k => [wSE 0x37 0 0 0 k.toNat]
  | .launch d a => [wSR 0x38 d a 0 0]
  | .flaunch d a b => [wSR 0x39 d a b 0]
  | .fpost d => [wSE 0x3A d 0 0 0]
  | .dredOpen d a => [wSR 0x3B d a 0 0]
  | .dredPut a b => [wSR 0x3B 0 a b 1]
  | .dredClose d a => [wSR 0x3B d a 0 2]
  | .dredWait => [wSR 0x3B 0 0 0 3]
  | .dtake d a b => [wSR 0x3C d a b 0]
  | .dtakeCorr d a b => [wSR 0x3C d a b 1]
  | .cblk a i => [wSE 0x3D 0 a 0 i.toNat]
  | .cblkR d a => [wSE 0x3D d a 1 0]
  | .cblkWait d n => [wSE 0x3D d 0 2 n.toNat]
  | .trap n => [wSE 0x3E 0 0 0 n.toNat]
  | .brk n => [wSE 0x3E 0 0 1 n.toNat]
  | .exit => [wSE 0x3E 0 0 2 0]
  | .csrr d c => [wSE 0x3E d 0 3 c.number]
  | .csrw c a => [wSE 0x3E 0 a 4 c.number]
  | .clock d => [wSE 0x3E d 0 5 0]
  | .noise d => [wSE 0x3E d 0 6 0]
  | .noise2 d => [wSE 0x3E d 0 6 1]
  | .pfx p => [BitVec.ofNat 32 (0x3F * 2 ^ 26 + p.toNat)]
  | _ => []

/-! ## The host's question -/

/-- The instruction the decoder reads from the bits the opcode table numbers: a lane word of 96 bits, or a scalar word
of 32. -/
def decodeTableWord (nbits w : Nat) : Option Instr :=
  if nbits = 96 then (decodeLane (BitVec.ofNat 96 w)).toOption
  else (decodeScalar [] (BitVec.ofNat 32 w)).toOption

end Sys2Proof
end

