-- ==== Sys2Proof/Config.lean ====
section
/-! DEFINITION. What an implementation fixes, and the free values: opaque constants without a body, so that no proof
can learn what they are. Each one is named in the assumption log. -/
namespace Sys2Proof.Config

/-- Undefined bits of a vector register, an accumulator or a latch that nothing has written since the group started
or since they became undefined (R26, R68, R93, R246), by the group's seed, the register and the element. Log 5. -/
opaque freeLane : Nat → Nat → Nat → BitVec 32

/-- Undefined bits of a scalar, predicate or tile register in a volatile range after a resume (R26), by the seed
and the register. Log 5. -/
opaque freeReg : Nat → Nat → BitVec 96

/-- Undefined bits of a byte of a scratchpad granule that is not written (R170), by the team and the offset. Log 5. -/
opaque freeByte : Nat → Nat → BitVec 8

/-- An undefined map slot (R153), by the team and the slot. Log 5. -/
opaque freeMap : Nat → Nat → BitVec 272

/-- Undefined bits that a poisoned read delivers to a lane (R184, R227), by the free-value counter. Log 5. -/
opaque freePoison : Nat → BitVec 64

/-- One conditioned 32-bit word of the core's noise source (R140), by the free-value counter. Log 9. -/
opaque noise : Nat → BitVec 32

/-- One code of the converter of one column of one phase above the exact limit (R239, R241), by the free-value counter.
Log 10. -/
opaque freeCode : Nat → BitVec 8

/-- Which of two forms a granule of a checkpoint has where the device orders nothing (R390), by the free-value counter. Log 50. -/
opaque freeBit : Nat → Bool

/-- The SHAKE256 digest of a byte string (R394), a standard function the manual names and does not define. Log 12. -/
opaque shake256 : List (BitVec 8) → List (BitVec 8)

/-- The ML-DSA-65 signature of a message with the part's identity key (R394), likewise. Log 12. -/
opaque mldsaSign : List (BitVec 8) → List (BitVec 8)

/-- Whether an ML-DSA-65 signature of a message verifies against the Kalesk key in fuses (R394), likewise. Log 12. -/
opaque mldsaVerify : List (BitVec 8) → List (BitVec 8) → Bool

/-- The lowest peer index of the set with a multicast address (R325): the part holds its own index only. Log 23. -/
opaque lowestPeer : Nat → Nat

/-- The bank of an HBM4E stack that holds a device physical address (R182, R328): the manual gives no mapping. Log 17. -/
opaque bankOf : Nat → Nat

/-- Which of the two base dies of a B-die holds a 64-byte line of device memory, by its number (R328), likewise: its low bit. Log 17. -/
opaque stackOf : Nat → Nat

/-- The channel of a stack that holds a device physical address (R345), likewise. Log 17. -/
opaque channelOf : Nat → Nat

/-- The clock in MHz that the power manager gives a die under a power word (R295, R391): the manual gives bounds only.
Log 18. -/
opaque loweredClock : Nat → Nat → Nat

/-- The pinned dies alone would exceed the module limit of 1,700 W, by
the pin word (R295): the manual gives no power of a clock. Log 18. -/
opaque pinsExceed : Nat → Bool

/-- Which of several stores and registrations on their way reaches its home next, where the rules leave the order open (R192,
R198, R411), and the moments at which an overlapping copy reads and writes its granules (R222), by the free-value counter. Logs 7
and 11. -/
opaque freeChoice : Nat → Nat

/-- A fetched word that has been overwritten while its launch ran is the old word, not the new one (R33), by the team, its
count of issued words and the address. Log 52. -/
opaque fetchesOld : Nat → Nat → Nat → Bool

end Sys2Proof.Config
end

