-- ==== Sys2Proof/Machine/State.lean ====
section
/-! DEFINITION. The state of the whole part as plain data, its reset, the fault and refusal reasons. Collections the
spec bounds (slots, entries, lines) are lists; what is not listed is empty, zero or undefined as each docstring says. -/
namespace Sys2Proof.Machine

/-- Why the machine stops. -/
inductive Fault where
  /-- A page-table entry, a ring base, the save pool or a dump address names a device physical address at or above the
  800 GB that exist (R10, R384). Raised by every access to device memory in Machine/Ops.lean. Safe: the machine stops. -/
  | noSuchDramAddress (pa : Nat)
deriving DecidableEq, Repr

/-- Why an instruction has no meaning. -/
inductive Refusal where
  /-- The instruction is not modelled; raised by its arm of `exec` only. Safe: nothing is claimed of it. -/
  | notModelled (mnemonic : String)
deriving DecidableEq, Repr

/-- A memory: (address, byte) pairs, addresses strictly rising, no byte 0 listed; an unlisted byte reads 0 (log 3). -/
abbrev Memory := List Host.Cell

/-- A place in physical memory: device DRAM or host memory (R159, R384). -/
structure Loc where
  host : Bool
  addr : Nat
deriving DecidableEq, Repr

/-- A translated page: what a TLB holds (R158, R159, R387). -/
structure TlbEntry where
  asid : Nat
  /-- First virtual address of the page (57 bits). -/
  base : Nat
  size : Nat
  pa : Nat
  /-- 0 single die, 1 M-die set, 2 B-die set, 3 host. -/
  home : Nat
  die : Nat
  r : Bool
  w : Bool
  x : Bool
deriving DecidableEq, Repr

/-- One 256-byte superblock of a core's cache: four lines, each with its bytes when valid (R163), and its eviction mark (R165).
The caches of a core are written through, so that none of their lines is ever dirty (R164). -/
structure CacheBlock where
  tag : Loc
  lines : List (Option (List Byte))
  hint : Hint
  /-- Lines held only for `ldc` (R164, R90), scalar/constant cache only. -/
  ldcOnly : List Bool
deriving DecidableEq, Repr

/-- One superblock of a last-level cache slice (R163, R164, R165): its die, its tag, which lines are valid, for each dirty line
the bytes its die's DRAM still holds under it, and its eviction mark. The line's own bytes stand in `State.mem`, which is
what the home of a place gives (log 13). -/
structure SliceBlock where
  die : Nat
  tag : Nat
  valid : BitVec 4
  under : List (Option (List Byte))
  hint : Hint
deriving DecidableEq, Repr

/-- Where a byte of an access is found: a team's scratchpad at an offset, or memory (R162). -/
inductive Place where
  | pad (t off : Nat)
  | mem (l : Loc)
deriving DecidableEq, Repr

/-- What a request of R166 does. -/
inductive ReqKind where
  | load | store | atomic | bankAdd
deriving DecidableEq, Repr

/-- What a load fills (R162, R163, R164, R90): nothing, its home's slice alone, or a cache of the core as well. -/
inductive FillCache where
  | none | slice | l1 | scalar | constant
deriving DecidableEq, Repr

/-- One lane's step of an atomic: its address, its operand and its compare value (R181). -/
structure AtomStep where
  lane : Nat
  va : Nat
  c : Nat
  e : Nat
deriving DecidableEq, Repr

/-- The steps of a lane atomic at one superblock, with the word's fields and whether it returns the old values (R166, R181). -/
structure AtomWork where
  fields : LaneFields
  returns : Bool
  steps : List AtomStep
deriving DecidableEq, Repr

/-- One superblock request of a group (R166, R167). -/
structure Req where
  kind : ReqKind
  /-- The superblock, 256-aligned, and its home die; none where the home is the host (R159). -/
  tag : Loc
  home : Option Nat
  /-- The lines touched, as four bits. -/
  lines : BitVec 4
  /-- The bytes a store writes, in order. -/
  data : List (Nat × Byte)
  /-- What a store writes into scratchpads of its own core once it holds its entry: team, offset, byte (R162, R167). -/
  pads : List (Nat × Nat × Byte)
  /-- What a lane atomic does once it holds its entry (R167, R181). -/
  atom : Option AtomWork
  /-- Each line a store writes: line address, a virtual address and the lane that writes it, for its fault (R184, R360). -/
  marks : List (Nat × Nat × Nat)
  hint : Hint
  fill : FillCache
  /-- Poison met by a lane load: the lowest lane and its address (R184). -/
  bad : Option (Nat × Nat)
  /-- The word it belongs to, by the group's word count. -/
  word : Nat
  /-- It holds a miss entry. -/
  entry : Bool
  /-- Rejections so far (R167). -/
  age : Nat
  /-- Order of the first rejection. -/
  since : Nat
  /-- Its place in the order in which the requests of its core took their entries: the order in which its stores update the
  core's lines (R164). -/
  stamp : Nat
  /-- The store, atomic or bank add has been performed or accepted at its home. -/
  performed : Bool
  /-- Its moment in the order of the part, against the moments of array switches (R248). -/
  born : Nat
  /-- The tag of R184: releasing SPC, offset and LPC. -/
  spc : BitVec 32
  off : Nat
  lpc : BitVec 32
deriving DecidableEq, Repr

/-- What the lane queue holds of a fetched word (R80). -/
inductive LaneFetch where
  | word (w : LaneBits)
  | fault (f : FetchFault) (va : Nat)
deriving DecidableEq, Repr

/-- One entry of the lane queue (R19, R20, R80). -/
structure QEntry where
  fetch : LaneFetch
  snap : Vector DWord 64
  spc : BitVec 32
  off : Nat
  lpc : BitVec 32
  /-- Which `vrun` of the group released it, counted. -/
  run : Nat
deriving DecidableEq, Repr

/-- What undoes one tentative scalar word (R86): the vrun before it, the scalar registers it wrote with their old values,
the old LPC. -/
structure Tentative where
  run : Nat
  regs : List (SReg × DWord)
  lpc : BitVec 32
deriving DecidableEq, Repr

/-- Tag of an asynchronous entry (R343, R227): who issued it and where. -/
structure Tag where
  team : Nat
  group : Nat
  launch : Nat
  asid : Nat
  die : Nat
  num : Nat
  point : Option (Nat × Nat × Nat)
  spc : BitVec 32
deriving DecidableEq, Repr

/-- A command block of a stack stream (R334, R341, R342). -/
structure Block where
  id : Nat
  tag : Tag
  va : Nat
  flag : Nat
  cmds : List (List Byte)
  /-- Next command. -/
  next : Nat
  started : Bool
  /-- Elements of a running `addv` that are done, and how many of them have sent their adds (R337, R347). -/
  sent : Nat
  adds : Nat
  /-- Source bytes of a running `addv` that have been read and not used, none where poisoned (R201, R337). -/
  ahead : List (Option Byte)
  /-- The translations that a running `addv` has checked and goes on with (R337, R387). -/
  pages : List TlbEntry
  /-- The first sequence number of the adds of each command, in program order (R331); it falls by those before it that turn
  out not to be sent. -/
  seqs : List (BitVec 32)
  /-- A poisoned source of the running command has been reported (R337). -/
  told : Bool
  /-- Its commands that ran through the shuffle network (R339). -/
  fell : Nat
  /-- A fence entry of the stream, not a block. -/
  fence : Bool
deriving DecidableEq, Repr

/-- What a group waits for (R73, R208). -/
inductive WaitFor where
  | registers (rs : List SReg)              -- R71
  | inFlight                                -- R72
  | tentativeRoom                           -- R86
  | laneFaultPoints                         -- R86
  | laneRetired                             -- R82, R357
  | laneRoom (n : Nat)                      -- R80
  | predicate (k : Nat)                     -- R83
  | performed (s : Scope)                   -- accesses before the word, R193, R204, R232
  | ordered (vas : List (Nat × Nat)) (write : Bool)   -- writes before an atomic, R188, R198
  | barrier (b : Nat) (phase : Bool)        -- R204, a lull point
  | dieBarrier (phase : Bool)               -- R205, a lull point
  | memory (c : AwaitCond) (a v : DWord) (s : Scope)   -- R206, a lull point
  | yield                                   -- R207, a lull point
  | fullGranules (granules : List (Nat × Nat))   -- R176, a lull point: team and granule
  | collector                               -- R52 with YLD, a lull point
  | take (obj : Nat) (corr : Bool) (va : Nat) (d : SReg)   -- R323, a lull point
  | copyRoom (q : QueueId)                  -- R215
  | copies (q : QueueId) (n : Nat)          -- R229
  | matrixRoom                              -- R255
  | batchRoom                               -- R279
  | batch (n : Option Nat)                  -- R280; none is every entry
  | puts                                    -- R321
  | blockRoom (b : Block)                   -- R341, with the block as the word has read it
  | blocks (n : Nat)                        -- R344
  | bankAdds                                -- R341
  | draws                                   -- R156, R354
  | arrays (k target : Nat) (rest : List Nat) (compute : Bool)   -- R248
  | arrayPass (team arr : Nat)              -- R174
  | mapSlot (m : Nat)                       -- R153
  | missEntry                               -- R167
  | cellQuiet                               -- R233
deriving DecidableEq, Repr

/-- A wait with the arithmetic cycles it has lasted (R209). -/
structure Wait where
  what : WaitFor
  cycles : Nat
deriving DecidableEq, Repr

/-- Registers a lane word holds until its result lands (R71, R116, R271). -/
structure Busy where
  word : Nat
  vecs : List Nat
  preds : List Nat
  sregs : List SReg
  latches : List Nat
  maps : List Nat
  /-- Lands with the last memory request of the word, not by LANE_RESULT_WRITEBACK. -/
  memory : Bool
  /-- Held by a matrix-stream entry until it is performed. -/
  matrix : Bool
deriving DecidableEq, Repr

/-- The work of one matrix-stream entry, with what it read at issue (R255, R257, R263, R271). -/
inductive MatrixOp where
  | amm (acc : Nat) (acts : List LaneVec) (tile : DWord) (fmt : DWord) (rpt : DWord) (rptField : Nat)
  | accmov (f : LaneFields) (mask : LaneMask) (acc row rnd : Nat) (draws : List Word)
  | accld (acc row : Nat) (v : LaneVec) (mask : LaneMask)
  | accclr (acc n : Nat)
  | accscl (acc : Nat) (sa : DWord) (v : LaneVec)
  | mma (type : ElemType) (func : BitVec 8) (d : Nat) (a b : List LaneVec) (fmt : DWord) (draws : List Word)
  | mmac (func : BitVec 8) (d : Nat) (a b : List LaneVec)
  | fence (id : Nat)
deriving DecidableEq, Repr

/-- The scale bytes of one operand of a matrix word: for each vector, row or column the address and the place of each byte
(R257, R270); what the entry reads there. A byte read as none is poisoned. -/
structure ScaleTable where
  places : List (List (Nat × Loc))
  bytes : List (List (Option Byte))
deriving DecidableEq, Repr

/-- One entry of a group's matrix stream (R255). -/
structure MatrixEntry where
  op : MatrixOp
  batch : Nat
  started : Bool
  word : Nat
  /-- Passes done, for a `v.amm` (R254). -/
  passes : Nat
  /-- Its scale tables, read when it starts (R200, R257, R270). -/
  ascales : ScaleTable
  bscales : ScaleTable
  /-- When it became ready to start, in the order of the part (R265), a digital word. -/
  ready : Option Nat
  /-- Its moment in the order of the part, against the moments of array switches (R248). -/
  born : Nat
  spc : BitVec 32
  off : Nat
  lpc : BitVec 32
deriving DecidableEq, Repr

/-- What a group is doing. -/
inductive GroupStatus where
  | running
  | faulted        -- stopped by a fault of its own (R361)
  | exited         -- R364
deriving DecidableEq, Repr

/-- What becomes of a rerun `vrun` (R366): its offset and the snapshot it took. -/
structure Rerun where
  off : Nat
  snap : Vector DWord 64
deriving DecidableEq, Repr

/-- Draw words that a word in replay mode has loaded before it issues, and the address of the first poisoned one (R140,
R156). -/
structure Replay where
  words : List Word
  bad : Option Nat
deriving DecidableEq, Repr

/-- A group (R26, R68, R80, R86, R255, R355). -/
structure Group where
  idx : Nat
  slot : Nat
  role : Nat
  bud : Budget
  spc : BitVec 32
  lpc : BitVec 32
  /-- Prefix payloads of the current run, in order; SPC stays at the first (R39, R40, log 6). -/
  pfx : List (BitVec 26)
  sregs : Vector DWord 64
  preds : Vector LaneMask 12
  tiles : Vector DWord 16
  /-- Unlisted vector registers, accumulators and latches hold `Config.freeLane seed` (log 5). -/
  vregs : List (Nat × LaneVec)
  accs : List (Nat × LaneVec)
  latches : List (Nat × LaneVec)
  seed : Nat
  queue : List QEntry
  tent : List Tentative
  rerun : Option Rerun
  runs : Nat
  words : Nat
  round : DWord
  rpt : DWord
  rng : DWord
  lull : DWord
  fp : DWord
  q : DWord
  fallback : DWord
  /-- Shuffle-network commands of complete blocks that the group has not observed, with the block's flag address (R339). -/
  unseen : List (Nat × Nat)
  batch : Nat
  stream : List MatrixEntry
  busy : List Busy
  /-- Scalar registers of loads and returning amos in flight (R71, R72). -/
  loads : List (Nat × SReg)
  reqs : List Req
  /-- Registrations on their way to their home slices, of granules that the group has written: team and granule (R172). -/
  regs : List (Nat × Nat)
  /-- The draw words that the word at the head of the queue has loaded (R156). -/
  replay : Option Replay
  wait : Option Wait
  laneWait : Option Wait
  /-- Empty turns still owed to a STALL field, to a word's further requests or scratchpad rows (R52, R166, R186). -/
  stall : Nat
  /-- The last lane word that issued carried YLD (R52). -/
  yld : Bool
  arrived : Option (Nat × Bool)
  arrivedDie : Option Bool
  status : GroupStatus
  /-- The group is to stop once the word it has begun completes (R361, R366). -/
  mustStop : Bool
  /-- It is to stop by a fault of its own (R361, R374). -/
  stopFault : Bool
deriving DecidableEq, Repr

/-- The mode of a charge array (R248, R250). -/
inductive ArrayMode where
  | storage | compute | toStorage | toCompute
deriving DecidableEq, Repr

/-- A duplication map: cnt and the slots S(j) (R153, R252). -/
structure DupMap where
  cnt : Nat
  slots : List Nat
deriving DecidableEq, Repr

/-- One charge array of a team. -/
structure ArrayState where
  mode : ArrayMode
  /-- The group whose pass runs on it (R238, R242). -/
  pass : Option Nat
  map : DupMap
  /-- Switches completed, and the moment of the switch that runs, in the order of the part (R248). -/
  switched : Nat
  moment : Nat
deriving DecidableEq, Repr

/-- One team barrier (R204). -/
structure Barrier where
  arrivals : Nat
  phase : Bool
deriving DecidableEq, Repr

/-- Why a team is saved (R372). -/
inductive SaveReason where
  | preempt | lull | host | dump
deriving DecidableEq, Repr

/-- A save area of a team and how far it has been written (R371, R372, R379). -/
structure SaveArea where
  pa : Nat
  length : Nat
  reason : SaveReason
  /-- Bytes written; below length the save is in progress or stopped. -/
  count : Nat
  /-- Stopped by the watchdog (R379). -/
  stopped : Bool
  /-- From the save pool, not a host-named dump address. -/
  pool : Bool
  /-- The extent of the pool that a dumped team's area has had, in use until the team has returned or gone (R415). -/
  kept : Option (Nat × Nat)
deriving DecidableEq, Repr

/-- Where a team stands. -/
inductive TeamPlace where
  | resident
  | startFailed            -- held frozen before its start (R171)
  | stopping (a : SaveArea)   -- stopped for a save, its entries draining (R366, R367)
  | saving (a : SaveArea)     -- the save area is written, the rest is under way
  | saved (a : SaveArea)      -- in the pool, or dumped
  | ending (again : Bool)     -- stopped for a flush-and-restart or a discard, its entries draining (R362, R370)
deriving DecidableEq, Repr

/-- A team (R17, R25, R169-R175, R204, R231, R361, R372). -/
structure Team where
  uid : Nat
  launch : Nat
  asid : Nat
  die : Nat
  core : Nat
  num : Nat
  /-- g in a plain launch (R287). -/
  g : Option Nat
  /-- The point of a front launch: x, y, z. -/
  point : Option (Nat × Nat × Nat)
  groups : List Group
  /-- First 16 KiB scratchpad page and page count. -/
  page : Nat
  pages : Nat
  window : Nat
  /-- Backing memory of each page (R171). -/
  backing : List Loc
  /-- Scratchpad bytes that something has written; others are undefined (R170, log 5). -/
  pad : List Host.Cell
  written : List Nat
  /-- Written granules that no home slice's directory has registered yet (R172). -/
  unregistered : List Nat
  full : List Nat
  arrays : List ArrayState
  maps : List (Nat × DupMap)
  bars : List Barrier
  /-- Cell id and member index. -/
  cell : Option (Nat × Nat)
  /-- Its mappings are revoked; the member index is not free yet (R233). -/
  leaving : Bool
  place : TeamPlace
  frozen : Bool
  posted : Bool
  /-- Draining since this wall clock (R368). -/
  drain : Option Nat
  /-- Every group has exited; the end of R365 is under way. -/
  ending : Bool
  /-- In a lull, since when, with the awaited conditions of its groups (R208, R212). -/
  lull : Bool
  lullAt : Nat
  lullWaits : List (Nat × WaitFor)
  /-- The moment from which a condition the team awaits in its lull has held (R212). -/
  metAt : Option Nat
  /-- Thawing since (R212). -/
  thawing : Option Nat
  /-- Offered for restore after a pre-emption or a host action (R294, R362). -/
  restoring : Bool
  /-- Wall clock of its last placement (R297). -/
  placedAt : Nat
  /-- Wall clock of the last retired scalar word, or of what last restarted the period since it (R378). -/
  watch : Nat
  /-- Wall clock from which the period of a save that runs counts (R378). -/
  saveSince : Nat
  /-- A frozen team's watchdog has reported once (R378). -/
  watchReported : Bool
deriving DecidableEq, Repr

/-- One role or the single budget set of a header (R65, R66). -/
structure Role where
  spc : BitVec 32
  lpc : BitVec 32
  bud : Budget
  groups : Nat
deriving DecidableEq, Repr

/-- Volatile ranges of a header (R65). -/
structure Volatile where
  v : Option (Nat × Nat)
  s : Option (Nat × Nat)
  t : Option (Nat × Nat)
  a : Option (Nat × Nat)
  p : Option (Nat × Nat)
deriving DecidableEq, Repr, Inhabited

/-- A front descriptor (R298). -/
structure FrontDesc where
  rank : Nat
  deps : List (Int × Int × Int)
deriving DecidableEq, Repr, Inhabited

/-- A kernel header (R65, R66), budgets rounded (R26). -/
structure Header where
  scalBase : Nat
  laneBase : Nat
  scalLen : Nat
  laneLen : Nat
  team : Nat
  progress : Nat
  scratch : Nat
  arrays : Nat
  idempotent : Bool
  energy : Nat
  affinity : Nat
  roles : List Role
  roleCount : Nat
  vol : Volatile
  front : Option FrontDesc
deriving DecidableEq, Repr, Inhabited

/-- A launch record (R282). -/
structure Record where
  done : Nat
  hand : Nat
  succ : Nat
  win : Nat
  x : Nat
  y : Nat
  z : Nat
  args : DWord
  header : Nat
  front : Bool
  dies : Nat
  asid : Nat
  cls : Nat
deriving DecidableEq, Repr, Inhabited

/-- A live line of a front (R299, R300). -/
structure FrontLine where
  line : Nat
  w : Nat
  comp : BitVec 64
  flight : BitVec 64
deriving DecidableEq, Repr

/-- The front of a launch (R299-R304). -/
structure Front where
  die : Option Nat
  entries : Nat
  next : Nat
  done : Nat
  lines : List FrontLine
  /-- The launch holds its reserved entries (R299). -/
  reserved : Bool
  /-- Fired points whose team is not placed: line and inner index. -/
  offered : List (Nat × Nat)
deriving DecidableEq, Repr

/-- The die barrier of a launch (R205). -/
structure DieBarrier where
  die : Nat
  count : Nat
  phase : Bool
  exited : Nat
deriving DecidableEq, Repr

/-- How far a launch has come (R290-R292). -/
inductive LaunchStage where
  | active
  | completed                                 -- done added or refused; the handoff or the successor is next
  | handing (left : List Nat)                 -- handoff copies by their entry ids
  | releasing                                 -- the successor may be released
  | cancelled
  | saving (rec : Option (Nat × Nat))         -- being saved whole, its front record's place in the pool taken
  | saved (rec : Option (Nat × Nat))          -- whole launch saved (R376, R399): address and length of the front record
deriving DecidableEq, Repr

/-- An accepted launch that has not ended (R284, R287-R292). -/
structure Launch where
  id : Nat
  asid : Nat
  record : Record
  header : Header
  dies : List Nat
  /-- Wall clock of acceptance or release, and its order among launches (R295). -/
  age : Nat
  order : Nat
  /-- Teams offered for the first time so far, by die (R287). -/
  placed : List (Nat × Nat)
  /-- Teams to offer again (R370). -/
  again : List Nat
  ended : Nat
  front : Option Front
  bars : List DieBarrier
  stage : LaunchStage
  /-- Waiting for room on a die since (R297). -/
  waits : List (Nat × Nat)
deriving DecidableEq, Repr

/-- A copy descriptor as `cpy` read it (R219-R223). -/
structure CopyDesc where
  c0 : DWord
  c1 : DWord
  geo : DWord
  st : DWord
  /-- The completion flag's address; none for a copy without flag. -/
  flag : Option DWord
  skind : Bool
  dkind : Bool
  /-- Granules of a dense one-dimensional handoff copy, in place of the geometry word (R291). -/
  dense : Option Nat
deriving DecidableEq, Repr

/-- How far a copy has come: granules moved, and whether a failing source and a refused write were reported (R227); for
extents that overlap, its first free value and what its own writes replaced (R222). -/
structure CopyStep where
  moved : Nat
  readTold : Bool
  writeTold : Bool
  luck : Nat
  was : List (Place × List Byte)
deriving DecidableEq, Repr

/-- One entry of a copy queue (R215). -/
inductive CopyItem where
  /-- `owner`: team and group, none for a handoff copy; `step`: none before the start. -/
  | copy (id : Nat) (owner : Option (Nat × Nat)) (launch asid die core : Nat) (d : CopyDesc) (spc : BitVec 32)
      (step : Option CopyStep)
  | fence (id : Nat)
deriving DecidableEq, Repr

/-- A contribution of a reduction stream (R320). -/
structure Put where
  id : Nat
  tag : Tag
  obj : Nat
  /-- The object's open order, to tell a reopened id. -/
  born : Nat
  idx : Nat
  src : Nat
  fence : Bool
deriving DecidableEq, Repr

/-- A reduction object (R310-R315), with the descriptor it was opened with and which opening of its id in the launch it is
(R325). -/
structure RedObj where
  launch : Nat
  id : Nat
  born : Nat
  desc : List Byte
  turn : Nat
  op : Nat
  ncon : Nat
  len : Nat
  t0 : Nat
  dl : Nat
  corr : Nat
  peer : Bool
  leaves : List (Nat × List Word)
  early : BitVec 64
  union : BitVec 64
  drops : Nat
  closed : Bool
  windowOver : Bool
  earlyResult : Option (List Word)
  corrected : Option (List Word)
  /-- Takes accepted and not delivered: team and group. -/
  takers : List (Nat × Nat)
deriving DecidableEq, Repr

/-- What this part has heard of an object of its peer set before it has opened it: launch, id, which opening of the id, and the
descriptor it has there (R325). -/
structure PeerOpen where
  launch : Nat
  obj : Nat
  head : PeerHead
deriving DecidableEq, Repr

/-- A bank add on its way or accepted (R330-R332). -/
structure BankAdd where
  tag : Tag
  seq : BitVec 32
  va : Nat
  pa : Nat
  /-- Its home die (R159, R198). -/
  home : Nat
  float : Bool
  value : Word
  accepted : Bool
  /-- Accepted in deterministic mode: buffered (R332, R338). -/
  held : Bool
  /-- Its moment in the order of the part, against the moments of array switches (R248). -/
  born : Nat
  /-- The group's word that sent it, and the core whose mapping table it passes (R162); none for an `addv`. -/
  word : Option Nat
  core : Option Nat
  /-- The command block of an `addv`, with its address. -/
  block : Option (Nat × Nat)
  off : Nat
  lpc : BitVec 32
deriving DecidableEq, Repr

/-- A core (R15, R163, R164, R160, R215). -/
structure Core where
  die : Nat
  core : Nat
  l1 : List CacheBlock
  scalar : List CacheBlock
  tlb : List TlbEntry
  queues : List (List CopyItem)
deriving DecidableEq, Repr

/-- A die 0 to 7 (R10, R160, R215, R295, R299, R356, R380). -/
structure Die where
  /-- Cycles since its reset, in thousandths. -/
  clk : Nat
  mhz : Nat
  stale : Nat
  tlb : List TlbEntry
  /-- Translation buffers of its two base dies, dies 4 to 7 (R328). -/
  base : List (List TlbEntry)
  dd : List (List CopyItem)
  budget : Nat
  left : Int
  /-- Charges of the window so far, by class. -/
  spent : List (Nat × Nat)
deriving DecidableEq, Repr

/-- One 64-byte entry of the ASID table as eight words, and the held words of a commit (R386, R417). -/
structure Slot where
  words : List DWord
  held : List (Option DWord)
deriving DecidableEq, Repr

/-- State of a stack channel (R345). -/
inductive ChannelState where
  | up | down | selfRefresh
deriving DecidableEq, Repr

/-- A channel with its pending request and the wall clock of the request. -/
structure Channel where
  ch : Nat
  state : ChannelState
  pending : Option (ChannelState × Nat)
deriving DecidableEq, Repr

/-- What the device reports to the host beside the fault rings (R13, R284, R291, R292, R295, R345, R380, R392, R393). -/
inductive Report where
  | unit (u : Nat) | calibration (die : Nat) | noise (core : Nat) | power (word : DWord) | brokenPin (die : Nat)
  | refusedRecord (cls code : Nat) | discarded (launch team : Nat) | refusedWrite (off : Nat)
  | memory (pa : Nat) | channel (ch : Nat) | issuerRetired (launch : Nat)
deriving DecidableEq, Repr

/-- The control page (R385). -/
structure Control where
  calibrated : BitVec 8
  /-- Dies that failed calibration (R391). -/
  failed : BitVec 8
  trained : Bool
  booted : Bool
  noiseFailed : Bool
  window : DWord
  udp : DWord
  pin : DWord
  wdog : DWord
  pool : DWord
  poolsz : DWord
  /-- Invalidation under way (R387). -/
  inval : Option DWord
  act : DWord
  act8 : DWord
  act16 : DWord
  actRefused : Bool
  /-- The teams that actions are moving, until they have come to rest (R388). -/
  acting : List Nat
  /-- counts: reduction drops of freed objects, refused power requests. -/
  drops : BitVec 32
  refusedPower : BitVec 32
deriving DecidableEq, Repr

/-- A message on the fabric that a die reset has cut off (R380, R381): a request of the die, or a response to it, with the
generation it carries. -/
structure FabricMsg where
  receiver : Nat
  sender : Nat
  gen : BitVec 4
  response : Bool
deriving DecidableEq, Repr

/-- Refused and dropped records per class (R284-R286). -/
structure Refusals where
  cls : Nat
  malformed : Nat
  tag : Nat
  notOpen : Nat
  full : Nat
deriving DecidableEq, Repr

/-- What the next step does (log 1): a row of the table, a scalar turn, a lane turn, or wall time passing. -/
inductive Sched where
  | instr (i : Instr)
  | scalar (t g : Nat)
  | lane (t g : Nat)
  | tick (ns : Nat)
deriving DecidableEq, Repr

/-- A byte of memory as it was before a write, and the launches that were running then: what they fetch there is the old
or the new contents (R33). -/
structure OldByte where
  launches : List Nat
  loc : Loc
  byte : Byte
deriving DecidableEq, Repr

/-- The whole part. -/
structure State where
  /-- The MODEL's own: what happens next, and whose turn it is (log 1). -/
  agenda : List Sched
  cur : Option (Nat × Nat)
  /-- The MODEL's own: whose turn comes next when nothing stands in the agenda (log 1). -/
  beat : Nat
  /-- The MODEL's own: the counter of the free values (log 2). -/
  freeCtr : Nat
  /-- The MODEL's own: the counter that names teams, entries and objects (log 1). -/
  nextUid : Nat
  wallNs : Nat
  mem : Memory
  hostMem : Memory
  /-- The host-side safe tier of checkpoints (R390). -/
  safeTier : Memory
  /-- The moment by which the checkpoint under way is over (R390). -/
  checkpoint : Option Nat
  /-- Bytes overwritten while launches ran, for their fetches (R33). -/
  overwritten : List OldByte
  /-- Poisoned 64-byte lines of DRAM (R418). -/
  poison : List Nat
  /-- Poisoned 64-byte lines of host memory, that copies have written there (R227). -/
  hostPoison : List Nat
  control : Control
  asids : List (Nat × Slot)
  classes : List (Nat × Slot)
  nextLaunch : Nat
  refusals : List Refusals
  launches : List Launch
  teams : List Team
  blocks : List Block
  puts : List Put
  objects : List RedObj
  /-- Descriptors of peer objects heard from other parts (R325). -/
  peerOpens : List PeerOpen
  /-- How often each id of a launch has been opened with peer = 1 (R325). -/
  opens : List ((Nat × Nat) × Nat)
  adds : List BankAdd
  /-- The last-level cache slices (R163, R164). -/
  slices : List SliceBlock
  /-- Sequence numbers of the groups that have sent bank adds (R331). -/
  seqs : List ((Nat × Nat) × BitVec 32)
  /-- ASIDs in deterministic mode (R332). -/
  detMode : List Nat
  channels : List Channel
  gated : List Nat
  cores : List Core
  dies : List Die
  /-- Reset generations of dies 0 to 8 (R380). -/
  gens : List (BitVec 4)
  /-- Messages of a reset die that are still on the fabric (R381). -/
  fabric : List FabricMsg
  reports : List Report
  /-- MSI-X vector 0 signals (R360). -/
  interrupts : Nat
  measurements : List (List Byte)
  /-- The last answer to an SPDM request (R394), the last bytes a host read returned, none where poisoned (R418). -/
  attestation : List Byte
  hostRead : Option (List Byte)
deriving DecidableEq, Repr

/-- A die after a full reset (R391): 350 MHz, counts 0; the energy figures are log 4's. -/
def Die.reset : Die := { clk := 0, mhz := 350, stale := 0, tlb := [], base := [], dd := [], budget := 0, left := 0, spent := [] }

/-- The control page after a reset (R382 item 3, R385); act words and counts are log 4's. -/
def Control.reset : Control :=
  { calibrated := 0, failed := 0, trained := false, booted := false, noiseFailed := false, window := 0, udp := 0, pin := 0, wdog := 0,
    pool := 0, poolsz := 0, inval := none, act := 0, act8 := 0, act16 := 0, actRefused := false, acting := [], drops := 0,
    refusedPower := 0 }

/-- The part right after a full reset (R284, R353, R356, R380, R382, R391). -/
def State.reset : State :=
  { agenda := [], cur := none, beat := 0, freeCtr := 0, nextUid := 0, wallNs := 0, mem := [], hostMem := [], safeTier := [],
    checkpoint := none,
    overwritten := [], poison := [], hostPoison := [], control := .reset, asids := [], classes := [], nextLaunch := 0, refusals := [], launches := [],
    teams := [], blocks := [], puts := [], objects := [], peerOpens := [], opens := [], adds := [], slices := [],
    seqs := [], detMode := [], channels := [],
    gated := [], cores := [], dies := List.replicate 8 .reset, gens := List.replicate 9 0, fabric := [], reports := [],
    interrupts := 0, measurements := [], attestation := [], hostRead := none }

end Sys2Proof.Machine
end

