-- ==== Sys2Proof/Machine/Mem.lean ====
section
/-! DEFINITION. Bytes, little-endian numbers (R2), memories in their canonical form, scratchpad contents. -/
namespace Sys2Proof.Machine

/-- The little-endian bytes of a number (R2). -/
def leBytes (n : Nat) : Nat → List Byte
  | 0 => []
  | k + 1 => BitVec.ofNat 8 n :: leBytes (n / 256) k

/-- The number little-endian bytes stand for (R2). -/
def ofBytes : List Byte → Nat
  | [] => 0
  | b :: bs => b.toNat + 256 * ofBytes bs

/-- The byte at an address; 0 where nothing is listed (log 3). -/
def Memory.get : Memory → Nat → Byte
  | [], _ => 0
  | (x, y) :: m, a => if a = x then y else Memory.get m a

/-- Write one byte, keeping the canonical form. -/
def Memory.set : Memory → Nat → Byte → Memory
  | [], a, b => if b = 0 then [] else [(a, b)]
  | (x, y) :: m, a, b =>
    if a < x then (if b = 0 then (x, y) :: m else (a, b) :: (x, y) :: m)
    else if a = x then (if b = 0 then m else (a, b) :: m)
    else (x, y) :: Memory.set m a b

/-- The canonical form: addresses strictly rising from `lo`, no byte 0. -/
def Memory.wfFrom : Nat → Memory → Bool
  | _, [] => true
  | lo, (x, y) :: m => decide (lo ≤ x) && decide (y ≠ 0) && Memory.wfFrom (x + 1) m

/-- The canonical form of a memory. -/
def Memory.wf (m : Memory) : Bool := Memory.wfFrom 0 m

/-- n bytes from an address. -/
def Memory.read (m : Memory) (a n : Nat) : List Byte := (List.range n).map fun i => m.get (a + i)

/-- Write bytes from an address. -/
def Memory.write (m : Memory) (a : Nat) : List Byte → Memory
  | [] => m
  | b :: bs => Memory.write (m.set a b) (a + 1) bs

/-- The byte a scratchpad holds at an offset, if something has written it. -/
def padGet : List Host.Cell → Nat → Option Byte
  | [], _ => none
  | (x, y) :: m, a => if a = x then some y else padGet m a

/-- Write one scratchpad byte; offsets stay rising. -/
def padSet : List Host.Cell → Nat → Byte → List Host.Cell
  | [], a, b => [(a, b)]
  | (x, y) :: m, a, b =>
    if a < x then (a, b) :: (x, y) :: m else if a = x then (a, b) :: m else (x, y) :: padSet m a b

/-- Insert a number in a rising list, once. -/
def insertNat : List Nat → Nat → List Nat
  | [], a => [a]
  | x :: l, a => if a < x then a :: x :: l else if a = x then x :: l else x :: insertNat l a

/-- Device memory ends at 800 GB (R10, R384). -/
def dramBytes : Nat := 800 * 10 ^ 9

/-- The memory of a place. -/
def State.memOf (s : State) (host : Bool) : Memory := if host then s.hostMem else s.mem

/-- The byte at a place. -/
def State.byteAt (s : State) (l : Loc) : Byte := (s.memOf l.host).get l.addr

/-- Write one byte at a place. -/
def State.setByte (s : State) (l : Loc) (b : Byte) : State :=
  if l.host then { s with hostMem := s.hostMem.set l.addr b } else { s with mem := s.mem.set l.addr b }

/-- n bytes from a place. -/
def State.bytesAt (s : State) (l : Loc) (n : Nat) : List Byte := (s.memOf l.host).read l.addr n

/-- Write bytes from a place. -/
def State.setBytes (s : State) (l : Loc) (bs : List Byte) : State :=
  if l.host then { s with hostMem := s.hostMem.write l.addr bs } else { s with mem := s.mem.write l.addr bs }

/-- A place further on. -/
def Loc.plus (l : Loc) (n : Nat) : Loc := { l with addr := l.addr + n }

/-- A place holds poison (R227, R418): its 64-byte line does, of DRAM or of host memory. -/
def State.poisoned (s : State) (l : Loc) : Bool := (if l.host then s.hostPoison else s.poison).contains (l.addr / 64)

/-- The line of a place becomes poisoned (R227, R418). -/
def State.poisonLine (s : State) (l : Loc) : State :=
  if l.host then { s with hostPoison := insertNat s.hostPoison (l.addr / 64) }
  else { s with poison := insertNat s.poison (l.addr / 64) }

/-- Bits [hi:lo] of a double word as a number. -/
def field (w : DWord) (lo len : Nat) : Nat := bits w.toNat lo len

/-- Replace the first element that satisfies a test. -/
def replaceFirst (p : α → Bool) (x : α) : List α → List α
  | [] => []
  | y :: l => if p y then x :: l else y :: replaceFirst p x l

/-- Entries of an association list. -/
def assoc (l : List (Nat × α)) (k : Nat) : Option α := (l.find? (·.1 = k)).map (·.2)

/-- Set an entry of an association list kept in rising key order. -/
def assocSet : List (Nat × α) → Nat → α → List (Nat × α)
  | [], k, v => [(k, v)]
  | (x, y) :: l, k, v => if k < x then (k, v) :: (x, y) :: l else if k = x then (k, v) :: l else (x, y) :: assocSet l k v

/-- Drop an entry of an association list. -/
def assocDel (l : List (Nat × α)) (k : Nat) : List (Nat × α) := l.filter (·.1 ≠ k)

end Sys2Proof.Machine
end

