-- ==== Sys2Proof/Machine/Ops.lean ====
section
/-! DEFINITION. The named operations on registers, groups, teams and tables; taking a fault (R357 to R361, R386) and
the shared mould of the scalar words (R26, R71, R86). -/
namespace Sys2Proof.Machine

/-- The outcome of a step of this machine. -/
abbrev Out := Host.Outcome State Fault Refusal

/-- Continue after an outcome. -/
def andThen (o : Out) (f : State → Out) : Out :=
  match o with
  | .next s => f s
  | .fault r => .fault r
  | .refused r => .refused r

/-! ## Registers -/

/-- Read a scalar register; s0 reads zero (R26). -/
def Group.sget (G : Group) (r : SReg) : DWord := if r = 0 then 0 else G.sregs[r.toNat]'r.isLt

/-- Write a scalar register; a write of s0 is discarded (R26). -/
def Group.sset (G : Group) (r : SReg) (x : DWord) : Group :=
  if r = 0 then G else { G with sregs := G.sregs.set r.toNat x r.isLt }

/-- Undefined bits of vector register i (R68). -/
def freeVec (seed i : Nat) : LaneVec := (List.range laneCount).map (Config.freeLane seed i)

/-- The 96 elements of vector register i. -/
def Group.vget (G : Group) (i : Nat) : LaneVec := (assoc G.vregs i).getD (freeVec G.seed i)

/-- Write a vector register. -/
def Group.vset (G : Group) (i : Nat) (v : LaneVec) : Group := { G with vregs := assocSet G.vregs i v }

/-- The 512 values of accumulator i, row by row (R246). -/
def Group.aget (G : Group) (i : Nat) : LaneVec :=
  (assoc G.accs i).getD ((List.range 512).map (Config.freeLane G.seed (256 + i)))

/-- Write an accumulator. -/
def Group.aset (G : Group) (i : Nat) (v : LaneVec) : Group := { G with accs := assocSet G.accs i v }

/-- The elements of latch k + 1 (R93). -/
def Group.lget (G : Group) (k : Nat) : LaneVec := (assoc G.latches k).getD (freeVec G.seed (264 + k))

/-- Write a latch. -/
def Group.lset (G : Group) (k : Nat) (v : LaneVec) : Group := { G with latches := assocSet G.latches k v }

/-- Element l of a vector. -/
def elem (v : LaneVec) (l : Nat) : Word := v.getD l 0

/-- A predicate register. -/
def Group.pget (G : Group) (k : Fin 12) : LaneMask := G.preds[k.val]'k.isLt

/-- Write a predicate register. -/
def Group.pset (G : Group) (k : Fin 12) (m : LaneMask) : Group := { G with preds := G.preds.set k.val m k.isLt }

/-- A tile register (R245). -/
def Group.tget (G : Group) (k : BitVec 4) : DWord := G.tiles[k.toNat]'k.isLt

/-- Write a tile register. -/
def Group.tset (G : Group) (k : BitVec 4) (x : DWord) : Group := { G with tiles := G.tiles.set k.toNat x k.isLt }

/-- The activity mask of three mask registers (R69). -/
def maskOf (m0 m1 m2 : DWord) : LaneMask := (m2.setWidth 32 ++ m1.setWidth 32 ++ m0.setWidth 32).cast (by decide)

/-- The mask of a group in program order (R69). -/
def Group.mask (G : Group) : LaneMask := maskOf (G.sget 61) (G.sget 62) (G.sget 63)

/-- Write the mask; bits [63:32] of s61 to s63 become 0 (R83). -/
def Group.setMask (G : Group) (m : LaneMask) : Group :=
  ((G.sset 61 ((m.extractLsb' 0 32).setWidth 64)).sset 62 ((m.extractLsb' 32 32).setWidth 64)).sset 63
    ((m.extractLsb' 64 32).setWidth 64)

/-- The mask registers s61 to s63. -/
def maskRegs : List SReg := [61, 62, 63]

/-! ## Groups, teams, launches, cores, dies -/

/-- A team by its identity number. -/
def State.team (s : State) (t : Nat) : Option Team := s.teams.find? (·.uid = t)

/-- Put a team back. -/
def State.putTeam (s : State) (T : Team) : State :=
  { s with teams := s.teams.map fun x => if x.uid = T.uid then T else x }

/-- A group of a team by its index. -/
def Team.group (T : Team) (g : Nat) : Option Group := T.groups.find? (·.idx = g)

/-- Put a group back into its team. -/
def Team.putGroup (T : Team) (G : Group) : Team :=
  { T with groups := T.groups.map fun x => if x.idx = G.idx then G else x }

/-- Change the team with an identity number. -/
def State.modTeam (s : State) (uid : Nat) (f : Team → Team) : State :=
  { s with teams := s.teams.map fun x => if x.uid = uid then f x else x }

/-- Put a group of a team back. -/
def State.put (s : State) (T : Team) (G : Group) : State := s.modTeam T.uid (·.putGroup G)

/-- A group with its team. -/
def State.find (s : State) (t g : Nat) : Option (Team × Group) :=
  match s.team t with
  | none => none
  | some T => (T.group g).map fun G => (T, G)

/-- The group whose turn it is. -/
def State.current (s : State) : Option (Team × Group) :=
  match s.cur with
  | none => none
  | some (t, g) => s.find t g

/-- A launch by its id. -/
def State.launch (s : State) (id : Nat) : Option Launch := s.launches.find? (·.id = id)

/-- Put a launch back. -/
def State.putLaunch (s : State) (L : Launch) : State :=
  { s with launches := s.launches.map fun x => if x.id = L.id then L else x }

/-- A die. -/
def State.die (s : State) (d : Nat) : Die := s.dies.getD d .reset

/-- Put a die back. -/
def State.putDie (s : State) (d : Nat) (D : Die) : State := { s with dies := s.dies.set d D }

/-- A core that holds nothing. -/
def Core.empty (d c : Nat) : Core := { die := d, core := c, l1 := [], scalar := [], tlb := [], queues := [] }

/-- A core. -/
def State.core (s : State) (d c : Nat) : Core := (s.cores.find? fun x => x.die = d && x.core = c).getD (.empty d c)

/-- Put a core back. -/
def State.putCore (s : State) (C : Core) : State :=
  { s with cores := C :: s.cores.filter fun x => !(x.die = C.die && x.core = C.core) }

/-- Cores of a die (R10). -/
def coresOf (d : Nat) : Nat := if d < 4 then 96 else 64

/-- The global core number (R16). -/
def globalCore (d c : Nat) : Nat := if d < 4 then 96 * d + c else 384 + 64 * (d - 4) + c

/-- A die's cycle count, `clk` (R356). -/
def State.clock (s : State) (d : Nat) : Nat := (s.die d).clk / 1000 % 2 ^ 64

/-- A fresh value of the free-value counter (log 2). -/
def State.bump (s : State) (n : Nat) : State := { s with freeCtr := s.freeCtr + n }

/-- `id.point` of a point (R356). -/
def pointWord (p : Option (Nat × Nat × Nat)) : Nat :=
  match p with
  | none => 0
  | some (x, y, z) => x % 2 ^ 21 + 2 ^ 21 * (y % 2 ^ 21) + 2 ^ 42 * (z % 2 ^ 21)

/-- A live group has not exited (R204). -/
def Group.live (G : Group) : Bool := G.status != .exited

/-- Live groups of a team. -/
def Team.liveCount (T : Team) : Nat := (T.groups.filter Group.live).length

/-! ## The ASID table (R386) -/

/-- A word of a table entry. -/
def Slot.word (e : Slot) (i : Nat) : DWord := e.words.getD i 0

/-- The configured entry that names an address space, with its slot number. -/
def State.asidSlot (s : State) (asid : Nat) : Option (Nat × Slot) :=
  s.asids.find? fun e => field (e.2.word 0) 11 1 = 1 && field (e.2.word 0) 16 16 = asid

/-- The address space is resident (R158, R386). -/
def State.resident (s : State) (asid : Nat) : Bool :=
  match s.asidSlot asid with
  | none => false
  | some e => field (e.2.word 0) 8 1 = 1

/-- Put an ASID slot back. -/
def State.putSlot (s : State) (i : Nat) (e : Slot) : State := { s with asids := assocSet s.asids i e }

/-- Replace a 32-bit half of a word of an entry. -/
def Slot.setHalf (e : Slot) (i : Nat) (high : Bool) (x : Nat) : Slot :=
  let w := (e.word i).toNat
  let w' := if high then w % 2 ^ 32 + 2 ^ 32 * (x % 2 ^ 32) else w / 2 ^ 32 * 2 ^ 32 + x % 2 ^ 32
  { e with words := e.words.set i (BitVec.ofNat 64 w') }

/-! ## Trap records (R358-R361, R386, R416) -/

/-- Class and cause codes of the faults (R358, R359). -/
inductive FaultKind where
  | illegalEncoding | illegalConvergence
  | nonCanonical | notMapped
  | noRead | noWrite | noExecute | beyondSection | badCopy | notDeclared | badCellId | inAnotherCell | dieBarrierInFront
  | badFormatBlock | badTicket | noObject | badContributor | badBlock | notStackHomed | notBankAddable | noPoint
  | scratchBounds | ldcScratch
  | misaligned | arrayBusy | cellRevoked | tileBounds | notCalibrated | lullRestore | watchdog | memory | storeFault
  | softwareTrap | debugStop
deriving DecidableEq, Repr

/-- Class and cause (R358, R359). -/
def FaultKind.codes : FaultKind → Nat × Nat
  | .illegalEncoding => (0, 0) | .illegalConvergence => (1, 0)
  | .nonCanonical => (2, 0) | .notMapped => (2, 1)
  | .noRead => (3, 0) | .noWrite => (3, 1) | .noExecute => (3, 2) | .beyondSection => (3, 3) | .badCopy => (3, 4)
  | .notDeclared => (3, 5) | .badCellId => (3, 6) | .inAnotherCell => (3, 7) | .dieBarrierInFront => (3, 8)
  | .badFormatBlock => (3, 9) | .badTicket => (3, 10) | .noObject => (3, 11) | .badContributor => (3, 12)
  | .badBlock => (3, 13) | .notStackHomed => (3, 14) | .notBankAddable => (3, 15) | .noPoint => (3, 16)
  | .scratchBounds => (3, 17) | .ldcScratch => (3, 18)
  | .misaligned => (4, 0) | .arrayBusy => (5, 0) | .cellRevoked => (6, 0) | .tileBounds => (7, 0)
  | .notCalibrated => (8, 0) | .lullRestore => (9, 0) | .watchdog => (10, 0) | .memory => (11, 0)
  | .storeFault => (12, 0) | .softwareTrap => (13, 0) | .debugStop => (14, 0)

/-- A fault as a word raises it: kind, kind of access (R360), address, aux, lane. -/
structure Trap where
  kind : FaultKind
  acc : Nat := 0
  addr : Nat := 0
  aux : Nat := 0
  lane : Nat := 0xFF
deriving DecidableEq, Repr

/-- The fields of a trap record (R360). -/
structure TrapRecord where
  kind : FaultKind
  die : Nat
  flags : Nat
  extra : Nat := 0
  acc : Nat
  off : Nat
  lane : Nat
  group : Nat
  core : Nat
  team : Nat
  asid : Nat
  launch : Nat
  time : Nat
  spc : Nat
  lpc : Nat
  point : Nat
  aux : Nat
  addr : Nat
deriving DecidableEq, Repr

/-- The 64 bytes of a trap record (R360). -/
def TrapRecord.bytes (r : TrapRecord) : List Byte :=
  let c := r.kind.codes
  leBytes (0x4652 + 2 ^ 16 * (r.die % 256) + 2 ^ 32 * c.1 + 2 ^ 40 * r.flags + 2 ^ 48 * c.2 + 2 ^ 64 * (r.extra % 2 ^ 16) +
    2 ^ 80 * r.acc + 2 ^ 88 * (r.off % 256) + 2 ^ 96 * (r.lane % 256) + 2 ^ 104 * (r.group % 256) +
    2 ^ 112 * (r.core % 2 ^ 16) + 2 ^ 128 * (r.team % 2 ^ 16) + 2 ^ 144 * (r.asid % 2 ^ 16) +
    2 ^ 160 * (r.launch % 2 ^ 32) + 2 ^ 192 * (r.time % 2 ^ 64) + 2 ^ 256 * (r.spc % 2 ^ 32) + 2 ^ 288 * (r.lpc % 2 ^ 32) +
    2 ^ 320 * (r.point % 2 ^ 64) + 2 ^ 384 * (r.aux % 2 ^ 64) + 2 ^ 448 * (r.addr % 2 ^ 64)) 64

/-- Append a record to the fault queue of an address space and signal the host; a full ring counts and drops it, and
an address space that is not configured has no queue (R360, R382, R386). -/
def report (s : State) (r : TrapRecord) : Out :=
  match s.asidSlot r.asid with
  | none => .next s
  | some (i, e) =>
    let fqd := field (e.word 3) 0 32
    let fqc := field (e.word 3) 32 32
    let fqp := field (e.word 4) 0 32
    let fqn := field (e.word 4) 32 32
    if fqn = 0 || (fqp + 2 ^ 32 - fqc) % 2 ^ 32 = fqn then
      .next (s.putSlot i (e.setHalf 3 false (min (fqd + 1) (2 ^ 32 - 1))))
    else
      let a := (e.word 5).toNat + 64 * (fqp % fqn)
      if dramBytes < a + 64 then .fault (.noSuchDramAddress a)
      else
        let s1 := s.setBytes ⟨false, a⟩ r.bytes
        .next { s1.putSlot i (e.setHalf 4 false (fqp + 1)) with interrupts := s1.interrupts + 1 }

/-- The record of a group's fault on dies 0 to 7 (R360). -/
def groupRecord (s : State) (T : Team) (g : Nat) (t : Trap) (flags spc off lpc : Nat) : TrapRecord :=
  { kind := t.kind, die := T.die, flags := flags, acc := t.acc, off := off, lane := t.lane, group := g,
    core := globalCore T.die T.core, team := T.num, asid := T.asid, launch := T.launch, time := s.clock T.die, spc := spc,
    lpc := lpc, point := pointWord T.point, aux := t.aux, addr := t.addr }

/-- The record of die 8 about a team or a launch (R416). -/
def dispatcherRecord (s : State) (T : Option Team) (asid launch : Nat) (t : Trap) (flags : Nat) : TrapRecord :=
  { kind := t.kind, die := (T.map (·.die)).getD 0xFF, flags := flags + 8, acc := t.acc, off := 0xFF, lane := 0xFF,
    group := 0xFF, core := 0xFFFF, team := (T.map (·.num)).getD 0xFFFF, asid := asid, launch := launch, time := s.wallNs,
    spc := 0xFFFFFFFF, lpc := 0xFFFFFFFF, point := (T.map fun T => pointWord T.point).getD 0, aux := t.aux, addr := t.addr }

/-- Undo the tentative scalar words (R86, R87). -/
def Group.undo (G : Group) : Group :=
  { G.tent.foldr (fun t G => { t.regs.foldr (fun p G => G.sset p.1 p.2) G with lpc := t.lpc }) G with tent := [] }

/-- The request of an `amo` at which the group waits, which has not acted, is withdrawn (R167, R366). -/
def Group.withdraw (G : Group) : Group :=
  { G with reqs := G.reqs.filter fun r => r.performed || decide (r.word ≤ G.words) }

/-- A lane atomic or a store to the own core's scratchpads of a word that has issued is rejected and has not acted: words of the
group that follow it and act beyond the scalar registers wait for it (R167, R188; DESIGN CHOICE, log 7). -/
def Group.heldBack (G : Group) : Bool :=
  G.reqs.any fun r => !r.entry && !r.performed && decide (r.word ≤ G.words) && (r.atom.isSome || r.pads ≠ [])

/-- The word a group waits at has begun to act and completes before a stop (R366). -/
def WaitFor.begun : WaitFor → Bool
  | .copies .. | .batch .. | .puts | .blocks .. | .blockRoom _ | .arrays .. | .cellQuiet => true
  | _ => false

/-- A running group waits at a word that has begun to act. -/
def Group.begun (G : Group) : Bool := (G.wait.map (·.what.begun)).getD false

/-- The group observes some of its complete blocks: their shuffle-network commands enter `st.fallback` (R339). -/
def Group.observe (G : Group) (sees : Nat × Nat → Bool) : Group :=
  { G with fallback := BitVec.ofNat 64 (min (G.fallback.toNat + ((G.unseen.filter sees).map (·.1)).sum) (2 ^ 32 - 1)),
           unseen := G.unseen.filter fun u => !sees u }

/-- Stop a group at its stop point (R366): the next scalar word, or the oldest `vrun` with an unissued word, to be
rerun from that word. A word that has begun to act completes first. -/
def Group.stop (G : Group) : Group :=
  if G.status != .running then G
  else if G.begun then { G with mustStop := true }
  else
    match G.queue with
    | [] => { G.withdraw with tent := [], pfx := [], wait := none, laneWait := none, replay := none, mustStop := false }
    | e :: _ =>
      { G.undo with spc := e.spc, lpc := e.lpc, rerun := some ⟨e.off, e.snap⟩, queue := [], pfx := [], wait := none,
                    laneWait := none, replay := none, mustStop := false }

/-- A stop that waited for a word to complete takes place once the word has (R366). -/
def Group.finishStop (G : Group) : Group :=
  if !G.mustStop || G.begun then G
  else { G.stop with mustStop := false, stopFault := false, status := if G.stopFault then .faulted else G.status }

/-- A stop that waited for a word takes place (R366). -/
def State.finishStops (s : State) (t g : Nat) : State :=
  match s.find t g with
  | none => s
  | some (T, G) => if G.mustStop && !G.begun then s.put T G.finishStop else s

/-- An imprecise fault stops its group at its next scalar turn; a word that has begun to act completes first (R361,
R366). -/
def Group.strike (G : Group) : Group :=
  if G.status = .running && G.begun then { G with mustStop := true, stopFault := true } else { G.stop with status := .faulted }

/-- Freeze a team: every other live group stops, no group issues until the host acts (R361). The watchdog of a team newly
frozen has not reported it (R378). -/
def Team.freeze (T : Team) : Team :=
  { T with frozen := true, groups := T.groups.map Group.stop, watchReported := T.frozen && T.watchReported }

/-- A precise fault of a scalar word (R87, R361): the group stops at the word, its team freezes, the record goes to the
fault queue. -/
def raiseAt (s : State) (T : Team) (G : Group) (t : Trap) (spc off lpc : Nat) : Out :=
  let s1 := s.modTeam T.uid fun T => (T.putGroup { G.withdraw with status := .faulted, wait := none, laneWait := none, pfx := [] }).freeze
  report s1 (groupRecord s T G.idx t 4 spc off lpc)

/-- A precise fault at the scalar word in hand. -/
def raise (s : State) (T : Team) (G : Group) (t : Trap) : Out := raiseAt s T G t G.spc.toNat 0xFF 0xFFFFFFFF

/-- A precise fault of a lane word (R87): every later lane word leaves the queue, tentative scalar words are undone, and
the stop point is the releasing `vrun` from this word on (R366). -/
def raiseLane (s : State) (T : Team) (G : Group) (e : QEntry) (t : Trap) : Out :=
  raiseAt s T { G.undo with spc := e.spc, lpc := e.lpc, rerun := some ⟨e.off, e.snap⟩, queue := [], replay := none } t e.spc.toNat e.off
    e.lpc.toNat

/-- The team is frozen, as bit [2] of a record's flags (R360). -/
def State.frozenFlag (s : State) (t : Nat) : Nat := if (s.team t).any (·.frozen) then 4 else 0

/-- An imprecise fault of an asynchronous entry or a memory request (R184, R227, R343, R361, R363): the issuing group, if
it lives, stops and its team freezes; otherwise the record is flagged issuer-retired, and frozen where its team is. -/
def raiseImprecise (s : State) (g : Tag) (t : Trap) (off lpc extra : Nat) : Out :=
  let rec1 (flags core : Nat) : TrapRecord :=
    { kind := t.kind, die := g.die, flags := flags, extra := extra, acc := t.acc, off := off, lane := t.lane,
      group := g.group, core := core, team := g.num, asid := g.asid, launch := g.launch, time := s.clock g.die,
      spc := g.spc.toNat, lpc := lpc, point := pointWord g.point, aux := t.aux, addr := t.addr }
  match s.find g.team g.group with
  | some (T, G) =>
    if G.live then
      report (s.putTeam (T.putGroup G.strike).freeze) (rec1 5 (globalCore T.die T.core))
    else report { s with reports := s.reports ++ [.issuerRetired g.launch] } (rec1 (3 + s.frozenFlag g.team) 0xFFFF)
  | none => report { s with reports := s.reports ++ [.issuerRetired g.launch] } (rec1 (3 + s.frozenFlag g.team) 0xFFFF)

/-- After a word has issued, the fault that poison in its draw words brings (R140, R184). -/
def drawFault (o : Out) (g : Tag) (bad : Option Nat) (off lpc : Nat) : Out :=
  match bad with
  | none => o
  | some va => andThen o fun s => raiseImprecise s g { kind := .memory, acc := 1, addr := va } off lpc 0

/-- The tag of a group's asynchronous work. -/
def Team.tag (T : Team) (G : Group) (spc : BitVec 32) : Tag :=
  { team := T.uid, group := G.idx, launch := T.launch, asid := T.asid, die := T.die, num := T.num, point := T.point, spc := spc }

/-! ## The mould of the scalar words -/

/-- The index of the word after the instruction, its prefixes included (R78). -/
def Group.next (G : Group) : BitVec 32 := G.spc + BitVec.ofNat 32 (G.pfx.length + 1)

/-- Go on at a word. A collector wait starts again from zero (R52). -/
def Group.jump (G : Group) (target : BitVec 32) : Group :=
  { G with spc := target, pfx := [], wait := none,
           laneWait := G.laneWait.map fun w => if w.what = .collector then { w with cycles := 0 } else w }

/-- Go on after the instruction. -/
def Group.advance (G : Group) : Group := G.jump G.next

/-- A scalar word has retired: the group goes back, the team's watchdog starts again; one that has reported a frozen team
waits for the host, though a word begun before the freeze completes (R378). -/
def State.retire (s : State) (T : Team) (G : Group) : State :=
  s.modTeam T.uid fun T => { T with watch := s.wallNs, watchReported := T.frozen && T.watchReported }.putGroup G

/-- A wait that goes on keeps its length; another begins at zero (R209). -/
def waitOn (old : Option Wait) (w : WaitFor) : Option Wait :=
  match old with
  | some x => some (if x.what = w then x else ⟨w, 0⟩)
  | none => some ⟨w, 0⟩

/-- The word waits at its turns (R71, R73): nothing but the wait changes; a wait that goes on keeps its length. -/
def waitFor (s : State) (T : Team) (G : Group) (w : WaitFor) : Out :=
  .next (s.put T { G with wait := waitOn G.wait w })

/-- The scalar register a queued word names as D (R71). -/
def QEntry.scalarDest (e : QEntry) : List SReg :=
  match e.fetch with
  | .word w => if bits w.toNat 76 2 = 1 then [BitVec.ofNat 6 (bits w.toNat 68 8)] else []
  | .fault .. => []

/-- A register is pending (R71). -/
def Group.pending (G : Group) (r : SReg) : Bool :=
  r ≠ 0 && (G.loads.any (·.2 = r) || G.busy.any (·.sregs.contains r) || G.queue.any (·.scalarDest.contains r))

/-- The first register field outside the group's budget (R26, R58). -/
def budgetFail (G : Group) (fields : List (Nat × SReg)) : Option Nat :=
  firstBad (fields.map fun p => (p.1, !G.bud.sOk p.2.toNat))

/-- A scalar word: its register fields within the budget, its registers not pending (R71), and, for a word with an
effect beyond the scalar registers, the commit rule (R86); then what it does. `fields` are its register fields, `regs`
every register it reads or writes. -/
def scalarWord (s : State) (fields : List (Nat × SReg)) (regs : List SReg) (effect : Bool)
    (act : Team → Group → Out) : Out :=
  match s.current with
  | none => .next s
  | some (T, G) =>
    match budgetFail G fields with
    | some pos =>
      if G.queue.isEmpty then raise s T G { kind := .illegalEncoding, aux := pos + 256 * G.pfx.length }
      else waitFor s T G .laneFaultPoints
    | none =>
      if regs.any G.pending then waitFor s T G (.registers (regs.filter G.pending))
      else if effect && G.queue.isEmpty && G.heldBack then waitFor s T G .missEntry
      else if G.queue.isEmpty then act T G
      else if effect then waitFor s T G .laneFaultPoints
      else if 16 ≤ G.tent.length then waitFor s T G .tentativeRoom
      else act T G

/-- A scalar word whose immediate is outside its rule (R75, R80): the illegal-encoding trap at the lower of this field
and a register field outside the budget, in field order (R58). -/
def illegalScalar (s : State) (fields : List (Nat × SReg)) (pos : Nat) : Out :=
  match s.current with
  | none => .next s
  | some (T, G) =>
    if G.queue.isEmpty then
      raise s T G { kind := .illegalEncoding, aux := (budgetFail G fields).getD pos + 256 * G.pfx.length }
    else waitFor s T G .laneFaultPoints

/-- The effects of a word on scalar registers, SPC and LPC only, tentative while earlier lane words have not passed
their fault points (R86). -/
def Group.tentatively (G : Group) (written : List SReg) (f : Group → Group) : Group :=
  if G.queue.isEmpty then f G
  else { f G with tent := G.tent ++ [{ run := G.runs, regs := written.map fun r => (r, G.sget r), lpc := G.lpc }] }

/-- A scalar word that writes one register and goes on (R74-R77, R84). -/
def regWord (s : State) (fields : List (Nat × SReg)) (regs : List SReg) (d : SReg) (val : Group → DWord) : Out :=
  scalarWord s fields regs false fun T G =>
    .next (s.retire T (G.tentatively [d] fun G => (G.sset d (val G)).advance))

/-- A scalar word with another effect that ends by writing one register (R86). -/
def doneWith (s : State) (T : Team) (G : Group) (d : SReg) (x : DWord) : Out := .next (s.retire T (G.sset d x).advance)

/-- A scalar word with another effect that ends. -/
def done (s : State) (T : Team) (G : Group) : Out := .next (s.retire T G.advance)

end Sys2Proof.Machine
end

