-- ==== Sys2Proof/Machine/Access.lean ====
section
/-! DEFINITION. Translation (R158-R161, R387), where an access goes (R162, R171-R174, R414), the caches (R163-R165) and
the requests of a group (R166, R167). -/
namespace Sys2Proof.Machine

/-! ## Translation -/

/-- Bits [63:57] of an address equal bit 56 (R158). -/
def canonical (va : Nat) : Bool := let h := va / 2 ^ 56 % 256; h = 0 || h = 255

/-- The levels of the page tables: number, lowest index bit, entries (R387). -/
def tableLevels : List (Nat × Nat × Nat) := [(0, 48, 512), (1, 39, 512), (2, 30, 512), (3, 21, 512), (4, 16, 32)]

/-- The leaf an entry of a level is, if it is well formed (R387). -/
def leafOf (asid va sh e : Nat) : Option TlbEntry :=
  let pa := bits e 12 45 * 4096
  let home := bits e 5 2
  let die := bits e 7 4
  let dieOk : Bool := match home with
    | 0 => die < 8
    | 1 => die < 4
    | 2 => 4 ≤ die && die < 8
    | _ => die = 0
  if pa % 2 ^ sh ≠ 0 || !dieOk then none
  else some { asid := asid, base := va / 2 ^ sh * 2 ^ sh, size := 2 ^ sh, pa := pa, home := home, die := die,
              r := bits e 1 1 = 1, w := bits e 2 1 = 1, x := bits e 3 1 = 1 }

/-- A page walk from a table (R387); none where the address is not mapped. -/
def walkFrom (s : State) (asid va : Nat) (tbl : Loc) : List (Nat × Nat × Nat) → Option TlbEntry
  | [] => none
  | (lvl, sh, n) :: rest =>
    let e := ofBytes (s.bytesAt (tbl.plus (8 * (va / 2 ^ sh % n))) 8)
    let rwx := bits e 1 3
    let home := bits e 5 2
    if bits e 0 1 = 0 || bits e 57 7 ≠ 0 || bits e 11 1 = 1 || bits e 4 1 = 1 then none
    else if 2 ≤ lvl && (lvl = 4 || rwx ≠ 0) then leafOf asid va sh e
    else if rwx ≠ 0 || home = 1 || home = 2 || bits e 7 4 ≠ 0 then none
    else walkFrom s asid va ⟨home = 3, bits e 12 45 * 4096⟩ rest

/-- A page walk of an address space (R160, R386, R387). -/
def State.walk (s : State) (asid va : Nat) : Option TlbEntry :=
  match s.asidSlot asid with
  | none => none
  | some (_, e) => walkFrom s asid (va % 2 ^ 57) ⟨field (e.word 1) 0 1 = 1, field (e.word 1) 12 45 * 4096⟩ tableLevels

/-- An entry translates an address. -/
def TlbEntry.hits (e : TlbEntry) (asid va : Nat) : Bool :=
  e.asid = asid && decide (e.base ≤ va % 2 ^ 57) && decide (va % 2 ^ 57 < e.base + e.size)

/-- The place of an address under its entry. -/
def TlbEntry.loc (e : TlbEntry) (va : Nat) : Loc := ⟨e.home = 3, e.pa + (va % 2 ^ 57 - e.base)⟩

/-- The home die of an address under its entry; none for the host (R159). -/
def TlbEntry.homeDie (e : TlbEntry) (va : Nat) : Option Nat :=
  let gran := (va % 2 ^ 57 - e.base) / 4096
  match e.home with
  | 0 => some e.die
  | 1 => some ((e.die + gran) % 4)
  | 2 => some (4 + (e.die - 4 + gran) % 4)
  | _ => none

/-- What translating an address gives. -/
inductive Xlate where
  | ok (e : TlbEntry)
  | bad (k : FaultKind)
  | absent (pa : Nat)
deriving DecidableEq, Repr

/-- Translate an address: the core's TLB, the die's, then a walk (R158, R160). Out of range of the DRAM is no place. -/
def State.xlate (s : State) (die core asid va : Nat) : Xlate :=
  if !canonical va then .bad .nonCanonical
  else
    let hit (e : TlbEntry) : Bool := e.hits asid va
    let found : Option TlbEntry := match (s.core die core).tlb.find? hit with
      | some e => some e
      | none => match (s.die die).tlb.find? hit with
        | some e => some e
        | none => s.walk asid va
    match found with
    | none => .bad .notMapped
    | some e => if !(e.loc va).host && decide (dramBytes ≤ (e.loc va).addr) then .absent (e.loc va).addr else .ok e

/-- Keep a translation in a TLB of n entries. -/
def tlbAdd (n : Nat) (l : List TlbEntry) (e : TlbEntry) : List TlbEntry :=
  if l.contains e then l else (if n ≤ l.length then l.drop 1 else l) ++ [e]

/-- What an access needs of its page (R159). -/
structure Need where
  r : Bool := false
  w : Bool := false
deriving DecidableEq, Repr

/-- The permission an entry lacks, if any (R159). -/
def TlbEntry.lacks (e : TlbEntry) (n : Need) : Option FaultKind :=
  if n.r && !e.r then some .noRead else if n.w && !e.w then some .noWrite else none

/-- The first addresses of the bytes of an access on each page it touches; `n` is at most 64 KiB (R183). -/
def pagesOf (va n : Nat) : List Nat :=
  let va' := va % 2 ^ 64
  let last := (va + (n - 1)) % 2 ^ 64
  if va' / 2 ^ 16 = last / 2 ^ 16 then [va'] else [va', last / 2 ^ 16 * 2 ^ 16]

/-- The first bytes of every 64 KiB page of a long extent. -/
def extentPages (va n : Nat) : List Nat :=
  let first := va / 2 ^ 16
  let count := (va + (n - 1)) / 2 ^ 16 - first
  va % 2 ^ 64 :: (List.range count).map fun i => (first + i + 1) * 2 ^ 16 % 2 ^ 64

/-! ## Where an access goes -/

/-- A team holds scratchpad pages on its core: resident, or until its write-back is done (R173). -/
def Team.present (T : Team) : Bool :=
  match T.place with
  | .resident | .stopping _ | .saving _ | .ending _ => true
  | _ => false

/-- Bytes of a team's allocation (R27). -/
def Team.size (T : Team) : Nat := 16384 * T.pages

/-- The allocation offset whose backing memory is at a place (R171). -/
def Team.backedAt (T : Team) (l : Loc) : Option Nat :=
  let i := T.backing.findIdx fun b => b.host = l.host && decide (b.addr ≤ l.addr) && decide (l.addr < b.addr + 16384)
  match T.backing[i]? with
  | none => none
  | some b => some (16384 * i + (l.addr - b.addr))

/-- The granule of an offset is written (R170). -/
def Team.isWritten (T : Team) (off : Nat) : Bool := T.written.contains (off / 16)

/-- The granule of an offset is registered with its home slice's directory (R172). -/
def Team.isRegistered (T : Team) (off : Nat) : Bool := T.isWritten off && !T.unregistered.contains (off / 16)

/-- The array that holds an offset, when the team declares it (R169). -/
def Team.arrayAt (T : Team) (off : Nat) : Option ArrayState := T.arrays[off / 24576]?

/-- A write into this offset is refused: its array is not in storage mode (R174, R248). -/
def Team.storeBusy (T : Team) (off : Nat) : Bool :=
  match T.arrayAt off with
  | none => false
  | some a => a.mode != .storage

/-- A write of some moment in the order of the part is refused as it arrives at this offset: its array computes, or switches and
its mode moment came before (R174, R248). -/
def Team.refusesStore (T : Team) (off born : Nat) : Bool :=
  match T.arrayAt off with
  | none => false
  | some a => match a.mode with
    | .storage => false
    | .toCompute => decide (a.moment ≤ born)
    | .compute | .toStorage => true

/-- A read of this offset waits: a pass runs or the array is switching (R174, R248). -/
def Team.loadBusy (T : Team) (off : Nat) : Bool :=
  match T.arrayAt off with
  | none => false
  | some a => a.pass.isSome || a.mode = .toStorage || a.mode = .toCompute

/-- The team of this core whose window holds an address (R162 step 2): the table entry installed last (R171). -/
def State.windowTeam (s : State) (die core asid va : Nat) : Option Team :=
  (s.teams.filter fun T => T.present && T.die = die && T.core = core && T.asid = asid && decide (T.window ≤ va % 2 ^ 64) &&
    decide (va % 2 ^ 64 < T.window + T.size)).getLast?

/-- The present team, if any, whose scratchpad has registered the granule at a place (R162 step 3, R172). -/
def State.registered (s : State) (l : Loc) : Option (Nat × Nat) :=
  (s.teams.filter Team.present).findSome? fun T =>
    match T.backedAt l with
    | none => none
    | some o => if T.isRegistered o then some (T.uid, o) else none

/-- Where a read finds a byte (R162, R172): an unwritten granule of a window is served from backing memory. -/
def State.readPlace (s : State) (die core asid va : Nat) (l : Loc) : Place :=
  match s.windowTeam die core asid va with
  | some T => let o := va % 2 ^ 64 - T.window; if T.isWritten o then .pad T.uid o else .mem l
  | none => match s.registered l with
    | some (t, o) => .pad t o
    | none => .mem l

/-- Where a plain write lands (R162, R172): the owning core's table, a registered granule, else memory. -/
def State.writePlace (s : State) (die core asid va : Nat) (l : Loc) : Place :=
  match s.windowTeam die core asid va with
  | some T => .pad T.uid (va % 2 ^ 64 - T.window)
  | none => match s.registered l with
    | some (t, o) => .pad t o
    | none => .mem l

/-- Where a consumer write of a copy lands (R224, R235): any present team's window takes it. -/
def State.copyPlace (s : State) (l : Loc) : Place :=
  match (s.teams.filter Team.present).findSome? fun T => (T.backedAt l).map fun o => (T.uid, o) with
  | some (t, o) => .pad t o
  | none => .mem l

/-- A scratchpad byte; undefined where nothing has written it (R170). -/
def Team.padByte (T : Team) (off : Nat) : Byte := (padGet T.pad off).getD (Config.freeByte T.uid off)

/-- Write a scratchpad byte; its granule becomes written and is registered at once (R170, R172). -/
def Team.setPad (T : Team) (off : Nat) (b : Byte) : Team :=
  { T with pad := padSet T.pad off b, written := insertNat T.written (off / 16),
           unregistered := T.unregistered.filter (· ≠ off / 16) }

/-- A store of the owning core writes a scratchpad byte: a granule that becomes written by it is not registered yet (R170,
R172). -/
def Team.storePad (T : Team) (off : Nat) (b : Byte) : Team :=
  { T with pad := padSet T.pad off b, written := insertNat T.written (off / 16),
           unregistered := if T.isWritten off then T.unregistered else insertNat T.unregistered (off / 16) }

/-- Write scratchpad bytes. -/
def Team.setPads (T : Team) (off : Nat) (bs : List Byte) : Team :=
  (bs.zipIdx.foldl (fun T p => T.setPad (off + p.2) p.1) T)

/-- The granule of an offset becomes full or empty (R175). -/
def Team.setFull (T : Team) (off : Nat) (full : Bool) : Team :=
  { T with full := if full then insertNat T.full (off / 16) else T.full.filter (· ≠ off / 16) }

/-! ## Save areas: the bits of a parked window (R373, R414) -/

/-- Round up to 256. -/
def up256 (n : Nat) : Nat := (n + 255) / 256 * 256

/-- Offset of the written bits in a team's save area (R371, R373). -/
def Team.writtenBitsAt (T : Team) : Nat := 512 + up256 (64 * T.arrays.length)

/-- Offset of the full-empty bits. -/
def Team.fullBitsAt (T : Team) : Nat := T.writtenBitsAt + up256 (T.size / 128)

/-- The save area of a saved team. -/
def Team.savedArea (T : Team) : Option SaveArea :=
  match T.place with
  | .saved a => some a
  | _ => none

/-- Set a bit of a bit block in device memory. -/
def State.setBit (s : State) (base i : Nat) : State :=
  let l : Loc := ⟨false, base + i / 8⟩
  s.setByte l (s.byteAt l ||| BitVec.ofNat 8 (2 ^ (i % 8)))

/-- A bit of a bit block in device memory. -/
def State.getBit (s : State) (base i : Nat) : Bool := bits (s.byteAt ⟨false, base + i / 8⟩).toNat (i % 8) 1 = 1

/-- The parked marks of a write at a place (R414): the written bit, and for a copy the full-empty bit, of the save area
of the saved team whose window it is. -/
def State.park (s : State) (l : Loc) (copy : Bool) : State :=
  s.teams.foldl (fun s T =>
    match T.savedArea, T.backedAt l with
    | some a, some o =>
      let s1 := s.setBit (a.pa + T.writtenBitsAt) (o / 16)
      if copy then s1.setBit (a.pa + T.fullBitsAt) (o / 16) else s1
    | _, _ => s) s

/-- Launches that have started (R33): a team of theirs stands or has ended. -/
def State.started (s : State) : List Nat :=
  (s.launches.filter fun L => decide (0 < L.ended) || s.teams.any fun T => T.launch = L.id).map (·.id)

/-- The byte that a launch had at a place before the first write there during its run (R33). -/
def State.oldByte (s : State) (launch : Nat) (l : Loc) : Option Byte :=
  (s.overwritten.find? fun e => decide (e.loc = l) && e.launches.contains launch).map (·.byte)

/-- Keep the byte that a write replaces, for every started launch that has none kept there (R33). -/
def State.keepOld (s : State) (l : Loc) (b : Byte) : State :=
  let now := s.started
  let was := (s.overwritten.map fun e => { e with launches := e.launches.filter now.contains }).filter (·.launches ≠ [])
  let news := now.filter fun i => (s.oldByte i l).isNone
  { s with overwritten := if s.byteAt l = b ∨ news = [] then was else was ++ [⟨news, l, s.byteAt l⟩] }

/-! ## The last-level cache slices (R163 to R165) -/

/-- Superblocks of a slice: 64 MiB (R163). -/
def sliceBlocks : Nat := 262144

/-- The superblock of a slice that covers a device address. -/
def State.sliceBlock (s : State) (die addr : Nat) : Option SliceBlock :=
  s.slices.find? fun b => b.die = die && b.tag = addr / 256 * 256

/-- A slice holds the line of a device address. -/
def State.inSlice (s : State) (die addr : Nat) : Bool :=
  ((s.sliceBlock die addr).map fun b => b.valid.getLsbD (addr % 256 / 64)).getD false

/-- The line of a device address is dirty in a slice. -/
def SliceBlock.dirtyAt (b : SliceBlock) (addr : Nat) : Bool := (b.under.getD (addr % 256 / 64) none).isSome

/-- The superblock that leaves a full slice: marked first, then the oldest unmarked, those marked last at the end (R165). -/
def sliceVictim (bs : List SliceBlock) : Option SliceBlock :=
  (bs.find? fun b => b.hint = .ev).or ((bs.find? fun b => b.hint ≠ .kp).or bs.head?)

/-- Room for one more superblock: where the slice is full a whole superblock leaves, its dirty lines written back, so that
DRAM holds what the slice held (R163). -/
def sliceRoom (bs : List SliceBlock) (die : Nat) : List SliceBlock :=
  let mine := bs.filter (·.die = die)
  if mine.length < sliceBlocks then bs
  else match sliceVictim mine with
    | none => bs
    | some v => bs.filter fun b => !(b.die = die && b.tag = v.tag)

/-- Allocate one line of a device address in a slice, dirty where it is about to be written; the bytes that DRAM holds then
stay under it until they are written back (R163, R164). -/
def State.sliceTouch (s : State) (die addr : Nat) (dirty : Bool) (hint : Hint) : State :=
  let i := addr % 256 / 64
  let held := if dirty then some (s.bytesAt ⟨false, addr / 64 * 64⟩ 64) else none
  match s.sliceBlock die addr with
  | some b =>
    let b1 := { b with valid := b.valid ||| BitVec.ofNat 4 (2 ^ i), hint := if hint = .kp then .kp else b.hint,
                       under := if dirty && !b.dirtyAt addr then b.under.set i held else b.under }
    { s with slices := s.slices.map fun x => if x.die = die && x.tag = b.tag then b1 else x }
  | none =>
    { s with slices := sliceRoom s.slices die ++
        [⟨die, addr / 256 * 256, BitVec.ofNat 4 (2 ^ i), (List.replicate 4 none).set i held, if hint = .kp then .kp else .none⟩] }

/-- Allocate a line at its home slice; host memory has none (R164), and a line with an accepted add that is not applied is
kept in none (R329). -/
def State.touchHome (s : State) (home : Option Nat) (l : Loc) (dirty : Bool) (hint : Hint) : State :=
  match home with
  | some d =>
    if l.host || s.adds.any fun a => a.accepted && a.pa / 64 = l.addr / 64 then s else s.sliceTouch d l.addr dirty hint
  | none => s

/-- Write back the dirty bytes of a line, in whichever slice holds it; with `drop` the line leaves the slice (R329). -/
def State.sliceWriteBack (s : State) (addr : Nat) (drop : Bool) : State :=
  let i := addr % 256 / 64
  { s with slices := (s.slices.map fun b =>
      if b.tag = addr / 256 * 256 then
        { b with under := b.under.set i none,
                 valid := if drop then b.valid &&& ~~~(BitVec.ofNat 4 (2 ^ i)) else b.valid }
      else b).filter fun b => b.valid ≠ 0 }

/-- Where the backing memory of an offset is (R171). -/
def Team.backingAt (T : Team) (off : Nat) : Option Loc := (T.backing[off / 16384]?).map (·.plus (off % 16384))

/-- A code section of a launch covers an address (R32). -/
def Launch.codeAt (L : Launch) (asid va : Nat) : Bool :=
  L.asid = asid && (decide ((va + 2 ^ 64 - L.header.scalBase) % 2 ^ 64 < 4 * L.header.scalLen) ||
    decide ((va + 2 ^ 64 - L.header.laneBase) % 2 ^ 64 < 12 * L.header.laneLen))

/-- Keep the byte at an offset of a scratchpad as its window shows it, for every started launch whose code the window holds
there and that has none kept (R33). -/
def State.keepPadByte (s : State) (T : Team) (off : Nat) : State :=
  match T.backingAt off with
  | none => s
  | some l =>
    let was := if T.isWritten off then T.padByte off else s.byteAt l
    let code := (s.launches.filter fun L => L.codeAt T.asid (T.window + off)).map (·.id)
    let news := (s.started.filter code.contains).filter fun i => (s.oldByte i l).isNone
    { s with overwritten := if news = [] then s.overwritten else s.overwritten ++ [⟨news, l, was⟩] }

/-- Keep what a write of one scratchpad byte replaces as its window shows it (R33): that byte; of a granule that becomes written by
it every byte, since the window then shows the scratchpad's in place of the backing memory's (R170, R172). -/
def State.keepOldPad (s : State) (T : Team) (off : Nat) (b : Byte) : State :=
  if T.isWritten off then (if T.padByte off = b then s else s.keepPadByte T off)
  else (List.range 16).foldl (fun s k => s.keepPadByte T (off / 16 * 16 + k)) s

/-- Keep what writes of whole granules, named by an offset of each, replace in the window (R33). -/
def State.keepPads (s : State) (T : Team) (offs : List Nat) : State :=
  offs.foldl (fun s o => (List.range 16).foldl (fun s k => s.keepPadByte T (o / 16 * 16 + k)) s) s

/-- The byte that DRAM itself holds: under a dirty line the bytes not yet written back, else what the home gives (R164). -/
def State.dramByte (s : State) (addr : Nat) : Byte :=
  match s.slices.findSome? fun b => if b.tag = addr / 256 * 256 then b.under.getD (addr % 256 / 64) none else none with
  | some bs => bs.getD (addr % 64) 0
  | none => s.byteAt ⟨false, addr⟩

/-- Write a byte at its place. -/
def State.putByte (s : State) (p : Place) (b : Byte) (copy : Bool) : State :=
  match p with
  | .mem l => ((s.keepOld l b).setByte l b).park l copy
  | .pad t o =>
    match s.team t with
    | none => s
    | some T => (s.keepOldPad T o b).putTeam (if copy then (T.setPad o b).setFull o true else T.setPad o b)

/-- A store of the owning core writes a scratchpad byte; a `v.stfe` also sets its granule full (R172, R175). -/
def State.storePad (s : State) (t o : Nat) (b : Byte) (full : Bool) : State :=
  match s.team t with
  | none => s
  | some T => (s.keepOldPad T o b).putTeam (if full then (T.storePad o b).setFull o true else T.storePad o b)

/-- The granules among some that are written and not registered (R172). -/
def State.unregisteredOf (s : State) (gs : List (Nat × Nat)) : List (Nat × Nat) :=
  gs.eraseDups.filter fun g => ((s.team g.1).map fun T => T.unregistered.contains g.2).getD false

/-- Read a byte at its place. -/
def State.takeByte (s : State) (p : Place) : Byte :=
  match p with
  | .mem l => s.byteAt l
  | .pad t o => match s.team t with
    | none => Config.freeByte t o
    | some T => T.padByte o

/-! ## Caches -/

/-- The valid line of a place in a cache (R163). -/
def cacheLine (c : List CacheBlock) (l : Loc) : Option (List Byte) :=
  match c.find? fun b => b.tag = ⟨l.host, l.addr / 256 * 256⟩ with
  | none => none
  | some b => (b.lines.getD (l.addr % 256 / 64) none)

/-- The byte a cache holds of a place. -/
def cacheByte (c : List CacheBlock) (l : Loc) : Option Byte := (cacheLine c l).bind (·[l.addr % 64]?)

/-- Mark the superblock of a place, where the cache holds it, as a hint says (R51, R165). -/
def cacheMark (c : List CacheBlock) (l : Loc) (hint : Hint) : List CacheBlock :=
  match hint with
  | .ev | .kp => c.map fun k => if k.tag = ⟨l.host, l.addr / 256 * 256⟩ then { k with hint := hint } else k
  | _ => c

/-- A store updates the valid line that covers it (R164); a store under `.lc` drops it instead (log 16). -/
def cacheUpdate (c : List CacheBlock) (l : Loc) (b : Byte) (drop : Bool) : List CacheBlock :=
  c.map fun k =>
    if k.tag = ⟨l.host, l.addr / 256 * 256⟩ then
      { k with lines := k.lines.zipIdx.map fun p =>
          if p.2 = l.addr % 256 / 64 then (if drop then none else p.1.map fun bs => bs.set (l.addr % 64) b) else p.1 }
    else k

/-- Index of the superblock to evict: marked first, then the oldest unmarked, those kept last (R165). -/
def evictOne (c : List CacheBlock) : List CacheBlock :=
  let pick := match c.find? fun (b : CacheBlock) => decide (b.hint = Hint.ev) with
    | some b => some b
    | none => match c.find? fun (b : CacheBlock) => decide (b.hint ≠ Hint.kp) with
      | some b => some b
      | none => c.head?
  match pick with
  | none => c
  | some b => c.filter (·.tag ≠ b.tag)

/-- Superblocks of the L1 (R15, R163). -/
def l1Blocks : Nat := 512

/-- Fill one line, allocating its superblock (R163). -/
def cacheFill (c : List CacheBlock) (limit : Option Nat) (l : Loc) (bs : List Byte) (hint : Hint) (ldc : Bool) :
    List CacheBlock :=
  let tag : Loc := ⟨l.host, l.addr / 256 * 256⟩
  let i := l.addr % 256 / 64
  match c.find? (·.tag = tag) with
  | some b =>
    let b' := { b with lines := b.lines.set i (some bs), ldcOnly := b.ldcOnly.set i ldc,
                       hint := if hint = .none then b.hint else hint }
    c.map fun k => if k.tag = tag then b' else k
  | none =>
    let c' := match limit with
      | some n => if n ≤ c.length then evictOne c else c
      | none => c
    c' ++ [{ tag := tag, lines := (List.replicate 4 none).set i (some bs), hint := hint,
             ldcOnly := (List.replicate 4 false).set i ldc }]

/-- An acquire at cell scope or wider: the core discards its L1 and its scalar/constant cache, but for lines held only
for `ldc` (R164). -/
def Core.discard (C : Core) : Core :=
  { C with l1 := [], scalar := C.scalar.map fun b =>
      { b with lines := b.lines.zipIdx.map fun p => if b.ldcOnly.getD p.2 false then p.1 else none } }

/-- The discard of an acquire at cell, die, device or system scope (R164). -/
def State.acquire (s : State) (die core : Nat) (sc : Scope) : State :=
  match sc with
  | .grp | .team => s
  | _ => s.putCore (s.core die core).discard

/-- The latest byte of the group's own writes not yet performed (R188). -/
def Group.postedByte (G : Group) (l : Loc) : Option Byte :=
  (G.reqs.reverse.filter fun r => r.kind = .store && !r.performed && r.tag = ⟨l.host, l.addr / 256 * 256⟩).findSome?
    fun r => (r.data.reverse.find? (·.1 = l.addr)).map (·.2)

/-- A store on its way writes one of some bytes. -/
def Req.writesAny (r : Req) (ls : List Loc) : Bool :=
  r.kind = .store && !r.performed && r.data.any fun p => ls.contains ⟨r.tag.host, p.1⟩

/-- A core's own writes to a place that have taken their entries and are not performed, each with its place in their order. -/
def State.postedAt (s : State) (die core : Nat) (l : Loc) : List (Nat × Byte) :=
  (s.teams.filter fun T => T.die = die && T.core = core).flatMap fun T => T.groups.flatMap fun G =>
    (G.reqs.filter fun r => r.entry && r.writesAny [l]).filterMap fun r =>
      (r.data.reverse.find? (·.1 = l.addr)).map fun p => (r.stamp, p.2)

/-- The latest byte of a core's own writes not yet performed at a place. -/
def State.corePosted (s : State) (die core : Nat) (l : Loc) : Option Byte :=
  ((s.postedAt die core l).foldl (fun (m : Option (Nat × Byte)) p => match m with
    | none => some p
    | some q => if q.1 < p.1 then some p else m) none).map (·.2)

/-- The byte of a place as a fill brings it: its home's under the core's own writes on their way (R164). -/
def State.fillByte (s : State) (die core : Nat) (l : Loc) : Byte := (s.corePosted die core l).getD (s.byteAt l)

/-- The line of a place as a fill brings it. -/
def State.fillBytes (s : State) (die core : Nat) (l : Loc) : List Byte :=
  (List.range 64).map fun i => s.fillByte die core (l.plus i)

/-- A line served by a scratchpad is in no cache (R162); a poisoned one is not kept. -/
def State.fillable (s : State) (l : Loc) : Bool :=
  !s.poisoned l && (List.range 4).all fun i => (s.registered (l.plus (16 * i))).isNone

/-- Which cache a load reads. -/
inductive Via where
  | l1 | scalar | constant | home
deriving DecidableEq, Repr

/-- A line of the scalar/constant cache held only for `ldc` (R90, R164). -/
def ldcOnlyLine (c : List CacheBlock) (l : Loc) : Bool :=
  c.any fun b => b.tag = ⟨l.host, l.addr / 256 * 256⟩ && b.ldcOnly.getD (l.addr % 256 / 64) false

/-- The byte a load finds in its cache: `ldc` takes any line of the scalar/constant cache, `ld` none held only for `ldc`,
since those outlive acquires (R164). -/
def Core.lookup (C : Core) (via : Via) (l : Loc) : Option Byte :=
  match via with
  | .l1 => cacheByte C.l1 l
  | .scalar => if ldcOnlyLine C.scalar l then none else cacheByte C.scalar l
  | .constant => cacheByte C.scalar l
  | .home => none

/-- The core's cache that an access at an address may read: none at step 2 of R162, whose data is in no cache. -/
def State.viaAt (s : State) (T : Team) (via : Via) (va : Nat) : Via :=
  if (s.windowTeam T.die T.core T.asid va).isSome then .home else via

/-- The byte a load of a group returns (R162, R164, R188, R191): of the own core's scratchpad what it holds; of any other
place the group's own latest write on its way, else the scratchpad that has registered the granule, else the cache, or what a
fill of its line brings. -/
def State.loadByte (s : State) (T : Team) (G : Group) (via : Via) (va : Nat) (l : Loc) : Byte :=
  match s.readPlace T.die T.core T.asid va l with
  | .pad t o =>
    if (s.windowTeam T.die T.core T.asid va).isSome then s.takeByte (.pad t o)
    else (G.postedByte l).getD (s.takeByte (.pad t o))
  | .mem l =>
    match G.postedByte l with
    | some b => b
    | none =>
      ((s.core T.die T.core).lookup (s.viaAt T via va) l).getD (s.fillByte T.die T.core l)

/-- A load of n bytes, each at the address its own page gives (R179); none where an address does not translate. -/
def State.loadBytes (s : State) (T : Team) (G : Group) (via : Via) (va n : Nat) : List Byte :=
  (List.range n).map fun i =>
    match s.xlate T.die T.core T.asid ((va + i) % 2 ^ 64) with
    | .ok e => s.loadByte T G via ((va + i) % 2 ^ 64) (e.loc ((va + i) % 2 ^ 64))
    | _ => 0

/-- The first byte of an access that lies on a poisoned line of DRAM and is not served by a scratchpad, a cache or an own
write. -/
def State.poisonAt (s : State) (T : Team) (G : Group) (via : Via) (va n : Nat) : Option Nat :=
  (List.range n).find? fun i =>
    match s.xlate T.die T.core T.asid ((va + i) % 2 ^ 64) with
    | .ok e =>
      (match s.readPlace T.die T.core T.asid ((va + i) % 2 ^ 64) (e.loc ((va + i) % 2 ^ 64)) with
       | .pad .. => false
       | .mem l => s.poisoned l && (G.postedByte l).isNone && (s.corePosted T.die T.core l).isNone &&
           ((s.core T.die T.core).lookup (s.viaAt T via ((va + i) % 2 ^ 64)) l).isNone)
    | _ => false

/-- A byte of an access meets poison. -/
def State.loadPoison (s : State) (T : Team) (G : Group) (via : Via) (va n : Nat) : Bool := (s.poisonAt T G via va n).isSome

/-- The places of a load that no cache of the core serves: with `own` the unwritten granules of the core's own windows, else what
its homes and other cores' scratchpads serve (R162, R166). -/
def State.missed (s : State) (T : Team) (via : Via) (own : Bool) (vas : List (Nat × Nat)) : List Loc :=
  let C := s.core T.die T.core
  (vas.flatMap fun p => (List.range p.2).map fun i => (p.1 + i) % 2 ^ 64).filterMap fun va =>
    match s.xlate T.die T.core T.asid va with
    | .ok e =>
      let l := e.loc va
      (match s.windowTeam T.die T.core T.asid va with
       | some W => if !own || W.isWritten (va - W.window) then none else some l
       | none =>
         if own || ((C.lookup via l).isSome && (s.registered l).isNone) then none else some l)
    | _ => none

/-- The valid line of a place takes other bytes in a cache, or is dropped; with `keep` a line held only for `ldc` stays (R90). -/
def cacheRenew (keep : Bool) (c : List CacheBlock) (l : Loc) (bs : Option (List Byte)) : List CacheBlock :=
  c.map fun k =>
    if k.tag = ⟨l.host, l.addr / 256 * 256⟩ then
      { k with lines := k.lines.zipIdx.map fun p =>
          if p.2 = l.addr % 256 / 64 && !(keep && k.ldcOnly.getD p.2 false) then p.1.bind fun _ => bs else p.1 }
    else k

/-- A load has been served beside a core's copies of a line: those are filled again, or dropped where no cache may hold the line,
so that no later load of the core finds an older value of a byte than this one has returned (R188, R195). -/
def State.renewLine (s : State) (die core : Nat) (l : Loc) : State :=
  let C := s.core die core
  let bs := if s.fillable l then some (s.fillBytes die core l) else none
  if (cacheLine C.l1 l).isSome || (cacheLine C.scalar l).isSome then
    s.putCore { C with l1 := cacheRenew false C.l1 l bs, scalar := cacheRenew true C.scalar l bs }
  else s

/-- The core's lines after a load of a group: those it has not read follow what its home, or another scratchpad, gave (R188). -/
def State.renew (s : State) (T : Team) (via : Via) (vas : List (Nat × Nat)) : State :=
  let C := s.core T.die T.core
  if C.l1.isEmpty && C.scalar.isEmpty then s
  else (((s.missed T via false vas).map fun l => (⟨l.host, l.addr / 64 * 64⟩ : Loc)).eraseDups).foldl
    (fun s l => s.renewLine T.die T.core l) s

/-- Another group of the core has a store on its way to a byte, which the core's lines show already: a load at the home would
find the byte older than a load before it may have (R164, R188). -/
def State.othersPosted (s : State) (T : Team) (G : Group) (vas : List (Nat × Nat)) : Bool :=
  s.teams.any fun W => W.die = T.die && W.core = T.core && W.groups.any fun H => !(W.uid = T.uid && H.idx = G.idx) &&
    H.reqs.any fun r => r.entry && r.writesAny (s.missed T .home false vas)

/-- The group after accesses that read the flag words of its complete blocks: where a read gives what the home holds, the
block's completion is observed (R339, R342). -/
def State.sees (s : State) (T : Team) (G : Group) (via : Via) (vas : List (Nat × Nat)) : Group :=
  if G.unseen = [] then G
  else G.observe fun u => u.2 ≠ 0 && (vas.any fun p => decide (p.1 < u.2 + 8) && decide (u.2 < p.1 + p.2)) &&
    decide (s.loadBytes T G via u.2 8 = s.loadBytes T G .home u.2 8)

/-! ## Requests -/

/-- Miss entries of a core in use (R167). -/
def State.entriesUsed (s : State) (die core : Nat) : Nat :=
  ((s.teams.filter fun T => T.die = die && T.core = core).map fun T =>
    (T.groups.map fun G => (G.reqs.filter (·.entry)).length).foldl (· + ·) 0).foldl (· + ·) 0

/-- Some request of the core is senior and waits for an entry (R167). -/
def State.seniorWaits (s : State) (die core : Nat) : Bool :=
  s.teams.any fun T => T.die = die && T.core = core && T.groups.any fun G => G.reqs.any fun r => !r.entry && decide (16 ≤ r.age)

/-- The place that the latest first rejection of a core's requests has in their order; 0 where none is kept (R167). -/
def State.lastRejected (s : State) (die core : Nat) : Nat :=
  ((s.teams.filter fun T => T.die = die && T.core = core).flatMap fun T => T.groups.flatMap fun G => G.reqs.map (·.since)).foldl
    max 0

/-- The place of the request of a core that has taken its entry last. -/
def State.lastStamp (s : State) (die core : Nat) : Nat :=
  ((s.teams.filter fun T => T.die = die && T.core = core).flatMap fun T => T.groups.flatMap fun G => G.reqs.map (·.stamp)).foldl
    max 0

/-- Present new requests: each takes a miss entry while one is free and no senior request waits, else it is rejected, after
every request rejected before it (R167). A write `behind` a rejected write of its group is rejected behind it (log 7). -/
def State.present (s : State) (die core : Nat) (behind : Bool) (rs : List Req) : List Req :=
  let free := if behind || s.seniorWaits die core then 0 else 64 - s.entriesUsed die core
  rs.zipIdx.map fun p =>
    if p.2 < free then { p.1 with entry := true, born := s.nextUid, stamp := s.lastStamp die core + 1 + p.2 }
    else { p.1 with entry := false, born := s.nextUid, age := 1, since := s.lastRejected die core + 1 + p.2 }

/-- A write of the group has been rejected and is presented again (R167). -/
def Group.behind (G : Group) : Bool := G.reqs.any fun r => r.kind != .load && !r.entry

/-- The writes of the words that the group has issued which have not been performed at their homes: the request of an `amo` at which
it still waits is none of them. -/
def Group.unperformed (G : Group) : Bool := G.reqs.any fun r => !r.performed && r.kind != .load && decide (r.word ≤ G.words)

/-- Every access of the group before now is performed at every scope: its writes at their homes, its granules registered (R172,
R192). -/
def Group.allPerformed (G : Group) : Bool := !G.unperformed && G.regs.isEmpty

/-- Every access of the group before now is performed at a scope (R185, R192): at group scope at once; at team scope at its
homes, at once in a team of one group, whose instance has no other agent (R189, R411; log 7); beyond, its granules are
registered as well (R172). -/
def Group.performedAt (G : Group) (T : Team) (sc : Scope) : Bool :=
  let team : Bool := decide (T.groups.length ≤ 1) || !G.unperformed
  match sc with
  | .grp => true
  | .team => team
  | .cell => if T.cell.isNone then team else G.allPerformed
  | _ => G.allPerformed

/-- The superblocks of a list of places, each once, in order. -/
def superblocks (ls : List Loc) : List Loc :=
  ls.foldl (fun acc l => let t : Loc := ⟨l.host, l.addr / 256 * 256⟩; if acc.contains t then acc else acc ++ [t]) []

/-- The lines of a superblock that some places touch. -/
def lineMask (tag : Loc) (ls : List Loc) : BitVec 4 :=
  BitVec.ofNat 4 (((List.range 4).map fun i =>
    if ls.any fun l => l.host = tag.host && l.addr / 64 = tag.addr / 64 + i then 2 ^ i else 0).foldl (· + ·) 0)

/-- A request with nothing in it. -/
def Req.of (kind : ReqKind) (tag : Loc) (word : Nat) (spc : BitVec 32) (off : Nat) (lpc : BitVec 32) : Req :=
  { kind := kind, tag := tag, home := none, lines := 0, data := [], pads := [], atom := none, marks := [], hint := .none, fill := .none, bad := none,
    word := word, entry := false,
    age := 0, since := 0, stamp := 0, performed := false, born := 0, spc := spc, off := off, lpc := lpc }

/-- The places of n bytes from an address (R179). -/
def State.places (s : State) (T : Team) (va n : Nat) : List Loc :=
  (List.range n).filterMap fun i =>
    match s.xlate T.die T.core T.asid ((va + i) % 2 ^ 64) with
    | .ok e => some (e.loc ((va + i) % 2 ^ 64))
    | _ => none

/-- The home die of a superblock, by the first of some addresses whose place lies in it (R159); none for the host. -/
def State.homeOf (s : State) (T : Team) (tag : Loc) (vas : List Nat) : Option Nat :=
  vas.findSome? fun va =>
    match s.xlate T.die T.core T.asid va with
    | .ok e => if (e.loc va).host = tag.host && (e.loc va).addr / 256 * 256 = tag.addr then e.homeDie va else none
    | _ => none

/-- The valid lines of a core follow a store and take its hint's mark (R164, R165). -/
def Core.follow (C : Core) (r : Req) : Core :=
  r.data.foldl (fun C p =>
    let l : Loc := ⟨r.tag.host, p.1⟩
    { C with l1 := cacheMark (cacheUpdate C.l1 l p.2 (r.hint = .lc)) l r.hint, scalar := cacheUpdate C.scalar l p.2 false }) C

/-- The core's lines follow the stores that have taken their entries (R164, R191). -/
def State.follow (s : State) (die core : Nat) (rs : List Req) : State :=
  rs.foldl (fun s r =>
    let C := s.core die core
    if r.kind = .store && r.entry && r.data.any fun p =>
        (cacheLine C.l1 ⟨r.tag.host, p.1⟩).isSome || (cacheLine C.scalar ⟨r.tag.host, p.1⟩).isSome then s.putCore (C.follow r)
    else s) s

/-- Write what a store has for scratchpads of its own core (R162). -/
def State.writePads (s : State) (r : Req) : State := r.pads.foldl (fun s p => s.storePad p.1 p.2.1 p.2.2 false) s

/-- A store to scratchpads of its own core that holds its entry has been performed there. -/
def Req.padsDone (r : Req) : Req := if r.entry && r.pads ≠ [] then { r with performed := true } else r

/-- The granules a store writes in scratchpads of its own core. -/
def Req.padGranules (r : Req) : List (Nat × Nat) := r.pads.map fun p => (p.1, p.2.1 / 16)

/-- A plain write of a group, its bytes in order: one request for each superblock (R166). One that the own core's scratchpads serve
writes them as it takes its entry, here or at a later turn (R167), and granules that become written by it are registered
later; the rest goes to its homes. Every valid line of the own caches follows as a request takes its entry (R164, R165,
R172, R191). -/
def State.postStore (s : State) (T : Team) (G : Group) (bytes : List (Nat × Byte)) (hint : Hint) (word : Nat)
    (spc : BitVec 32) (off : Nat) (lpc : BitVec 32) (laneOf : Nat → Nat) : State × List Req × List (Nat × Nat) :=
  let located : List (Nat × Loc × Byte) := bytes.filterMap fun p =>
    match s.xlate T.die T.core T.asid p.1 with
    | .ok e => some (p.1, e.loc p.1, p.2)
    | _ => none
  let own : List (Loc × Nat × Nat × Byte) := located.filterMap fun p =>
    (s.windowTeam T.die T.core T.asid p.1).map fun W => (p.2.1, W.uid, p.1 % 2 ^ 64 - W.window, p.2.2)
  let out := located.filter fun p => (s.windowTeam T.die T.core T.asid p.1).isNone
  let served := (superblocks (own.map (·.1))).map fun tag =>
    let mine := own.filter fun p => p.1.host = tag.host && p.1.addr / 256 * 256 = tag.addr
    { Req.of .store tag word spc off lpc with lines := lineMask tag (mine.map (·.1)), pads := mine.map (·.2) }
  let reqs := served ++ (superblocks (out.map (·.2.1))).map fun tag =>
    let mine := out.filter fun p => p.2.1.host = tag.host && p.2.1.addr / 256 * 256 = tag.addr
    { Req.of .store tag word spc off lpc with
        home := s.homeOf T tag (mine.map (·.1)),
        lines := lineMask tag (mine.map (·.2.1)), data := mine.map (fun p => (p.2.1.addr, p.2.2)), hint := hint,
        marks := mine.foldl (fun m p =>
          if m.any (·.1 = p.2.1.addr / 64) then m else m ++ [(p.2.1.addr / 64, p.1, laneOf p.1)]) [] }
  let rs := s.present T.die T.core G.behind reqs
  let now := rs.filter (·.entry)
  let s1 := now.foldl State.writePads s
  (s1.follow T.die T.core rs, rs.map Req.padsDone, s1.unregisteredOf (now.flatMap Req.padGranules))

/-- The requests of a load: one for each superblock some of whose bytes no cache or scratchpad of the core holds (R166,
R167). -/
def State.loadReqs (s : State) (T : Team) (via : Via) (fill : FillCache) (vas : List (Nat × Nat)) (hint : Hint)
    (word : Nat) (spc : BitVec 32) (off : Nat) (lpc : BitVec 32) : List Req :=
  let bytes : List Nat := vas.flatMap fun p => (List.range p.2).map fun i => (p.1 + i) % 2 ^ 64
  let make (own : Bool) : List Req :=
    let ls := s.missed T via own vas
    (superblocks ls).map fun tag =>
      { Req.of .load tag word spc off lpc with
          lines := lineMask tag ls, hint := hint, home := s.homeOf T tag bytes, fill := if own then .none else fill }
  s.present T.die T.core false (make true ++ make false)

/-- The superblocks that a load of the L1 has hit take the hint's mark there, and `.kp` marks those of the home slices too
(R51, R165). -/
def State.markHits (s : State) (T : Team) (vas : List (Nat × Nat)) (hint : Hint) : State :=
  let C := s.core T.die T.core
  let hits := (vas.flatMap fun p => s.places T p.1 p.2).filter fun l => (cacheLine C.l1 l).isSome
  if hits.isEmpty || !(hint = .ev || hint = .kp) then s
  else
    let s1 := s.putCore { C with l1 := hits.foldl (fun c l => cacheMark c l hint) C.l1 }
    let kept (b : SliceBlock) : Bool := hint = .kp && hits.any fun l => !l.host && l.addr / 256 * 256 = b.tag
    { s1 with slices := s1.slices.map fun b => if kept b then { b with hint := .kp } else b }

/-! ## Order of writes (R188, R191, R195, R198) -/

/-- Two stores write a common byte. -/
def Req.shares (r x : Req) : Bool := r.tag = x.tag && r.data.any fun p => x.data.any fun q => p.1 = q.1

/-- The place a request's byte is written at its home (R172): a registered granule, else memory. -/
def State.homePlace (s : State) (l : Loc) : Place :=
  match s.registered l with
  | some (t, o) => .pad t o
  | none => .mem l

/-- A store lies at its home die, not wholly in forwarded granules or in host memory (R198). -/
def State.homed (s : State) (r : Req) : Bool :=
  r.home.isSome && r.data.any fun p => match s.homePlace ⟨r.tag.host, p.1⟩ with
    | .mem _ => true
    | .pad .. => false

/-- A `v.badd` of a group, before one of its words, has an add that is not applied and that covers one of some bytes or goes to
one of some dies (R188, R198, R333). -/
def State.addBefore (s : State) (T : Team) (G : Group) (word : Nat) (homes : List Nat) (ls : List Loc) : Bool :=
  s.adds.any fun a => a.tag.team = T.uid && a.tag.group = G.idx && (a.word.any fun w => decide (w < word)) &&
    (homes.contains a.home || ls.any fun l => !l.host && decide (a.pa ≤ l.addr) && decide (l.addr < a.pa + 4))

/-- A store of the group on its way may be performed now: it holds its entry; no earlier store of the group goes to the same
home die (R198) or writes a common byte (R188), no store of its core has updated the core's lines before it with a common byte
(R164, R191, R195), and no earlier add of the group goes to that die or word unapplied (R198, R333). -/
def State.mayPerform (s : State) (T : Team) (G : Group) (i : Nat) (r : Req) : Bool :=
  r.kind = .store && !r.performed && r.entry &&
    ((G.reqs.take i).all fun x => x.kind != .store || x.performed ||
      !(x.shares r || (x.home = r.home && s.homed x && s.homed r))) &&
    (s.teams.all fun W => W.die ≠ T.die || W.core ≠ T.core || W.groups.all fun H => H.reqs.all fun x =>
      !(x.kind = .store && !x.performed && x.entry && decide (x.stamp < r.stamp) && x.shares r)) &&
    !s.addBefore T G r.word (if s.homed r then r.home.toList else []) (r.data.map fun p => ⟨r.tag.host, p.1⟩)

/-- The writes that an atomic of the group must follow are performed (R188, R191, R195, R198): the core's stores to a byte of
it, and, where it writes, the group's stores and adds to the home dies of its bytes. -/
def State.ordered (s : State) (T : Team) (G : Group) (vas : List (Nat × Nat)) (write : Bool) : Bool :=
  let bytes := vas.flatMap fun p => (List.range p.2).map fun i => (p.1 + i) % 2 ^ 64
  let found : List (Loc × Option Nat) := bytes.filterMap fun va =>
    match s.xlate T.die T.core T.asid va with
    | .ok e => some (e.loc va, match s.writePlace T.die T.core T.asid va (e.loc va) with
      | .mem l => if l.host then none else e.homeDie va
      | .pad .. => none)
    | _ => none
  let ls := found.map (·.1)
  let homes := (found.filterMap (·.2)).eraseDups
  !(s.teams.any fun W => W.die = T.die && W.core = T.core && W.groups.any fun H => H.reqs.any fun r =>
      (r.entry || (W.uid = T.uid && H.idx = G.idx)) && r.writesAny ls) &&
    (!write || (!(G.reqs.any fun r => r.kind = .store && !r.performed && s.homed r && (r.home.any homes.contains)) &&
      !s.addBefore T G (G.words + 1) homes ls))

end Sys2Proof.Machine
end

