-- ==== Sys2Proof/Machine/Check.lean ====
section
/-! DEFINITION. The checks of an access before it is made: alignment, translation, protection, cells, arrays (R89, R168,
R174, R183), and the atomic step at the home (R91, R181, R196). -/
namespace Sys2Proof.Machine

/-- One access: its lane (0xFF for a scalar word), first address and bytes. -/
structure Access where
  lane : Nat
  addr : Nat
  len : Nat
deriving DecidableEq, Repr

/-- What the checks of an access give. -/
inductive Check where
  | pass
  | trap (t : Trap)
  | wait (w : WaitFor)
  | absent (pa : Nat)
deriving DecidableEq, Repr

/-- The first check that does not pass. -/
def firstCheck : List Check → Check
  | [] => .pass
  | .pass :: l => firstCheck l
  | c :: _ => c

/-- A check of each page of an access, lowest lane first. -/
def perPage (as : List Access) (f : Access → Nat → Check) : Check :=
  firstCheck (as.flatMap fun a => (pagesOf a.addr a.len).map (f a))

/-- Misaligned (R89, R183). -/
def checkAlign (acc align : Nat) (as : List Access) : Check :=
  match as.find? fun a => a.addr % align ≠ 0 with
  | some a => .trap { kind := .misaligned, acc := acc, addr := a.addr, lane := a.lane }
  | none => .pass

/-- Translation (R158, R161). -/
def State.checkPages (s : State) (T : Team) (acc : Nat) (as : List Access) : Check :=
  perPage as fun a va =>
    match s.xlate T.die T.core T.asid va with
    | .bad k => .trap { kind := k, acc := acc, addr := va, lane := a.lane }
    | .absent pa => .absent pa
    | .ok _ => .pass

/-- Protection (R159, R161). -/
def State.checkRights (s : State) (T : Team) (acc : Nat) (need : Need) (as : List Access) : Check :=
  perPage as fun a va =>
    match s.xlate T.die T.core T.asid va with
    | .ok e =>
      match e.lacks need with
      | some k => .trap { kind := k, acc := acc, addr := va, lane := a.lane }
      | none => .pass
    | _ => .pass

/-- The scratchpad an access to one byte reaches (R162, R172). -/
def State.padOf (s : State) (T : Team) (va : Nat) : Option (Team × Nat) :=
  match s.xlate T.die T.core T.asid va with
  | .ok e =>
    match s.writePlace T.die T.core T.asid va (e.loc va) with
    | .pad t o => (s.team t).map fun W => (W, o)
    | .mem _ => none
  | _ => none

/-- The lowest byte of an access on the page of one of its bytes, of whatever size that page is (R158, R183). -/
def State.lowOn (s : State) (T : Team) (a : Access) (va : Nat) : Nat :=
  match s.xlate T.die T.core T.asid va with
  | .ok e => (va + 2 ^ 64 - min (va % 2 ^ 57 - e.base) ((va + 2 ^ 64 - a.addr % 2 ^ 64) % 2 ^ 64)) % 2 ^ 64
  | _ => va

/-- Arrays in compute mode: a store is refused, a load waits for the pass to end (R89, R174). -/
def State.checkArrays (s : State) (T : Team) (acc : Nat) (store : Bool) (as : List Access) : Check :=
  firstCheck (as.flatMap fun a => (List.range a.len).map fun i =>
    let va := (a.addr + i) % 2 ^ 64
    match s.padOf T va with
    | none => .pass
    | some (W, o) =>
      if store then
        if W.storeBusy o then .trap { kind := .arrayBusy, acc := acc, addr := s.lowOn T a va, lane := a.lane } else .pass
      else if W.loadBusy o then .wait (.arrayPass W.uid (o / 24576)) else .pass)

/-- The checks of R89 and R183 for global addresses, in their order. No global address goes through a cell mapping (R162, R168), so
that the revoked mapping of a scalar access, of which R233 speaks, is taken never to arise (DESIGN CHOICE, log 53). -/
def State.checkGlobal (s : State) (T : Team) (acc align : Nat) (need : Need) (as : List Access) : Check :=
  firstCheck [checkAlign acc align as, s.checkPages T acc as, s.checkRights T acc need as, s.checkArrays T acc need.w as]

/-- Go on where the checks pass; trap, wait or stop where they do not. -/
def onPass (s : State) (T : Team) (G : Group) (c : Check) (k : Out) : Out :=
  match c with
  | .pass => k
  | .trap t => raise s T G t
  | .wait w => waitFor s T G w
  | .absent pa => .fault (.noSuchDramAddress pa)

/-! ## The atomic step -/

/-- The bytes of an atomic with their places, all translated before the first is written (R91, R181). -/
def State.atomicTargets (s : State) (T : Team) (va : Nat) (bs : List Byte) : List (Loc × Place × Byte) :=
  bs.zipIdx.filterMap fun p =>
    match s.xlate T.die T.core T.asid ((va + p.2) % 2 ^ 64) with
    | .ok e =>
      let l := e.loc ((va + p.2) % 2 ^ 64)
      some (l, s.writePlace T.die T.core T.asid ((va + p.2) % 2 ^ 64) l, p.1)
    | _ => none

/-- Write one byte of an atomic at its home; the core's own lines follow (R164, R196). -/
def State.atomicByte (s : State) (T : Team) (x : Loc × Place × Byte) : State :=
  let C := s.core T.die T.core
  let s1 := s.putByte x.2.1 x.2.2 false
  if (cacheLine C.l1 x.1).isSome || (cacheLine C.scalar x.1).isSome then
    s1.putCore { C with l1 := cacheUpdate C.l1 x.1 x.2.2 false, scalar := cacheUpdate C.scalar x.1 x.2.2 false }
  else s1

/-- The lines that an atomic writes become dirty in their home slices (R163, R164). -/
def State.dirtyHomes (s : State) (T : Team) (va n : Nat) : State :=
  (List.range n).foldl (fun s i =>
    let a := (va + i) % 2 ^ 64
    match s.xlate T.die T.core T.asid a with
    | .ok e => (match s.writePlace T.die T.core T.asid a (e.loc a) with
      | .mem l => s.touchHome (e.homeDie a) l true .none
      | .pad .. => s)
    | _ => s) s

/-- Write the bytes of an atomic at their home. -/
def State.atomicWrite (s : State) (T : Team) (va : Nat) (bs : List Byte) : State :=
  (s.atomicTargets T va bs).foldl (fun s x => s.atomicByte T x) (s.dirtyHomes T va bs.length)

/-- The requests of an atomic, those that the own scratchpad serves among them, as they are presented, with the work each has to do
(R166, R167). -/
def State.atomicReqs (s : State) (T : Team) (vas : List (Nat × Nat)) (work : Loc → Option AtomWork) (word : Nat)
    (spc : BitVec 32) (off : Nat) (lpc : BitVec 32) : List Req :=
  let ls := vas.flatMap fun p => s.places T p.1 p.2
  s.present T.die T.core false ((superblocks ls).map fun tag =>
    { Req.of .atomic tag word spc off lpc with lines := lineMask tag ls, atom := work tag })

/-- An atomic that holds its entry has been performed; it keeps the entry until it is acknowledged (R167). -/
def Req.atomDone (r : Req) : Req := if r.entry then { r with performed := true, atom := none } else r

end Sys2Proof.Machine
end

