-- ==== Sys2Proof/Machine/Flags.lean ====
section
/-! DEFINITION. Rounding and the floating-point flags: exact values, the one rounding rule of R137, the IEEE formats of
R96 with the flags of R98. -/
namespace Sys2Proof.Machine

/-- The sticky flags (R98), bit numbers as in `st.fp`: NV, DZ, OF, UF, NX. -/
abbrev FFlags := BitVec 5
/-- Invalid. -/
def fNV : FFlags := 1
/-- Divide by zero. -/
def fDZ : FFlags := 2
/-- Overflow. -/
def fOF : FFlags := 4
/-- Underflow. -/
def fUF : FFlags := 8
/-- Inexact. -/
def fNX : FFlags := 16

/-- A rounding in hand (R97): the mode and, for stochastic rounding, its draw word. -/
inductive Mode where
  | rne
  | rtz
  | sr (draw : Word)
deriving DecidableEq, Repr

/-- An exact value: NaN, an infinity, or ±m·2^e. With `sticky`, the magnitude lies strictly between m·2^e and
(m+1)·2^e, for a value that no such pair equals. -/
inductive FVal where
  | nan
  | inf (neg : Bool)
  | fin (neg : Bool) (m : Nat) (e : Int) (sticky : Bool)
deriving DecidableEq, Repr

/-- A floating-point format with its precision and normal exponents (R96, R137). -/
structure FFmt where
  prec : Nat
  emin : Int
  emax : Int
  width : Nat
deriving DecidableEq, Repr

/-- binary32. -/
def fmt32 : FFmt := ⟨24, -126, 127, 32⟩
/-- binary16. -/
def fmt16 : FFmt := ⟨11, -14, 15, 16⟩
/-- bfloat16. -/
def fmtB16 : FFmt := ⟨8, -126, 127, 16⟩

/-- The format of a floating-point TYPE (R96). -/
def ElemType.ffmt : ElemType → FFmt
  | .f16 => fmt16
  | .bf16 => fmtB16
  | _ => fmt32

/-- floor(log2 m), 0 for m = 0. -/
def log2 (m : Nat) : Nat := Nat.log2 m

/-- m·2^k for k at least 0, floor(m / 2^-k) otherwise. -/
def scaleNat (m : Nat) (k : Int) : Nat := if 0 ≤ k then m * 2 ^ k.toNat else m / 2 ^ (-k).toNat

/-- Rounding m·2^e (and a little more when sticky) to an integer multiple of 2^q (R137): the integer and whether it
differs from the exact value. -/
def roundAt (m : Nat) (e q : Int) (sticky : Bool) (mode : Mode) : Nat × Bool :=
  if q ≤ e then (m * 2 ^ (e - q).toNat, sticky)
  else
    let sh := (q - e).toNat
    let k := m / 2 ^ sh
    let rem := m % 2 ^ sh
    let half := 2 ^ (sh - 1)
    let up : Nat :=
      match mode with
      | .rne => if half < rem || (rem = half && (sticky || k % 2 = 1)) then 1 else 0
      | .rtz => 0
      | .sr r => (rem * 4096 / 2 ^ sh + bits r.toNat 0 12) / 4096
    (k + up, rem ≠ 0 || sticky)

/-- The quantum exponent of a non-zero magnitude in a format of precision p and least exponent emin (R137). -/
def quantum (m : Nat) (e : Int) (p : Nat) (emin : Int) : Int := max ((log2 m : Int) + e) emin - p + 1

/-- The sign bit of a format. -/
def FFmt.sign (f : FFmt) (neg : Bool) : Nat := if neg then 2 ^ (f.width - 1) else 0
/-- The pattern of +∞. -/
def FFmt.infBits (f : FFmt) : Nat := (2 ^ (f.width - f.prec) - 1) * 2 ^ (f.prec - 1)
/-- The pattern of the largest finite value. -/
def FFmt.maxBits (f : FFmt) : Nat := f.infBits - 1
/-- The canonical NaN (R96). -/
def FFmt.nanBits (f : FFmt) : Nat := f.infBits + 2 ^ (f.prec - 2)

/-- The value of a pattern (R96). -/
def FFmt.decode (f : FFmt) (x : Nat) : FVal :=
  let neg : Bool := bits x (f.width - 1) 1 = 1
  let e := bits x (f.prec - 1) (f.width - f.prec)
  let t := bits x 0 (f.prec - 1)
  if e = 2 ^ (f.width - f.prec) - 1 then (if t = 0 then .inf neg else .nan)
  else if e = 0 then .fin neg t (f.emin - (f.prec - 1 : Nat)) false
  else .fin neg (2 ^ (f.prec - 1) + t) (f.emin - (f.prec - 1 : Nat) + (e - 1 : Nat)) false

/-- One rounding of a value into an IEEE format with its flags, then SAT (R97, R98). -/
def FFmt.round (f : FFmt) (v : FVal) (mode : Mode) (sat : Bool) : Nat × FFlags :=
  match v with
  | .nan => (f.nanBits, 0)
  | .inf neg => (f.sign neg + (if sat then f.maxBits else f.infBits), 0)
  | .fin neg m e sticky =>
    if m = 0 && !sticky then (f.sign neg, 0)
    else
      let q := quantum m e f.prec f.emin
      let r := roundAt m e q sticky mode
      let mag := (q - (f.emin - (f.prec : Int) + 1)).toNat * 2 ^ (f.prec - 1) + r.1
      let nx : FFlags := if r.2 then fNX else 0
      if f.infBits ≤ mag then
        let out := match mode with
          | .rtz => f.maxBits
          | _ => if sat then f.maxBits else f.infBits
        (f.sign neg + out, fOF ||| fNX)
      else
        let uf : FFlags := if r.2 && decide (mag < 2 ^ (f.prec - 1)) then fUF else 0
        (f.sign neg + mag, nx ||| uf)

/-- The value is zero. -/
def FVal.isZero : FVal → Bool
  | .fin _ m _ sticky => m = 0 && !sticky
  | _ => false

/-- The value is NaN. -/
def FVal.isNan : FVal → Bool
  | .nan => true
  | _ => false

/-- The value is infinite. -/
def FVal.isInf : FVal → Bool
  | .inf _ => true
  | _ => false

/-- The sign of a value. -/
def FVal.neg : FVal → Bool
  | .nan => false
  | .inf n => n
  | .fin n .. => n

/-- The value with its sign reversed. -/
def FVal.negate : FVal → FVal
  | .nan => .nan
  | .inf n => .inf (!n)
  | .fin n m e s => .fin (!n) m e s

/-- The magnitude. -/
def FVal.abs : FVal → FVal
  | .nan => .nan
  | .inf _ => .inf false
  | .fin _ m e s => .fin false m e s

/-- An integer as a value. -/
def FVal.ofInt (i : Int) : FVal := .fin (decide (i < 0)) i.natAbs 0 false

/-- The signed integer k with value k·2^e0, for e0 at most the exponent. -/
def FVal.scaled (v : FVal) (e0 : Int) : Int :=
  match v with
  | .fin n m e _ => let k : Nat := m * 2 ^ (e - e0).toNat; if n then -(k : Int) else (k : Int)
  | _ => 0

/-- The exponent of a finite value, as a bound for a common exponent. -/
def FVal.expo : FVal → Int
  | .fin _ _ e _ => e
  | _ => 0

/-- Exact sum of two finite values; an exact zero of opposite signs is +0, of equal signs keeps the sign (R96). -/
def FVal.addFin (a b : FVal) : FVal :=
  if a.isZero && b.isZero then (if a.neg && b.neg then .fin true 0 0 false else .fin false 0 0 false)
  else
    let e := min a.expo b.expo
    let t := a.scaled e + b.scaled e
    .fin (decide (t < 0)) t.natAbs e false

/-- Exact sum, NV for ∞ + (−∞) (R102). -/
def FVal.add (a b : FVal) : FVal × FFlags :=
  match a, b with
  | .nan, _ | _, .nan => (.nan, 0)
  | .inf x, .inf y => if x = y then (.inf x, 0) else (.nan, fNV)
  | .inf x, _ => (.inf x, 0)
  | _, .inf y => (.inf y, 0)
  | _, _ => (a.addFin b, 0)

/-- Exact product, NV for ±0 × ±∞ (R102). -/
def FVal.mul (a b : FVal) : FVal × FFlags :=
  match a, b with
  | .nan, _ | _, .nan => (.nan, 0)
  | .inf x, y | y, .inf x => if y.isZero then (.nan, fNV) else (.inf (x != y.neg), 0)
  | .fin x m e _, .fin y n f _ => (.fin (x != y) (m * n) (e + f) false, 0)

/-- a × b + c with one rounding later; NV for ∞ × 0 unless c is NaN (R101). -/
def FVal.fma (a b c : FVal) : FVal × FFlags :=
  if a.isNan || b.isNan || c.isNan then (.nan, 0)
  else
    let p := a.mul b
    if p.1.isNan then (.nan, p.2) else p.1.add c

/-- Values compare a < b (finite or infinite, not NaN), −0 equal to +0. -/
def FVal.lt (a b : FVal) : Bool :=
  match a, b with
  | .nan, _ | _, .nan => false
  | .inf x, .inf y => x && !y
  | .inf x, _ => x
  | _, .inf y => !y
  | _, _ => let e := min a.expo b.expo; decide (a.scaled e < b.scaled e)

/-- Values compare equal, −0 equal to +0. -/
def FVal.eq (a b : FVal) : Bool :=
  match a, b with
  | .nan, _ | _, .nan => false
  | .inf x, .inf y => x = y
  | .inf _, _ | _, .inf _ => false
  | _, _ => let e := min a.expo b.expo; decide (a.scaled e = b.scaled e)

/-- a / b (R101, R102). -/
def FVal.div (a b : FVal) : FVal × FFlags :=
  match a, b with
  | .nan, _ | _, .nan => (.nan, 0)
  | .inf _, .inf _ => (.nan, fNV)
  | .inf x, y => (.inf (x != y.neg), 0)
  | x, .inf y => (.fin (x.neg != y) 0 0 false, 0)
  | .fin x m e _, .fin y n f _ =>
    if n = 0 then (if m = 0 then (.nan, fNV) else (.inf (x != y), fDZ))
    else if m = 0 then (.fin (x != y) 0 0 false, 0)
    else
      let s := 64 + log2 n
      (.fin (x != y) (m * 2 ^ s / n) (e - s - f) (m * 2 ^ s % n ≠ 0), 0)

/-- Integer square root by `k` bits from the top. -/
def isqrtFrom (n : Nat) : Nat → Nat → Nat
  | 0, r => r
  | k + 1, r => let t := r + 2 ^ k; isqrtFrom n k (if t * t ≤ n then t else r)

/-- floor(√n). -/
def isqrt (n : Nat) : Nat := isqrtFrom n (log2 n / 2 + 1) 0

/-- √a (R101, R102). -/
def FVal.sqrt (a : FVal) : FVal × FFlags :=
  match a with
  | .nan => (.nan, 0)
  | .inf n => if n then (.nan, fNV) else (.inf false, 0)
  | .fin n m e _ =>
    if m = 0 then (.fin n 0 0 false, 0)
    else if n then (.nan, fNV)
    else
      -- an even exponent and at least 128 bits
      let m' := if e % 2 = 0 then m * 2 ^ 128 else m * 2 ^ 129
      let e' := if e % 2 = 0 then e - 128 else e - 129
      let k := isqrt m'
      (.fin false k (e' / 2) (k * k ≠ m'), 0)

/-- 1 / √a (R101, R102). -/
def FVal.rsqrt (a : FVal) : FVal × FFlags :=
  match a with
  | .nan => (.nan, 0)
  | .inf n => if n then (.nan, fNV) else (.fin false 0 0 false, 0)
  | .fin n m e _ =>
    if m = 0 then (.inf n, fDZ)
    else if n then (.nan, fNV)
    else
      let m' := if e % 2 = 0 then m else m * 2
      let e' := if e % 2 = 0 then e else e - 1
      let k := 64 + log2 m'
      let r := isqrt (2 ^ (2 * k) / m')
      (.fin false r (-(k : Int) - e' / 2) (r * r * m' ≠ 2 ^ (2 * k)), 0)

/-! ## The functions, in fixed point of 384 fraction bits (log 14) -/

/-- Fraction bits of the fixed-point evaluation. -/
def fixBits : Nat := 384

/-- floor(ln 2 × 2^384). -/
def ln2Fix : Nat := 27311389503436327984859642001965014295881604093268141717219425985154158335678826923825841039545353940567474963094288

/-- floor(π × 2^384). -/
def piFix : Nat := 123785053203292407819553701039137184435442376711719744927844101526111311422332618694237111830548352286187237239491692

/-- Product of two fixed-point numbers. -/
def fixMul (a b : Nat) : Nat := a * b / 2 ^ fixBits

/-- The sum of x^k / k! from the term in hand, x in fixed point. -/
def expSeries (x : Nat) : Nat → Nat → Nat → Nat
  | 0, _, acc => acc
  | n + 1, term, acc =>
    let k := 96 - n
    let t := fixMul term x / k
    expSeries x n t (acc + t)

/-- e^x in fixed point, 0 ≤ x < 1. -/
def expFix (x : Nat) : Nat := expSeries x 96 (2 ^ fixBits) (2 ^ fixBits)

/-- The sum of z^(2j+1) / (2j+1), zz = z². -/
def atanhSeries (zz : Nat) : Nat → Nat → Nat → Nat
  | 0, _, acc => acc
  | n + 1, pow, acc =>
    let j := 100 - (n + 1)
    atanhSeries zz n (fixMul pow zz) (acc + pow / (2 * j + 1))

/-- The alternating series of sine (first = x, off = 1) or cosine (first = 1, off = 0), xx = x². -/
def trigSeries (xx off : Nat) : Nat → Nat → Int → Bool → Int
  | 0, _, acc, _ => acc
  | n + 1, term, acc, minus =>
    let j := 64 - n
    let t := fixMul term xx / ((2 * j - 1 + off) * (2 * j + off))
    trigSeries xx off n t (if minus then acc - t else acc + t) (!minus)

/-- sin x in fixed point, 0 ≤ x ≤ 1. -/
def sinFix (x : Nat) : Nat := (trigSeries (fixMul x x) 1 64 x x true).toNat

/-- cos x in fixed point, 0 ≤ x ≤ 1. -/
def cosFix (x : Nat) : Nat := (trigSeries (fixMul x x) 0 64 (2 ^ fixBits) (2 ^ fixBits) true).toNat

/-- A fixed-point result that no dyadic number equals, its last 16 bits given up to the error of the series. -/
def ofFix (neg : Bool) (x : Nat) (e : Int) : FVal := .fin neg (x / 2 ^ 16) (e - (fixBits - 16 : Nat)) true

/-- 2^a (R101, R102). -/
def FVal.exp2 (a : FVal) : FVal × FFlags :=
  match a with
  | .nan => (.nan, 0)
  | .inf n => if n then (.fin false 0 0 false, 0) else (.inf false, 0)
  | .fin n m e _ =>
    if m = 0 then (.fin false 1 0 false, 0)
    else if 12 ≤ (log2 m : Int) + e then
      -- beyond every exponent of the three formats
      (.fin false 1 (if n then -4096 else 4096) false, 0)
    else if 0 ≤ e then (.fin false 1 (a.scaled 0) false, 0)
    else
      let d := (-e).toNat
      let k := a.scaled e
      let fl : Int := k / (2 ^ d : Nat)
      let fr : Nat := (k % (2 ^ d : Nat)).toNat
      if fr = 0 then (.fin false 1 fl false, 0)
      else (ofFix false (expFix (fr * ln2Fix / 2 ^ d)) fl, 0)

/-- log2 a (R101, R102). -/
def FVal.log2 (a : FVal) : FVal × FFlags :=
  match a with
  | .nan => (.nan, 0)
  | .inf n => if n then (.nan, fNV) else (.inf false, 0)
  | .fin n m e _ =>
    if m = 0 then (.inf true, fDZ)
    else if n then (.nan, fNV)
    else
      let l := Nat.log2 m
      if m = 2 ^ l then (FVal.ofInt (l + e), 0)
      else
        -- x = m / 2^l', 3/4 ≤ x < 3/2
        let l' := if 2 * m < 3 * 2 ^ l then l else l + 1
        let den := 2 ^ l'
        let below : Bool := decide (m < den)
        let z := (if below then den - m else m - den) * 2 ^ fixBits / (m + den)
        let at2 := 2 * atanhSeries (fixMul z z) 100 z 0
        let lg := at2 * 2 ^ fixBits / ln2Fix
        let t : Int := ((l' : Int) + e) * (2 ^ fixBits : Nat) + (if below then -(lg : Int) else (lg : Int))
        (ofFix (decide (t < 0)) t.natAbs 0, 0)

/-- sin(π r) for 0 < r < 1/2, r = k / 2^d, in fixed point. -/
def sinPiFix (k d : Nat) : Nat :=
  if 4 * k ≤ 2 ^ d then sinFix (k * piFix / 2 ^ d) else cosFix ((2 ^ d - 2 * k) * piFix / 2 ^ (d + 1))

/-- cos(π r) for 0 < r < 1/2. -/
def cosPiFix (k d : Nat) : Nat :=
  if 4 * k ≤ 2 ^ d then cosFix (k * piFix / 2 ^ d) else sinFix ((2 ^ d - 2 * k) * piFix / 2 ^ (d + 1))

/-- sin(π a) (R101, R102). -/
def FVal.sinPi (a : FVal) : FVal × FFlags :=
  match a with
  | .nan => (.nan, 0)
  | .inf _ => (.nan, fNV)
  | .fin n m e _ =>
    if m = 0 || 0 ≤ e then (.fin n 0 0 false, 0)
    else
      let d := (-e).toNat
      let r := m % 2 ^ (d + 1)
      let half := r % 2 ^ d
      let sgn : Bool := n != decide (2 ^ d ≤ r)
      if half = 0 then (.fin n 0 0 false, 0)
      else if 2 * half = 2 ^ d then (.fin sgn 1 0 false, 0)
      else (ofFix sgn (sinPiFix (if 2 * half < 2 ^ d then half else 2 ^ d - half) d) 0, 0)

/-- cos(π a) (R101, R102). -/
def FVal.cosPi (a : FVal) : FVal × FFlags :=
  match a with
  | .nan => (.nan, 0)
  | .inf _ => (.nan, fNV)
  | .fin _ m e _ =>
    if m = 0 then (.fin false 1 0 false, 0)
    else if 0 ≤ e then (.fin (decide (e = 0) && m % 2 = 1) 1 0 false, 0)
    else
      let d := (-e).toNat
      let r := m % 2 ^ (d + 1)
      let half := r % 2 ^ d
      let turn : Bool := decide (2 ^ d ≤ r)
      if half = 0 then (.fin turn 1 0 false, 0)
      else if 2 * half = 2 ^ d then (.fin false 0 0 false, 0)
      else
        let second : Bool := decide (2 ^ d < 2 * half)
        (ofFix (turn != second) (cosPiFix (if second then 2 ^ d - half else half) d) 0, 0)

/-- floor(a) of a finite value as an integer. -/
def FVal.floor (a : FVal) : Int := if 0 ≤ a.expo then a.scaled 0 else a.scaled a.expo / (2 ^ (-a.expo).toNat : Nat)

/-- a − floor(a) (R101, R102). -/
def FVal.frac (a : FVal) : FVal × FFlags :=
  match a with
  | .nan => (.nan, 0)
  | .inf _ => (.nan, fNV)
  | .fin .. =>
    if 0 ≤ a.expo then (.fin false 0 0 false, 0)
    else (.fin false (a.scaled a.expo % (2 ^ (-a.expo).toNat : Nat)).toNat a.expo false, 0)

/-- a × 2^b; beyond ±4096 every format overflows or underflows alike (R101, R102). -/
def FVal.scale (a : FVal) (b : Int) : FVal :=
  match a with
  | .fin n m e s => .fin n m (if m = 0 then e else e + max (-4096) (min 4096 b)) s
  | v => v

/-- How a value is rounded to an integer (R103, R144). -/
inductive ToInt where
  | floor | ceil | trunc | nearest
deriving DecidableEq, Repr

/-- The integral value of the same format nearest in the direction, the sign of a zero kept (R103). -/
def FFmt.integral (f : FFmt) (x : Nat) (d : ToInt) : Nat :=
  match f.decode x with
  | .nan => f.nanBits
  | .inf n => f.sign n + f.infBits
  | .fin n m e _ =>
    if m = 0 || 0 ≤ e then x
    else
      let sh := (-e).toNat
      let k := m / 2 ^ sh
      let rem := m % 2 ^ sh
      let up : Bool :=
        match d with
        | .floor => n && rem ≠ 0
        | .ceil => !n && rem ≠ 0
        | .trunc => false
        | .nearest => (roundAt m e 0 false .rne).1 ≠ k
      (f.round (.fin n (if up then k + 1 else k) 0 false) .rne false).1

/-- The one-hot class (R104). -/
def FFmt.classOf (f : FFmt) (x : Nat) : Nat :=
  match f.decode x with
  | .nan => 256
  | .inf n => if n then 1 else 128
  | .fin n m _ _ =>
    let sub : Bool := decide (m < 2 ^ (f.prec - 1))
    if m = 0 then (if n then 8 else 16) else if sub then (if n then 4 else 32) else (if n then 2 else 64)

/-- Minimum or maximum of two patterns, one returned unrounded (R105). -/
def FFmt.minmax (f : FFmt) (max : Bool) (x y : Nat) : Nat :=
  let a := f.decode x
  let b := f.decode y
  if a.isNan then (if b.isNan then f.nanBits else y)
  else if b.isNan then x
  else
    let less : Bool := a.lt b || (a.isZero && b.isZero && a.neg && !b.neg)
    if max then (if less then y else x) else (if less then x else if b.lt a || (a.isZero && b.isZero && b.neg) then y else x)

/-- The ordered conditions of `v.fcmp` (R106). -/
def fcompare (a b : FVal) (c : Nat) : Bool :=
  let un := a.isNan || b.isNan
  match c with
  | 0 => !un && a.eq b
  | 1 => un || !a.eq b
  | 2 => !un && a.lt b
  | 3 => !un && (a.lt b || a.eq b)
  | 4 => !un && b.lt a
  | 5 => !un && (b.lt a || a.eq b)
  | 6 => !un
  | _ => un

/-- binary32 sum rounded RNE: the combines of R181, R258, R316, R330. -/
def addF32 (x y : Nat) : Nat := (fmt32.round ((fmt32.decode x).add (fmt32.decode y)).1 .rne false).1

end Sys2Proof.Machine
end

