-- ==== Sys2Proof/Machine/Operands.lean ====
section
/-! DEFINITION. The operands of a lane word (R43 to R48, R94), its destinations, its registers (R71, R116), its draws
(R139, R140). -/
namespace Sys2Proof.Machine

/-! ## Lanes and masks -/

/-- The active lanes, ascending. -/
def lanesOf (m : LaneMask) : List Nat := (List.range laneCount).filter fun l => m.getLsbD l

/-- The mask of some lanes. -/
def maskOfLanes (ls : List Nat) : LaneMask := ls.foldl (fun m l => m ||| BitVec.ofNat 96 (2 ^ l)) 0

/-- A guard over all lanes (R43). -/
def Group.guard (G : Group) (g : Guard) : LaneMask :=
  match g with
  | .always => BitVec.allOnes 96
  | .pred k neg => if neg then ~~~(G.pget k) else G.pget k

/-- A scalar register in a snapshot. -/
def snapReg (snap : Vector DWord 64) (r : SReg) : DWord := if r = 0 then 0 else snap[r.toNat]'r.isLt

/-- The active lanes of a word (R43, R69). -/
def Group.active (G : Group) (e : QEntry) (f : LaneFields) : LaneMask :=
  maskOf (snapReg e.snap 61) (snapReg e.snap 62) (snapReg e.snap 63) &&& G.guard f.ga &&& G.guard f.gb

/-! ## Operands -/

/-- What a lane word reads: its team and group before the word, its snapshot, fields, active lanes and draw words. -/
structure LaneEnv where
  T : Team
  G : Group
  snap : Vector DWord 64
  f : LaneFields
  act : LaneMask
  draws : List Word

/-- The pattern of an immediate under a TYPE (R45). -/
def immPattern (t : ElemType) (k : BitVec 7) : Nat :=
  if t.isFloat then ((ElemType.ffmt t).round (.ofInt k.toInt) .rne false).1 else (k.signExtend t.width).toNat

/-- A special operand (R46). -/
def LaneEnv.special (E : LaneEnv) (p : Special) (l : Nat) : Nat :=
  let pt := E.T.point.getD (0, 0, 0)
  match p with
  | .lane => l
  | .quad => l / 4
  | .group => E.G.idx
  | .team => E.T.num
  | .die => E.T.die
  | .role => E.G.role
  | .pointX => pt.1
  | .pointY => pt.2.1
  | .pointZ => pt.2.2
  | .core => E.T.core

/-- A source operand under a TYPE: the pattern of each lane, at the TYPE's width (R44, R94). -/
def LaneEnv.src (E : LaneEnv) (t : ElemType) (x : Src) : Nat → Nat :=
  match x with
  | .v i =>
    let lo := E.G.vget i.toNat
    if t.isPair then
      let hi := E.G.vget (i.toNat + 1)
      fun l => (elem lo l).toNat + 2 ^ 32 * (elem hi l).toNat
    else fun l => (elem lo l).toNat % 2 ^ t.width
  | .s r => let v := (snapReg E.snap r).toNat % 2 ^ t.width; fun _ => v
  | .l k => let v := E.G.lget k.val; fun l => (elem v l).toNat % 2 ^ t.width
  | .imm k => let v := immPattern t k; fun _ => v
  | .spec p => fun l => E.special p l % 2 ^ t.width

/-- The first register of a vector operand. -/
def srcIx : Src → Nat
  | .v i => i.toNat
  | .s r => r.toNat
  | .l k => k.val
  | .imm k => k.toNat
  | .spec _ => 0

/-- The number in the D field. -/
def dstIx : Dst → Nat
  | .v i => i.toNat
  | .s r => r.toNat
  | .p k => k.val
  | .x k => k.val

/-- A pattern as the integer its TYPE reads (R94). -/
def readInt (t : ElemType) (x : Nat) : Int :=
  if t.isSigned then (BitVec.ofNat t.width x).toInt else (x : Int)

/-- The active lanes of the word. -/
def LaneEnv.lanes (E : LaneEnv) : List Nat := lanesOf E.act

/-! ## Destinations -/

/-- A result of width w as the 32-bit element it is written as (R94). -/
def extendElem (t : ElemType) (x : Nat) : Word :=
  match t with
  | .i8 => (BitVec.ofNat 8 x).signExtend 32
  | .i16 => (BitVec.ofNat 16 x).signExtend 32
  | _ => BitVec.ofNat 32 (x % 2 ^ t.width)

/-- Replace the elements of some lanes. -/
def mergeLanes (v : LaneVec) (xs : List (Nat × Word)) : LaneVec := xs.foldl (fun v p => v.set p.1 p.2) v

/-- Replace elements of a vector register; writing none leaves it. -/
def Group.vmerge (G : Group) (i : Nat) (xs : List (Nat × Word)) : Group :=
  if xs.isEmpty then G else G.vset i (mergeLanes (G.vget i) xs)

/-- Replace elements of a latch. -/
def Group.lmerge (G : Group) (k : Nat) (xs : List (Nat × Word)) : Group :=
  if xs.isEmpty then G else G.lset k (mergeLanes (G.lget k) xs)

/-- Write elements to D and to the latch (R48). -/
def Group.writeElems (G : Group) (f : LaneFields) (xs : List (Nat × Word)) : Group :=
  let G1 := if f.wbs then G else G.vmerge (dstIx f.d) xs
  if f.lat = 0 then G1 else G1.lmerge (f.lat.toNat - 1) xs

/-- Write a result under a TYPE to D: one register, or the two of a pair (R48, R94). -/
def Group.writeD (G : Group) (f : LaneFields) (t : ElemType) (xs : List (Nat × Nat)) : Group :=
  if t.isPair then
    (G.vmerge (dstIx f.d) (xs.map fun p => (p.1, BitVec.ofNat 32 p.2))).vmerge (dstIx f.d + 1)
      (xs.map fun p => (p.1, BitVec.ofNat 32 (p.2 / 2 ^ 32)))
  else G.writeElems f (xs.map fun p => (p.1, extendElem t p.2))

/-- Write predicate bits of the active lanes (R95). -/
def Group.writeP (G : Group) (k : Fin 12) (act : LaneMask) (m : LaneMask) : Group :=
  G.pset k ((G.pget k &&& ~~~act) ||| (m &&& act))

/-- The predicate that a number names. -/
def predIx (n : Nat) : Fin 12 := Fin.ofNat 12 n

/-- Write the scalar D, once, where some lane is active (R109). -/
def Group.writeS (G : Group) (f : LaneFields) (act : LaneMask) (x : DWord) : Group :=
  if act = 0 then G else match f.d with
    | .s r => G.sset r x
    | _ => G

/-- Raise sticky flags (R98). -/
def Group.raiseFlags (G : Group) (fl : FFlags) : Group := { G with fp := G.fp ||| fl.setWidth 64 }

/-! ## The registers a word names -/

/-- The vector registers a source field reads. -/
def srcRegs (r : SrcRule) (x : Nat) : List Nat :=
  if x / 256 ≠ 0 then []
  else
    let i := x % 256
    match r with
    | .zero => []
    | .any t | .noSpecial t => if t.isPair then [i, i + 1] else [i]
    | .vec n _ => (List.range n).map (i + ·)
    | .globalBase => [i, i + 1]
    | _ => []

/-- The vector registers the D field names. -/
def dstRegs (r : DstRule) (x : Nat) (wbs : Bool) : List Nat :=
  if x / 256 ≠ 0 || wbs then []
  else
    let i := x % 256
    match r with
    | .vec n _ => (List.range n).map (i + ·)
    | .vecT t | .vecOrScalar t => if t.isPair then [i, i + 1] else [i]
    | .vecTx4 _ => (List.range 4).map (i + ·)
    | _ => []

/-- A `v.mma` under `.dup`: B names a weight panel, of which the word reads what its map names (R276). -/
def panelWord (r : Raw) : Bool := r.opc = 0xD0 && bits r.func 1 1 = 1

/-- The vector registers a word reads (R92, R116), a weight panel apart. -/
def readsOf (r : Raw) : List Nat :=
  match formOf r ((ElemType.ofCode r.type).getD .b32) with
  | none => []
  | some fm => srcRegs fm.a r.a ++ (if panelWord r then [] else srcRegs fm.b r.b) ++ srcRegs fm.c r.c ++ srcRegs fm.e r.e

/-- The vector registers a word writes, C of `v.bscale` and `v.qerr` among them (R146, R149). -/
def writesOf (r : Raw) : List Nat :=
  match formOf r ((ElemType.ofCode r.type).getD .b32) with
  | none => []
  | some fm => dstRegs fm.d r.d (r.wbs = 1) ++ (if r.opc = 0x73 || r.opc = 0x76 then [r.c % 256] else [])

/-- The predicates a word writes (R83, R100, R123, R127, R152). -/
def predDests (r : Raw) : List Nat :=
  (if r.d / 256 = 2 then [r.d % 256] else []) ++
  (if r.opc = 0x06 || r.opc = 0x07 then [bits r.func 0 4]
   else if (r.opc = 0x94 || r.opc = 0x98) && bits r.func 4 1 = 1 then [bits r.func 0 4]
   else if r.opc = 0x78 && bits r.func 6 1 = 1 then [bits r.func 2 4] else [])

/-- What a word holds until its result lands (R71, R116, R153). -/
def Busy.of (r : Raw) (word : Nat) (memory matrix : Bool) : Busy :=
  { word := word, vecs := writesOf r, preds := predDests r,
    sregs := if r.d / 256 = 1 then [BitVec.ofNat 6 r.d] else [],
    latches := if r.lat = 0 then [] else [r.lat - 1],
    maps := if r.opc = 0x78 then [bits r.func 0 2] else [], memory := memory, matrix := matrix }

/-- The predicates a word reads: its guards, and those FUNC names (R43, R100, R107, R108, R116). -/
def predReads (r : Raw) : List Nat :=
  (if r.ga < 12 then [r.ga] else []) ++ (if r.gb < 12 then [r.gb] else []) ++
  (match r.opc with
   | 0x06 | 0x07 | 0x62 | 0x66 | 0x6A | 0x99 => [bits r.func 0 4]
   | 0x63 | 0x64 | 0x65 => [bits r.func 0 4, bits r.func 4 4]
   | 0x67 => if bits r.func 0 2 = 0 then [] else [bits r.func 4 4]
   | _ => [])

/-- The latches a word reads. -/
def latchReads (r : Raw) : List Nat := [r.a, r.b, r.c, r.e].filterMap fun x => if x / 256 = 2 then some (x % 256 - 1) else none

/-- The word's D is written by its matrix-stream entry (R263, R271). -/
def streamWrites (opc : Nat) : Bool := opc = 0xC2 || opc = 0xD0 || opc = 0xD1

/-- A source of the word has not landed, or a register it names belongs to a matrix-stream entry (R116, R271). -/
def Group.collectorWaits (G : Group) (r : Raw) : Bool :=
  let rd := readsOf r
  let wr := if streamWrites r.opc then [] else writesOf r
  let pd := predReads r
  let lt := latchReads r
  G.busy.any fun b => b.vecs.any (fun v => rd.contains v || (b.matrix && wr.contains v)) || b.preds.any (pd.contains ·) ||
    b.latches.any fun k => lt.contains k || (b.matrix && r.lat = k + 1 && !streamWrites r.opc)

/-! ## Draws (R139, R140) -/

/-- The rounding mode in force for an RND field: 0 RNE, 1 RTZ, 2 stochastic (R97, R356). -/
def Group.rounding (G : Group) (r : Rnd) : Nat :=
  match r with
  | .ctl => bits G.round.toNat 0 2
  | .rne => 0
  | .rtz => 1
  | .sr => 2

/-- The word rounds stochastically. -/
def LaneEnv.stochastic (E : LaneEnv) : Bool := E.G.rounding E.f.rnd = 2

/-- The i-th draw word. -/
def LaneEnv.draw (E : LaneEnv) (i : Nat) : Word := E.draws.getD i 0

/-- The mode of the i-th rounding of the word. -/
def LaneEnv.mode (E : LaneEnv) (i : Nat) : Mode :=
  match E.G.rounding E.f.rnd with
  | 0 => .rne
  | 1 => .rtz
  | _ => .sr (E.draw i)

/-- The address of the i-th draw word in log or replay mode: the 57-bit pointer, sign-extended (R140, R158). -/
def Group.drawAddr (G : Group) (i : Nat) : Nat :=
  ((BitVec.ofNat 57 (bits G.rng.toNat 2 55 * 4 + 4 * i)).signExtend 64).toNat

/-- The pointer after n draws. -/
def Group.drawn (G : Group) (n : Nat) : Group :=
  { G with rng := BitVec.ofNat 64 (bits G.rng.toNat 0 2 + 4 * ((bits G.rng.toNat 2 55 + n) % 2 ^ 55)) }

/-- What taking draws gives: the words, with the address of the first poisoned one; their loads under way, for which the
word waits; or a check that does not pass. -/
inductive Drawn where
  | ok (s : State) (G : Group) (ws : List Word) (bad : Option Nat)
  | load (s : State) (G : Group)
  | stop (c : Check)

/-- The loads of the draw words of the group's next word have not all returned (R156). -/
def Group.drawsLoad (G : Group) : Bool := G.reqs.any fun r => r.kind = .load && r.word = G.words + 1

/-- Take n draw words for a word of the group: live, logged or replayed (R139, R140). In replay mode the words are loaded
first, and the word waits until they have come (R156). -/
def State.takeDraws (s : State) (T : Team) (G : Group) (n : Nat) (spc : BitVec 32) (off : Nat) (lpc : BitVec 32) : Drawn :=
  if n = 0 then .ok s G [] none
  else
    let live := (List.range n).map fun i => Config.noise (s.freeCtr + i)
    let accs := (List.range n).map fun i => (⟨0xFF, G.drawAddr i, 4⟩ : Access)
    let vas := (List.range n).map fun i => (G.drawAddr i, 4)
    match bits G.rng.toNat 0 2 with
    | 0 => .ok (s.bump n) G live none
    | 1 =>
      match s.checkGlobal T 2 4 { w := true } accs with
      | .pass =>
        let bytes := (live.zipIdx.flatMap fun p => (leBytes p.1.toNat 4).zipIdx.map fun q => (G.drawAddr p.2 + q.2, q.1))
        let r := s.postStore T G bytes .none (G.words + 1) spc off lpc fun _ => 0xFF
        .ok (r.1.bump n) { G.drawn n with reqs := G.reqs ++ r.2.1, regs := G.regs ++ r.2.2 } live none
      | c => .stop c
    | _ =>
      match s.checkGlobal T 1 4 { r := true } accs with
      | .pass =>
        (match G.replay with
         | some R => if G.drawsLoad then .load s G else .ok s { G.drawn n with replay := none } R.words R.bad
         | none =>
           let ws := vas.zipIdx.map fun p =>
             if s.loadPoison T G .l1 p.1.1 4 then (Config.freePoison (s.freeCtr + p.2)).setWidth 32
             else BitVec.ofNat 32 (ofBytes (s.loadBytes T G .l1 p.1.1 4))
           let bad := (vas.find? fun p => s.loadPoison T G .l1 p.1 4).map (·.1)
           let rs := s.loadReqs T .l1 .l1 vas .none (G.words + 1) spc off lpc
           let s1 := (s.renew T .l1 vas).bump n
           if rs = [] then .ok s1 (G.drawn n) ws bad
           else .load s1 { G with replay := some ⟨ws, bad⟩, reqs := G.reqs ++ rs })
      | c => .stop c

end Sys2Proof.Machine
end

