-- ==== Sys2Proof/Machine/Lane.lean ====
section
/-! DEFINITION. The mould of the lane words: what holds a word back, its fault point, its issue (R19, R23, R52, R85, R86,
R92, R116), and the elementwise words over it. -/
namespace Sys2Proof.Machine

/-- The head of the queue does not issue at this turn; where `lull` holds the wait is a lull point (R52, R176). -/
def lanePass (s : State) (T : Team) (G : Group) (w : WaitFor) (lull : Bool) : Out :=
  .next (s.put T { G with laneWait := if lull then waitOn G.laneWait w else none })

/-- A check of a lane word that does not pass. -/
def laneStop (s : State) (T : Team) (G : Group) (e : QEntry) (c : Check) : Out :=
  match c with
  | .pass => .next s
  | .trap t => raiseLane s T G e t
  | .wait w => lanePass s T G w false
  | .absent pa => .fault (.noSuchDramAddress pa)

/-- The head of the queue has issued: tentative scalar words become final up to the new head's `vrun` (R86), STALL and
YLD take effect (R52). -/
def Group.issued (G : Group) (f : LaneFields) (busy : Option Busy) : Group :=
  let q := G.queue.drop 1
  { G with queue := q, tent := (match q with
             | [] => []
             | e :: _ => G.tent.filter fun t => decide (e.run ≤ t.run)),
           words := G.words + 1, stall := G.stall + f.stall.toNat, yld := f.yld, laneWait := none,
           busy := match busy with
             | some b => G.busy ++ [b]
             | none => G.busy }

/-- What the head of the queue reads. -/
def laneEnv (T : Team) (G : Group) (e : QEntry) (f : LaneFields) : LaneEnv :=
  { T := T, G := G, snap := e.snap, f := f, act := G.active e f, draws := [] }

/-- The head of the queue at its turn: legal under the group's budgets (R26, R57), its sources in its collector (R116);
then what it does. -/
def laneReady (s : State) (opc : Nat) (f : LaneFields) (k : Team → Group → QEntry → LaneEnv → Out) : Out :=
  match s.current with
  | none => .next s
  | some (T, G) =>
    match G.queue with
    | [] => .next s
    | e :: _ =>
      match laneIllegal G.bud (f.toRaw opc) with
      | some pos => raiseLane s T G e { kind := .illegalEncoding, aux := pos }
      | none =>
        if G.collectorWaits (f.toRaw opc) then lanePass s T G .collector G.yld else k T G e (laneEnv T G e f)

/-- What a word over registers does: its draws (R139), whether its results land late (R116), whether every lane must be
active, its effect on the group. -/
structure LaneOp where
  draws : LaneEnv → Nat := fun _ => 0
  late : Bool := false
  all : Bool := false
  act : LaneEnv → Group → Group

/-- What a word holds after its issue. -/
def LaneOp.busy (o : LaneOp) (opc : Nat) (f : LaneFields) (E : LaneEnv) : Option Busy :=
  if o.late && E.act ≠ 0 then some (.of (f.toRaw opc) (E.G.words + 1) false false) else none

/-- A word over registers (R95, R139, R142). -/
def laneWord (s : State) (opc : Nat) (f : LaneFields) (o : LaneOp) : Out :=
  laneReady s opc f fun T G e E =>
    if o.all && E.act ≠ BitVec.allOnes 96 then raiseLane s T G e { kind := .illegalConvergence }
    else match s.takeDraws T G (o.draws E) e.spc e.off e.lpc with
      | .stop c => laneStop s T G e c
      | .load s1 G1 => lanePass s1 T G1 .collector G.yld
      | .ok s1 G1 ws bad =>
        drawFault (.next (s1.put T ((o.act { E with draws := ws } G1).issued f (o.busy opc f E)))) (T.tag G e.spc) bad e.off
          e.lpc.toNat

/-- `v.nop` (R55). -/
def execVNop (f : LaneFields) (s : State) : Out := laneWord s 0x00 f { act := fun _ G => G }

/-! ## Elementwise words -/

/-- A word that writes one pattern for each active lane under a TYPE. -/
def mapOp (t : ElemType) (val : LaneEnv → Nat → Nat) : LaneOp :=
  { act := fun E G => let g := val E; G.writeD E.f t (E.lanes.map fun l => (l, g l)) }

/-- The union of the flags of a list of results. -/
def flagsOf (rs : List (Nat × Nat × FFlags)) : FFlags := rs.foldl (fun fl r => fl ||| r.2.2) 0

/-- Write a list of results with their flags. -/
def Group.writeF (G : Group) (f : LaneFields) (t : ElemType) (rs : List (Nat × Nat × FFlags)) : Group :=
  (G.writeD f t (rs.map fun r => (r.1, r.2.1))).raiseFlags (flagsOf rs)

/-- One draw for each active lane of a word that rounds stochastically (R97, R139). -/
def laneDraws (E : LaneEnv) : Nat := if E.stochastic then E.lanes.length else 0

/-- A word that rounds once for each active lane, in ascending lane order. -/
def roundOp (t : ElemType) (val : LaneEnv → Nat → Mode → Nat × FFlags) : LaneOp :=
  { draws := laneDraws,
    act := fun E G => let g := val E; G.writeF E.f t (E.lanes.zipIdx.map fun p => (p.1, g p.1 (E.mode p.2))) }

/-! ## Integer results (R99) -/

/-- Saturation (R99). -/
def clampTo (t : ElemType) (x : Int) : Int :=
  let lo : Int := if t.isSigned then -(2 ^ (t.width - 1) : Nat) else 0
  let hi : Int := if t.isSigned then (2 ^ (t.width - 1) : Nat) - 1 else (2 ^ t.width : Nat) - 1
  max lo (min hi x)

/-- The pattern of an exact result: saturated, or modulo 2^w (R99). -/
def intResult (t : ElemType) (sat : Bool) (x : Int) : Nat :=
  ((if sat then clampTo t x else x) % (2 ^ t.width : Nat)).toNat

/-- An integer word of one source. -/
def int1 (f : LaneFields) (op : Int → Int) : LaneOp :=
  mapOp f.type fun E => let a := E.src f.type f.a; fun l => intResult f.type f.sat (op (readInt f.type (a l)))

/-- An integer word of two sources. -/
def int2 (f : LaneFields) (op : Int → Int → Int) : LaneOp :=
  mapOp f.type fun E =>
    let a := E.src f.type f.a
    let b := E.src f.type f.b
    fun l => intResult f.type f.sat (op (readInt f.type (a l)) (readInt f.type (b l)))

/-- A word on the patterns of one source. -/
def bit1 (f : LaneFields) (op : Nat → Nat) : LaneOp :=
  mapOp f.type fun E => let a := E.src f.type f.a; fun l => op (a l)

/-- A word on the patterns of two sources. -/
def bit2 (f : LaneFields) (op : Nat → Nat → Nat) : LaneOp :=
  mapOp f.type fun E => let a := E.src f.type f.a; let b := E.src f.type f.b; fun l => op (a l) (b l)

/-! ## Floating-point results (R101) -/

/-- The value of a lane under a floating-point TYPE. -/
def LaneEnv.fval (E : LaneEnv) (t : ElemType) (x : Src) : Nat → FVal :=
  let a := E.src t x
  fun l => (ElemType.ffmt t).decode (a l)

/-- Round an exact result, its own flags joined (R101). -/
def froundTo (t : ElemType) (sat : Bool) (m : Mode) (v : FVal × FFlags) : Nat × FFlags :=
  let r := (ElemType.ffmt t).round v.1 m sat
  (r.1, v.2 ||| r.2)

/-- A floating-point word of one source. -/
def float1 (f : LaneFields) (op : FVal → FVal × FFlags) : LaneOp :=
  roundOp f.type fun E => let a := E.fval f.type f.a; fun l m => froundTo f.type f.sat m (op (a l))

/-- A floating-point word of two sources. -/
def float2 (f : LaneFields) (op : FVal → FVal → FVal × FFlags) : LaneOp :=
  roundOp f.type fun E =>
    let a := E.fval f.type f.a
    let b := E.fval f.type f.b
    fun l m => froundTo f.type f.sat m (op (a l) (b l))

/-- A floating-point word of three sources. -/
def float3 (f : LaneFields) (op : FVal → FVal → FVal → FVal × FFlags) : LaneOp :=
  roundOp f.type fun E =>
    let a := E.fval f.type f.a
    let b := E.fval f.type f.b
    let c := E.fval f.type f.c
    fun l m => froundTo f.type f.sat m (op (a l) (b l) (c l))

end Sys2Proof.Machine
end

