-- ==== Sys2Proof/Machine/ScalarMem.lean ====
section
/-! DEFINITION. The scalar memory words (R71, R72, R86, R88 to R91). -/
namespace Sys2Proof.Machine

/-- The address of a plain scalar access (R88). -/
def Group.scalarAddr (G : Group) (a : SReg) (k : DWord) : Nat := (G.sget a + k).toNat

/-- The load word retires with its register written; while requests of it are in flight the register is pending (R71).
Where it has read the flag of a block of its group, that block is observed (R339). -/
def loadDone (s : State) (T : Team) (G : Group) (d : SReg) (x : DWord) (rs : List Req) : Out :=
  let G1 := { G.sset d x with words := G.words + 1, reqs := G.reqs ++ rs,
                              loads := if rs.isEmpty then G.loads else G.loads ++ [(G.words + 1, d)] }
  .next (s.retire T G1.advance)

/-- A plain scalar load (R71, R72, R86, R88, R89). -/
def scalarLoad (s : State) (d a : SReg) (k : DWord) (n : Nat) (val : Nat → DWord) : Out :=
  scalarWord s [(20, d), (14, a)] [d, a] true fun T G =>
    let va := G.scalarAddr a k
    if 8 ≤ G.loads.length then waitFor s T G .inFlight
    else onPass s T G (s.checkGlobal T 1 n { r := true } [⟨0xFF, va, n⟩])
      (if s.loadPoison T G .scalar va n then raise s T G { kind := .memory, acc := 1, addr := va }
       else loadDone (s.renew T .scalar [(va, n)]) T (s.sees T G .scalar [(va, n)]) d (val (ofBytes (s.loadBytes T G .scalar va n)))
        (s.loadReqs T .scalar .scalar [(va, n)] .none (G.words + 1) G.spc 0xFF 0xFFFFFFFF))

/-- `ld` (R88). -/
def execLd (d a : SReg) (k : DWord) (s : State) : Out := scalarLoad s d a k 8 (BitVec.ofNat 64)

/-- `ldw` (R88). -/
def execLdw (d a : SReg) (k : DWord) (s : State) : Out := scalarLoad s d a k 4 fun x => (BitVec.ofNat 32 x).signExtend 64

/-- A plain scalar store (R86, R88, R89). -/
def scalarStore (s : State) (d a : SReg) (k : DWord) (n : Nat) : Out :=
  scalarWord s [(20, d), (14, a)] [d, a] true fun T G =>
    let va := G.scalarAddr a k
    onPass s T G (s.checkGlobal T 2 n { w := true } [⟨0xFF, va, n⟩])
      (let bytes := (leBytes (G.sget d).toNat n).zipIdx.map fun p => (va + p.2, p.1)
       let r := s.postStore T G bytes .none (G.words + 1) G.spc 0xFF 0xFFFFFFFF fun _ => 0xFF
       .next (r.1.retire T { G with words := G.words + 1, reqs := G.reqs ++ r.2.1, regs := G.regs ++ r.2.2 }.advance))

/-- `st` (R88). -/
def execSt (d a : SReg) (k : DWord) (s : State) : Out := scalarStore s d a k 8

/-- `stw` (R88). -/
def execStw (d a : SReg) (k : DWord) (s : State) : Out := scalarStore s d a k 4

/-- The address is served by a scratchpad: its page is in the core's mapping table and the access goes through the
window, or its granule is registered by another core (R90). -/
def State.servedByPad (s : State) (T : Team) (va : Nat) : Bool :=
  match s.xlate T.die T.core T.asid va with
  | .ok e => (s.windowTeam T.die T.core T.asid va).isSome || (s.registered (e.loc va)).isSome
  | _ => false

/-- The checks of `ldc` (R89, R90). -/
def State.checkConstant (s : State) (T : Team) (va : Nat) : Check :=
  firstCheck [checkAlign 1 8 [⟨0xFF, va, 8⟩], s.checkPages T 1 [⟨0xFF, va, 8⟩],
    s.checkRights T 1 { r := true } [⟨0xFF, va, 8⟩],
    if s.servedByPad T va then .trap { kind := .ldcScratch, acc := 1, addr := va } else .pass]

/-- `ldc` (R88 to R90): the copy the scalar/constant cache holds, else memory. -/
def execLdc (d a : SReg) (k : DWord) (s : State) : Out :=
  scalarWord s [(20, d), (14, a)] [d, a] true fun T G =>
    let va := G.scalarAddr a k
    if 8 ≤ G.loads.length then waitFor s T G .inFlight
    else onPass s T G (s.checkConstant T va)
      (if s.loadPoison T G .constant va 8 then raise s T G { kind := .memory, acc := 1, addr := va }
       else loadDone (s.renew T .constant [(va, 8)]) T G d (BitVec.ofNat 64 (ofBytes (s.loadBytes T G .constant va 8)))
        (s.loadReqs T .constant .constant [(va, 8)] .none (G.words + 1) G.spc 0xFF 0xFFFFFFFF))

/-! ## Atomics -/

/-- What an atomic does: its permissions (R159), its kind of access (R360), whether it returns the old value, and the
new value of the memory word, none where it writes nothing. -/
structure AmoOp where
  need : Need
  acc : Nat
  returns : Bool
  new : DWord → Option DWord

/-- The bytes of an atomic lie on poisoned DRAM. -/
def State.atomicPoison (s : State) (T : Team) (va n : Nat) : Bool :=
  (List.range n).any fun i =>
    match s.xlate T.die T.core T.asid (va + i) with
    | .ok e =>
      (match s.readPlace T.die T.core T.asid (va + i) (e.loc (va + i)) with
       | .pad .. => false
       | .mem l => s.poisoned l)
    | _ => false

/-- What the ordering of an atomic waits for: where it is a release, that the group's earlier accesses are performed at its scope
(R192); always the writes that its step must follow (R188, R198). -/
def State.atomicWait (s : State) (T : Team) (G : Group) (vas : List (Nat × Nat)) (write : Bool) (release : Option Scope) :
    Option WaitFor :=
  if release.any fun sc => !G.performedAt T sc then release.map .performed
  else if !s.ordered T G vas write then some (.ordered vas write)
  else none

/-- The request of an `amo` as it stands: the one it waits with, else one presented now (R167). -/
def State.amoReqs (s : State) (T : Team) (G : Group) (va : Nat) : List Req :=
  match G.reqs.filter fun r => r.kind = .atomic && r.word = G.words + 1 with
  | [] => s.atomicReqs T [(va, 8)] (fun _ => none) (G.words + 1) G.spc 0xFF 0xFFFFFFFF
  | rs => rs

/-- The mould of `amo` (R91): the writes it must follow are performed first, and its request takes its entry, rejected meanwhile
(R167); then the step is made at the home, and an acquire at cell scope or wider discards the core's lines (R164). -/
def amoWord (s : State) (fields : List (Nat × SReg)) (d a : SReg) (ord : Bool) (sc : Scope) (op : Group → AmoOp) : Out :=
  scalarWord s fields (fields.map (·.2)) true fun T G =>
    let va := (G.sget a).toNat
    let o := op G
    if o.returns && decide (8 ≤ G.loads.length) then waitFor s T G .inFlight
    else onPass s T G (s.checkGlobal T o.acc 8 o.need [⟨0xFF, va, 8⟩])
      (match s.atomicWait T G [(va, 8)] o.need.w (if ord && o.need.w then some sc else none) with
       | some w => waitFor s T G w
       | none =>
       let rs := s.amoReqs T G va
       let G0 := G.withdraw
       if rs.any (!·.entry) then waitFor s T { G0 with reqs := G0.reqs ++ rs } .missEntry
       else if s.atomicPoison T va 8 then
         if o.returns then raise s T G { kind := .memory, acc := o.acc, addr := va }
         else raiseImprecise (s.retire T G0.advance) (T.tag G G.spc) { kind := .storeFault, acc := o.acc, addr := va } 0xFF
           0xFFFFFFFF 0
       else
         let old := BitVec.ofNat 64 (ofBytes (s.loadBytes T G .home va 8))
         let s1 := (match o.new old with
           | some x => s.atomicWrite T va (leBytes x.toNat 8)
           | none => s).renew T .home [(va, 8)]
         let s2 := if ord && o.returns then s1.acquire T.die T.core sc else s1
         if o.returns then loadDone s2 T (s.sees T G0 .home [(va, 8)]) d old (rs.map Req.atomDone)
         else .next (s2.retire T { G0 with words := G0.words + 1, reqs := G0.reqs ++ rs.map Req.atomDone }.advance))

/-- `amo.ld` (R91). -/
def execAmoLd (d a : SReg) (ord : Bool) (sc : Scope) (s : State) : Out :=
  amoWord s [(20, d), (14, a)] d a ord sc fun _ => { need := { r := true }, acc := 1, returns := true, new := fun _ => none }

/-- `amo.st` (R91). -/
def execAmoSt (a b : SReg) (ord : Bool) (sc : Scope) (s : State) : Out :=
  amoWord s [(14, a), (8, b)] 0 a ord sc fun G =>
    { need := { w := true }, acc := 2, returns := false, new := fun _ => some (G.sget b) }

/-- The read-modify-write forms (R91). -/
def amoRmw (s : State) (d a b : SReg) (ord : Bool) (sc : Scope) (f : Group → DWord → DWord → Option DWord) : Out :=
  amoWord s [(20, d), (14, a), (8, b)] d a ord sc fun G =>
    { need := { r := true, w := true }, acc := 3, returns := true, new := fun m => f G m (G.sget b) }

/-- `amo.swap` (R91). -/
def execAmoSwap (d a b : SReg) (ord : Bool) (sc : Scope) (s : State) : Out := amoRmw s d a b ord sc fun _ _ x => some x

/-- `amo.cas`: the compare value is read from SD before SD is written (R91). -/
def execAmoCas (d a b : SReg) (ord : Bool) (sc : Scope) (s : State) : Out :=
  amoRmw s d a b ord sc fun G m x => if m = G.sget d then some x else none

/-- `amo.add` (R91). -/
def execAmoAdd (d a b : SReg) (ord : Bool) (sc : Scope) (s : State) : Out := amoRmw s d a b ord sc fun _ m x => some (m + x)

/-- `amo.and` (R91). -/
def execAmoAnd (d a b : SReg) (ord : Bool) (sc : Scope) (s : State) : Out := amoRmw s d a b ord sc fun _ m x => some (m &&& x)

/-- `amo.or` (R91). -/
def execAmoOr (d a b : SReg) (ord : Bool) (sc : Scope) (s : State) : Out := amoRmw s d a b ord sc fun _ m x => some (m ||| x)

/-- `amo.xor` (R91). -/
def execAmoXor (d a b : SReg) (ord : Bool) (sc : Scope) (s : State) : Out := amoRmw s d a b ord sc fun _ m x => some (m ^^^ x)

/-- `amo.min` (R91). -/
def execAmoMin (d a b : SReg) (ord : Bool) (sc : Scope) (s : State) : Out :=
  amoRmw s d a b ord sc fun _ m x => some (if m.slt x then m else x)

/-- `amo.max` (R91). -/
def execAmoMax (d a b : SReg) (ord : Bool) (sc : Scope) (s : State) : Out :=
  amoRmw s d a b ord sc fun _ m x => some (if m.slt x then x else m)

/-- `amo.minn` (R91). -/
def execAmoMinn (d a b : SReg) (ord : Bool) (sc : Scope) (s : State) : Out :=
  amoRmw s d a b ord sc fun _ m x => some (if m.ult x then m else x)

/-- `amo.maxn` (R91). -/
def execAmoMaxn (d a b : SReg) (ord : Bool) (sc : Scope) (s : State) : Out :=
  amoRmw s d a b ord sc fun _ m x => some (if m.ult x then x else m)

end Sys2Proof.Machine
end

