-- ==== Sys2Proof/Machine/LaneMem.lean ====
section
/-! DEFINITION. The lane memory words (R166 to R187). -/
namespace Sys2Proof.Machine

/-! ## Addresses (R177) -/

/-- The address of each lane: base + off × 2^scale modulo 2^w (R177). -/
def LaneEnv.addr (E : LaneEnv) (global zx : Bool) (scale : Nat) : Nat → Nat :=
  let base := E.src (if global then .n64 else .n32) E.f.a
  let off := E.src .n32 E.f.b
  fun l =>
    let o : Int := if zx then (off l : Int) else readInt .i32 (off l)
    (((base l : Int) + o * (2 ^ scale : Nat)) % (2 ^ (if global then 64 else 32) : Nat)).toNat

/-- FUNC[2], FUNC[1:0] as a load or store has them. -/
def LaneEnv.plainAddr (E : LaneEnv) (global : Bool) : Nat → Nat :=
  E.addr global (bits E.f.func.toNat 2 1 = 1) (bits E.f.func.toNat 0 2)

/-- Elements of a lane's access: 4 under `.x4`. -/
def elemCount (f : LaneFields) : Nat := if bits f.func.toNat 3 1 = 1 then 4 else 1

/-- Element size in bytes (R179). -/
def elemBytes (f : LaneFields) : Nat := f.type.width / 8

/-- The accesses of the active lanes. -/
def LaneEnv.accesses (E : LaneEnv) (addr : Nat → Nat) (len : Nat) : List Access := E.lanes.map fun l => ⟨l, addr l, len⟩

/-- The word carries an order at a scope wider than its group, with that scope (R177). -/
def laneOrder (f : LaneFields) : Option Scope :=
  if bits f.func.toNat 4 1 = 1 then
    match Scope.ofCode (bits f.func.toNat 5 3) with
    | .grp => none
    | sc => some sc
  else none

/-- The discard of an ordered word (R164). -/
def State.acquireIf (s : State) (T : Team) (sc : Option Scope) : State :=
  match sc with
  | some sc => s.acquire T.die T.core sc
  | none => s

/-! ## Results and issue -/

/-- Write the loaded elements: element 0 to D and the latch, the others to the next registers (R179). -/
def Group.writeLoad (G : Group) (f : LaneFields) (xs : List (Nat × List Nat)) : Group :=
  let G1 := G.writeD f f.type (xs.map fun p => (p.1, p.2.headD 0))
  if f.wbs || elemCount f = 1 then G1
  else [1, 2, 3].foldl (fun G k => G.vmerge (dstIx f.d + k) (xs.map fun p => (p.1, extendElem f.type (p.2.getD k 0)))) G1

/-- Extra turns of a word that forms requests for k superblocks (R166). -/
def requestTurns (k : Nat) : Nat := (k + 7) / 8 - 1

/-- The superblocks the accesses of a word touch. -/
def State.touched (s : State) (T : Team) (as : List Access) : Nat :=
  (superblocks (as.flatMap fun a => s.places T a.addr a.len)).length

/-- A memory word has issued with its requests; where it writes D its results land with the last of them (R71, R116). -/
def laneMemDone (s : State) (T : Team) (G : Group) (f : LaneFields) (opc : Nat) (writes : Bool) (rs : List Req)
    (turns : Nat) : State :=
  let b := if writes then some (Busy.of (f.toRaw opc) (G.words + 1) (!rs.isEmpty) false) else none
  let G1 := G.issued f b
  s.put T { G1 with reqs := G1.reqs ++ rs, stall := G1.stall + turns }

/-- The little-endian bytes of an element with their addresses. -/
def elemAt (va n x : Nat) : List (Nat × Byte) := (leBytes x n).zipIdx.map fun p => (va + p.2, p.1)

/-- The store data of a lane: element k is C + k (R179). -/
def LaneEnv.stored (E : LaneEnv) : Nat → List Nat :=
  let srcs := (List.range (elemCount E.f)).map fun k => E.src E.f.type (match E.f.c with
    | .v i => .v (i + BitVec.ofNat 8 k)
    | x => x)
  fun l => srcs.map fun g => g l

/-- The bytes a store writes, ascending lanes, so that the highest lane's remain (R179). -/
def LaneEnv.storeBytes (E : LaneEnv) (addr : Nat → Nat) : List (Nat × Byte) :=
  let g := E.stored
  let n := elemBytes E.f
  E.lanes.flatMap fun l => (g l).zipIdx.flatMap fun p => elemAt (addr l + n * p.2) n p.1

/-! ## Global loads and stores (R179) -/

/-- `v.ld` (R179): lanes whose data is poisoned receive undefined bits, and the fault follows with the response (R184). One that
reads the home waits for what other groups of the core have on their way to its bytes (R188). -/
def execVLd (f : LaneFields) (s : State) : Out :=
  laneReady s 0xA0 f fun T G e E =>
    let n := elemBytes f
    let len := n * elemCount f
    let addr := E.plainAddr true
    let as := E.accesses addr len
    match s.checkGlobal T 1 1 { r := true } as with
    | .pass =>
      let ord := laneOrder f
      let via : Via := if f.hint = .lc || ord.isSome then .home else .l1
      let vas := as.map fun a => (a.addr, a.len)
      if via = .home && s.othersPosted T G vas then lanePass s T G (.ordered vas false) false
      else
      let bad := as.filter fun a => s.loadPoison T G via a.addr a.len
      let xs := as.map fun a => (a.lane, (List.range (elemCount f)).map fun k =>
        if bad.contains a then (Config.freePoison (s.freeCtr + 4 * a.lane + k)).toNat % 2 ^ f.type.width
        else ofBytes (s.loadBytes T G via (a.addr + n * k) n))
      let rs := s.loadReqs T via (if f.hint = .lc then .slice else .l1) vas f.hint (G.words + 1) e.spc e.off e.lpc
      let rs' := match rs, bad with
        | r :: l, b :: _ => { r with bad := some (b.lane, b.addr) } :: l
        | rs, _ => rs
      let s1 := ((if via = .l1 then s.markHits T vas f.hint else s).renew T via vas).bump 384
      .next (laneMemDone (s1.acquireIf T (if E.act = 0 then none else ord)) T ((s.sees T G via vas).writeLoad f xs) f 0xA0
        (E.act ≠ 0) rs' (requestTurns (s.touched T as)))
    | c => laneStop s T G e c

/-- The lowest lane whose access covers an address. -/
def laneAt (as : List Access) (va : Nat) : Nat :=
  ((as.find? fun a => decide (a.addr ≤ va) && decide (va < a.addr + a.len)).map (·.lane)).getD 0xFF

/-- `v.st` (R179): a release waits until every earlier write is performed. An ordered word with no active lane is read as one whose
load or atomic reads nothing, so that it discards nothing (R164), and whose store waits as a release all the same, here and in
`v.sts` (DESIGN CHOICE, log 53). -/
def execVSt (f : LaneFields) (s : State) : Out :=
  laneReady s 0xA1 f fun T G e E =>
    let addr := E.plainAddr true
    let as := E.accesses addr (elemBytes f * elemCount f)
    match s.checkGlobal T 2 1 { w := true } as with
    | .pass =>
      match (laneOrder f).filter fun sc => !G.performedAt T sc with
      | some sc => lanePass s T G (.performed sc) false
      | none =>
        let r := s.postStore T G (E.storeBytes addr) f.hint (G.words + 1) e.spc e.off e.lpc (laneAt as)
        .next (laneMemDone r.1 T { G with regs := G.regs ++ r.2.2 } f 0xA1 false r.2.1 (requestTurns (s.touched T as)))
    | c => laneStop s T G e c

/-! ## Scratchpad words (R168, R179, R186) -/

/-- What a scratchpad address names: the team and offset, or the failing check (R168). -/
inductive PadRef where
  | at (t off : Nat)
  | bounds
  | revoked
deriving DecidableEq, Repr

/-- The current member of a team's cell with an index (R168, R231). -/
def State.member (s : State) (T : Team) (m : Nat) : Option Team :=
  match T.cell with
  | none => none
  | some (id, _) =>
    if T.leaving then none
    else s.teams.find? fun W => W.launch = T.launch && W.die = T.die && W.cell = some (id, m) && !W.leaving

/-- Resolve a scratchpad address (R168). -/
def State.padRef (s : State) (T : Team) (a : Nat) : PadRef :=
  let off := bits a 0 20
  let m := bits a 20 4
  if bits a 25 7 ≠ 0 then .bounds
  else if bits a 24 1 = 0 then
    if m ≠ 0 || decide (T.size ≤ off) then .bounds else .at T.uid off
  else
    match s.member T m with
    | some W => if W.size ≤ off then .bounds else .at W.uid off
    | none => .revoked

/-- The bytes of an access with what each names. -/
def State.padBytes (s : State) (T : Team) (a : Access) : List (Nat × PadRef) :=
  (List.range a.len).map fun i => let x := (a.addr + i) % 2 ^ 32; (x, s.padRef T x)

/-- A trap for the first byte of some lane that satisfies a test; its address is the lowest byte of the lane on that
16 KiB page (R183). -/
def State.padCheck (s : State) (T : Team) (acc : Nat) (kind : FaultKind) (as : List Access) (bad : PadRef → Bool) : Check :=
  match as.findSome? fun a => ((s.padBytes T a).find? fun p => bad p.2).map fun p => (a, p.1) with
  | some (a, x) => .trap { kind := kind, acc := acc, lane := a.lane, addr := max (min a.addr x) (x / 16384 * 16384) }
  | none => .pass

/-- Arrays in compute mode: a store is refused, a load waits (R174). -/
def State.padArrays (s : State) (T : Team) (acc : Nat) (store : Bool) (as : List Access) : Check :=
  let busy (r : PadRef) : Bool := match r with
    | .at t o => ((s.team t).map fun W => if store then W.storeBusy o else W.loadBusy o).getD false
    | _ => false
  if store then s.padCheck T acc .arrayBusy as busy
  else
    match as.findSome? fun a => (s.padBytes T a).find? fun p => busy p.2 with
    | some (_, .at t o) => .wait (.arrayPass t (o / 24576))
    | _ => .pass

/-- The checks of R183 for scratchpad addresses, the modes of arrays apart. -/
def State.checkPadRefs (s : State) (T : Team) (acc align : Nat) (as : List Access) : Check :=
  firstCheck [checkAlign acc align as, s.padCheck T acc .scratchBounds as (· = .bounds),
    s.padCheck T acc .cellRevoked as (· = .revoked)]

/-- The checks of R183 for scratchpad addresses. -/
def State.checkPads (s : State) (T : Team) (acc align : Nat) (store : Bool) (as : List Access) : Check :=
  firstCheck [s.checkPadRefs T acc align as, s.padArrays T acc store as]

/-- The byte at a scratchpad address. -/
def State.padLoad (s : State) (T : Team) (a : Nat) : Byte :=
  match s.padRef T (a % 2 ^ 32) with
  | .at t o => s.takeByte (.pad t o)
  | _ => 0

/-- Write a byte at a scratchpad address; a `v.stfe` also sets its granule full (R175). -/
def State.padStore (s : State) (T : Team) (a : Nat) (b : Byte) (full : Bool) : State :=
  match s.padRef T (a % 2 ^ 32) with
  | .at t o => s.storePad t o b full
  | _ => s

/-- A store word on scratchpad addresses: its bytes are written, and the granules that no directory has yet are on their way to
be registered (R172). -/
def State.padStores (s : State) (T : Team) (G : Group) (bytes : List (Nat × Byte)) (full : Bool) : State × Group :=
  let s1 := bytes.foldl (fun s p => s.padStore T p.1 p.2 full) s
  let gs := bytes.filterMap fun p => match s.padRef T (p.1 % 2 ^ 32) with
    | .at t o => some (t, o / 16)
    | _ => none
  (s1, { G with regs := G.regs ++ s1.unregisteredOf gs })

/-- Extra turns of a scratchpad word: each 6 rows beyond the first 6 of the busiest array, an array of a core whichever of its
teams the rows belong to (R15, R186). -/
def State.rowTurns (s : State) (T : Team) (as : List Access) : Nat :=
  let rows : List ((Nat × Nat) × Nat) := (as.flatMap fun a => (s.padBytes T a).filterMap fun p =>
    match p.2 with
    | .at t o => (s.team t).map fun W => ((W.die, W.core), (16384 * W.page + o) / 64)
    | _ => none).eraseDups
  let busiest := (rows.map fun r => (rows.filter fun q => q.1 = r.1 && q.2 / 384 = r.2 / 384).length).foldl max 1
  (busiest + 5) / 6 - 1

/-- The elements the active lanes read from scratchpads. -/
def State.padLoads (s : State) (T : Team) (f : LaneFields) (as : List Access) : List (Nat × List Nat) :=
  let n := elemBytes f
  as.map fun a => (a.lane, (List.range (elemCount f)).map fun k =>
    ofBytes ((List.range n).map fun i => s.padLoad T (a.addr + n * k + i)))

/-- `v.lds` (R179). -/
def execVLds (f : LaneFields) (s : State) : Out :=
  laneReady s 0xA2 f fun T G e E =>
    let as := E.accesses (E.plainAddr false) (elemBytes f * elemCount f)
    match s.checkPads T 1 1 false as with
    | .pass =>
      .next (laneMemDone (s.acquireIf T (if E.act = 0 then none else laneOrder f)) T (G.writeLoad f (s.padLoads T f as)) f 0xA2
        (E.act ≠ 0) [] (s.rowTurns T as))
    | c => laneStop s T G e c

/-- `v.sts` (R179). Its bytes stand in the scratchpad when it has issued: a copy without `.after` that reads their granules never
finds the old ones, which R228 would let it find (DESIGN CHOICE, log 7). -/
def execVSts (f : LaneFields) (s : State) : Out :=
  laneReady s 0xA3 f fun T G e E =>
    let addr := E.plainAddr false
    let as := E.accesses addr (elemBytes f * elemCount f)
    match s.checkPads T 2 1 true as with
    | .pass =>
      match (laneOrder f).filter fun sc => !G.performedAt T sc with
      | some sc => lanePass s T G (.performed sc) false
      | none =>
        let r := s.padStores T G (E.storeBytes addr) false
        .next (laneMemDone r.1 T r.2 f 0xA3 false [] (s.rowTurns T as))
    | c => laneStop s T G e c

/-- The granules of some accesses: team and granule. -/
def State.granules (s : State) (T : Team) (as : List Access) : List (Nat × Nat) :=
  (as.filterMap fun a => match s.padRef T a.addr with
    | .at t o => some (t, o / 16)
    | _ => none).eraseDups

/-- Every granule is full (R176); for a saved team the bit in its save area (R414). -/
def State.granulesFull (s : State) (gs : List (Nat × Nat)) : Bool :=
  gs.all fun g => match s.team g.1 with
    | none => false
    | some W => match W.savedArea with
      | some a => s.getBit (a.pa + W.fullBitsAt) g.2
      | none => W.full.contains g.2

/-- `v.ldfe`: it waits, a lull point, until every addressed granule is full, whatever the mode of its array; then, once no pass or
switch holds the array (R174), reads and under `.clr` empties in the same step (R176, R180). -/
def execVLdfe (f : LaneFields) (s : State) : Out :=
  laneReady s 0xA4 f fun T G e E =>
    let len := elemBytes f * elemCount f
    let as := E.accesses (E.plainAddr false) len
    match s.checkPadRefs T 1 len as with
    | .pass =>
      let gs := s.granules T as
      if !s.granulesFull gs then lanePass s T G (.fullGranules gs) true
      else match s.padArrays T 1 false as with
        | .pass =>
          let clr : Bool := bits f.func.toNat 4 1 = 1
          let s1 := if clr then gs.foldl (fun s g => s.modTeam g.1 fun W => W.setFull (16 * g.2) false) s else s
          .next (laneMemDone s1 T (G.writeLoad f (s.padLoads T f as)) f 0xA4 (E.act ≠ 0) [] (s.rowTurns T as))
        | c => laneStop s T G e c
    | c => laneStop s T G e c

/-- `v.stfe` (R175, R180). -/
def execVStfe (f : LaneFields) (s : State) : Out :=
  laneReady s 0xA5 f fun T G e E =>
    let len := elemBytes f * elemCount f
    let addr := E.plainAddr false
    let as := E.accesses addr len
    match s.checkPads T 2 len true as with
    | .pass =>
      let r := s.padStores T G (E.storeBytes addr) true
      .next (laneMemDone r.1 T r.2 f 0xA5 false [] (s.rowTurns T as))
    | c => laneStop s T G e c

/-! ## Atomics (R181) -/

/-- The new memory value (R181). -/
def atomNew (t : ElemType) (op m c e : Nat) : Nat :=
  match op with
  | 0 => (m + c) % 2 ^ t.width
  | 1 => m &&& c
  | 2 => m ||| c
  | 3 => m ^^^ c
  | 4 => if readInt t c < readInt t m then c else m
  | 5 => if readInt t m < readInt t c then c else m
  | 6 => c
  | 7 => if m = e then c else m
  | 8 => addF32 m c
  | 9 => fmt32.minmax false m c
  | _ => fmt32.minmax true m c

/-- Why a lane's atomic is refused at its home: its line holds poison (R184). An array refuses it at its fault point alone (R174). -/
def State.atomFault (s : State) (T : Team) (va n : Nat) : Option FaultKind :=
  if s.atomicPoison T va n then some .storeFault else none

/-- The steps of the lanes, ascending: the state after them, the old values, the refused accesses with why (R181, R184). -/
def State.atomSteps (s : State) (T : Team) (G : Group) (t : ElemType) (op : Nat) (c e : Nat → Nat) :
    List Access → State × List (Nat × Nat) × List (FaultKind × Access)
  | [] => (s, [], [])
  | a :: l =>
    match s.atomFault T a.addr a.len with
    | some k =>
      let r := State.atomSteps s T G t op c e l
      (r.1, (a.lane, (Config.freePoison (s.freeCtr + a.lane)).toNat % 2 ^ t.width) :: r.2.1, (k, a) :: r.2.2)
    | none =>
      let m := ofBytes (s.loadBytes T G .home a.addr a.len)
      let s1 := s.atomicWrite T a.addr (leBytes (atomNew t op m (c a.lane) (e a.lane)) a.len)
      let r := State.atomSteps s1 T G t op c e l
      (r.1, (a.lane, m) :: r.2.1, r.2.2)

/-- What a lane atomic does for some of its accesses: their steps, the old values to D where it returns them, an acquire where it is
ordered (R164, R181); a refused access is a fault of the memory side (R184). `put` puts the group back. -/
def atomAct (s : State) (T : Team) (G : Group) (f : LaneFields) (ret : Bool) (c e : Nat → Nat) (as : List Access)
    (spc : BitVec 32) (off : Nat) (lpc : BitVec 32) (put : State → Group → State) : Out :=
  let r := s.atomSteps T G f.type (bits f.func.toNat 0 4) c e as
  let s1 := ((r.1.renew T .home (as.map fun a => (a.addr, a.len))).bump 96).acquireIf T (if as.isEmpty then none else laneOrder f)
  let G1 := if ret then (s.sees T G .home (as.map fun a => (a.addr, a.len))).writeD f f.type r.2.1 else G
  match r.2.2 with
  | [] => .next (put s1 G1)
  | (k, b) :: _ =>
    raiseImprecise (put s1 G1) (T.tag G spc) { kind := k, acc := 3, addr := b.addr, lane := b.lane } off lpc.toNat 0

/-- The accesses of a word that lie in a superblock. -/
def State.accessesIn (s : State) (T : Team) (as : List Access) (tag : Loc) : List Access :=
  as.filter fun a => (superblocks (s.places T a.addr 1)).contains tag

/-- The accesses of a word whose requests hold their entries. -/
def State.entered (s : State) (T : Team) (as : List Access) (rs : List Req) : List Access :=
  as.filter fun a => rs.any fun r => r.entry && (s.accessesIn T [a] r.tag != [])

/-- `v.atom` and `v.atomr` (R181): a request that is rejected acts at the later turn at which it takes its entry (R167). -/
def atomWord (s : State) (f : LaneFields) (opc : Nat) (ret : Bool) : Out :=
  laneReady s opc f fun T G e E =>
    let n := elemBytes f
    let as := E.accesses (E.addr true false 0) n
    match s.checkGlobal T 3 n { r := true, w := true } as with
    | .pass =>
      match s.atomicWait T G (as.map fun a => (a.addr, a.len)) true (if E.act = 0 then none else laneOrder f) with
      | some w => lanePass s T G w false
      | none =>
        let c := E.src f.type f.c
        let x := E.src f.type f.e
        let steps (tag : Loc) : List AtomStep := (s.accessesIn T as tag).map fun a => ⟨a.lane, a.addr, c a.lane, x a.lane⟩
        let rs := s.atomicReqs T (as.map fun a => (a.addr, a.len)) (fun tag => some ⟨f, ret, steps tag⟩) (G.words + 1) e.spc e.off
          e.lpc
        atomAct s T G f ret c x (s.entered T as rs) e.spc e.off e.lpc fun s1 G1 =>
          laneMemDone s1 T G1 f opc (ret && E.act ≠ 0) (rs.map Req.atomDone) (requestTurns (s.touched T as))
    | c => laneStop s T G e c

/-- `v.atom` (R181). -/
def execVAtom (f : LaneFields) (s : State) : Out := atomWord s f 0xA6 false

/-- `v.atomr` (R181). -/
def execVAtomr (f : LaneFields) (s : State) : Out := atomWord s f 0xA7 true

/-! ## Bank adds (R182) -/

/-- The page of an address takes bank adds: it is writable and homed on a B-die (R159, R182). -/
def State.addable (s : State) (T : Team) (va : Nat) : Bool :=
  match s.xlate T.die T.core T.asid va with
  | .ok e => e.w && (match e.homeDie va with
    | some d => decide (4 ≤ d)
    | none => false)
  | _ => false

/-- Protection of a bank add, lowest lane first: a page that is not writable, or not homed on a B-die, is not bank-addable (R182,
R183). -/
def State.checkAddable (s : State) (T : Team) (as : List Access) : Check :=
  match as.find? fun a => !s.addable T a.addr with
  | some a => .trap { kind := .notBankAddable, acc := 4, addr := a.addr, lane := a.lane }
  | none => .pass

/-- The next sequence number of a group's bank adds (R331). -/
def State.nextSeq (s : State) (t g : Nat) : BitVec 32 := ((s.seqs.find? (·.1 = (t, g))).map (·.2)).getD 0

/-- Count n bank adds of a group (R331). -/
def State.countAdds (s : State) (t g n : Nat) : State :=
  { s with seqs := ((t, g), s.nextSeq t g + BitVec.ofNat 32 n) :: s.seqs.filter (·.1 ≠ (t, g)) }

/-- A group's next sequence number as its save area gives it back (R374). -/
def State.setSeq (s : State) (t g : Nat) (n : BitVec 32) : State := { s with seqs := ((t, g), n) :: s.seqs.filter (·.1 ≠ (t, g)) }

/-- The physical address of a virtual one and its home die; 0 where it does not translate. -/
def State.physical (s : State) (T : Team) (va : Nat) : Nat × Nat :=
  match s.xlate T.die T.core T.asid va with
  | .ok e => ((e.loc va).addr, (e.homeDie va).getD 0)
  | _ => (0, 0)

/-- `v.badd`: one add for each active lane goes to its bank-add unit (R182). -/
def execVBadd (f : LaneFields) (s : State) : Out :=
  laneReady s 0xA8 f fun T G e E =>
    let addr := E.plainAddr true
    let as := E.accesses addr 4
    let c := firstCheck [checkAlign 4 4 as, s.checkPages T 4 as, s.checkAddable T as, s.checkArrays T 4 true as]
    match c with
    | .pass =>
      let val := E.src f.type f.c
      let seq := s.nextSeq T.uid G.idx
      let adds := as.zipIdx.map fun p =>
        ({ tag := T.tag G e.spc, seq := seq + BitVec.ofNat 32 p.2, va := p.1.addr, pa := (s.physical T p.1.addr).1,
           home := (s.physical T p.1.addr).2, float := f.type.isFloat, value := BitVec.ofNat 32 (val p.1.lane),
           accepted := false, held := false, born := s.nextUid, word := some (G.words + 1), core := some T.core,
           block := none, off := e.off, lpc := e.lpc } : BankAdd)
      let ls := as.flatMap fun a => s.places T a.addr a.len
      let rs := s.present T.die T.core G.behind ((superblocks ls).map fun tag =>
        { Req.of .bankAdd tag (G.words + 1) e.spc e.off e.lpc with
            lines := lineMask tag ls, home := s.homeOf T tag (as.map (·.addr)) })
      let s1 := { s.countAdds T.uid G.idx adds.length with adds := s.adds ++ adds }
      .next (laneMemDone s1 T G f 0xA8 false rs (requestTurns (s.touched T as)))
    | c => laneStop s T G e c

end Sys2Proof.Machine
end

