-- ==== Sys2Proof/Machine/Scalar.lean ====
section
/-! DEFINITION. Scalar integer, move, select and mask-count words (R74-R77, R84). -/
namespace Sys2Proof.Machine

/-- `op sD, sA, sB` in format SR (R74). -/
def aluRR (s : State) (d a b : SReg) (f : DWord → DWord → DWord) : Out :=
  regWord s [(20, d), (14, a), (8, b)] [d, a, b] d fun G => f (G.sget a) (G.sget b)

/-- `op sD, sA` in format SR (R74). -/
def aluR (s : State) (d a : SReg) (f : DWord → DWord) : Out :=
  regWord s [(20, d), (14, a)] [d, a] d fun G => f (G.sget a)

/-- `op sD, sA, e` in format SI (R75). -/
def aluRI (s : State) (d a : SReg) (k : DWord) (f : DWord → DWord → DWord) : Out :=
  regWord s [(20, d), (14, a)] [d, a] d fun G => f (G.sget a) k

/-- 1 or 0. -/
def flagWord (b : Bool) : DWord := if b then 1 else 0

/-- The high half of a 128-bit product (R74). -/
def mulHigh (x y : BitVec 128) : DWord := (x * y).extractLsb' 64 64

/-- Signed quotient (R74). -/
def divSigned (a b : DWord) : DWord := if b = 0 then -1 else BitVec.ofInt 64 (a.toInt.tdiv b.toInt)

/-- Signed remainder (R74). -/
def remSigned (a b : DWord) : DWord := if b = 0 then a else BitVec.ofInt 64 (a.toInt.tmod b.toInt)

/-- Natural quotient (R74). -/
def divNatural (a b : DWord) : DWord := if b = 0 then -1 else BitVec.ofNat 64 (a.toNat / b.toNat)

/-- Natural remainder (R74). -/
def remNatural (a b : DWord) : DWord := if b = 0 then a else BitVec.ofNat 64 (a.toNat % b.toNat)

/-- The shift count of a register (R74). -/
def shiftCount (b : DWord) : Nat := bits b.toNat 0 6

/-- Leading zero bits of an n-bit pattern; n for 0. -/
def leadingZeros (n x : Nat) : Nat := if x = 0 then n else n - 1 - Nat.log2 x

/-- Trailing zero bits by `k` steps. -/
def trailingZeros : Nat → Nat → Nat
  | 0, _ => 0
  | k + 1, x => if x % 2 = 1 then 0 else 1 + trailingZeros k (x / 2)

/-- One bits among the lowest `k`. -/
def popCount : Nat → Nat → Nat
  | 0, _ => 0
  | k + 1, x => x % 2 + popCount k (x / 2)

/-- `add` (R74). -/
def execAdd (d a b : SReg) (s : State) : Out := aluRR s d a b (fun a b => a + b)

/-- `sub` (R74). -/
def execSub (d a b : SReg) (s : State) : Out := aluRR s d a b (fun a b => a - b)

/-- `mul` (R74). -/
def execMul (d a b : SReg) (s : State) : Out := aluRR s d a b (fun a b => a * b)

/-- `mulh` (R74). -/
def execMulh (d a b : SReg) (s : State) : Out := aluRR s d a b (fun a b => mulHigh (a.signExtend 128) (b.signExtend 128))

/-- `mulhn` (R74). -/
def execMulhn (d a b : SReg) (s : State) : Out := aluRR s d a b (fun a b => mulHigh (a.setWidth 128) (b.setWidth 128))

/-- `div` (R74). -/
def execDiv (d a b : SReg) (s : State) : Out := aluRR s d a b divSigned

/-- `divn` (R74). -/
def execDivn (d a b : SReg) (s : State) : Out := aluRR s d a b divNatural

/-- `rem` (R74). -/
def execRem (d a b : SReg) (s : State) : Out := aluRR s d a b remSigned

/-- `remn` (R74). -/
def execRemn (d a b : SReg) (s : State) : Out := aluRR s d a b remNatural

/-- `and` (R74). -/
def execAnd (d a b : SReg) (s : State) : Out := aluRR s d a b (fun a b => a &&& b)

/-- `or` (R74). -/
def execOr (d a b : SReg) (s : State) : Out := aluRR s d a b (fun a b => a ||| b)

/-- `xor` (R74). -/
def execXor (d a b : SReg) (s : State) : Out := aluRR s d a b (fun a b => a ^^^ b)

/-- `andn` (R74). -/
def execAndn (d a b : SReg) (s : State) : Out := aluRR s d a b (fun a b => a &&& ~~~b)

/-- `shl` (R74). -/
def execShl (d a b : SReg) (s : State) : Out := aluRR s d a b (fun a b => a <<< shiftCount b)

/-- `shr` (R74). -/
def execShr (d a b : SReg) (s : State) : Out := aluRR s d a b (fun a b => a >>> shiftCount b)

/-- `sar` (R74). -/
def execSar (d a b : SReg) (s : State) : Out := aluRR s d a b (fun a b => a.sshiftRight (shiftCount b))

/-- `min` (R74). -/
def execMin (d a b : SReg) (s : State) : Out := aluRR s d a b (fun a b => if a.slt b then a else b)

/-- `max` (R74). -/
def execMax (d a b : SReg) (s : State) : Out := aluRR s d a b (fun a b => if a.slt b then b else a)

/-- `minn` (R74). -/
def execMinn (d a b : SReg) (s : State) : Out := aluRR s d a b (fun a b => if a.ult b then a else b)

/-- `maxn` (R74). -/
def execMaxn (d a b : SReg) (s : State) : Out := aluRR s d a b (fun a b => if a.ult b then b else a)

/-- `seq` (R74). -/
def execSeq (d a b : SReg) (s : State) : Out := aluRR s d a b (fun a b => flagWord (a = b))

/-- `sne` (R74). -/
def execSne (d a b : SReg) (s : State) : Out := aluRR s d a b (fun a b => flagWord (a ≠ b))

/-- `slt` (R74). -/
def execSlt (d a b : SReg) (s : State) : Out := aluRR s d a b (fun a b => flagWord (a.slt b))

/-- `sltn` (R74). -/
def execSltn (d a b : SReg) (s : State) : Out := aluRR s d a b (fun a b => flagWord (a.ult b))

/-- `clz` (R74). -/
def execClz (d a : SReg) (s : State) : Out := aluR s d a (fun a => BitVec.ofNat 64 (leadingZeros 64 a.toNat))

/-- `ctz` (R74). -/
def execCtz (d a : SReg) (s : State) : Out := aluR s d a (fun a => BitVec.ofNat 64 (trailingZeros 64 a.toNat))

/-- `popc` (R74). -/
def execPopc (d a : SReg) (s : State) : Out := aluR s d a (fun a => BitVec.ofNat 64 (popCount 64 a.toNat))

/-- `mov` (R74). -/
def execMov (d a : SReg) (s : State) : Out := aluR s d a (fun a => a)

/-- `addi` (R75). -/
def execAddi (d a : SReg) (k : DWord) (s : State) : Out := aluRI s d a k (fun a k => a + k)

/-- `andi` (R75). -/
def execAndi (d a : SReg) (k : DWord) (s : State) : Out := aluRI s d a k (fun a k => a &&& k)

/-- `ori` (R75). -/
def execOri (d a : SReg) (k : DWord) (s : State) : Out := aluRI s d a k (fun a k => a ||| k)

/-- `xori` (R75). -/
def execXori (d a : SReg) (k : DWord) (s : State) : Out := aluRI s d a k (fun a k => a ^^^ k)

/-- `shli`, k = 0 to 63; any other k is an illegal encoding in IMM14 (R75). -/
def execShli (d a : SReg) (k : DWord) (s : State) : Out :=
  if k.toNat < 64 then aluRI s d a k (fun a k => a <<< shiftCount k) else illegalScalar s [(20, d), (14, a)] 0

/-- `shri`, k = 0 to 63; any other k is an illegal encoding in IMM14 (R75). -/
def execShri (d a : SReg) (k : DWord) (s : State) : Out :=
  if k.toNat < 64 then aluRI s d a k (fun a k => a >>> shiftCount k) else illegalScalar s [(20, d), (14, a)] 0

/-- `sari`, k = 0 to 63; any other k is an illegal encoding in IMM14 (R75). -/
def execSari (d a : SReg) (k : DWord) (s : State) : Out :=
  if k.toNat < 64 then aluRI s d a k (fun a k => a.sshiftRight (shiftCount k)) else illegalScalar s [(20, d), (14, a)] 0

/-- `slti` (R75). -/
def execSlti (d a : SReg) (k : DWord) (s : State) : Out := aluRI s d a k (fun a k => flagWord (a.slt k))

/-- `sltni` (R75). -/
def execSltni (d a : SReg) (k : DWord) (s : State) : Out := aluRI s d a k (fun a k => flagWord (a.ult k))

/-- `muli` (R75). -/
def execMuli (d a : SReg) (k : DWord) (s : State) : Out := aluRI s d a k (fun a k => a * k)

/-- `li` (R76). -/
def execLi (d : SReg) (k : DWord) (s : State) : Out := regWord s [(20, d)] [d] d fun _ => k

/-- The kernel header of a team's launch. -/
def State.header (s : State) (T : Team) : Header := ((s.launch T.launch).map (·.header)).getD default

/-- `addpc`: scal_base + 4 × SPC + k, SPC of the first prefix (R76, R40). -/
def execAddpc (d : SReg) (k : DWord) (s : State) : Out :=
  scalarWord s [(20, d)] [d] false fun T G =>
    .next (s.retire T (G.tentatively [d] fun G =>
      (G.sset d (BitVec.ofNat 64 ((s.header T).scalBase + 4 * G.spc.toNat) + k)).advance))

/-- `sel` (R77). -/
def execSel (d c a b : SReg) (s : State) : Out :=
  regWord s [(20, d), (14, a), (8, b), (0, c)] [d, a, b, c] d fun G => if G.sget c ≠ 0 then G.sget a else G.sget b

/-- The lowest set bit of a mask below `n` lanes from `i`, or 96. -/
def firstLane (m : LaneMask) : Nat := ((List.range laneCount).find? fun l => m.getLsbD l).getD 96

/-- The highest set bit of a mask, or 96. -/
def lastLane (m : LaneMask) : Nat := ((List.range laneCount).reverse.find? fun l => m.getLsbD l).getD 96

/-- `mcount` (R84). -/
def execMcount (d : SReg) (s : State) : Out :=
  regWord s [(20, d)] (d :: maskRegs) d fun G => BitVec.ofNat 64 (popCount 96 G.mask.toNat)

/-- `mcount.first` (R84). -/
def execMcountFirst (d : SReg) (s : State) : Out :=
  regWord s [(20, d)] (d :: maskRegs) d fun G => BitVec.ofNat 64 (firstLane G.mask)

/-- `mcount.last` (R84). -/
def execMcountLast (d : SReg) (s : State) : Out :=
  regWord s [(20, d)] (d :: maskRegs) d fun G => BitVec.ofNat 64 (lastLane G.mask)

end Sys2Proof.Machine
end

