-- ==== Sys2Proof/Machine/Control.lean ====
section
/-! DEFINITION. Control flow and the lane stream (R32, R37, R71, R78 to R83). -/
namespace Sys2Proof.Machine

/-! ## Instruction fetch -/

/-- What a fetch gives. -/
inductive Fetched where
  | ok (bs : List Byte)
  | bad (f : FetchFault) (va : Nat)
  | absent (pa : Nat)
deriving DecidableEq, Repr

/-- The first failing page of a fetch (R32, R158, R159). -/
def State.fetchFail (s : State) (T : Team) : List Nat → Option Fetched
  | [] => none
  | va :: rest =>
    match s.xlate T.die T.core T.asid va with
    | .bad .nonCanonical => some (.bad .nonCanonical va)
    | .bad _ => some (.bad .notMapped va)
    | .absent pa => some (.absent pa)
    | .ok e => if e.x then s.fetchFail T rest else some (.bad .noExecute va)

/-- The n bytes of a word as they stand, and with old the bytes it had before writes during the launch (R33). -/
def State.wordAt (s : State) (T : Team) (va n : Nat) (old : Bool) : List Byte :=
  (List.range n).map fun i =>
    match s.xlate T.die T.core T.asid ((va + i) % 2 ^ 64) with
    | .ok e =>
      let now := s.takeByte (s.readPlace T.die T.core T.asid ((va + i) % 2 ^ 64) (e.loc ((va + i) % 2 ^ 64)))
      if old then (s.oldByte T.launch (e.loc ((va + i) % 2 ^ 64))).getD now else now
    | _ => 0

/-- A queue entry is a copy that has started and not left its queue. -/
def CopyItem.underWay (c : CopyItem) : Bool :=
  match c with
  | .copy _ _ _ _ _ _ _ _ k => k.isSome
  | .fence _ => false

/-- A request of a store to the core's own scratchpads that has not taken its entry covers a place (R167). -/
def Req.padsPending (r : Req) (l : Loc) : Bool := r.pads ≠ [] && !r.performed && r.tag = ⟨l.host, l.addr / 256 * 256⟩

/-- A write of the word may still be on its way to some of its bytes: a posted store, one to the core's own scratchpads that is
rejected still, a granule not registered, a copy or a command block that has started (R33). -/
def State.wordInFlight (s : State) (T : Team) (va n : Nat) : Bool :=
  (s.cores.any fun C => C.queues.any (·.any CopyItem.underWay)) || (s.dies.any fun D => D.dd.any (·.any CopyItem.underWay)) ||
    s.blocks.any (·.started) ||
    (s.places T va n).any fun l => s.teams.any fun W => (W.groups.any fun G => (G.postedByte l).isSome ||
        G.reqs.any (·.padsPending l)) || (W.backedAt l).any fun o => W.unregistered.contains (o / 16)

/-- Fetch n bytes of code (R32). A word overwritten while its launch runs is whole the old or whole the new one (R33): the
old one while a write of it is on its way, else a free choice (log 52). -/
def State.fetch (s : State) (T : Team) (va n : Nat) : Fetched :=
  match s.fetchFail T (pagesOf va n) with
  | some f => f
  | none =>
    .ok (if s.overwritten = [] then s.wordAt T va n false
      else s.wordAt T va n (s.wordInFlight T va n || Config.fetchesOld T.uid (T.groups.map (·.words)).sum va))

/-- Kind of the fault a failed fetch raises (R32, R359). -/
def fetchKind : FetchFault → FaultKind
  | .beyond => .beyondSection
  | .noExecute => .noExecute
  | .nonCanonical => .nonCanonical
  | .notMapped => .notMapped

/-- Fetch the scalar word at an index (R32). -/
def State.fetchScalar (s : State) (T : Team) (spc : Nat) : Fetched :=
  let h := s.header T
  let va := (h.scalBase + 4 * spc) % 2 ^ 64
  if h.scalLen ≤ spc then .bad .beyond va else s.fetch T va 4

/-- Fetch the lane word at an index (R32). -/
def State.fetchLane (s : State) (T : Team) (lpc : Nat) : Fetched :=
  let h := s.header T
  let va := (h.laneBase + 12 * lpc) % 2 ^ 64
  if h.laneLen ≤ lpc then .bad .beyond va else s.fetch T va 12

/-! ## Control flow -/

/-- The tests of `br` (R37, R78). -/
def brHolds (c : BrCond) (x : DWord) : Bool :=
  match c with
  | .always => true
  | .eq => x = 0
  | .ne => x ≠ 0
  | .lt => x.slt 0
  | .ge => !x.slt 0
  | .gt => (0 : DWord).slt x
  | .le => !(0 : DWord).slt x

/-- The tests of `brm` (R37, R78). -/
def maskHolds (c : MaskCond) (m : LaneMask) : Bool :=
  match c with
  | .any => m ≠ 0
  | .none => m = 0
  | .all => m = BitVec.allOnes 96
  | .nall => m ≠ BitVec.allOnes 96

/-- next + k modulo 2^32 (R78): the SPC has 32 bits (R26); that a sum beyond them wraps is the model's choice (log 53). -/
def Group.target (G : Group) (k : DWord) : BitVec 32 := G.next + k.setWidth 32

/-- A word that only moves the SPC, and perhaps writes registers (R78). -/
def flowWord (s : State) (fields : List (Nat × SReg)) (regs written : List SReg) (f : Group → Group) : Out :=
  scalarWord s fields regs false fun T G => .next (s.retire T (G.tentatively written f))

/-- `br` (R78). -/
def execBr (c : BrCond) (a : SReg) (k : DWord) (s : State) : Out :=
  flowWord s [(16, a)] [a] [] fun G => if brHolds c (G.sget a) then G.jump (G.target k) else G.advance

/-- `brm` (R78). -/
def execBrm (c : MaskCond) (k : DWord) (s : State) : Out :=
  flowWord s [] maskRegs [] fun G => if maskHolds c G.mask then G.jump (G.target k) else G.advance

/-- `jmp` (R78). -/
def execJmp (k : DWord) (s : State) : Out := flowWord s [] [] [] fun G => G.jump (G.target k)

/-- `call` (R78). -/
def execCall (k : DWord) (s : State) : Out :=
  flowWord s [] [59] [59] fun G => (G.sset 59 (G.next.setWidth 64)).jump (G.target k)

/-- `jr` (R78). -/
def execJr (a : SReg) (s : State) : Out := flowWord s [(14, a)] [a] [] fun G => G.jump ((G.sget a).setWidth 32)

/-- `jr.call` (R78). -/
def execJrCall (a : SReg) (s : State) : Out :=
  flowWord s [(14, a)] [a, 59] [59] fun G => (G.sset 59 (G.next.setWidth 64)).jump ((G.sget a).setWidth 32)

/-! ## The lane stream -/

/-- The scalar registers a lane word reads as sources (R71), the format block's three included (R256, R268). -/
def scalarSources (w : LaneBits) : List SReg :=
  let n := w.toNat
  let opc := bits n 88 8
  let src (lo : Nat) : List SReg := if bits n (lo + 8) 2 = 1 then [BitVec.ofNat 6 (bits n lo 8)] else []
  let fmt : List SReg :=
    if (opc = 0xC0 || opc = 0xD0) && bits n 36 2 = 1 then
      [BitVec.ofNat 6 (bits n 28 8 + 1), BitVec.ofNat 6 (bits n 28 8 + 2)]
    else []
  src 58 ++ src 48 ++ src 38 ++ src 28 ++ fmt

/-- A queued word's bits, if it was fetched. -/
def QEntry.bits? (e : QEntry) : Option LaneBits :=
  match e.fetch with
  | .word w => some w
  | .fault .. => none

/-- The entries a `vrun` releases (R80), or an address no DRAM has. -/
def releaseWords (s : State) (T : Team) (G : Group) (snap : Vector DWord 64) (off : Nat) : Nat → Except Nat (List QEntry)
  | 0 => .ok []
  | k + 1 =>
    match releaseWords s T G snap off k with
    | .error pa => .error pa
    | .ok es =>
      let lpc := G.lpc + BitVec.ofNat 32 k
      let entry (f : LaneFetch) : QEntry :=
        { fetch := f, snap := snap, spc := G.spc, off := off + k, lpc := lpc, run := G.runs + 1 }
      match s.fetchLane T lpc.toNat with
      | .ok bs => .ok (es ++ [entry (.word (BitVec.ofNat 96 (ofBytes bs)))])
      | .bad f va => .ok (es ++ [entry (.fault f va)])
      | .absent pa => .error pa

/-- Append released words, move the LPC (R80); after a rerun stop the words from the saved offset with the saved
snapshot (R366). -/
def Group.release (G : Group) (es : List QEntry) : Group :=
  { G with queue := G.queue ++ es, lpc := G.lpc + BitVec.ofNat 32 es.length, runs := G.runs + 1, rerun := none }

/-- `vrun` (R80). -/
def execVrun (k : DWord) (s : State) : Out :=
  if k.toNat < 1 || 32 < k.toNat then illegalScalar s [] 0
  else scalarWord s [] maskRegs false fun T G =>
    let n := k.toNat
    let off := (G.rerun.map (·.off)).getD 0
    let snap := (G.rerun.map (·.snap)).getD G.sregs
    if 32 < G.queue.length + (n - off) then waitFor s T G (.laneRoom n)
    else match releaseWords s T G snap off (n - off) with
      | .error pa => .fault (.noSuchDramAddress pa)
      | .ok es =>
        let need := (es.filterMap QEntry.bits?).flatMap scalarSources
        if G.rerun.isNone && need.any G.pending then waitFor s T G (.registers (need.filter G.pending))
        else .next (s.retire T (G.tentatively [] fun G => (G.release es).advance))

/-- `vjmp` (R81). -/
def execVjmp (a : SReg) (k : DWord) (s : State) : Out :=
  flowWord s [(14, a)] [a] [] fun G => { G with lpc := (G.sget a + k).setWidth 32 }.advance

/-- `vset` (R81). -/
def execVset (d a : SReg) (s : State) : Out :=
  flowWord s [(20, d), (14, a)] [d, a] [d] fun G =>
    { G.sset d (G.lpc.setWidth 64) with lpc := (G.sget a).setWidth 32 }.advance

/-- Every released lane word has retired (R82): the queue is empty, results have landed, bank adds are accepted, loads have
returned, stores and atomics are performed at group scope, as they are once their requests have taken their entries (R167, R185);
a refusal at the home may come later (DESIGN CHOICE, log 7). Matrix words retire when they issue (R260), a `v.accmov` when its
result lands (R263). -/
def State.lanesRetired (s : State) (T : Team) (G : Group) : Bool :=
  G.queue.isEmpty && G.busy.all (·.matrix) &&
    (G.stream.all fun e => match e.op with
      | .accmov .. => false
      | _ => true) &&
    (G.reqs.all fun r => r.off = 0xFF || r.kind = .bankAdd || (r.kind != .load && r.entry)) &&
    !s.adds.any fun a => !a.accepted && a.tag.team = T.uid && a.tag.group = G.idx && a.word.isSome

/-- `vdrain` (R82). -/
def execVdrain (s : State) : Out :=
  scalarWord s [] [] true fun T G => if s.lanesRetired T G then done s T G else waitFor s T G .laneRetired

/-- `vdrain.iss` (R82). -/
def execVdrainIss (s : State) : Out := scalarWord s [] [] true fun T G => done s T G

/-- A released lane word that writes predicate k has not retired (R83). -/
def Group.predBusy (G : Group) (k : Nat) : Bool :=
  G.busy.any (·.preds.contains k) || (G.queue.filterMap QEntry.bits?).any fun w => (predDests (Raw.ofBits w)).contains k

/-- The `mpred` words (R83). -/
def mpredWord (s : State) (k : Fin 12) (f : LaneMask → LaneMask → LaneMask) : Out :=
  scalarWord s [] maskRegs false fun T G =>
    if G.predBusy k.val then waitFor s T G (.predicate k.val)
    else .next (s.retire T (G.tentatively maskRegs fun G => (G.setMask (f G.mask (G.pget k))).advance))

/-- `mpred.set` (R83). -/
def execMpredSet (k : Fin 12) (s : State) : Out := mpredWord s k fun _ q => q

/-- `mpred.and` (R83). -/
def execMpredAnd (k : Fin 12) (s : State) : Out := mpredWord s k fun m q => m &&& q

/-- `mpred.andn` (R83). -/
def execMpredAndn (k : Fin 12) (s : State) : Out := mpredWord s k fun m q => m &&& ~~~q

/-- `mpred.or` (R83). -/
def execMpredOr (k : Fin 12) (s : State) : Out := mpredWord s k fun m q => m ||| q

/-- `pfx`: its payload joins the run; the SPC stays at the first prefix (R39, R40, log 6). -/
def execPfx (p : BitVec 26) (s : State) : Out :=
  match s.current with
  | none => .next s
  | some (T, G) => .next (s.put T { G with pfx := G.pfx ++ [p] })

end Sys2Proof.Machine
end

