-- ==== Sys2Proof/Machine/Sync.lean ====
section
/-! DEFINITION. Fences, barriers, `await` (R193, R194, R201, R203 to R206, R214). -/
namespace Sys2Proof.Machine

/-! ## Fences -/

/-- A fence: outside group scope it waits until the group's accesses are performed where it is a release, and discards the
core's lines where it is an acquire (R164, R193, R194, R214). -/
def fenceWord (s : State) (sc : Scope) (rel acq : Bool) : Out :=
  scalarWord s [] [] true fun T G =>
    if rel && !G.performedAt T sc then waitFor s T G (.performed sc)
    else done (if acq then s.acquire T.die T.core sc else s) T G

/-- `fence.acq` (R193). -/
def execFenceAcq (sc : Scope) (s : State) : Out := fenceWord s sc false true

/-- `fence.rel` (R193). -/
def execFenceRel (sc : Scope) (s : State) : Out := fenceWord s sc true false

/-- `fence.full` (R194). -/
def execFenceFull (sc : Scope) (s : State) : Out := fenceWord s sc true true

/-- `fence.q`: later entries of the group start after every access before it (R201): those are performed for every agent, whatever
its scope, since no engine is in a team's instance (log 7). -/
def execFenceQ (_ : Scope) (s : State) : Out := fenceWord s .dev true false

/-! ## The team barriers (R204) -/

/-- Team barrier b. -/
def Team.bar (T : Team) (b : Nat) : Barrier := T.bars.getD b ⟨0, false⟩

/-- A barrier at which every live group has arrived completes: no arrivals, the other phase (R204). -/
def Barrier.settle (B : Barrier) (live : Nat) : Barrier :=
  if B.arrivals ≠ 0 && live ≤ B.arrivals then ⟨0, !B.phase⟩ else B

/-- The completion test of every barrier (R204). -/
def Team.settleBars (T : Team) : Team := { T with bars := T.bars.map (·.settle T.liveCount) }

/-- `bar`: arrive once, then wait for the other phase (R204). -/
def execBar (b : BitVec 2) (s : State) : Out :=
  scalarWord s [] [] true fun T G =>
    let B := T.bar b.toNat
    if G.arrived = some (b.toNat, B.phase) then waitFor s T G (.barrier b.toNat B.phase)
    else if G.arrived = some (b.toNat, !B.phase) then done s T { G with arrived := none }
    else if !G.performedAt T .team then waitFor s T G (.performed .team)
    else
      let T1 := { T with bars := T.bars.set b.toNat ⟨B.arrivals + 1, B.phase⟩ }.settleBars
      let s1 := s.putTeam T1
      if (T1.bar b.toNat).phase ≠ B.phase then done s1 T1 G
      else waitFor s1 T1 { G with arrived := some (b.toNat, B.phase) } (.barrier b.toNat B.phase)

/-! ## The die barrier (R205) -/

/-- Teams of a plain launch assigned to a die (R287). -/
def Launch.teamsOn (L : Launch) (d : Nat) : Nat :=
  let n := L.dies.length
  let i := L.dies.findIdx (· = d)
  let t := L.record.x * L.record.y * L.record.z
  if n ≤ i then 0 else (t - i + (n - 1)) / n

/-- The die barrier of a launch on a die. -/
def Launch.bar (L : Launch) (d : Nat) : DieBarrier := (L.bars.find? (·.die = d)).getD ⟨d, 0, false, 0⟩

/-- Put a die barrier back. -/
def Launch.putBar (L : Launch) (B : DieBarrier) : Launch :=
  { L with bars := B :: L.bars.filter (·.die ≠ B.die) }

/-- Groups the die barrier expects (R205). -/
def Launch.expected (L : Launch) (B : DieBarrier) : Nat := L.teamsOn B.die * L.header.team - B.exited

/-- The completion test of a die barrier. -/
def Launch.settleBar (L : Launch) (B : DieBarrier) : Launch :=
  L.putBar (if B.count ≠ 0 && L.expected B ≤ B.count then { B with count := 0, phase := !B.phase } else B)

/-- n groups of a launch have exited on a die (R205). -/
def State.barrierExits (s : State) (launch die n : Nat) : State :=
  match s.launch launch with
  | none => s
  | some L => let B := L.bar die; s.putLaunch (L.settleBar { B with exited := B.exited + n })

/-- A discard counts a team's groups as exited; what they arrived at no longer counts them (R205, R362). -/
def State.countDiscard (s : State) (T : Team) : State :=
  match s.launch T.launch with
  | none => s
  | some L =>
    let B := L.bar T.die
    let n := if T.groups.isEmpty then L.header.team else T.liveCount
    let here := (T.groups.filter fun G => G.arrivedDie = some B.phase).length
    s.putLaunch (L.settleBar { B with exited := B.exited + n, count := B.count - here })

/-- `dbar` (R205). -/
def execDbar (s : State) : Out :=
  scalarWord s [] [] true fun T G =>
    match s.launch T.launch with
    | none => done s T G
    | some L =>
      let B := L.bar T.die
      if L.record.front then raise s T G { kind := .dieBarrierInFront }
      else if G.arrivedDie = some B.phase then waitFor s T G (.dieBarrier B.phase)
      else if G.arrivedDie = some (!B.phase) then done (s.acquire T.die T.core .die) T { G with arrivedDie := none }
      else if !G.performedAt T .die then waitFor s T G (.performed .die)
      else
        let L1 := L.settleBar { B with count := B.count + 1 }
        let s1 := s.putLaunch L1
        if (L1.bar T.die).phase ≠ B.phase then done (s1.acquire T.die T.core .die) T G
        else waitFor s1 T { G with arrivedDie := some B.phase } (.dieBarrier B.phase)

/-! ## `await` (R206) -/

/-- The conditions of `await`. -/
def awaitHolds (c : AwaitCond) (m v : DWord) : Bool :=
  match c with
  | .eq => m = v
  | .ne => m ≠ v
  | .lt => m.slt v
  | .ge => !m.slt v
  | .ltn => m.ult v
  | .gen => !m.ult v
  | .any => m &&& v ≠ 0
  | .none => m &&& v = 0

/-- The word an `await` reads, at its home. -/
def State.awaited (s : State) (T : Team) (G : Group) (va : Nat) : DWord :=
  BitVec.ofNat 64 (ofBytes (s.loadBytes T G .home va 8))

/-- `await` (R206). -/
def execAwait (c : AwaitCond) (d a v : SReg) (sc : Scope) (s : State) : Out :=
  scalarWord s [(20, d), (14, a), (0, v)] [d, a, v] true fun T G =>
    let va := (G.sget a).toNat
    onPass s T G (s.checkGlobal T 1 8 { r := true } [⟨0xFF, va, 8⟩])
      (if s.loadPoison T G .home va 8 then raise s T G { kind := .memory, acc := 1, addr := va }
       else
         let m := s.awaited T G va
         if awaitHolds c m (G.sget v) && !s.othersPosted T G [(va, 8)] then
           doneWith ((s.renew T .home [(va, 8)]).acquire T.die T.core sc) T (s.sees T G .home [(va, 8)]) d m
         else waitFor s T G (.memory c (G.sget a) (G.sget v) sc))

/-- The periodic reading of an `await` shows something: the condition holds, or the read faults. -/
def State.awaitOver (s : State) (T : Team) (G : Group) (c : AwaitCond) (a v : DWord) : Bool :=
  match s.checkGlobal T 1 8 { r := true } [⟨0xFF, a.toNat, 8⟩] with
  | .pass => s.loadPoison T G .home a.toNat 8 || (awaitHolds c (s.awaited T G a.toNat) v && !s.othersPosted T G [(a.toNat, 8)])
  | .wait _ => false
  | _ => true

/-- AWAIT_POLL (R206): the word is read again; where the condition holds the wait is over. Other reads have no effect. -/
def execAwaitPoll (t g : Nat) (s : State) : Out :=
  match s.find t g with
  | none => .next s
  | some (T, G) =>
    match G.wait with
    | some ⟨.memory c a v _, _⟩ => if s.awaitOver T G c a v then .next (s.put T { G with wait := none }) else .next s
    | _ => .next s

end Sys2Proof.Machine
end

