-- ==== Sys2Proof/Machine/Copy.lean ====
section
/-! DEFINITION. Copies and their queues (R199 to R202, R215 to R230), cells (R231 to R235). -/
namespace Sys2Proof.Machine

/-! ## Queues (R215) -/

/-- The entries of a queue. -/
def State.queue (s : State) (q : QueueId) : List CopyItem :=
  match q with
  | .core d c i => (s.core d c).queues.getD i []
  | .dd d i => (s.die d).dd.getD i []

/-- Replace element i of a list of lists, lengthening it. -/
def setAt (l : List (List α)) (i : Nat) (x : List α) : List (List α) :=
  (l ++ List.replicate (i + 1 - l.length) []).set i x

/-- Put a queue back. -/
def State.setQueue (s : State) (q : QueueId) (l : List CopyItem) : State :=
  match q with
  | .core d c i => let C := s.core d c; s.putCore { C with queues := setAt C.queues i l }
  | .dd d i => let D := s.die d; s.putDie d { D with dd := setAt D.dd i l }

/-- Entries a queue holds at most. -/
def roomOf : QueueId → Nat
  | .core .. => 16
  | .dd .. => 32

/-- The queue has no free entry. -/
def State.queueFull (s : State) (q : QueueId) : Bool := decide (roomOf q ≤ (s.queue q).length)

/-- The queue a word of a group names. -/
def queueOf (T : Team) (dd : Bool) (q : Nat) : QueueId := if dd then .dd T.die q else .core T.die T.core q

/-- Every copy queue of a die with something in it. -/
def State.queuesOf (s : State) (die : Nat) : List QueueId :=
  ((s.cores.filter (·.die = die)).flatMap fun C =>
      (List.range C.queues.length).map fun i => QueueId.core die C.core i) ++
    (List.range (s.die die).dd.length).map fun i => QueueId.dd die i

/-- Every entry of every copy queue, with its queue. -/
def State.allCopies (s : State) : List (QueueId × CopyItem) :=
  (List.range 8).flatMap fun d => (s.queuesOf d).flatMap fun q => (s.queue q).map fun c => (q, c)

/-! ## Descriptors (R219 to R223) -/

/-- Bits [63:20] of a scratchpad address, whose offset takes part in no wrap (R222). -/
def padBase (a : Nat) : Nat := a / 2 ^ 20 * 2 ^ 20

/-- The sizes and strides of a copy: G, NR, NP, SRS, DRS, SPS, DPS (R220 to R222). -/
structure Geometry where
  g : Nat
  nr : Nat
  np : Nat
  srs : Nat
  drs : Nat
  sps : Nat
  dps : Nat
deriving DecidableEq, Repr

/-- The geometry of a copy (R222). -/
def CopyDesc.geometry (d : CopyDesc) : Geometry :=
  match d.dense with
  | some n => { g := n, nr := 1, np := 1, srs := 0, drs := 0, sps := 0, dps := 0 }
  | none =>
  let g := field d.geo 0 12 + 1
  let nr := field d.geo 12 10 + 1
  let or0 (f unit dense : Nat) : Nat := if f = 0 then dense else unit * f
  let srs := or0 (field d.st 0 16) 16 (16 * g)
  let drs := or0 (field d.st 16 16) 16 (16 * g)
  { g := g, nr := nr, np := field d.geo 22 8 + 1, srs := srs, drs := drs, sps := or0 (field d.st 32 16) 256 (nr * srs),
    dps := or0 (field d.st 48 16) 256 (nr * drs) }

/-- Granules a copy moves. -/
def Geometry.count (y : Geometry) : Nat := y.g * y.nr * y.np

/-- The member bits, `own` and `llc` of the geometry word (R220). -/
def CopyDesc.memb (d : CopyDesc) : Nat := field d.geo 35 16

/-- The own bit. -/
def CopyDesc.own (d : CopyDesc) : Bool := field d.geo 34 1 = 1

/-- The llc bit. -/
def CopyDesc.llc (d : CopyDesc) : Bool := field d.geo 51 1 = 1

/-- The members the descriptor names. -/
def CopyDesc.members (d : CopyDesc) : List Nat := (List.range 16).filter fun m => bits d.memb m 1 = 1

/-- Malformed descriptors (R220, R223). -/
def CopyDesc.malformed (d : CopyDesc) (dd : Bool) : Bool :=
  let any := d.memb ≠ 0 || d.own
  field d.geo 52 12 ≠ 0 || field d.geo 30 4 ≠ 0 || decide (8 < d.members.length) || (!d.dkind && any) ||
    (d.dkind && any && field d.c1 24 1 = 1) || (d.llc && d.skind) || (dd && (any || d.llc))

/-- An address of a row or a granule under its kind: global modulo 2^64, scratchpad an offset without wrap (R222). -/
def copyAddr (kind : Bool) (base : DWord) (off : Nat) : Nat :=
  if kind then base.toNat + off else (base.toNat + off) % 2 ^ 64

/-- The offset in an allocation of a scratchpad address of a copy. -/
def copyOff (base : DWord) (off : Nat) : Nat := field base 0 20 + off

/-- The rows of an extent: first address offset of each row. -/
def rowOffsets (y : Geometry) (rs ps : Nat) : List Nat :=
  (List.range y.np).flatMap fun p => (List.range y.nr).map fun r => p * ps + r * rs

/-! ## Cells: members (R231) -/

/-- The team of a cell with an index, one that is leaving among them. -/
def State.anyMember (s : State) (launch die id m : Nat) : Option Team :=
  s.teams.find? fun W => W.launch = launch && W.die = die && W.cell = some (id, m)

/-- A scratchpad a copy names: the issuer's own, or a member's (R168, R223). -/
inductive Consumer where
  | own
  | member (m : Nat)
deriving DecidableEq, Repr

/-- The scratchpad a scratchpad address names. -/
def padConsumer (a : DWord) : Consumer := if field a 24 1 = 0 then .own else .member (field a 20 4)

/-- The scratchpads a copy writes; a memb bit for the issuer's own index is its own (R223). -/
def CopyDesc.padConsumers (d : CopyDesc) (T : Team) : List Consumer :=
  if !d.dkind then []
  else if d.memb = 0 && !d.own then [padConsumer d.c1]
  else
    let ms := d.members.filter fun m => (T.cell.map (·.2)) ≠ some m
    (if d.own || ms.length < d.members.length then [.own] else []) ++ ms.map .member

/-- The team behind a consumer, current or leaving. -/
def State.consumerTeam (s : State) (T : Team) (c : Consumer) : Option Team :=
  match c with
  | .own => s.team T.uid
  | .member m => T.cell.bind fun p => s.anyMember T.launch T.die p.1 m

/-! ## Checks (R225) -/

/-- A failing address with its fault. -/
structure Failing where
  addr : Nat
  kind : FaultKind
  acc : Nat
deriving DecidableEq, Repr

/-- The trap at the lowest failing address of one check (R225). -/
def lowestFailing (l : List Failing) : Check :=
  match l with
  | [] => .pass
  | x :: r =>
    let m := r.foldl (fun m y => if y.addr < m.addr then y else m) x
    .trap { kind := m.kind, acc := m.acc, addr := m.addr }

/-- The global extents of a copy: kind of access, start and length of each row; the flag last. -/
def CopyDesc.globalRows (d : CopyDesc) : List (Nat × Nat × Nat) :=
  let y := d.geometry
  (if d.skind then [] else (rowOffsets y y.srs y.sps).map fun o => (6, copyAddr false d.c0 o, 16 * y.g)) ++
  (if d.dkind then [] else (rowOffsets y y.drs y.dps).map fun o => (7, copyAddr false d.c1 o, 16 * y.g)) ++
  (d.flag.map fun x => (7, x.toNat, 8)).toList

/-- Translation and protection of the global extents. -/
def State.copyPages (s : State) (T : Team) (d : CopyDesc) (fail : Nat → Xlate → Option FaultKind) : List Failing :=
  d.globalRows.flatMap fun x => (extentPages x.2.1 x.2.2).filterMap fun va =>
    (fail x.1 (s.xlate T.die T.core T.asid va)).map fun k => ⟨va, k, x.1⟩

/-- An address of the extents that no DRAM has. -/
def State.copyAbsent (s : State) (T : Team) (d : CopyDesc) : Option Nat :=
  d.globalRows.findSome? fun x => (extentPages x.2.1 x.2.2).findSome? fun va =>
    match s.xlate T.die T.core T.asid va with
    | .absent pa => some pa
    | _ => none

/-- Scratchpad bounds of one end of a copy (R168, R222). -/
def State.copyBounds (s : State) (T : Team) (acc : Nat) (base : DWord) (cs : List Consumer) (g : Nat) (offs : List Nat) :
    List Failing :=
  let bad : Bool := field base 25 39 ≠ 0 || (field base 24 1 = 0 && field base 20 4 ≠ 0)
  let sizes := cs.filterMap fun c => (s.consumerTeam T c).map Team.size
  (if bad then [⟨base.toNat, .scratchBounds, acc⟩] else []) ++
    offs.flatMap fun o => sizes.filterMap fun z =>
      if z < copyOff base o + 16 * g then some ⟨padBase base.toNat + max (copyOff base o) z, .scratchBounds, acc⟩ else none

/-- The consumers that are no current members (R225 check 5). -/
def State.revoked (s : State) (T : Team) (c : Consumer) : Bool :=
  match c with
  | .own => false
  | .member m => (s.member T m).isNone

/-- Where an engine finds a granule: a scratchpad with its offset, or memory with its home die; an error where its page no
longer translates or has lost the permission (R184). -/
def State.granuleAt (s : State) (read : Bool) (die core asid va : Nat) : Except FaultKind (Place × Option Nat) :=
  match s.xlate die core asid va with
  | .ok e =>
    let l := e.loc va
    (match e.lacks { r := read, w := !read } with
     | some k => .error k
     | none =>
       .ok (if read then s.readPlace die core asid va l
            else match s.windowTeam die core asid va with
              | some W => .pad W.uid (va - W.window)
              | none => s.copyPlace l, e.homeDie va))
  | .bad k => .error k
  | .absent _ => .error .notMapped

/-- The granules of a destination row that lie in an array in compute mode (R225 check 6), wherever the copy writes them: in a
scratchpad it names, or in any window (R264). -/
def State.rowBusy (s : State) (T : Team) (d : CopyDesc) (o g : Nat) : List Failing :=
  (List.range g).flatMap fun i =>
    if d.dkind then
      (d.padConsumers T).filterMap fun c => (s.consumerTeam T c).bind fun W =>
        let off := copyOff d.c1 (o + 16 * i)
        if W.storeBusy off then some ⟨padBase d.c1.toNat + off, .arrayBusy, 7⟩ else none
    else
      let va := copyAddr false d.c1 (o + 16 * i)
      match s.granuleAt false T.die T.core T.asid va with
      | .ok (.pad t off, _) => if (s.team t).any fun W => W.storeBusy off then [⟨va, .arrayBusy, 7⟩] else []
      | _ => []

/-- The checks of R225, in their order. -/
def State.checkCopy (s : State) (T : Team) (d : CopyDesc) (dd : Bool) : Check :=
  let y := d.geometry
  let mis (a : DWord) (n acc : Nat) : List Failing := if a.toNat % n ≠ 0 then [⟨a.toNat, .misaligned, acc⟩] else []
  let srcs := rowOffsets y y.srs y.sps
  let dsts := rowOffsets y y.drs y.dps
  firstCheck [
    if d.malformed dd then .trap { kind := .badCopy } else .pass,
    lowestFailing (mis d.c0 16 6 ++ mis d.c1 16 7 ++ mis (d.flag.getD 0) 8 7),
    lowestFailing (s.copyPages T d fun _ x => match x with
      | .bad k => some k
      | _ => none),
    match s.copyAbsent T d with
    | some pa => .absent pa
    | none => .pass,
    lowestFailing ((s.copyPages T d fun acc x => match x with
      | .ok e => e.lacks { r := acc = 6, w := acc = 7 }
      | _ => none) ++
      (if d.skind then s.copyBounds T 6 d.c0 [padConsumer d.c0] y.g srcs else []) ++
      (if d.dkind then s.copyBounds T 7 d.c1 (d.padConsumers T) y.g dsts else [])),
    lowestFailing ((if d.skind && s.revoked T (padConsumer d.c0) then [⟨d.c0.toNat, .cellRevoked, 6⟩] else []) ++
      (if (d.padConsumers T).any (s.revoked T) then [⟨d.c1.toNat, .cellRevoked, 7⟩] else [])),
    lowestFailing (dsts.flatMap fun o => s.rowBusy T d o y.g)]

/-- `cpy` (R217 to R225): under `.after` the group's accesses are performed first (R201). That the checks of R225 come before the wait
for a place in the queue, and again after it, is a DESIGN CHOICE (log 53). -/
def execCpy (f a b : SReg) (dd after skind dkind : Bool) (q : BitVec 3) (s : State) : Out :=
  scalarWord s [(20, f), (14, a), (14, a + 1), (14, a + 2), (8, b)] [f, a, a + 1, a + 2, b] true fun T G =>
    let d : CopyDesc := { c0 := G.sget a, c1 := G.sget (a + 1), geo := G.sget (a + 2), st := G.sget b, flag := if f = 0 then none else some (G.sget f),
                          skind := skind, dkind := dkind, dense := none }
    let Q := queueOf T dd q.toNat
    if after && !G.allPerformed then waitFor s T G (.performed .dev)
    else onPass s T G (s.checkCopy T d dd)
      (if s.queueFull Q then waitFor s T G (.copyRoom Q)
       else done ({ s.setQueue Q (s.queue Q ++ [.copy s.nextUid (some (T.uid, G.idx)) T.launch T.asid T.die T.core d G.spc
         none]) with nextUid := s.nextUid + 1 }) T G)

/-! ## `qwait` and `qfence` -/

/-- A queue entry belongs to a group, for `qwait`: R229 does not say whether the fence entries of the group's own `qfence` count among
its entries, and they do not here (DESIGN CHOICE, log 53). -/
def CopyItem.ownedBy (c : CopyItem) (t g : Nat) : Bool :=
  match c with
  | .copy _ o _ _ _ _ _ _ _ => o = some (t, g)
  | .fence _ => false

/-- The group's own incomplete entries in a queue (R229). -/
def State.ownCopies (s : State) (T : Team) (G : Group) (q : QueueId) : Nat :=
  ((s.queue q).filter (·.ownedBy T.uid G.idx)).length

/-- `qwait` (R229): an acquire at die scope. -/
def execQwait (d : SReg) (dd : Bool) (q : BitVec 3) (n : BitVec 6) (s : State) : Out :=
  scalarWord s [(20, d)] [d] true fun T G =>
    let Q := queueOf T dd q.toNat
    let k := s.ownCopies T G Q
    if n.toNat < k then waitFor s T G (.copies Q n.toNat)
    else doneWith (s.acquire T.die T.core .die) T G d (BitVec.ofNat 64 k)

/-- The entry is a digital matrix word's (R265). -/
def MatrixOp.isDigital : MatrixOp → Bool
  | .mma .. | .mmac .. => true
  | _ => false

/-- The entry is a fence of a `qfence` (R230). -/
def MatrixOp.isFence : MatrixOp → Bool
  | .fence _ => true
  | _ => false

/-- The vector registers that an entry of the stream holds (R263, R271). -/
def Group.heldBy (G : Group) (e : MatrixEntry) : List Nat :=
  (G.busy.filter fun b => b.matrix && b.word = e.word).flatMap (·.vecs)

/-- Its scale bytes have not been read (R200, R257). -/
def MatrixEntry.unread (e : MatrixEntry) : Bool :=
  (e.ascales.places ≠ [] && e.ascales.bytes = []) || (e.bscales.places ≠ [] && e.bscales.bytes = [])

/-- A digital entry may start once its path is free (R200, R271, R278): no fence before it; every earlier entry that writes
one of its C registers has started, or, where it is no digital one, is performed; every earlier lane word that writes one has
landed; earlier entries have read their scale bytes before it reads its own. -/
def Group.canStart (G : Group) (before : List MatrixEntry) (e : MatrixEntry) : Bool :=
  let mine := G.heldBy e
  (before.all fun x => !x.op.isFence && ((x.op.isDigital && x.started) || !(G.heldBy x).any mine.contains) &&
    (!e.unread || !x.unread)) &&
    G.busy.all fun b => b.matrix || decide (e.word ≤ b.word) || !b.vecs.any mine.contains

/-- Stamp the entries of a stream that have become ready to start (R265). -/
def Group.markReady (G : Group) (now : Nat) : List MatrixEntry → List MatrixEntry → List MatrixEntry
  | _, [] => []
  | before, e :: l =>
    (if e.op.isDigital && !e.started && e.ready.isNone && G.canStart before e then { e with ready := some now } else e) ::
      G.markReady now (before ++ [e]) l

/-- Digital entries that have become ready take their place in the order of their path (R265); those of one step in the order of
the lists of teams and groups (DESIGN CHOICE, log 45). -/
def State.noteReady (s : State) : State :=
  s.teams.foldl (fun s T => T.groups.foldl (fun s G =>
    let l := G.markReady s.nextUid [] G.stream
    if l = G.stream then s else { s.put T { G with stream := l } with nextUid := s.nextUid + 1 }) s) s

/-- The fence ids at the heads, and behind them, of every queue and stream: whether each fence's tokens are all heads. -/
def State.fenceReady (s : State) (id : Nat) : Bool :=
  let headOk (l : List Bool) : Bool := !((l.drop 1).any fun x => x)
  let copyQs := (List.range 8).flatMap fun d => (s.queuesOf d).map s.queue
  copyQs.all (fun l => headOk (l.map fun c => c = .fence id)) &&
    (s.teams.all fun T => T.groups.all fun G => headOk (G.stream.map fun e => e.op = .fence id) &&
      headOk (((s.blocks.filter fun b => b.tag.team = T.uid && b.tag.group = G.idx)).map fun b => b.fence && b.id = id) &&
      headOk (((s.puts.filter fun p => p.tag.team = T.uid && p.tag.group = G.idx)).map fun p => p.fence && p.id = id))

/-- Remove a fence everywhere. -/
def State.dropFence (s : State) (id : Nat) : State :=
  { s with
    cores := s.cores.map fun C => { C with queues := C.queues.map fun l => l.filter (· ≠ .fence id) },
    dies := s.dies.map fun D => { D with dd := D.dd.map fun l => l.filter (· ≠ .fence id) },
    teams := s.teams.map fun T => { T with groups := T.groups.map fun G =>
      { G with stream := G.stream.filter fun e => e.op ≠ .fence id } },
    blocks := s.blocks.filter fun b => !(b.fence && b.id = id),
    puts := s.puts.filter fun p => !(p.fence && p.id = id) }

/-- The fences that stand in some queue or stream. -/
def State.fences (s : State) : List Nat :=
  ((s.allCopies.filterMap fun p => match p.2 with
      | .fence id => some id
      | _ => none) ++
    (s.teams.flatMap fun T => T.groups.flatMap fun G => G.stream.filterMap fun e => match e.op with
      | .fence id => some id
      | _ => none) ++
    ((s.blocks.filter (·.fence)).map (·.id)) ++ ((s.puts.filter (·.fence)).map (·.id))).eraseDups

/-- Drop, one after another, the fences that have nothing before them (R230); `n` bounds how many. -/
def State.settleFencesN : Nat → State → State
  | 0, s => s
  | n + 1, s =>
    match s.fences.find? s.fenceReady with
    | some id => State.settleFencesN n (s.dropFence id)
    | none => s

/-- Every fence that is done leaves its queues (R230); matrix entries behind it may be ready (R265). -/
def State.settleFences (s : State) : State := (State.settleFencesN s.fences.length s).noteReady

/-- The copy queues a `qfence` names. -/
def fencedQueues (T : Team) (m : Nat) : List QueueId :=
  ((List.range 4).filter fun i => bits m i 1 = 1).map (fun i => QueueId.core T.die T.core i) ++
    (if bits m 4 1 = 1 then (List.range 8).map fun i => QueueId.dd T.die i else [])

/-- A fence entry of a matrix stream. -/
def MatrixEntry.fence (id word : Nat) : MatrixEntry :=
  { op := .fence id, batch := 0, started := false, word := word, passes := 0, ascales := ⟨[], []⟩, bscales := ⟨[], []⟩,
    ready := none, born := 0, spc := 0, off := 0, lpc := 0 }

/-- `qfence` (R230). -/
def execQfence (q : BitVec 8) (s : State) : Out :=
  scalarWord s [] [] true fun T G =>
    let m := q.toNat
    let Qs := fencedQueues T m
    match Qs.find? s.queueFull with
    | some Q => waitFor s T G (.copyRoom Q)
    | none =>
      let id := s.nextUid
      let s1 := Qs.foldl (fun s Q => s.setQueue Q (s.queue Q ++ [.fence id])) s
      let G1 := if bits m 5 1 = 1 then { G with stream := G.stream ++ [.fence id G.words] } else G
      let blk : List Block := if bits m 6 1 = 1 then
        [{ id := id, tag := T.tag G G.spc, va := 0, flag := 0, cmds := [], next := 0, started := false, sent := 0,
           adds := 0, ahead := [], pages := [], seqs := [], told := false, fell := 0, fence := true }] else []
      let put : List Put := if bits m 7 1 = 1 then
        [{ id := id, tag := T.tag G G.spc, obj := 0, born := 0, idx := 0, src := 0, fence := true }] else []
      let s2 := { s1 with nextUid := id + 1, blocks := s1.blocks ++ blk, puts := s1.puts ++ put }
      .next (s2.retire T G1.advance).settleFences

/-! ## The engines -/

/-- The entry at the head of a queue. -/
def State.head (s : State) (q : QueueId) : Option CopyItem := (s.queue q).head?

/-- Replace the head of a queue. -/
def State.setHead (s : State) (q : QueueId) (c : CopyItem) : State := s.setQueue q (c :: (s.queue q).drop 1)

/-- COPY_ENTRY_START (R215): every earlier entry of the queue has completed and left it. The free choices of overlapping
extents are two for each granule (R222). -/
def execCopyEntryStart (q : QueueId) (s : State) : Out :=
  match s.head q with
  | some (.copy id o L a d c x spc none) =>
    .next ((s.bump (2 * x.geometry.count)).setHead q (.copy id o L a d c x spc (some ⟨0, false, false, s.freeCtr, []⟩)))
  | _ => .next s

/-- The traversal offsets of granule k: source and destination (R222). -/
def Geometry.step (y : Geometry) (k : Nat) : Nat × Nat :=
  let g := k % y.g
  let r := k / y.g % y.nr
  let p := k / (y.g * y.nr)
  (p * y.sps + r * y.srs + 16 * g, p * y.dps + r * y.drs + 16 * g)

/-- The next granule of a place. -/
def Place.plus (p : Place) (n : Nat) : Place :=
  match p with
  | .pad t o => .pad t (o + n)
  | .mem l => .mem (l.plus n)

/-- Sixteen bytes at a place. -/
def State.granuleBytes (s : State) (p : Place) : List Byte := (List.range 16).map fun i => s.takeByte (p.plus i)

/-- A place on a poisoned line of DRAM. -/
def State.placePoisoned (s : State) (p : Place) : Bool :=
  match p with
  | .mem l => s.poisoned l
  | .pad .. => false

/-- Where a scratchpad granule of a copy is: in the team's pages, or, once the team is saved, in its backing memory, where
the window is parked (R235, R414). -/
def Team.granulePlace (W : Team) (off : Nat) : Place :=
  if W.present then .pad W.uid off
  else match W.backing[off / 16384]? with
    | some b => .mem (b.plus (off % 16384))
    | none => .pad W.uid off

/-- The source place of granule k of a copy, with its home die. -/
def State.copySource (s : State) (T : Option Team) (asid die core : Nat) (d : CopyDesc) (o : Nat) :
    Except FaultKind (Place × Option Nat) :=
  if d.skind then
    match T.bind fun T => s.consumerTeam T (padConsumer d.c0) with
    | some W => .ok (W.granulePlace (copyOff d.c0 o), none)
    | none => .error .cellRevoked
  else s.granuleAt true die core asid (copyAddr false d.c0 o)

/-- The destination places of a granule. -/
def State.copyDests (s : State) (T : Option Team) (asid die core : Nat) (d : CopyDesc) (o : Nat) :
    List (Except FaultKind (Place × Option Nat)) :=
  if d.dkind then
    match T with
    | none => []
    | some T => (d.padConsumers T).filterMap fun c => (s.consumerTeam T c).map fun W => .ok (W.granulePlace (copyOff d.c1 o), none)
  else [s.granuleAt false die core asid (copyAddr false d.c1 o)]

/-- The granule lies in an array whose pass runs, or that is switching: the read waits (R174). A copy that was accepted
before the moment of the switch is an earlier access, for which the switch waits (R224, R248). -/
def State.placeBusy (s : State) (id : Nat) (p : Place) : Bool :=
  match p with
  | .mem _ => false
  | .pad t o => ((s.team t).map fun T => T.loadBusy o && ((T.arrayAt o).any fun a => a.pass.isSome || decide (a.moment ≤ id))).getD false

/-- Write a granule in one step (R201, R224); a poisoned one poisons a line of memory and is undefined in a scratchpad
(R227). A write to a line of memory that already holds poison is refused. The bits of a parked window follow (R414). For a scratchpad
consumer whose team is saved, a poisoned granule poisons the whole line of its backing memory, DRAM or host memory, which R227 does
not say (DESIGN CHOICE, log 44). -/
def State.putGranule (s : State) (p : Place) (home : Option Nat) (bs : List Byte) (poison : Bool) : State :=
  match p with
  | .pad .. => bs.zipIdx.foldl (fun s b => s.putByte (p.plus b.2) b.1 true) s
  | .mem l =>
    if poison then (s.poisonLine l).park l true
    else if s.poisoned l then s
    else bs.zipIdx.foldl (fun s b => s.putByte (p.plus b.2) b.1 true) (s.touchHome home l true .none)

/-- The issuer of a copy as a tag. -/
def State.copyTag (s : State) (o : Option (Nat × Nat)) (launch asid die : Nat) (spc : BitVec 32) : Tag :=
  match o.bind fun p => s.team p.1 with
  | some T => { team := T.uid, group := (o.map (·.2)).getD 0, launch := launch, asid := asid, die := die, num := T.num,
                point := T.point, spc := spc }
  | none => { team := (o.map (·.1)).getD (2 ^ 64), group := (o.map (·.2)).getD 0xFF, launch := launch, asid := asid,
              die := die, num := 0xFFFF, point := none, spc := spc }

/-- What one granule does: moved, with what it replaced and the faults it raises; or it waits. -/
inductive Moved where
  | ok (s : State) (was : List (Place × List Byte)) (faults : List (Nat × FaultKind × Nat))
  | waits

/-- A copy as its engine runs it: its issuing team, address space, die, core, id and descriptor. -/
structure CopyRun where
  T : Option Team
  asid : Nat
  die : Nat
  core : Nat
  id : Nat
  d : CopyDesc

/-- The source of granule k. -/
def CopyRun.source (c : CopyRun) (s : State) (k : Nat) : Except FaultKind (Place × Option Nat) :=
  s.copySource c.T c.asid c.die c.core c.d (c.d.geometry.step k).1

/-- The destinations of granule k. -/
def CopyRun.dests (c : CopyRun) (s : State) (k : Nat) : List (Except FaultKind (Place × Option Nat)) :=
  s.copyDests c.T c.asid c.die c.core c.d (c.d.geometry.step k).2

/-- The destination places of granule k. -/
def CopyRun.destPlaces (c : CopyRun) (s : State) (k : Nat) : List Place :=
  (c.dests s k).filterMap fun x => match x with
    | .ok p => some p.1
    | .error _ => none

/-- The last granule of the copy, if any, that is written at a place. -/
def CopyRun.writer (c : CopyRun) (s : State) (p : Place) : Option Nat :=
  (List.range c.d.geometry.count).reverse.find? fun j => (c.destPlaces s j).contains p

/-- The moments at which the device reads granule k of a copy whose extents overlap, and writes it: any, the read first (R222,
log 11). -/
def copyMoments (luck k : Nat) : Nat × Nat :=
  let r := Config.freeChoice (luck + 2 * k)
  (r, r + 1 + Config.freeChoice (luck + 2 * k + 1))

/-- The granule whose write at a place granule k finds there as it is read: of those written before that moment the last in
traversal order, whose data remains of two at one place (R222). -/
def CopyRun.found (c : CopyRun) (s : State) (luck k : Nat) (p : Place) : Option Nat :=
  (List.range c.d.geometry.count).reverse.find? fun j =>
    (c.destPlaces s j).contains p && decide ((copyMoments luck j).2 ≤ (copyMoments luck k).1)

/-- The place whose contents before the copy granule k receives: its source, or, where the extents overlap and its source has been
written by this copy as it is read, the place that write takes them from (R222, log 11). -/
def CopyRun.origin (c : CopyRun) (s : State) (luck : Nat) : Nat → Nat → Except FaultKind (Place × Option Nat)
  | 0, k => c.source s k
  | n + 1, k =>
    match c.source s k with
    | .error f => .error f
    | .ok p =>
      if (c.writer s p.1).isNone then .ok p
      else match c.found s luck k p.1 with
        | none => .ok p
        | some j => c.origin s luck n j

/-- A granule of memory or scratchpad as it stood before the copy. -/
def CopyStep.before (k : CopyStep) (s : State) (p : Place) : List Byte :=
  ((k.was.find? (·.1 = p)).map (·.2)).getD (s.granuleBytes p)

/-- What the granules at some places hold before the copy writes them, where another granule of the copy is read there. -/
def CopyRun.replaced (c : CopyRun) (s : State) (x : CopyStep) (ps : List Place) : List (Place × List Byte) :=
  (ps.filter fun p => (x.was.all (·.1 ≠ p)) && (List.range c.d.geometry.count).any fun j => match c.source s j with
    | .ok q => q.1 = p
    | .error _ => false).map fun p => (p, s.granuleBytes p)

/-- Write the data of a granule to one consumer; a write that is refused leaves it, with its fault (R184, R227). -/
def State.putDest (s : State) (va : Nat) (bs free : List Byte) (bad : Bool) (x : Except FaultKind (Place × Option Nat)) :
    State × List (Nat × FaultKind × Nat) :=
  match x with
  | .error _ => (s, [(va, .storeFault, 7)])
  | .ok (p, home) =>
    (s.putGranule p home (match p with
      | .pad .. => if bad then free else bs
      | .mem _ => bs) bad, if !bad && s.placePoisoned p then [(va, .storeFault, 7)] else [])

/-- Move granule k of a copy (R222, R224, R227). Undefined bits come from the free values: an overlap's order (log 11),
poison in a scratchpad (log 5). A source that no longer translates or may not be read is skipped with its fault (log 44). -/
def CopyRun.moveGranule (c : CopyRun) (s : State) (x : CopyStep) (k : Nat) : Moved :=
  let o := c.d.geometry.step k
  let sa := copyAddr c.d.skind c.d.c0 o.1
  let da := copyAddr c.d.dkind c.d.c1 o.2
  match c.source s k, c.origin s x.luck c.d.geometry.count k with
  | .error f, _ => .ok s [] [(sa, f, 6)]
  | .ok _, .error f => .ok s [] [(sa, f, 6)]
  | .ok src, .ok q =>
    if s.placeBusy c.id src.1 then .waits
    else
      let bad := s.placePoisoned q.1
      let free := (List.range 16).map fun i => (Config.freePoison (s.freeCtr + i)).setWidth 8
      let bs := x.before s q.1
      let s0 := match src.1 with
        | .mem l => if c.d.llc then s.touchHome src.2 l false .kp else s
        | .pad .. => s
      let r := (c.dests s k).foldl (fun (r : State × List (Nat × FaultKind × Nat)) y =>
        let w := r.1.putDest da bs free bad y
        (w.1, r.2 ++ w.2)) (if bad then s0.bump 16 else s0, [])
      .ok r.1 (c.replaced s x (c.destPlaces s k)) ((if bad then [(sa, .memory, 6)] else []) ++ r.2)

/-- Move up to n granules. -/
def CopyRun.moveGranules (c : CopyRun) (s : State) (x : CopyStep) : Nat → State × CopyStep × List (Nat × FaultKind × Nat)
  | 0 => (s, x, [])
  | n + 1 =>
    if c.d.geometry.count ≤ x.moved then (s, x, [])
    else match c.moveGranule s x x.moved with
      | .waits => (s, x, [])
      | .ok s1 was fs =>
        let r := CopyRun.moveGranules c s1 { x with moved := x.moved + 1, was := x.was ++ was } n
        (r.1, r.2.1, fs ++ r.2.2)

/-- COPY_STEP (R216): up to sixteen granules in traversal order; faults found now are imprecise (R184, R227), and an entry
reports its first failing source and its first refused write. -/
def execCopyStep (q : QueueId) (s : State) : Out :=
  match s.head q with
  | some (.copy id o L a d c x spc (some k)) =>
    let r := CopyRun.moveGranules ⟨o.bind fun p => s.team p.1, a, d, c, id, x⟩ s k 16
    let bad := if k.readTold then none else r.2.2.find? fun f => f.2.2 == 6
    let refused := if k.writeTold then none else r.2.2.find? fun f => f.2.2 == 7
    let s1 := r.1.setHead q (.copy id o L a d c x spc
      (some { r.2.1 with readTold := k.readTold || bad.isSome, writeTold := k.writeTold || refused.isSome }))
    (bad.toList ++ refused.toList).foldl (fun out f => andThen out fun s =>
      raiseImprecise s (s.copyTag o L a d spc) { kind := f.2.1, acc := f.2.2, addr := f.1 } 0xFF 0xFFFFFFFF 0) (.next s1)
  | _ => .next s

/-- Add 1 modulo 2^64 to an 8-byte word at its home (R226, R342). -/
def State.addFlag (s : State) (die core asid va : Nat) : State :=
  match s.xlate die core asid va with
  | .ok e =>
    let p := s.writePlace die core asid va (e.loc va)
    let r := s.readPlace die core asid va (e.loc va)
    let old := ofBytes ((List.range 8).map fun i => s.takeByte (r.plus i))
    let s1 := match p with
      | .mem l => s.touchHome (e.homeDie va) l true .none
      | .pad .. => s
    (leBytes (old + 1) 8).zipIdx.foldl (fun s b => s.putByte (p.plus b.2) b.1 false) s1
  | _ => s

/-- Why a write that has passed its fault point is refused at its place: the line holds poison (R184). An array refuses it at its
fault point alone; one that finds its granule registered only now has been accepted before the switch takes effect, which waits
for it (R174, R248; DEDUCED, log 45). -/
def State.homeRefusal (s : State) (p : Place) : Option FaultKind := if s.placePoisoned p then some .storeFault else none

/-- Why a write of an entry accepted at some moment in the order of the part is refused as it arrives at its place: the line holds poison (R184), or it
lies in an array that refuses it (R174, R248, R264). -/
def State.storeRefusal (s : State) (born : Nat) (p : Place) : Option FaultKind :=
  if s.placePoisoned p then some .storeFault
  else match p with
    | .mem _ => none
    | .pad t o => if (s.team t).any fun T => T.refusesStore o born then some .arrayBusy else none

/-- Why a flag add of an entry accepted at some moment is refused at the memory side: its page no longer translates with write
permission, its line holds poison, or it lies in an array that refuses it (R184, R227, R248, R264, R290). -/
def State.flagFault (s : State) (die core asid va born : Nat) : Option FaultKind :=
  match s.xlate die core asid va with
  | .ok e => if !e.w then some .storeFault else s.storeRefusal born (s.writePlace die core asid va (e.loc va))
  | _ => some .storeFault

/-- A flag add made now is refused. -/
def State.flagRefused (s : State) (die core asid va : Nat) : Bool := (s.flagFault die core asid va s.nextUid).isSome

/-- COPY_COMPLETE (R226, R227): every granule is in place, the flag add is performed, the entry leaves its queue. -/
def execCopyComplete (q : QueueId) (s : State) : Out :=
  match s.head q with
  | some (.copy id o L a d c x spc (some k)) =>
    if k.moved < x.geometry.count then .next s
    else
      let gone (s : State) : State := (s.setQueue q ((s.queue q).drop 1)).settleFences
      match x.flag with
      | none => .next (gone s)
      | some f =>
        (match s.flagFault d c a f.toNat id with
         | some k =>
           raiseImprecise (gone s) (s.copyTag o L a d spc) { kind := k, acc := 7, addr := f.toNat } 0xFF 0xFFFFFFFF 0
         | none => .next (gone (s.addFlag d c a f.toNat)))
  | _ => .next s

/-! ## What copies are in flight -/

/-- The teams whose scratchpad a copy names in extents of some kinds of access, its own scratchpad as source too where
`source` says so. -/
def State.copyTeamsOf (s : State) (kind : Nat → Bool) (source : Bool) (c : CopyItem) : List Nat :=
  match c with
  | .fence _ => []
  | .copy _ o _ a d k x _ _ =>
    let y := x.geometry
    let T := o.bind fun p => s.team p.1
    let pads := match T with
      | none => []
      | some T => ((if source && x.skind then [padConsumer x.c0] else []) ++ x.padConsumers T).filterMap fun c =>
          (s.consumerTeam T c).map (·.uid)
    let windows := (x.globalRows.filter fun r => kind r.1).flatMap fun r => (List.range (y.g)).filterMap fun i =>
      let va := (r.2.1 + 16 * i) % 2 ^ 64
      match s.xlate d k a va with
      | .ok e => (match s.windowTeam d k a va with
          | some W => some W.uid
          | none => match s.copyPlace (e.loc va) with
            | .pad t _ => some t
            | .mem _ => none)
      | _ => none
    (pads ++ windows).eraseDups

/-- The scratchpads a copy names, as teams. -/
def State.copyTeams (s : State) (c : CopyItem) : List Nat := s.copyTeamsOf (fun _ => true) true c

/-- The teams whose allocation a copy names as destination (R211). -/
def State.copyTargets (s : State) (c : CopyItem) : List Nat := s.copyTeamsOf (· = 7) false c

/-- Some copy in a queue names the team's allocation (R173, R227). -/
def State.copiesName (s : State) (t : Nat) : Bool := s.allCopies.any fun p => (s.copyTeams p.2).contains t

/-- Some copy in a queue was issued by the team. -/
def State.copiesOf (s : State) (t : Nat) : Bool :=
  s.allCopies.any fun p => match p.2 with
    | .copy _ (some (u, _)) _ _ _ _ _ _ _ => u = t
    | _ => false

/-! ## Cells (R231 to R234) -/

/-- The members of a cell of a launch on a die. -/
def State.cellMembers (s : State) (launch die id : Nat) : List Team :=
  s.teams.filter fun W => W.launch = launch && W.die = die && (W.cell.map (·.1)) = some id

/-- Cell records in use on a die (R231). -/
def State.cellRecords (s : State) (die : Nat) : Nat :=
  ((s.teams.filter (·.die = die)).filterMap fun W => W.cell.map fun c => (W.launch, c.1)).eraseDups.length

/-- The lowest free member index. -/
def freeIndex (used : List Nat) : Nat := ((List.range 16).find? fun i => !used.contains i).getD 0

/-- `cjoin` (R232): a release and an acquire at cell scope, the cell as it stands once the team has joined, so that the group's
accesses are performed for its other members. -/
def joinCell (s : State) (T : Team) (G : Group) (d : SReg) (id : Nat) : Out :=
  match T.cell with
  | some (c, i) =>
    if c = id then doneWith s T G d (BitVec.ofNat 64 i) else raise s T G { kind := .inAnotherCell }
  | none =>
    let ms := s.cellMembers T.launch T.die id
    if 16 ≤ ms.length then doneWith s T G d (-1)
    else if ms.isEmpty && decide (512 ≤ s.cellRecords T.die) then doneWith s T G d (-2)
    else if !G.allPerformed then waitFor s T G (.performed .die)
    else
      let i := freeIndex (ms.filterMap fun W => W.cell.map (·.2))
      let s1 := s.modTeam T.uid fun T => { T with cell := some (id, i) }
      doneWith (s1.acquire T.die T.core .cell) T G d (BitVec.ofNat 64 i)

/-- `cjoin` with an immediate id (R232). -/
def execCjoin (d : SReg) (id : BitVec 8) (s : State) : Out :=
  scalarWord s [(20, d)] [d] true fun T G => joinCell s T G d id.toNat

/-- `cjoin` with the id in a register (R232). -/
def execCjoinR (d a : SReg) (s : State) : Out :=
  scalarWord s [(20, d), (14, a)] [d, a] true fun T G =>
    if 255 < (G.sget a).toNat then raise s T G { kind := .badCellId } else joinCell s T G d (G.sget a).toNat

/-- A copy holds back the end of a team's membership (R233): one through the mappings of the team, in either direction, or
one that names the team as a consumer. -/
def State.cellCopies (s : State) (T : Team) : Bool :=
  s.allCopies.any fun p => match p.2 with
    | .copy _ (some (u, _)) _ _ _ _ x _ _ =>
      (match s.team u with
       | some W =>
         let names (c : Consumer) : Bool := ((s.consumerTeam W c).map (·.uid)) = some T.uid
         let mapped (c : Consumer) : Bool := c ≠ .own && (u = T.uid || names c)
         (x.skind && mapped (padConsumer x.c0)) || (x.padConsumers W).any fun c => mapped c || names c
       | none => false)
    | _ => false

/-- A store through the mappings of a team, in either direction, is not performed: its granule is still to be registered (R172,
R233). -/
def State.cellStores (s : State) (T : Team) : Bool :=
  T.cell.any fun c => (s.cellMembers T.launch T.die c.1).any fun W => W.uid ≠ T.uid &&
    ((W.groups.any fun G => G.regs.any (·.1 = T.uid)) || T.groups.any fun G => G.regs.any (·.1 = W.uid))

/-- Copies and accesses that passed their fault points hold back the end of a team's membership (R233). -/
def State.cellWork (s : State) (T : Team) : Bool := s.cellCopies T || s.cellStores T

/-- The mappings of a team are revoked at one moment (R233). -/
def Team.revoke (T : Team) : Team := { T with leaving := true }

/-- The member index of a team is free: it is in no cell (R233). -/
def Team.uncelled (T : Team) : Team := { T with cell := none, leaving := false }

/-- `cleave` (R233): the mappings are revoked at one moment; the word waits until the accesses and copies through them are over. -/
def execCleave (s : State) : Out :=
  scalarWord s [] [] true fun T G =>
    if T.cell.isNone then done s T G
    else if !G.performedAt T .cell then waitFor s T G (.performed .cell)
    else if s.cellWork T then waitFor (s.modTeam T.uid Team.revoke) T G .cellQuiet
    else done (s.modTeam T.uid Team.uncelled) T G

/-- An exited team leaves its cell as `cleave` does, one step of it (R234, R365): its accesses performed, the mappings revoked, the
accesses and copies through them over, its index free. -/
def State.leaveCell (s : State) (T : Team) : State :=
  if !T.groups.all (·.performedAt T .cell) then s
  else if s.cellWork T then s.modTeam T.uid Team.revoke
  else s.modTeam T.uid Team.uncelled

/-- Copies that a team's groups issued, or that name its allocation, are not complete (R227, R365). -/
def State.teamCopies (s : State) (t : Nat) : Bool := s.copiesOf t || s.copiesName t

end Sys2Proof.Machine
end

