-- ==== Sys2Proof/Machine/Narrow.lean ====
section
/-! DEFINITION. The narrow formats of R131 to R136: decoding, and rounding into a code (R137, R138). -/
namespace Sys2Proof.Machine

/-- A narrow format by its code (R50). -/
inductive NFmt where
  /-- binary8pP or binary4pP, K bits, signed (R131, R134). -/
  | signed (k p : Nat) (ext : Bool)
  /-- nf8pP (R133). -/
  | natural (p : Nat) (ext : Bool)
  /-- An integer format of K bits with quantum 2^q (R135). -/
  | int (k : Nat) (q : Int)
  | e8m0
deriving DecidableEq, Repr

/-- The format a code names (R50). -/
def NFmt.ofCode (c : Nat) : Option NFmt :=
  let p := c % 8
  if 1 ≤ c && c ≤ 7 then some (.signed 8 p false)
  else if 9 ≤ c && c ≤ 15 then some (.signed 8 p true)
  else if 17 ≤ c && c ≤ 23 then some (.natural p false)
  else if 25 ≤ c && c ≤ 31 then some (.natural p true)
  else if 33 ≤ c && c ≤ 35 then some (.signed 4 p false)
  else if 41 ≤ c && c ≤ 43 then some (.signed 4 p true)
  else if c = 0x38 then some (.int 8 0)
  else if c = 0x39 then some (.int 4 0)
  else if c = 0x3A then some (.int 2 0)
  else if c = 0x3B then some (.int 8 (-6))
  else if c = 0x3C then some .e8m0
  else none

/-- Bits of a code (R130). -/
def NFmt.width : NFmt → Nat
  | .signed k .. => k
  | .natural .. => 8
  | .int k _ => k
  | .e8m0 => 8

/-- Bits of a magnitude, precision and bias of a floating format (R131, R133, R134). -/
def NFmt.params : NFmt → Nat × Nat × Nat
  | .signed k p _ => (k - 1, p, 2 ^ (k - p - 1))
  | .natural p _ => (8, p, 2 ^ (8 - p))
  | _ => (0, 1, 0)

/-- The value of a magnitude code (R131). -/
def NFmt.magnitude (f : NFmt) (neg : Bool) (m : Nat) : FVal :=
  let (_, p, b) := f.params
  let e := m / 2 ^ (p - 1)
  let t := m % 2 ^ (p - 1)
  if e = 0 then .fin neg t (2 - (b : Int) - p) false
  else .fin neg (2 ^ (p - 1) + t) ((e : Int) - b - p + 1) false

/-- The largest finite magnitude code (R131, R133, R134). -/
def NFmt.maxCode : NFmt → Nat
  | .signed k _ ext => 2 ^ (k - 1) - 1 - b2n ext
  | .natural _ ext => 254 - b2n ext
  | _ => 0
where
  /-- A Bool as a number. -/
  b2n (b : Bool) : Nat := if b then 1 else 0

/-- The NaN code (R131, R133, R134, R138). -/
def NFmt.nanCode : NFmt → Nat
  | .signed k .. => 2 ^ (k - 1)
  | .natural .. => 255
  | .e8m0 => 255
  | .int .. => 0

/-- The value a code stands for (R131-R135). -/
def NFmt.decode (f : NFmt) (code : Nat) : FVal :=
  match f with
  | .signed k _ ext =>
    let c := code % 2 ^ k
    let neg : Bool := decide (2 ^ (k - 1) ≤ c)
    let m := c % 2 ^ (k - 1)
    if c = 0 then .fin false 0 0 false
    else if m = 0 then .nan
    else if ext && m = 2 ^ (k - 1) - 1 then .inf neg
    else f.magnitude neg m
  | .natural _ ext =>
    let c := code % 256
    if c = 0 then .fin false 0 0 false else if c = 255 then .nan else if ext && c = 254 then .inf false
    else f.magnitude false c
  | .int k q =>
    let i := (BitVec.ofNat k code).toInt
    .fin (decide (i < 0)) i.natAbs q false
  | .e8m0 => let c := code % 256; if c = 255 then .nan else .fin false 1 ((c : Int) - 127) false

/-- emax (R136). -/
def NFmt.emax (f : NFmt) : Int :=
  match f with
  | .int k q => (k : Int) - 2 + q
  | .e8m0 => 127
  | _ =>
    match f.magnitude false f.maxCode with
    | .fin _ m e _ => (log2 m : Int) + e
    | _ => 0

/-- The code of a value rounded into the format, with its flags (R137, R138). The least code of a two's complement format lies in its
range (R135), so that a value that rounds to it is not out of range (DEDUCED, log 57). That a negative value which a natural format
would round to 0 sets NX alone is a DESIGN CHOICE (log 53): it fits two rows of R138's table. -/
def NFmt.round (f : NFmt) (y : FVal) (mode : Mode) (sat : Bool) : Nat × FFlags :=
  match f with
  | .e8m0 => (255, 0)
  | .int k q =>
    let lim (neg : Bool) : Nat := if neg then 2 ^ (k - 1) else 2 ^ (k - 1) - 1
    match y with
    | .nan => (0, fNV)
    | .inf n => (lim n, fNX)
    | .fin n m e s =>
      if m = 0 && !s then (0, 0)
      else
        let r := roundAt m e q s mode
        if lim n < r.1 then (lim n, fOF ||| fNX)
        else ((if n then 2 ^ k - r.1 else r.1) % 2 ^ k, if r.2 then fNX else 0)
  | _ =>
    let (_, p, b) := f.params
    let signed : Bool := match f with
      | .signed .. => true
      | _ => false
    let ext : Bool := match f with
      | .signed _ _ x => x
      | .natural _ x => x
      | _ => false
    let sgn (neg : Bool) (m : Nat) : Nat := if neg && m ≠ 0 then 2 ^ (f.width - 1) + m else m
    match y with
    | .nan => (f.nanCode, 0)
    | .inf n =>
      if n && !signed then (0, fNX)
      else if ext then (sgn n (if sat then f.maxCode else f.maxCode + 1), 0)
      else (sgn n f.maxCode, fNX)
    | .fin n m e s =>
      if m = 0 && !s then (0, 0)
      else if n && !signed then (0, fNX)
      else
        let emin : Int := 1 - (b : Int)
        let q := quantum m e p emin
        let r := roundAt m e q s mode
        let mag := (q - (emin - (p : Int) + 1)).toNat * 2 ^ (p - 1) + r.1
        if f.maxCode < mag then
          let top := match mode with
            | .rtz => f.maxCode
            | _ => if ext && !sat then f.maxCode + 1 else f.maxCode
          (sgn n top, fOF ||| fNX)
        else
          let uf : FFlags := if r.2 && decide (mag < 2 ^ (p - 1)) then fUF else 0
          (sgn n mag, (if r.2 then fNX else 0) ||| uf)

end Sys2Proof.Machine
end

