-- ==== Sys2Proof/Machine/Arrays.lean ====
section
/-! DEFINITION. The charge arrays: modes, tiles, maps, passes, the accumulator words (R236 to R264), on the matrix stream
(R255). -/
namespace Sys2Proof.Machine

/-! ## Modes (R247 to R250) -/

/-- Array k of a team. -/
def Team.array (T : Team) (k : Nat) : Option ArrayState := T.arrays[k]?

/-- Change array k of a team. -/
def Team.modArray (T : Team) (k : Nat) (f : ArrayState → ArrayState) : Team :=
  { T with arrays := T.arrays.zipIdx.map fun p => if p.2 = k then f p.1 else p.1 }

/-- An array is switching. -/
def ArrayMode.switching : ArrayMode → Bool
  | .toStorage | .toCompute => true
  | _ => false

/-- The die has reported calibrated (R385, R391). -/
def State.calibrated (s : State) (die : Nat) : Bool := s.control.calibrated.getLsbD die

/-- The mode an array has after a switch, and while it switches (R248). -/
def goalMode (compute : Bool) : ArrayMode := if compute then .compute else .storage

/-- The mode of an array on its way (R248). -/
def towardMode (compute : Bool) : ArrayMode := if compute then .toCompute else .toStorage

/-- The arrays that an `amode` still has to switch, in ascending order (R248): one that is in the target mode is passed
over; one that another word is switching is waited for; any other has its mode moment now, and the word waits for its
switch. After the last the word is over. -/
def amodeNext (s : State) (T : Team) (G : Group) (compute : Bool) : List Nat → Out
  | [] => .next (s.retire T G.advance.finishStop)
  | k :: rest =>
    match T.array k with
    | none => amodeNext s T G compute rest
    | some a =>
      if a.mode.switching then waitFor s T G (.arrays k (a.switched + 1) (k :: rest) compute)
      else if a.mode = goalMode compute then amodeNext s T G compute rest
      else
        let T1 := T.modArray k fun a => { a with mode := towardMode compute, moment := s.nextUid + 1 }
        waitFor { s.putTeam T1 with nextUid := s.nextUid + 1 } T1 G (.arrays k (a.switched + 1) rest compute)

/-- `amode` (R247, R248): its checks, then its arrays in turn; WAIT_COMPLETE goes on with the next array. -/
def amodeWord (s : State) (j n : BitVec 5) (compute : Bool) : Out :=
  scalarWord s [] [] true fun T G =>
    if (s.header T).arrays < j.toNat + (n.toNat + 1) then raise s T G { kind := .notDeclared }
    else if compute && !s.calibrated T.die then raise s T G { kind := .notCalibrated }
    else amodeNext s T G compute ((List.range (n.toNat + 1)).map (j.toNat + ·))

/-- `amode.st` (R247, R248). -/
def execAmodeSt (j n : BitVec 5) (s : State) : Out := amodeWord s j n false

/-- `amode.cmp` (R247, R248). -/
def execAmodeCmp (j n : BitVec 5) (s : State) : Out := amodeWord s j n true

/-- A matrix-stream entry passes on an array (R255). -/
def MatrixEntry.onArray (e : MatrixEntry) (arr : Nat) : Bool :=
  match e.op with
  | .amm _ _ tile _ _ _ => field tile 0 5 = arr
  | _ => false

/-- A place lies in an array of a team, by its backing memory. -/
def Team.arrayHolds (T : Team) (arr : Nat) (l : Loc) : Bool := (T.backedAt l).any fun o => decide (o / 24576 = arr)

/-- A take at which a group waits, past its fault point, is to write into the array (R248, R324). -/
def State.takesInto (s : State) (T : Team) (arr : Nat) (W : Team) (G : Group) : Bool :=
  match G.wait with
  | some ⟨.take born _ va _, _⟩ =>
    (s.objects.find? (·.born = born)).any fun o => (List.range ((4 * o.len + 15) / 16)).any fun i =>
      match s.xlate W.die W.core W.asid ((va + 16 * i) % 2 ^ 64) with
      | .ok e => T.arrayHolds arr (e.loc ((va + 16 * i) % 2 ^ 64))
      | _ => false
  | _ => false

/-- The scratchpad has registered one of n granules from a place on: an access to them is forwarded to it (R172). -/
def Team.forwards (T : Team) (l : Loc) (n : Nat) : Bool :=
  (List.range n).any fun i => (T.backedAt (l.plus (16 * i))).any T.isRegistered

/-- A store or atomic on its way lands in an array, whose parts are whole superblocks, and the array's switch waits for it: one that
passed its fault point before the switch's moment, or a later one, to what was ordinary memory then, which is forwarded to the
scratchpad now (R169, R171, R174, R248). -/
def Req.landsIn (r : Req) (T : Team) (arr moment : Nat) : Bool :=
  (r.kind = .store || r.kind = .atomic) && !r.performed && T.arrayHolds arr r.tag &&
    (decide (r.born < moment) || T.forwards r.tag 16)

/-- A bank add on its way lands in an array whose switch waits for it, as a store does (R174, R248, R333). -/
def BankAdd.landsIn (a : BankAdd) (T : Team) (arr moment : Nat) : Bool :=
  T.arrayHolds arr ⟨false, a.pa⟩ && (decide (a.born < moment) || T.forwards ⟨false, a.pa / 16 * 16⟩ 1)

/-- Some store, atomic, take or bank add that a switch of some moment waits for lands in the array and is not performed, or a granule
of it is still to be registered (R172, R248, R324, R333). -/
def State.storesInto (s : State) (T : Team) (arr moment : Nat) : Bool :=
  (s.teams.any fun W => W.groups.any fun G => (G.reqs.any (·.landsIn T arr moment)) || s.takesInto T arr W G ||
    G.regs.any fun x => decide (x.1 = T.uid) && decide (16 * x.2 / 24576 = arr)) ||
    s.adds.any (·.landsIn T arr moment)

/-- A copy that was accepted before a moment names the team's allocation (R224, R248). -/
def State.copiesBefore (s : State) (t moment : Nat) : Bool :=
  s.allCopies.any fun p => match p.2 with
    | .copy id _ _ _ _ _ _ _ _ => decide (id < moment) && (s.copyTeams p.2).contains t
    | .fence _ => false

/-- A pass runs on the array, or an entry of the team will pass on it (R248, R250). -/
def Team.passesOn (T : Team) (arr : Nat) (a : ArrayState) : Bool :=
  a.pass.isSome || T.groups.any fun G => G.stream.any (·.onArray arr)

/-! ## Tiles and maps (R245, R251 to R253) -/

/-- Planes or phases, weight columns per array and element-factor exponent of a format of R236. -/
def arrayFormat (code : Nat) : Option (Nat × Nat × Int) :=
  match code with
  | 0x38 => some (8, 64, 0)
  | 0x3B => some (8, 64, -6)
  | 0x39 => some (4, 128, 0)
  | 0x23 => some (4, 128, -2)
  | 0x3A => some (2, 256, 0)
  | _ => none

/-- A tile descriptor (R245). -/
structure Tile where
  array : Nat
  row0 : Nat
  rows : Nat
  col0 : Nat
  cols : Nat
  wfmt : Nat
  map : Bool
  mslot : Nat
  resv : Nat
deriving DecidableEq, Repr

/-- The fields of a tile descriptor. -/
def tileOf (x : DWord) : Tile :=
  { array := field x 0 5, row0 := field x 5 9, rows := field x 14 9, col0 := field x 23 9, cols := field x 32 9,
    wfmt := field x 41 6, map := field x 47 1 = 1, mslot := field x 48 4, resv := field x 52 12 }

/-- The checks of `tbind` (R251). -/
def Tile.ok (t : Tile) (arrays : Nat) : Bool :=
  match arrayFormat t.wfmt with
  | none => false
  | some (_, cols, _) =>
    t.resv = 0 && decide (t.array < arrays) && decide (1 ≤ t.rows) && decide (t.row0 + t.rows ≤ 384) &&
      decide (1 ≤ t.cols) && decide (t.col0 + t.cols ≤ cols) &&
      (if t.map then t.row0 = 0 && t.rows = 384 && decide (t.mslot ≤ 3) else t.mslot = 0)

/-- A word that names tile register k: beyond the budget it is illegal at a field (R26, R57). -/
def tileWord (s : State) (k pos : Nat) (regs : List (Nat × SReg)) (act : Team → Group → Out) : Out :=
  match s.current with
  | none => .next s
  | some (_, G) =>
    if G.bud.t ≤ k then illegalScalar s [] pos else scalarWord s regs (regs.map (·.2)) true act

/-- `tbind` (R251). -/
def execTbind (d : BitVec 4) (a : SReg) (s : State) : Out :=
  tileWord s d.toNat 20 [(14, a)] fun T G =>
    if (tileOf (G.sget a)).ok (s.header T).arrays then done s T (G.tset d (G.sget a))
    else raise s T G { kind := .tileBounds }

/-- A map slot of a team; undefined where nothing has written it (R153, log 5). -/
def Team.mapSlot (T : Team) (m : Nat) : DupMap :=
  match assoc T.maps m with
  | some d => d
  | none =>
    let x := (Config.freeMap T.uid m).toNat
    { cnt := bits x 256 5, slots := (List.range 16).map fun j => bits x (16 * j) 9 }

/-- A slot that no `v.osplit` can have written (R252, R277). -/
def DupMap.bad (d : DupMap) : Bool := decide (16 < d.cnt) || d.slots.any fun x => decide (368 ≤ x)

/-- The bytes of an array row. -/
def Team.row (T : Team) (arr r : Nat) : List Byte := (List.range 64).map fun i => T.padByte (24576 * arr + 64 * r + i)

/-- Write an array row. -/
def Team.setRow (T : Team) (arr r : Nat) (bs : List Byte) : Team := T.setPads (24576 * arr + 64 * r) bs

/-- The duplicate rows and the installed map (R252). -/
def Team.installMap (T : Team) (arr : Nat) (d : DupMap) : Team :=
  let T1 := (List.range 16).foldl (fun T j =>
    T.setRow arr (368 + j) (if j < d.cnt then T.row arr (d.slots.getD j 0) else List.replicate 64 0)) T
  T1.modArray arr fun a => { a with map := { cnt := d.cnt, slots := d.slots.take d.cnt } }

/-- `tmap` (R252). -/
def execTmap (k : BitVec 4) (s : State) : Out :=
  tileWord s k.toNat 0 [] fun T G =>
    let t := tileOf (G.tget k)
    if !t.map then raise s T G { kind := .tileBounds }
    else if G.busy.any (·.maps.contains t.mslot) then waitFor s T G (.mapSlot t.mslot)
    else
      let d := T.mapSlot t.mslot
      if d.bad then raise s T G { kind := .tileBounds }
      else match T.array t.array with
        | none => raise s T G { kind := .tileBounds }
        | some a =>
          if a.mode ≠ .storage then raise s T G { kind := .arrayBusy, acc := 2 }
          else
            let s1 := s.keepPads T ((List.range 64).map fun k => 24576 * t.array + 64 * 368 + 16 * k)
            done (s1.modTeam T.uid fun T => T.installMap t.array d) T G

/-! ## The matrix stream (R255) -/

/-- Entries of a group that have not been performed, fences apart. -/
def Group.pendingEntries (G : Group) : List MatrixEntry :=
  G.stream.filter fun e => match e.op with
    | .fence _ => false
    | _ => true

/-- The stream takes no further entry (R255). -/
def Group.streamFull (G : Group) : Bool := decide (32 ≤ G.pendingEntries.length)

/-- The head of the lane queue enters the matrix stream in the open batch (R255, R279); it holds its destinations until
the entry is performed (R263, R271). -/
def matrixIssue (s : State) (T : Team) (G : Group) (e : QEntry) (opc : Nat) (f : LaneFields) (op : MatrixOp)
    (as bs : ScaleTable) : Out :=
  let busy : Option Busy := if streamWrites opc then some (Busy.of (f.toRaw opc) (G.words + 1) false true) else none
  let entry : MatrixEntry :=
    { op := op, batch := G.batch, started := false, word := G.words + 1, passes := 0, ascales := as, bscales := bs,
      ready := none, born := s.nextUid, spc := e.spc, off := e.off, lpc := e.lpc }
  let G1 := G.issued f busy
  .next (s.put T { G1 with stream := G1.stream ++ [entry] }).noteReady

/-- The mask snapshot of a word has every bit set. -/
def QEntry.allLanes (e : QEntry) : Bool :=
  maskOf (snapReg e.snap 61) (snapReg e.snap 62) (snapReg e.snap 63) = BitVec.allOnes 96

/-- The head of the stream is performed: it leaves, its registers are free (R271), fences that waited for it go. -/
def streamDone (s : State) (T : Team) (G : Group) (e : MatrixEntry) : State :=
  (s.put T { G with stream := G.stream.drop 1, busy := G.busy.filter fun b => !(b.matrix && b.word = e.word) }).settleFences

/-- The access to a scale byte. -/
def scaleAccess (va : Nat) : Access := ⟨0xFF, va, 1⟩

/-- A word reads no scale bytes of an operand. -/
def ScaleTable.none : ScaleTable := ⟨[], []⟩

/-- The places of a scale table of k rows of n bytes, translated at issue (R257, R259, R270). -/
def State.scaleTable (s : State) (T : Team) (k n : Nat) (addr : Nat → Nat → Nat) : ScaleTable :=
  ⟨(List.range k).map fun i => (List.range n).map fun g =>
    (addr i g, match s.xlate T.die T.core T.asid (addr i g) with
      | .ok e => e.loc (addr i g)
      | _ => ⟨false, 0⟩), []⟩

/-- The entry reads its scale bytes, at their homes, after the accesses of every earlier entry of its stream (R200, R201);
none for a poisoned byte. -/
def State.readScales (s : State) (T : Team) (t : ScaleTable) : ScaleTable :=
  { t with bytes := t.places.map fun r => r.map fun x =>
      let p := s.readPlace T.die T.core T.asid x.1 x.2
      if s.placePoisoned p then Option.none else some (s.takeByte p) }

/-- A scale byte that an entry is to read lies in an array whose pass runs, or whose switch began before the word issued: the read
waits (R174, R248). -/
def State.scalesBusy (s : State) (T : Team) (e : MatrixEntry) : Bool :=
  e.unread && (e.ascales.places ++ e.bscales.places).any fun r => r.any fun x =>
    s.placeBusy e.born (s.readPlace T.die T.core T.asid x.1 x.2)

/-- An entry with its scale bytes read. -/
def State.readEntry (s : State) (T : Team) (e : MatrixEntry) : MatrixEntry :=
  { e with ascales := s.readScales T e.ascales, bscales := s.readScales T e.bscales }

/-- The address of the first poisoned scale byte an entry has read (R259, R277). -/
def MatrixEntry.poisonedScale (e : MatrixEntry) : Option Nat :=
  (((e.ascales.places ++ e.bscales.places).flatten.zip (e.ascales.bytes ++ e.bscales.bytes).flatten).find?
    (·.2.isNone)).map (·.1.1)

/-- A poisoned scale byte: no register changes, the fault is imprecise with the word's tag (R259, R277). -/
def streamPoison (s : State) (T : Team) (G : Group) (e : MatrixEntry) (va : Nat) : Out :=
  raiseImprecise (streamDone s T G e) (T.tag G e.spc) { kind := .memory, acc := 1, addr := va } e.off e.lpc.toNat 0

/-- A format block (R257, R270). -/
structure FormatBlock where
  afmt : Nat
  bfmt : Nat
  blk : Nat
  sfmt : Nat
  defer : Bool
  rnd : Nat
  resv : Nat
deriving DecidableEq, Repr

/-- The fields of a format block. -/
def formatOf (x : DWord) : FormatBlock :=
  { afmt := field x 0 6, bfmt := field x 6 6, blk := field x 12 2, sfmt := field x 14 2, defer := field x 16 1 = 1,
    rnd := field x 17 2, resv := field x 19 45 }

/-- Block length. -/
def FormatBlock.len (b : FormatBlock) : Nat := 16 * 2 ^ b.blk

/-- Scales are read per block (R254, R270). -/
def FormatBlock.scaled (b : FormatBlock) : Bool := b.sfmt = 0 && !b.defer

/-- Fields common to both users are legal. -/
def FormatBlock.legal (b : FormatBlock) : Bool := b.resv = 0 && decide (b.sfmt ≤ 1) && decide (b.blk ≤ 2)

/-- The scalar source of a field. -/
def srcReg : Src → SReg
  | .s r => r
  | _ => 0

/-! ## `v.amm` (R254 to R259) -/

/-- Segments of a tile under a format block (R254): how many, rows of each. -/
def segments (b : FormatBlock) (t : Tile) : Nat × Nat := if b.scaled then (t.rows / b.len, b.len) else (1, t.rows)

/-- Accumulators a tile fills (R246). -/
def accsOf (t : Tile) : Nat := (t.cols + 63) / 64

/-- `v.amm` (R256, R257, R259). -/
def execVAmm (f : LaneFields) (s : State) : Out :=
  laneReady s 0xC0 f fun T G e _ =>
    let n := bits f.func.toNat 0 3 + 1
    let r := srcReg f.e
    let fmtw := snapReg e.snap r
    let b := formatOf fmtw
    let sa := (snapReg e.snap (r + 1)).toNat
    let sb := (snapReg e.snap (r + 2)).toNat
    let tw := G.tget (BitVec.ofNat 4 (srcIx f.b))
    let t := tileOf tw
    let acc := dstIx f.d
    let segs := (segments b t).1
    let aAddr (v g : Nat) : Nat := (sa + 32 * v + g) % 2 ^ 64
    let bAddr (c g : Nat) : Nat := (sb + 32 * c + g) % 2 ^ 64
    let aAs := (List.range n).flatMap fun v => (List.range segs).map fun g => scaleAccess (aAddr v g)
    let bAs := (List.range t.cols).flatMap fun c => (List.range segs).map fun g => scaleAccess (bAddr c g)
    let as := if b.scaled then aAs ++ bAs else []
    let tileBad := t.rows = 0 || b.bfmt ≠ t.wfmt || (arrayFormat t.wfmt).isNone || (b.scaled && t.rows % b.len ≠ 0) ||
      decide (8 < acc + accsOf t) || decide (G.bud.a < acc + accsOf t)
    let mode := (T.array t.array).map (·.mode)
    if !e.allLanes then raiseLane s T G e { kind := .illegalConvergence }
    else if !s.calibrated T.die then raiseLane s T G e { kind := .notCalibrated }
    else if !b.legal || b.rnd ≠ 0 || (arrayFormat b.afmt).isNone then raiseLane s T G e { kind := .badFormatBlock }
    else if tileBad then raiseLane s T G e { kind := .tileBounds }
    else match firstCheck [s.checkPages T 1 as, s.checkRights T 1 { r := true } as] with
      | .pass =>
        if mode ≠ some .compute && mode ≠ some .toCompute then raiseLane s T G e { kind := .arrayBusy }
        else if G.streamFull then lanePass s T G .matrixRoom false
        else
          let table (k : Nat) (addr : Nat → Nat → Nat) : ScaleTable := if b.scaled then s.scaleTable T k segs addr else .none
          matrixIssue s T G e 0xC0 f
            (.amm acc ((List.range n).map fun v => G.vget (srcIx f.a + v)) tw fmtw G.rpt (bits f.func.toNat 3 2))
            (table n aAddr) (table t.cols bAddr)
      | c => laneStop s T G e c

/-- Largest row count whose counts are exact at a repeat (R241). -/
def exactLimit (repeats : Nat) : Nat :=
  match repeats with
  | 1 => 32
  | 2 => 45
  | 4 => 64
  | 8 => 90
  | _ => 128

/-- Effective bits × 10 of a repeat (R241). -/
def effectiveBits (repeats : Nat) : Nat :=
  match repeats with
  | 1 => 66
  | 2 => 71
  | 4 => 76
  | 8 => 81
  | _ => 86

/-- The repeats. -/
def repeatList : List Nat := [1, 2, 4, 8, 16]

/-- The repeat of a segment (R244). -/
def repeatOf (rpt : DWord) (rptField nAct : Nat) : Nat :=
  match rptField with
  | 1 => 1
  | 2 => 4
  | 3 => 16
  | _ =>
    let pin := field rpt 16 3
    let tgt := field rpt 8 8
    if pin ≠ 0 then 2 ^ (pin - 1)
    else if tgt = 0 then (repeatList.find? fun r => decide (nAct ≤ exactLimit r)).getD 16
    else (repeatList.find? fun r => decide (tgt ≤ effectiveBits r)).getD 16

/-- The activation element a tile row takes, none where it is driven as zero (R253). -/
def rowElement (t : Tile) (m : DupMap) (i : Nat) : Option Nat :=
  if !t.map || i < 368 then some i
  else if i - 368 < m.cnt then some (m.slots.getD (i - 368) 0) else none

/-- The code of an activation element of ph bits (R258). -/
def actCode (v : LaneVec) (ph i : Nat) : Nat := bits (elem v (i / 4)).toNat (ph * (i % 4)) ph

/-- The ph-bit two's complement integer an activation code drives (R236). -/
def actInteger (fmt ph code : Nat) : Nat :=
  if fmt = 0x23 then (let m := code % 8; if 8 ≤ code then (16 - m) % 16 else m) else code % 2 ^ ph

/-- Bit q of the weight of a row and column of a tile (R237). -/
def Team.weightBit (T : Team) (t : Tile) (pl i c q : Nat) : Bool :=
  let bit := pl * (t.col0 + c) + q
  bits (T.padByte (24576 * t.array + 64 * (t.row0 + i) + bit / 8)).toNat (bit % 8) 1 = 1

/-- The true count of a phase and plane (R238). -/
def Team.count (T : Team) (t : Tile) (pl : Nat) (acts : List (Nat × Nat)) (c p q : Nat) : Nat :=
  (acts.filter fun a => bits a.2 p 1 = 1 && T.weightBit t pl a.1 c q).length

/-- The converter's code of an ideal count of n rows: the largest j from 0 to 255 whose threshold (j − ½)/255 the count
reaches (R239). -/
def converterCode (k n : Nat) : Nat := min 255 ((510 * k + n) / (2 * n))

/-- x / y rounded to nearest, ties to even. -/
def roundDiv (x y : Nat) : Nat :=
  let q := x / y
  let r := 2 * (x % y)
  if r < y then q else if y < r then q + 1 else q + q % 2

/-- The count that the codes of the repeats snap to: their mean times n/255, rounded to even, within 0 to n (R240). -/
def snappedCount (codes : List Nat) (n : Nat) : Nat := min (roundDiv (codes.sum * n) (255 * codes.length)) n

/-- The weighted sum of the snapped counts (R258): the codes of the true counts within the exact limit, else free codes of
the column, phase, plane and repeat (R239 to R241, log 10). -/
def Team.columnSum (T : Team) (t : Tile) (ph pl : Nat) (acts : List (Nat × Nat)) (rep : Nat) (ctr c : Nat) : Int :=
  let n := acts.length
  ((List.range ph).flatMap fun p => (List.range pl).map fun q =>
    let codes := if n ≤ exactLimit rep then List.replicate rep (converterCode (T.count t pl acts c p q) n)
      else (List.range rep).map fun i => (Config.freeCode (ctr + ((c * ph + p) * pl + q) * 16 + i)).toNat
    let k := snappedCount codes n
    let w : Int := (2 ^ (p + q) : Nat)
    (if (p = ph - 1) != (q = pl - 1) then -w else w) * k).foldl (· + ·) 0

/-- A scale code, 127 where no table is read (R257, R270). -/
def scaleCode (l : List (List (Option Byte))) (i g : Nat) : Nat :=
  match l[i]? with
  | some r => (match r.getD g none with
    | some b => b.toNat
    | none => 127)
  | none => 127

/-- One pass: batch vector b over segment g, added to the accumulators (R258). -/
def Group.pass (G : Group) (T : Team) (acc : Nat) (act : LaneVec) (t : Tile) (fmt : FormatBlock) (rep : Nat)
    (ascales bscales : List (List (Option Byte))) (g b : Nat) (ctr : Nat) : Group :=
  match arrayFormat fmt.afmt, arrayFormat t.wfmt with
  | some (ph, _, ea), some (pl, _, ew) =>
    let len := (segments fmt t).2
    let m := ((T.array t.array).map (·.map)).getD ⟨0, []⟩
    let codes : List (Nat × Option Nat) := (List.range len).map fun k =>
      let i := len * g + k
      (i, (rowElement t m i).map fun x => actCode act ph x)
    let nan := fmt.afmt = 0x23 && codes.any fun p => p.2 = some 8
    let acts := codes.map fun p => (p.1, (p.2.map (actInteger fmt.afmt ph)).getD 0)
    (List.range t.cols).foldl (fun G c =>
      let sa := scaleCode ascales b g
      let sw := scaleCode bscales c g
      let i := T.columnSum t ph pl acts rep ctr c
      let term : Nat :=
        if sa = 255 || sw = 255 || nan then fmt32.nanBits
        else (fmt32.round (.fin (decide (i < 0)) i.natAbs ((sa : Int) + sw - 254 + ea + ew) false) .rne false).1
      let a := acc + c / 64
      let k := 64 * b + c % 64
      let v := G.aget a
      G.aset a (v.set k (BitVec.ofNat 32 (addF32 (elem v k).toNat term)))) G
  | _, _ => G

/-- Free codes one pass may use. -/
def passDraws (t : Tile) : Nat := 1024 * t.cols

/-- ARRAY_PASS_START (R238): the array is free and its switch into compute mode complete. Before its first pass the entry reads
its scale bytes (R257); a poisoned one ends the word before any pass (R259). -/
def execArrayPassStart (t g : Nat) (s : State) : Out :=
  match s.find t g with
  | none => .next s
  | some (T, G) =>
    match G.stream with
    | e :: _ =>
      (match e.op with
       | .amm _ _ tile _ _ _ =>
         let a := (tileOf tile).array
         match T.array a with
         | none => .next s
         | some A =>
           if e.started || A.pass.isSome || A.mode = .toCompute || s.scalesBusy T e then .next s
           else
             let e1 := if e.passes = 0 then s.readEntry T e else e
             match e1.poisonedScale with
             | some va => streamPoison s T G e va
             | none =>
               .next ((s.put T { G with stream := { e1 with started := true } :: G.stream.drop 1 }).modTeam T.uid fun T =>
                 T.modArray a fun A => { A with pass := some G.idx }).noteReady
       | _ => .next s)
    | [] => .next s

/-- ARRAY_PASS_COMPLETE (R238, R258): the tail accumulates; after the last pass the entry is performed. -/
def execArrayPassComplete (t g : Nat) (s : State) : Out :=
  match s.find t g with
  | none => .next s
  | some (T, G) =>
    match G.stream with
    | e :: _ =>
      (match e.op with
       | .amm acc acts tile fmtw rpt rf =>
         if !e.started then .next s
         else
           let tl := tileOf tile
           let fmt := formatOf fmtw
           let sg := segments fmt tl
           let n := acts.length
           let seg := e.passes / n
           let b := e.passes % n
           let G1 := G.pass T acc (acts.getD b []) tl fmt (repeatOf rpt rf sg.2) e.ascales.bytes e.bscales.bytes seg b s.freeCtr
           let s1 := (s.bump (passDraws tl)).modTeam T.uid fun T => T.modArray tl.array fun A => { A with pass := none }
           if e.passes + 1 < sg.1 * n then
             .next (s1.put T { G1 with stream := { e with started := false, passes := e.passes + 1 } :: G.stream.drop 1 })
           else .next (streamDone s1 T G1 e)
       | _ => .next s)
    | [] => .next s

/-! ## `v.amw` (R261) -/

/-- Replace bits of a byte. -/
def setBits (x : Byte) (lo len v : Nat) : Byte :=
  BitVec.ofNat 8 (x.toNat % 2 ^ lo + 2 ^ lo * (v % 2 ^ len) + 2 ^ (lo + len) * (x.toNat / 2 ^ (lo + len)))

/-- Write the weight of tile row i in column c (R237, R261). -/
def Team.setWeight (T : Team) (t : Tile) (pl i c v : Nat) : Team :=
  let bit := pl * (t.col0 + c)
  let off := 24576 * t.array + 64 * (t.row0 + i) + bit / 8
  T.setPad off (setBits (T.padByte off) (bit % 8) pl v)

/-- Keep what a written weight replaces in its window (R33). -/
def State.keepWeight (s : State) (T : Team) (t : Tile) (pl i c : Nat) : State :=
  s.keepPads T [24576 * t.array + 64 * (t.row0 + i) + pl * (t.col0 + c) / 8]

/-- `v.amw` (R261). -/
def execVAmw (f : LaneFields) (s : State) : Out :=
  laneReady s 0xC1 f fun T G e E =>
    let t := tileOf (G.tget (BitVec.ofNat 4 (srcIx f.b)))
    let c := E.src .n32 f.c 0
    let v := G.vget (srcIx f.a)
    if t.cols ≤ c then raiseLane s T G e { kind := .tileBounds }
    else match arrayFormat t.wfmt, T.array t.array with
      | some (pl, _, _), some A =>
        if A.mode ≠ .storage then raiseLane s T G e { kind := .arrayBusy, acc := 2 }
        else
          let ws := E.lanes.flatMap fun l => (List.range 4).filterMap fun j =>
            if 4 * l + j < t.rows then some (4 * l + j, bits (elem v l).toNat (pl * j) pl) else none
          let s0 := ws.foldl (fun s w => s.keepWeight T t pl w.1 c) s
          let s1 := s0.modTeam T.uid fun T => ws.foldl (fun T w => T.setWeight t pl w.1 c w.2) T
          let G1 := G.issued f none
          .next (s1.put T { G1 with stall := G1.stall + 1 })
      | _, _ => raiseLane s T G e { kind := .tileBounds }

/-! ## Accumulator words (R262, R263) -/

/-- An accumulator word at its turn: all lanes where it demands them, then its stream entry. -/
def accWord (s : State) (opc : Nat) (f : LaneFields) (all : Bool) (op : LaneEnv → MatrixOp) : Out :=
  laneReady s opc f fun T G e E =>
    if all && !e.allLanes then raiseLane s T G e { kind := .illegalConvergence }
    else if G.streamFull then lanePass s T G .matrixRoom false
    else matrixIssue s T G e opc f (op E) .none .none

/-- The lanes a `v.accmov` or `v.accld` acts on. -/
def accLanes (m : LaneMask) : List Nat := (lanesOf m).filter (· < 64)

/-- `v.accmov`: its roundings take their draws at issue (R97, R139, R263). -/
def execVAccmov (f : LaneFields) (s : State) : Out :=
  laneReady s 0xC2 f fun T G e E =>
    if G.streamFull then lanePass s T G .matrixRoom false
    else
      let n := if f.type ≠ .f32 && E.stochastic then (accLanes E.act).length else 0
      match s.takeDraws T G n e.spc e.off e.lpc with
      | .stop c => laneStop s T G e c
      | .load s1 G1 => lanePass s1 T G1 .collector G.yld
      | .ok s1 G1 ws bad =>
        drawFault (matrixIssue s1 T G1 e 0xC2 f (.accmov f E.act (srcIx f.a) (srcIx f.b) (G.rounding f.rnd) ws) .none .none)
          (T.tag G e.spc) bad e.off e.lpc.toNat

/-- `v.accld` (R263). -/
def execVAccld (f : LaneFields) (s : State) : Out :=
  accWord s 0xC3 f false fun E => .accld (dstIx f.d) (srcIx f.b) (E.G.vget (srcIx f.a)) E.act

/-- `v.accclr` (R263). -/
def execVAccclr (f : LaneFields) (s : State) : Out :=
  accWord s 0xC4 f true fun _ => .accclr (dstIx f.d) (bits f.func.toNat 0 3 + 1)

/-- `v.accscl` (R263). -/
def execVAccscl (f : LaneFields) (s : State) : Out :=
  accWord s 0xC5 f true fun E => .accscl (dstIx f.d) (snapReg E.snap (srcReg f.a)) (E.G.vget (srcIx f.b))

/-- The mode of a stored rounding. -/
def modeOf (rnd : Nat) (draws : List Word) (i : Nat) : Mode :=
  match rnd with
  | 0 => .rne
  | 1 => .rtz
  | _ => .sr (draws.getD i 0)

/-- What `v.accmov` writes (R263). -/
def Group.accmov (G : Group) (f : LaneFields) (act : LaneMask) (acc row rnd : Nat) (draws : List Word) : Group :=
  let v := G.aget acc
  let rs := (accLanes act).zipIdx.map fun p =>
    let x := (elem v (64 * row + p.1)).toNat
    if f.type = .f32 then (p.1, x, (0 : FFlags))
    else (p.1, (ElemType.ffmt f.type).round (fmt32.decode x) (modeOf rnd draws p.2) f.sat)
  G.writeF f f.type rs

/-- What `v.accscl` makes of one value (R263). -/
def scaledBy (sa sw x : Nat) : Nat :=
  if sa = 255 || sw = 255 then fmt32.nanBits
  else (fmt32.round ((fmt32.decode x).scale ((sa : Int) + sw - 254)) .rne false).1

/-- An accumulator entry takes effect (R263). -/
def Group.accPerform (G : Group) (op : MatrixOp) : Group :=
  match op with
  | .accmov f act acc row rnd draws => G.accmov f act acc row rnd draws
  | .accld acc row v act => G.aset acc (mergeLanes (G.aget acc) ((accLanes act).map fun l => (64 * row + l, elem v l)))
  | .accclr acc n => (List.range n).foldl (fun G i => G.aset (acc + i) (List.replicate 512 0)) G
  | .accscl acc sa v =>
    let old := G.aget acc
    G.aset acc ((List.range 512).map fun k =>
      BitVec.ofNat 32 (scaledBy (field sa (8 * (k / 64)) 8) ((elem v (k % 64)).toNat % 256) (elem old k).toNat))
  | _ => G

/-- The entry is an accumulator word's. -/
def MatrixOp.isAcc : MatrixOp → Bool
  | .accmov .. | .accld .. | .accclr .. | .accscl .. => true
  | _ => false

/-- ACC_ENTRY_PERFORM (R263): the entry at the head of the stream takes effect. -/
def execAccEntryPerform (t g : Nat) (s : State) : Out :=
  match s.find t g with
  | none => .next s
  | some (T, G) =>
    match G.stream with
    | e :: _ => if e.op.isAcc then .next (streamDone s T (G.accPerform e.op) e) else .next s
    | [] => .next s

end Sys2Proof.Machine
end

