-- ==== Sys2Proof/Machine/LanePred.lean ====
section
/-! DEFINITION. Compares, selects, moves, predicate words and the scalar writes `v.movs`, `v.ballot` (R106 to R110). -/
namespace Sys2Proof.Machine

/-- The predicate the D field names. -/
def LaneFields.dPred (f : LaneFields) : Fin 12 :=
  match f.d with
  | .p k => k
  | _ => 0

/-- A word that writes one bit of predicate D for each active lane. -/
def predOp (f : LaneFields) (bit : LaneEnv → Nat → Bool) : LaneOp :=
  { act := fun E G => let g := bit E; G.writeP (LaneFields.dPred f) E.act (maskOfLanes (E.lanes.filter g)) }

/-- The conditions of `v.cmp` (R106). -/
def icompare (a b : Int) (c : Nat) : Bool :=
  match c with
  | 0 => a = b
  | 1 => a ≠ b
  | 2 => a < b
  | 3 => a ≤ b
  | 4 => b < a
  | _ => b ≤ a

/-- `v.cmp` as an operation on the group. -/
def opCmp (f : LaneFields) : LaneOp :=
  predOp f fun E =>
    let a := E.src f.type f.a
    let b := E.src f.type f.b
    fun l => icompare (readInt f.type (a l)) (readInt f.type (b l)) (bits f.func.toNat 0 4)

/-- `v.cmp` (R106). -/
def execVCmp (f : LaneFields) (s : State) : Out := laneWord s 0x60 f (opCmp f)

/-- `v.fcmp` (R106). -/
def execVFcmp (f : LaneFields) (s : State) : Out :=
  laneWord s 0x61 f (predOp f fun E =>
    let a := E.fval f.type f.a
    let b := E.fval f.type f.b
    fun l => fcompare (a l) (b l) (bits f.func.toNat 0 4))

/-- `v.sel` as an operation on the group: a where P[k] XOR FUNC[4] is 1 (R107). -/
def opSel (f : LaneFields) : LaneOp :=
  mapOp f.type fun E =>
    let a := E.src f.type f.a
    let b := E.src f.type f.b
    let p := E.G.pget (predIx (bits f.func.toNat 0 4))
    let n : Bool := bits f.func.toNat 4 1 = 1
    fun l => if p.getLsbD l != n then a l else b l

/-- `v.sel` (R107). -/
def execVSel (f : LaneFields) (s : State) : Out := laneWord s 0x62 f (opSel f)

/-- A predicate word of two predicates named in FUNC (R108). -/
def pred2 (f : LaneFields) (op : LaneMask → LaneMask → LaneMask) : LaneOp :=
  { act := fun E G => G.writeP (LaneFields.dPred f) E.act
      (op (E.G.pget (predIx (bits f.func.toNat 0 4))) (E.G.pget (predIx (bits f.func.toNat 4 4)))) }

/-- `v.pand` (R108). -/
def execVPand (f : LaneFields) (s : State) : Out := laneWord s 0x63 f (pred2 f fun p q => p &&& q)

/-- `v.por` (R108). -/
def execVPor (f : LaneFields) (s : State) : Out := laneWord s 0x64 f (pred2 f fun p q => p ||| q)

/-- `v.pxor` (R108). -/
def execVPxor (f : LaneFields) (s : State) : Out := laneWord s 0x65 f (pred2 f fun p q => p ^^^ q)

/-- `v.pnot` (R108). -/
def execVPnot (f : LaneFields) (s : State) : Out := laneWord s 0x66 f (pred2 f fun p _ => ~~~p)

/-- `v.pmov` form 0: a ≠ 0 (R108). -/
def execVPmov (f : LaneFields) (s : State) : Out :=
  laneWord s 0x67 f (predOp f fun E => let a := E.src f.type f.a; fun l => a l ≠ 0)

/-- `v.pmov` form 1: a predicate into a vector (R108). -/
def execVPmovToVector (f : LaneFields) (s : State) : Out :=
  laneWord s 0x67 f (mapOp f.type fun E =>
    let p := E.G.pget (predIx (bits f.func.toNat 4 4))
    fun l => if p.getLsbD l then 1 else 0)

/-- `v.pmov` form 2: a copy of a predicate (R108). -/
def execVPmovPredCopy (f : LaneFields) (s : State) : Out := laneWord s 0x67 f (pred2 f fun _ q => q)

/-- `v.mov` (R107). -/
def execVMov (f : LaneFields) (s : State) : Out := laneWord s 0x68 f (bit1 f fun a => a)

/-- A pattern of a TYPE extended to a scalar register (R110). -/
def scalarOf (t : ElemType) (x : Nat) : DWord :=
  match t with
  | .i8 | .i16 | .i32 => (BitVec.ofNat t.width x).signExtend 64
  | _ => BitVec.ofNat 64 x

/-- A word that writes one scalar (R109). -/
def scalarOp (f : LaneFields) (val : LaneEnv → DWord) : LaneOp :=
  { late := true, act := fun E G => G.writeS f E.act (val E) }

/-- `v.movs.first` (R110). -/
def execVMovsFirst (f : LaneFields) (s : State) : Out :=
  laneWord s 0x69 f (scalarOp f fun E => scalarOf f.type (E.src f.type f.a (E.lanes.headD 0)))

/-- `v.movs.last` (R110). -/
def execVMovsLast (f : LaneFields) (s : State) : Out :=
  laneWord s 0x69 f (scalarOp f fun E => scalarOf f.type (E.src f.type f.a (E.lanes.getLastD 0)))

/-- `v.movs.at`: lane b mod 96, active or not (R110). -/
def execVMovsAt (f : LaneFields) (s : State) : Out :=
  laneWord s 0x69 f (scalarOp f fun E => scalarOf f.type (E.src f.type f.a (E.src .n32 f.b 0 % 96)))

/-- `v.ballot` (R110). -/
def execVBallot (f : LaneFields) (s : State) : Out :=
  laneWord s 0x6A f (scalarOp f fun E =>
    ((E.act &&& E.G.pget (predIx (bits f.func.toNat 0 4))).extractLsb' (32 * bits f.func.toNat 4 2) 32).setWidth 64)

end Sys2Proof.Machine
end

