-- ==== Sys2Proof/Machine/LaneConv.lean ====
section
/-! DEFINITION. Conversion and quantisation (R130 to R154). -/
namespace Sys2Proof.Machine

/-! ## Conversion (R143, R144) -/

/-- A value rounded to an integer of a TYPE, saturating (R144). -/
def toInteger (t : ElemType) (v : FVal) (m : Mode) : Nat × FFlags :=
  let lim (n : Bool) : Nat := intResult t true (if n then -(2 ^ 64 : Nat) else (2 ^ 64 : Nat))
  match v with
  | .nan => (0, fNV)
  | .inf n => (lim n, fNV)
  | .fin n k e s =>
    if k = 0 then (0, 0)
    else
      let r := roundAt k e 0 s m
      let i : Int := if n then -(r.1 : Int) else (r.1 : Int)
      if clampTo t i ≠ i then (lim n, fNV) else (intResult t false i, if r.2 then fNX else 0)

/-- One converted lane (R143). -/
def convertOne (f : LaneFields) (src : ElemType) (x : Nat) (m : Mode) : Nat × FFlags :=
  if src.isFloat then
    let v := (ElemType.ffmt src).decode x
    if f.type.isFloat then froundTo f.type f.sat m (v, 0) else toInteger f.type v m
  else if f.type.isFloat then froundTo f.type f.sat m (.ofInt (readInt src x), 0)
  else (intResult f.type f.sat (readInt src x), 0)

/-- The source TYPE of a `v.cvt` (R143). -/
def cvtSource (f : LaneFields) : ElemType := (ElemType.ofCode (bits f.func.toNat 0 4)).getD .b32

/-- `v.cvt` as an operation on the group; an integer to integer conversion rounds nothing. A float conversion with S = T, which R143
says copies and R139 does not name, counts as a rounding: under SR it takes one draw for each active lane (DESIGN CHOICE, log 40). -/
def opCvt (f : LaneFields) : LaneOp :=
  let o := roundOp f.type fun E => let a := E.src (cvtSource f) f.a; fun l m => convertOne f (cvtSource f) (a l) m
  if !(cvtSource f).isFloat && !f.type.isFloat then { o with draws := fun _ => 0 } else o

/-- `v.cvt` (R143). -/
def execVCvt (f : LaneFields) (s : State) : Out := laneWord s 0x70 f (opCvt f)

/-! ## Packing (R145) -/

/-- The field width of `v.pack` and `v.unpack`. -/
def packWidth (f : LaneFields) : Nat := 8 / 2 ^ bits f.func.toNat 0 2

/-- `v.pack` (R145). -/
def execVPack (f : LaneFields) (s : State) : Out :=
  laneWord s 0x71 f (mapOp .b32 fun E =>
    let w := packWidth f
    let q := (List.range 4).map fun r => E.G.vget (srcIx f.a + r)
    fun l => (q.zipIdx.map fun p => 2 ^ (w * p.2) * ((elem p.1 l).toNat % 2 ^ w)).foldl (· + ·) 0)

/-- `v.unpack` (R145). -/
def execVUnpack (f : LaneFields) (s : State) : Out :=
  laneWord s 0x72 f
    { act := fun E G =>
        let w := packWidth f
        let a := E.src .b32 f.a
        let ext (x : Nat) : Word := if bits f.func.toNat 2 1 = 1 then (BitVec.ofNat w x).signExtend 32 else BitVec.ofNat 32 x
        (List.range 4).foldl (fun G r => G.vmerge (dstIx f.d + r) (E.lanes.map fun l => (l, ext (bits (a l) (w * r) w)))) G }

/-! ## Block scale (R146) -/

/-- A counter of `st.q`, of 16 bits from `lo`, plus n, stopping at 0xFFFF (R141). -/
def countQ (q : DWord) (lo n : Nat) : DWord :=
  let x := field q lo 16
  BitVec.ofNat 64 (q.toNat - 2 ^ lo * x + 2 ^ lo * min 0xFFFF (x + n))

/-- The scale of a block: its code, whether it is an event, and the counter it adds to. -/
def blockScale (fmt : NFmt) (xs : List FVal) : Nat × Option Nat :=
  if xs.any (·.isNan) then (0xFF, some 32)
  else if xs.any (·.isInf) then (0xFE, some 16)
  else if xs.all (·.isZero) then (0, some 0)
  else
    let expos : List Int := xs.filterMap fun v => match v with
      | .fin _ m e _ => if m = 0 then none else some ((log2 m : Int) + e)
      | _ => none
    let c : Int := expos.foldl max (-100000) - fmt.emax + 127
    if 254 < c then (0xFE, some 16) else ((max c 0).toNat, none)

/-- The narrow format of FUNC[5:0]. -/
def funcFormat (f : LaneFields) : NFmt := (NFmt.ofCode (bits f.func.toNat 0 6)).getD .e8m0

/-- `v.bscale` (R146). -/
def execVBscale (f : LaneFields) (s : State) : Out :=
  laneWord s 0x73 f
    { late := true,
      act := fun E G =>
        let F := ElemType.ffmt f.type
        let span := if bits f.func.toNat 6 2 = 0 then 16 else 32
        let regs := if bits f.func.toNat 6 2 = 2 then [E.G.vget (srcIx f.a), E.G.vget (srcIx f.a + 1)] else [E.G.vget (srcIx f.a)]
        let value (v : LaneVec) (l : Nat) : FVal := F.decode ((elem v l).toNat % 2 ^ F.width)
        let blocks := (List.range (96 / span)).filterMap fun j =>
          let ls := E.lanes.filter fun l => l / span = j
          if ls.isEmpty then none else some (ls, blockScale (funcFormat f) (regs.flatMap fun v => ls.map (value v)))
        let G1 := G.vmerge (srcIx f.c) (blocks.flatMap fun b => b.1.map fun l => (l, BitVec.ofNat 32 b.2.1))
        let G2 := G1.writeP (LaneFields.dPred f) E.act (maskOfLanes (blocks.flatMap fun b => if b.2.2.isSome then b.1 else []))
        { G2 with q := blocks.foldl (fun q b => match b.2.2 with
            | some lo => countQ q lo 1
            | none => q) G2.q } }

/-! ## Quantise, dequantise, error feedback (R147 to R149) -/

/-- NaN as a code: the NaN code, or 0 with NV for an integer format (R147). -/
def nanAs (fmt : NFmt) : Nat × FFlags :=
  match fmt with
  | .int .. => (0, fNV)
  | _ => (fmt.nanCode, 0)

/-- The code of a value under a scale code (R147). -/
def quantise (fmt : NFmt) (y : FVal) (c : Nat) (m : Mode) (sat : Bool) : Nat × FFlags :=
  if y.isNan || c = 0xFF then nanAs fmt else fmt.round (y.scale (127 - c)) m sat

/-- `v.qnt` as an operation on the group. -/
def opQnt (f : LaneFields) : LaneOp :=
  { draws := laneDraws,
    act := fun E G =>
      let a := E.fval f.type f.a
      let b := E.src .n32 f.b
      G.writeF f .n32 (E.lanes.zipIdx.map fun p =>
        (p.1, quantise (funcFormat f) (a p.1) (b p.1 % 256) (E.mode p.2) f.sat)) }

/-- `v.qnt` (R147). -/
def execVQnt (f : LaneFields) (s : State) : Out := laneWord s 0x74 f (opQnt f)

/-- The value of a code under a scale code (R148). -/
def dequantise (fmt : NFmt) (code c : Nat) : FVal :=
  if c = 0xFF then .nan else (fmt.decode (code % 2 ^ fmt.width)).scale ((c : Int) - 127)

/-- `v.dqnt` (R148). That SAT replaces the infinity of an infinite code too, as R97 says of any infinite result, is a DESIGN CHOICE
(log 53): R148 gives that infinity and names SAT for the rounded case. -/
def execVDqnt (f : LaneFields) (s : State) : Out :=
  laneWord s 0x75 f (roundOp f.type fun E =>
    let a := E.src .b32 f.a
    let b := E.src .n32 f.b
    fun l m => froundTo f.type f.sat m (dequantise (funcFormat f) (a l) (b l % 256), 0))

/-- A code is an infinity of its format. -/
def NFmt.codeInf (fmt : NFmt) (code : Nat) : Bool := (fmt.decode code).isInf

/-- One lane of `v.qerr`: the code, the new error, the flags (R149). That SAT acts on the code only, and leaves an infinite
residual as it is, is a DESIGN CHOICE (log 53). -/
def quantiseError (fmt : NFmt) (a e : FVal) (c : Nat) (m : Mode) (sat : Bool) : Nat × Nat × FFlags :=
  let y := a.add e
  let q := quantise fmt y.1 c m sat
  if y.1.isNan || y.1.isInf || c = 0xFF || fmt.codeInf q.1 then (q.1, 0, y.2 ||| q.2)
  else
    let r := fmt32.round (y.1.add (dequantise fmt q.1 c).negate).1 .rne false
    (q.1, r.1, q.2 ||| r.2)

/-- `v.qerr` (R149). -/
def execVQerr (f : LaneFields) (s : State) : Out :=
  laneWord s 0x76 f
    { draws := laneDraws,
      act := fun E G =>
        let a := E.fval .f32 f.a
        let b := E.src .n32 f.b
        let c := E.fval .f32 f.c
        let rs := E.lanes.zipIdx.map fun p =>
          (p.1, quantiseError (funcFormat f) (a p.1) (c p.1) (b p.1 % 256) (E.mode p.2) f.sat)
        ((G.writeD f .n32 (rs.map fun r => (r.1, r.2.1))).vmerge (srcIx f.c)
          (rs.map fun r => (r.1, BitVec.ofNat 32 r.2.2.1))).raiseFlags (rs.foldl (fun fl r => fl ||| r.2.2.2) 0) }

/-! ## Hadamard rotation (R150, R151) -/

/-- The signs of R151 from a generator state, true for −1. -/
def signBits : Nat → Word → List Bool
  | 0, _ => []
  | n + 1, x =>
    let x1 := x ^^^ (x <<< 13)
    let x2 := x1 ^^^ (x1 >>> 17)
    let x3 := x2 ^^^ (x2 <<< 5)
    x3.msb :: signBits n x3

/-- The 384 signs of a seed (R151). -/
def rotationSigns (seed : Word) : List Bool := signBits 384 (if seed = 0 then 0x5A17C3E1 else seed)

/-- The parity of i AND j: the sign of H[i][j] (R150). -/
def hadamardNeg (i j : Nat) : Bool := (List.range 6).foldl (fun p k => p != ((i &&& j) / 2 ^ k % 2 = 1)) false

/-- The sum over a block of signed values, exact; infinities as R150 has them; a sum of terms all −0 is −0. -/
def signedSum (xs : List (FVal × Bool)) : FVal × FFlags :=
  let ys := xs.map fun p => if p.2 then p.1.negate else p.1
  if ys.any (·.isNan) then (.nan, 0)
  else if ys.any (·.isInf) then
    let n := ys.any fun v => v.isInf && v.neg
    if n && (ys.any fun v => v.isInf && !v.neg) then (.nan, fNV) else (.inf n, 0)
  else if ys.all fun v => v.isZero && v.neg then (.fin true 0 0 false, 0)
  else
    let t := ys.foldl (fun (acc : Int) v => acc + v.scaled (-149)) 0
    (.fin (decide (t < 0)) t.natAbs (-149) false, 0)

/-- One output of the rotation before rounding (R150); a sum of exactly zero is -0 where every term, its sign s among its factors,
is -0, else +0 (DESIGN CHOICE, log 40). -/
def rotateOne (inv : Bool) (xs : List FVal) (signs : List Bool) (k i : Nat) : FVal × FFlags :=
  let ss := (signs.drop (64 * k)).take 64
  let t := signedSum (((xs.drop (64 * k)).take 64).zipIdx.map fun p =>
    (p.1, hadamardNeg i p.2 != ss.getD (if inv then i else p.2) false))
  (t.1.scale (-3), t.2)

/-- The 384 elements of a register quad, element 4l + r first by n (R142). -/
def LaneEnv.quadBits (E : LaneEnv) (i : Nat) : List Nat :=
  let q := (List.range 4).map fun r => E.G.vget (i + r)
  (List.range 384).map fun n => (elem (q.getD (n % 4) []) (n / 4)).toNat

/-- Write the 384 elements of a register quad. -/
def Group.writeQuad (G : Group) (i : Nat) (xs : List Nat) : Group :=
  (List.range 4).foldl (fun G r => G.vset (i + r) ((List.range 96).map fun l => BitVec.ofNat 32 (xs.getD (4 * l + r) 0))) G

/-- `v.hrot` (R150). -/
def execVHrot (f : LaneFields) (s : State) : Out :=
  laneWord s 0x77 f
    { late := true, all := true, draws := fun E => if E.stochastic then 384 else 0,
      act := fun E G =>
        let xs := (E.quadBits (srcIx f.a)).map fmt32.decode
        let signs := rotationSigns (BitVec.ofNat 32 (E.src .i32 f.b 0))
        let inv : Bool := bits f.func.toNat 0 1 = 1
        let rs := (List.range 384).map fun n =>
          froundTo .f32 f.sat (E.mode n) (rotateOne inv xs signs (n / 64) (n % 64))
        (G.writeQuad (dstIx f.d) (rs.map (·.1))).raiseFlags (rs.foldl (fun fl r => fl ||| r.2) 0) }

/-! ## Outlier split (R152, R153) -/

/-- Insert a channel by falling magnitude, ties by rising number. -/
def insertOutlier (p : Nat × Nat) : List (Nat × Nat) → List (Nat × Nat)
  | [] => [p]
  | q :: l => if q.2 < p.2 then p :: q :: l else q :: insertOutlier p l

/-- The split channels, ascending, and whether more than 16 qualified (R152). -/
def outliers (xs : List Nat) (theta : FVal) : List Nat × Bool :=
  let q := ((xs.take 368).zipIdx.filter fun p => theta.lt (fmt32.decode p.1).abs).map fun p => (p.2, p.1 % 2 ^ 31)
  if 16 < q.length then
    let top := ((q.foldl (fun l p => insertOutlier p l) []).take 16).map (·.1)
    ((List.range 368).filter top.contains, true)
  else (q.map (·.1), false)

/-- round_rne(x / 2, f32) (R152). -/
def halve (x : Nat) : Nat × FFlags := fmt32.round ((fmt32.decode x).scale (-1)) .rne false

/-- What an osplit computes: the 384 outputs, the channels, overflow, flags. -/
def splitQuad (xs : List Nat) (theta : FVal) : List Nat × List Nat × Bool × FFlags :=
  let r := outliers xs theta
  let keep := (xs.take 368).zipIdx.map fun p => if r.1.contains p.2 then halve p.1 else (p.1, (0 : FFlags))
  let dup := (List.range 16).map fun j => match r.1[j]? with
    | some n => halve (xs.getD n 0)
    | none => (0, (0 : FFlags))
  ((keep ++ dup).map (·.1), r.1, r.2, (keep ++ dup).foldl (fun fl p => fl ||| p.2) 0)

/-- θ of an `v.osplit` (R45, R152). -/
def LaneEnv.theta (E : LaneEnv) : FVal := fmt32.decode (E.src .f32 E.f.b 0)

/-- `v.osplit` on the group (R152). -/
def opOsplit (f : LaneFields) : LaneOp :=
  { late := true, all := true,
    act := fun E G =>
      let r := splitQuad (E.quadBits (srcIx f.a)) E.theta
      let G1 := (G.writeQuad (dstIx f.d) r.1).raiseFlags r.2.2.2
      let G2 := if bits f.func.toNat 6 1 = 1 then
          G1.writeP (predIx (bits f.func.toNat 2 4)) E.act (if r.2.2.1 then E.act else 0)
        else G1
      if r.2.2.1 then { G2 with q := countQ G2.q 48 1 } else G2 }

/-- `v.osplit`: the group's part, then the team's map slot (R152, R153). -/
def execVOsplit (f : LaneFields) (s : State) : Out :=
  laneReady s 0x78 f fun T G e E =>
    if E.act ≠ BitVec.allOnes 96 then raiseLane s T G e { kind := .illegalConvergence }
    else
      let chans := (splitQuad (E.quadBits (srcIx f.a)) E.theta).2.1
      let slot : DupMap := { cnt := chans.length, slots := (List.range 16).map fun j => chans.getD j 0 }
      let s1 := s.modTeam T.uid fun T => { T with maps := assocSet T.maps (bits f.func.toNat 0 2) slot }
      .next (s1.put T (((opOsplit f).act E G).issued f ((opOsplit f).busy 0x78 f E)))

/-! ## Random words (R154) -/

/-- `v.rand` (R154). -/
def execVRand (f : LaneFields) (s : State) : Out :=
  laneWord s 0x79 f
    { draws := fun E => E.lanes.length,
      act := fun E G =>
        let val (w : Word) : Nat :=
          if f.type.isFloat then (fmt32.round (.fin false (w.toNat / 256) (-24) false) .rne false).1 else w.toNat
        G.writeD f f.type (E.lanes.zipIdx.map fun p => (p.1, val (E.draw p.2))) }

end Sys2Proof.Machine
end

