-- ==== Sys2Proof/Machine/LaneFloat.lean ====
section
/-! DEFINITION. The floating-point lane words (R96 to R105). -/
namespace Sys2Proof.Machine

/-- `v.fadd` as an operation on the group. -/
def opFadd (f : LaneFields) : LaneOp := float2 f FVal.add

/-- `v.fadd` (R101). -/
def execVFadd (f : LaneFields) (s : State) : Out := laneWord s 0x30 f (opFadd f)

/-- `v.fsub` (R101). -/
def execVFsub (f : LaneFields) (s : State) : Out := laneWord s 0x31 f (float2 f fun a b => a.add b.negate)

/-- `v.fmul` as an operation on the group. -/
def opFmul (f : LaneFields) : LaneOp := float2 f FVal.mul

/-- `v.fmul` (R101). -/
def execVFmul (f : LaneFields) (s : State) : Out := laneWord s 0x32 f (opFmul f)

/-- `v.fma` (R101). -/
def execVFma (f : LaneFields) (s : State) : Out := laneWord s 0x33 f (float3 f FVal.fma)

/-- `v.fms` (R101). -/
def execVFms (f : LaneFields) (s : State) : Out := laneWord s 0x34 f (float3 f fun a b c => a.fma b c.negate)

/-- `v.fmin` (R105). -/
def execVFmin (f : LaneFields) (s : State) : Out := laneWord s 0x35 f (bit2 f ((ElemType.ffmt f.type).minmax false))

/-- `v.fmax` as an operation on the group. -/
def opFmax (f : LaneFields) : LaneOp := bit2 f ((ElemType.ffmt f.type).minmax true)

/-- `v.fmax` (R105). -/
def execVFmax (f : LaneFields) (s : State) : Out := laneWord s 0x36 f (opFmax f)

/-- `v.frcp` (R101, R102). -/
def execVFrcp (f : LaneFields) (s : State) : Out := laneWord s 0x37 f (float1 f fun a => (FVal.ofInt 1).div a)

/-- `v.frsq` (R101, R102). -/
def execVFrsq (f : LaneFields) (s : State) : Out := laneWord s 0x38 f (float1 f FVal.rsqrt)

/-- `v.fsqrt` (R101, R102). -/
def execVFsqrt (f : LaneFields) (s : State) : Out := laneWord s 0x39 f (float1 f FVal.sqrt)

/-- `v.fexp2` (R101, R102). -/
def execVFexp2 (f : LaneFields) (s : State) : Out := laneWord s 0x3A f (float1 f FVal.exp2)

/-- `v.flog2` (R101, R102). -/
def execVFlog2 (f : LaneFields) (s : State) : Out := laneWord s 0x3B f (float1 f FVal.log2)

/-- `v.fsin` (R101, R102). -/
def execVFsin (f : LaneFields) (s : State) : Out := laneWord s 0x3C f (float1 f FVal.sinPi)

/-- `v.fcos` (R101, R102). -/
def execVFcos (f : LaneFields) (s : State) : Out := laneWord s 0x3D f (float1 f FVal.cosPi)

/-- `v.fdivs` (R101, R102). -/
def execVFdivs (f : LaneFields) (s : State) : Out := laneWord s 0x3E f (float2 f FVal.div)

/-- `v.ffloor` (R103). -/
def execVFfloor (f : LaneFields) (s : State) : Out :=
  laneWord s 0x3F f (bit1 f fun a => (ElemType.ffmt f.type).integral a .floor)

/-- `v.fceil` (R103). -/
def execVFceil (f : LaneFields) (s : State) : Out :=
  laneWord s 0x40 f (bit1 f fun a => (ElemType.ffmt f.type).integral a .ceil)

/-- `v.ftrunc` (R103). -/
def execVFtrunc (f : LaneFields) (s : State) : Out :=
  laneWord s 0x41 f (bit1 f fun a => (ElemType.ffmt f.type).integral a .trunc)

/-- `v.fround` (R103). -/
def execVFround (f : LaneFields) (s : State) : Out :=
  laneWord s 0x42 f (bit1 f fun a => (ElemType.ffmt f.type).integral a .nearest)

/-- `v.fclass`: a natural 32-bit value (R104). -/
def execVFclass (f : LaneFields) (s : State) : Out :=
  laneWord s 0x43 f (mapOp .n32 fun E => let a := E.src f.type f.a; fun l => (ElemType.ffmt f.type).classOf (a l))

/-- `v.fscale`: B is read as i32 (R101, R102). -/
def execVFscale (f : LaneFields) (s : State) : Out :=
  laneWord s 0x44 f (roundOp f.type fun E =>
    let a := E.fval f.type f.a
    let b := E.src .i32 f.b
    fun l m => froundTo f.type f.sat m ((a l).scale (readInt .i32 (b l)), 0))

/-- `v.ffrac` (R101, R102). -/
def execVFfrac (f : LaneFields) (s : State) : Out := laneWord s 0x45 f (float1 f FVal.frac)

end Sys2Proof.Machine
end

