-- ==== Sys2Proof/Machine/LaneInt.lean ====
section
/-! DEFINITION. The integer lane words (R99, R100). -/
namespace Sys2Proof.Machine

/-- `v.add` as an operation on the group (R99). -/
def opAdd (f : LaneFields) : LaneOp := int2 f fun a b => a + b

/-- `v.add` (R99). -/
def execVAdd (f : LaneFields) (s : State) : Out := laneWord s 0x01 f (opAdd f)

/-- `v.sub` (R99). -/
def execVSub (f : LaneFields) (s : State) : Out := laneWord s 0x02 f (int2 f fun a b => a - b)

/-- `v.mul` (R99). -/
def execVMul (f : LaneFields) (s : State) : Out := laneWord s 0x03 f (int2 f fun a b => a * b)

/-- `v.mulh`: floor(a × b / 2^w) (R99). -/
def execVMulh (f : LaneFields) (s : State) : Out :=
  laneWord s 0x04 f (int2 f fun a b => a * b / (2 ^ f.type.width : Nat))

/-- `v.mad` (R99). -/
def execVMad (f : LaneFields) (s : State) : Out :=
  laneWord s 0x05 f (mapOp f.type fun E =>
    let a := E.src f.type f.a
    let b := E.src f.type f.b
    let c := E.src f.type f.c
    fun l => intResult f.type f.sat (readInt f.type (a l) * readInt f.type (b l) + readInt f.type (c l)))

/-- A carry word: the sum and the carry bit of each lane (R100). -/
def carryOp (f : LaneFields) (op : Int → Int → Int → Int) (carry : Int → Bool) : LaneOp :=
  { act := fun E G =>
      let a := E.src f.type f.a
      let b := E.src f.type f.b
      let k := predIx (bits f.func.toNat 0 4)
      let p := E.G.pget k
      let t (l : Nat) : Int := op (a l) (b l) (if p.getLsbD l then 1 else 0)
      (G.writeD f f.type (E.lanes.map fun l => (l, intResult f.type false (t l)))).writeP k E.act
        (maskOfLanes (E.lanes.filter fun l => carry (t l))) }

/-- `v.addc` (R100). -/
def execVAddc (f : LaneFields) (s : State) : Out :=
  laneWord s 0x06 f (carryOp f (fun a b c => a + b + c) fun t => decide (2 ^ 32 ≤ t))

/-- `v.subb` (R100). -/
def execVSubb (f : LaneFields) (s : State) : Out :=
  laneWord s 0x07 f (carryOp f (fun a b c => a - b - c) fun t => decide (t < 0))

/-- `v.min` (R99). -/
def execVMin (f : LaneFields) (s : State) : Out := laneWord s 0x08 f (int2 f fun a b => min a b)

/-- `v.max` (R99). -/
def execVMax (f : LaneFields) (s : State) : Out := laneWord s 0x09 f (int2 f fun a b => max a b)

/-- `v.abs` (R99). -/
def execVAbs (f : LaneFields) (s : State) : Out := laneWord s 0x0A f (int1 f fun a => a.natAbs)

/-- `v.neg` (R99). -/
def execVNeg (f : LaneFields) (s : State) : Out := laneWord s 0x0B f (int1 f fun a => -a)

/-- `v.and` (R99). -/
def execVAnd (f : LaneFields) (s : State) : Out := laneWord s 0x0C f (bit2 f fun a b => a &&& b)

/-- `v.or` (R99). -/
def execVOr (f : LaneFields) (s : State) : Out := laneWord s 0x0D f (bit2 f fun a b => a ||| b)

/-- `v.xor` (R99). -/
def execVXor (f : LaneFields) (s : State) : Out := laneWord s 0x0E f (bit2 f fun a b => a ^^^ b)

/-- `v.not` (R99). -/
def execVNot (f : LaneFields) (s : State) : Out := laneWord s 0x0F f (bit1 f fun a => 2 ^ f.type.width - 1 - a)

/-- `v.andn` (R99). -/
def execVAndn (f : LaneFields) (s : State) : Out :=
  laneWord s 0x10 f (bit2 f fun a b => a &&& (2 ^ f.type.width - 1 - b))

/-- `v.shl` as an operation on the group: the count modulo w (R99). -/
def opShl (f : LaneFields) : LaneOp := bit2 f fun a b => a * 2 ^ (b % f.type.width) % 2 ^ f.type.width

/-- `v.shl` (R99). -/
def execVShl (f : LaneFields) (s : State) : Out := laneWord s 0x11 f (opShl f)

/-- `v.shr` (R99). -/
def execVShr (f : LaneFields) (s : State) : Out := laneWord s 0x12 f (bit2 f fun a b => a / 2 ^ (b % f.type.width))

/-- `v.sar` (R99). -/
def execVSar (f : LaneFields) (s : State) : Out :=
  laneWord s 0x13 f (bit2 f fun a b => ((BitVec.ofNat f.type.width a).sshiftRight (b % f.type.width)).toNat)

/-- The length of a bit field from off, of asked width wid (R100). -/
def fieldLen (off wid : Nat) : Nat := min wid (32 - off)

/-- `v.bfe` (R100). -/
def execVBfe (f : LaneFields) (s : State) : Out :=
  laneWord s 0x14 f (mapOp f.type fun E =>
    let a := E.src f.type f.a
    let b := E.src f.type f.b
    let c := E.src f.type f.c
    fun l =>
      let off := bits (b l) 0 6
      let n := fieldLen off (bits (c l) 0 6)
      let x := bits (a l) off n
      if n = 0 then 0 else if f.type.isSigned then ((BitVec.ofNat n x).signExtend 32).toNat else x)

/-- `v.bfi` (R100). -/
def execVBfi (f : LaneFields) (s : State) : Out :=
  laneWord s 0x15 f (mapOp f.type fun E =>
    let a := E.src f.type f.a
    let b := E.src f.type f.b
    let c := E.src f.type f.c
    let e := E.src f.type f.e
    fun l =>
      let off := bits (c l) 0 6
      let n := fieldLen off (bits (e l) 0 6)
      let x := a l
      if n = 0 then x else x % 2 ^ off + 2 ^ off * bits (b l) 0 n + x / 2 ^ (off + n) * 2 ^ (off + n))

/-- `v.popc` (R99). -/
def execVPopc (f : LaneFields) (s : State) : Out := laneWord s 0x16 f (bit1 f fun a => popCount f.type.width a)

/-- `v.clz` (R99). -/
def execVClz (f : LaneFields) (s : State) : Out := laneWord s 0x17 f (bit1 f fun a => leadingZeros f.type.width a)

/-- Bits [n-1:0] in reverse order. -/
def reverseBits : Nat → Nat → Nat
  | 0, _ => 0
  | n + 1, a => a % 2 * 2 ^ n + reverseBits n (a / 2)

/-- `v.brev` (R99). -/
def execVBrev (f : LaneFields) (s : State) : Out := laneWord s 0x18 f (bit1 f fun a => reverseBits f.type.width a)

/-- `v.sad`: |a − b| added to the natural 32-bit c; the result is a natural 32-bit value at every TYPE (R100). -/
def execVSad (f : LaneFields) (s : State) : Out :=
  laneWord s 0x19 f (mapOp .n32 fun E =>
    let a := E.src f.type f.a
    let b := E.src f.type f.b
    let c := E.src .n32 f.c
    fun l => intResult .n32 f.sat ((c l : Int) + (readInt f.type (a l) - readInt f.type (b l)).natAbs))

end Sys2Proof.Machine
end

