-- ==== Sys2Proof/Machine/LaneFused.lean ====
section
/-! DEFINITION. Fusion of adjacent lane words (R111, R112, R155). -/
namespace Sys2Proof.Machine

/-- The words that can stand in a fused run. -/
inductive FuseKind where
  | fmul | fadd | fmax | cmp | sel | shl | add | cvt | qnt
deriving DecidableEq, Repr

/-- A word of a fused run. -/
structure FuseWord where
  entry : QEntry
  kind : FuseKind
  opc : Nat
  f : LaneFields
  op : LaneOp

/-- A queue entry as a fusible word. -/
def fuseWord (e : QEntry) : Option FuseWord :=
  match e.fetch with
  | .fault .. => none
  | .word w =>
    match decodeLane w with
    | .ok (.vFmul f) => some ⟨e, .fmul, 0x32, f, opFmul f⟩
    | .ok (.vFadd f) => some ⟨e, .fadd, 0x30, f, opFadd f⟩
    | .ok (.vFmax f) => some ⟨e, .fmax, 0x36, f, opFmax f⟩
    | .ok (.vCmp f) => some ⟨e, .cmp, 0x60, f, opCmp f⟩
    | .ok (.vSel f) => some ⟨e, .sel, 0x62, f, opSel f⟩
    | .ok (.vShl f) => some ⟨e, .shl, 0x11, f, opShl f⟩
    | .ok (.vAdd f) => some ⟨e, .add, 0x01, f, opAdd f⟩
    | .ok (.vCvt f) => some ⟨e, .cvt, 0x70, f, opCvt f⟩
    | .ok (.vQnt f) => some ⟨e, .qnt, 0x74, f, opQnt f⟩
    | _ => none

/-- The rows of the table of R111. -/
def fuseRow : List FuseKind → Bool
  | [.fmul, .fadd] | [.cmp, .sel] | [.shl, .add] | [.cvt, .qnt] | [.fmul, .fadd, .fmax] => true
  | _ => false

/-- A source names the vector register or the latch a word writes. -/
def readsResult (p : LaneFields) (x : Src) : Bool :=
  match x with
  | .v i => !p.wbs && p.d = .v i
  | .l k => p.lat.toNat = k.val + 1
  | _ => false

/-- The link between two words of a run (R111, R155). -/
def linked (p q : FuseWord) : Bool :=
  match q.kind with
  | .sel => p.f.d = .p (predIx (bits q.f.func.toNat 0 4))
  | .qnt => !p.f.wbs && decide (p.f.d.toField < 256) && decide (q.f.a.toField = p.f.d.toField)
  | _ => readsResult p.f q.f.a || readsResult p.f q.f.b

/-- Two adjacent words fuse: one `vrun`, one TYPE, the same guards, a link, no STALL or YLD before the last (R111). -/
def fusePair (p q : FuseWord) : Bool :=
  p.entry.run = q.entry.run && p.f.type = q.f.type && p.f.ga = q.f.ga && p.f.gb = q.f.gb && p.f.stall = 0 && !p.f.yld &&
    linked p q

/-- The first n entries of a queue as a fused run (R111). -/
def fusePlan (G : Group) (n : Nat) : Option (List FuseWord) :=
  let ws := (G.queue.take n).filterMap fuseWord
  if ws.length = n && fuseRow (ws.map (·.kind)) && ((ws.zip (ws.drop 1)).all fun p => fusePair p.1 p.2) &&
      ws.all (fun w => (laneIllegal G.bud (w.f.toRaw w.opc)).isNone) then some ws
  else none

/-- The words one after another, each on what the last left, the draws in word order (R112). -/
def runFused (T : Team) : List FuseWord → List Word → Group → Group
  | [], _, G => G
  | w :: l, ds, G =>
    let E := laneEnv T G w.entry w.f
    let n := w.op.draws E
    runFused T l (ds.drop n) ((w.op.act { E with draws := ds.take n } G).issued w.f none)

/-- The draws of a run: its words draw as their rounding and their lanes say, which no earlier word of the run changes. -/
def fusedDraws (T : Team) (G : Group) (ws : List FuseWord) : Nat :=
  (ws.map fun w => w.op.draws (laneEnv T G w.entry w.f)).sum

/-- FUSED_RUN: two or three fusible words issue as one operation; every access and every fault of it names the first word,
and no word has changed anything where a check fails (R111, R112). -/
def execFusedRun (n : Nat) (s : State) : Out :=
  match s.current with
  | none => .next s
  | some (T, G) =>
    match G.queue, fusePlan G n with
    | e :: _, some ws =>
      if ws.any fun w => G.collectorWaits (w.f.toRaw w.opc) then lanePass s T G .collector G.yld
      else match s.takeDraws T G (fusedDraws T G ws) e.spc e.off e.lpc with
        | .stop c => laneStop s T G e c
        | .load s1 G1 => lanePass s1 T G1 .collector G.yld
        | .ok s1 G1 ds bad =>
          drawFault (.next (s1.put T (runFused T ws ds G1))) (T.tag G e.spc) bad e.off e.lpc.toNat
    | _, _ => .next s

/-- The run at the head of a queue, the longest first (R111). Where a third word of the row of three is illegal, the first
two still fuse: the model's choice, R111 gives both rows (log 53). -/
def fusible (G : Group) : Option Nat :=
  if G.queue.length < 2 then none
  else if (fusePlan G 3).isSome then some 3 else if (fusePlan G 2).isSome then some 2 else none

end Sys2Proof.Machine
end

