-- ==== Sys2Proof/Machine/Matrix.lean ====
section
/-! DEFINITION. The digital matrix path (R265 to R278) and batches (R279, R280). -/
namespace Sys2Proof.Machine

/-! ## Fragments (R267) -/

/-- Reduction depth of a word (R266). -/
def mmaDepth : ElemType → Nat
  | .f32 => 8
  | .narrow => 32
  | _ => 16

/-- Element (i, k) of an A or B fragment of depth K: K/4 elements of 256/K bits in two registers (R267). -/
def fragment (regs : List LaneVec) (depth i k : Nat) : Nat :=
  let per := depth / 4
  let w := 256 / depth
  let e := k % per
  bits (elem (regs.getD (e / (32 / w)) []) (4 * i + k / per)).toNat (w * (e % (32 / w))) w

/-- The register and lane of C (m, n). -/
def cPlace (m n : Nat) : Nat × Nat := (n % 6, 4 * m + n / 6)

/-- The value of a fragment element under its TYPE or format code (R272). -/
def fragValue (t : ElemType) (code x : Nat) : FVal :=
  if t = .narrow then ((NFmt.ofCode code).getD .e8m0).decode x else (ElemType.ffmt t).decode x

/-! ## Chunks (R273, R274) -/

/-- The exact value of a chunk: NaN, an infinity, or the exact sum, −0 only of products that are all −0. -/
def chunkSum (ps : List FVal) : FVal :=
  if ps.any FVal.isNan then .nan
  else
    let infs := ps.filter FVal.isInf
    if infs.any FVal.neg && infs.any (fun x => !x.neg) then .nan
    else match infs, ps with
      | x :: _, _ => x
      | [], [] => .fin false 0 0 false
      | [], x :: r => r.foldl FVal.addFin x

/-- One rounding of x + t into binary32 (R273). -/
def chunkAdd (x : Nat) (t : FVal) (m : Mode) : Nat := (fmt32.round ((fmt32.decode x).add t).1 m false).1

/-- A scale byte, 127 where no table is read. -/
def mmaScale (l : List (List (Option Byte))) (i g : Nat) : Nat := scaleCode l i g

/-- Block of a chunk (R270). -/
def chunkBlock (b : FormatBlock) (h : Nat) : Nat := if b.len ≤ 32 then 16 * h / b.len else 0

/-- The formats of the operands: codes of a narrow word. -/
def mmaCodes (fmt : DWord) : Nat × Nat := ((formatOf fmt).afmt, (formatOf fmt).bfmt)

/-- The new C (m, n) of a `v.mma` (R273). -/
def mmaElement (t : ElemType) (a b : List LaneVec) (fmt : DWord) (as bs : List (List (Option Byte))) (draws : List Word)
    (m n x : Nat) : Nat :=
  let depth := mmaDepth t
  let blk := formatOf fmt
  let codes := mmaCodes fmt
  let nch := (depth + 15) / 16
  (List.range nch).foldl (fun x h =>
    let ks := (List.range (min 16 depth)).map fun k => 16 * h + k
    let ps := ks.map fun k => ((fragValue t codes.1 (fragment a depth m k)).mul (fragValue t codes.2 (fragment b depth n k))).1
    let sa := mmaScale as m (chunkBlock blk h)
    let sb := mmaScale bs n (chunkBlock blk h)
    let v := if sa = 255 || sb = 255 then .nan else (chunkSum ps).scale ((sa : Int) + sb - 254)
    let mode := if t = .narrow then modeOf blk.rnd draws ((24 * m + n) * nch + h) else .rne
    chunkAdd x v mode) x

/-- Every (m, n) of the output. -/
def cIndices : List (Nat × Nat) := (List.range 24).flatMap fun m => (List.range 24).map fun n => (m, n)

/-- Write the C registers from D (R267): `stride` registers apart, `ofs` into each. -/
def Group.writeC (G : Group) (d stride ofs : Nat) (val : Nat → Nat → Nat) : Group :=
  (List.range 6).foldl (fun G r =>
    G.vset (d + stride * r + ofs) (mergeLanes (G.vget (d + stride * r + ofs)) (cIndices.filterMap fun p =>
      let c := cPlace p.1 p.2
      if c.1 = r then some (c.2, BitVec.ofNat 32 (val p.1 p.2)) else none))) G

/-- The old C (m, n), +0 under `.nacc`. -/
def Group.readC (G : Group) (nacc : Bool) (d stride ofs m n : Nat) : Nat :=
  if nacc then 0
  else let c := cPlace m n; (elem (G.vget (d + stride * c.1 + ofs)) c.2).toNat

/-- The effect of a `v.mma` entry (R271, R273). -/
def Group.mma (G : Group) (t : ElemType) (func : BitVec 8) (d : Nat) (a b : List LaneVec) (fmt : DWord)
    (as bs : List (List (Option Byte))) (draws : List Word) : Group :=
  let old := G
  G.writeC d 1 0 fun m n => mmaElement t a b fmt as bs draws m n (old.readC (bits func.toNat 0 1 = 1) d 1 0 m n)

/-- Real or imaginary part of a complex element (R267). -/
def complexPart (regs : List LaneVec) (imag : Bool) (i k : Nat) : FVal :=
  let x := (elem (regs.getD (k % 2) []) (4 * i + k / 2)).toNat
  fmtB16.decode (if imag then x / 2 ^ 16 else x % 2 ^ 16)

/-- The chunk of the real or the imaginary result of a `v.mmac` (R275). -/
def mmacChunk (func : BitVec 8) (a b : List LaneVec) (imag : Bool) (m n : Nat) : FVal :=
  let ca : Bool := bits func.toNat 1 1 = 1
  let cb : Bool := bits func.toNat 2 1 = 1
  let conj (c : Bool) (v : FVal) : FVal := if c then v.negate else v
  chunkSum ((List.range 8).flatMap fun k =>
    let ar := complexPart a false m k
    let ai := conj ca (complexPart a true m k)
    let br := complexPart b false n k
    let bi := conj cb (complexPart b true n k)
    if imag then [(ar.mul bi).1, (ai.mul br).1] else [(ar.mul br).1, (ai.mul bi).1.negate])

/-- The effect of a `v.mmac` entry (R275). -/
def Group.mmac (G : Group) (func : BitVec 8) (d : Nat) (a b : List LaneVec) : Group :=
  let old := G
  let nacc : Bool := bits func.toNat 0 1 = 1
  let G1 := G.writeC d 2 0 fun m n => chunkAdd (old.readC nacc d 2 0 m n) (mmacChunk func a b false m n) .rne
  G1.writeC d 2 1 fun m n => chunkAdd (old.readC nacc d 2 1 m n) (mmacChunk func a b true m n) .rne

/-! ## The words (R268 to R271, R276, R277) -/

/-- The codes a narrow `v.mma` accepts (R270). -/
def mmaCodeOk (c : Nat) : Bool :=
  c = 0x38 || c = 0x3B || (decide (c < 0x20) && (NFmt.ofCode c).isSome)

/-- The B fragment of a `.dup` word (R276): each lane's elements from the panel row that the map names, +0 elsewhere. -/
def dupFragment (panel : Nat → LaneVec) (depth : Nat) (m : DupMap) : List LaneVec :=
  let per := depth / 4
  let w := 256 / depth
  let row (k : Nat) : Option Nat :=
    let j := 384 - depth + k
    if j < 368 then some j else if j - 368 < m.cnt then some (m.slots.getD (j - 368) 0) else none
  let val (lane k : Nat) : Nat :=
    match row k with
    | none => 0
    | some r => fragment [panel (2 * (r / depth)), panel (2 * (r / depth) + 1)] depth (lane / 4) (r % depth)
  (List.range 2).map fun reg => (List.range laneCount).map fun lane =>
    BitVec.ofNat 32 (((List.range (32 / w)).map fun i =>
      val lane (per * (lane % 4) + reg * (32 / w) + i) * 2 ^ (w * i)).foldl (· + ·) 0)

/-- The panel registers a `.dup` word reads (R276): those that hold the rows its map names, and with K = 32 the two of rows
352 to 383. -/
def panelReads (b depth : Nat) (m : DupMap) : List Nat :=
  let per := depth / 4
  let w := 256 / depth
  ((m.slots.take m.cnt).map fun r => b + 2 * (r / depth) + r % depth % per / (32 / w)) ++
    (if depth = 32 then [b + 22, b + 23] else [])

/-- `v.mma` (R268, R271, R277). Where several bytes fail one check alike the record names the first in the order of the list: the A
table by row and block, then the B table, then the draw words; R183 orders lanes alone (DESIGN CHOICE, log 40). -/
def execVMma (f : LaneFields) (s : State) : Out :=
  laneReady s 0xD0 f fun T G e _ =>
    let fn := f.func.toNat
    let narrow := f.type = .narrow
    let r := srcReg f.e
    let fmtw := if narrow then snapReg e.snap r else 0
    let b := formatOf fmtw
    let sa := (snapReg e.snap (r + 1)).toNat
    let sb := (snapReg e.snap (r + 2)).toNat
    let depth := mmaDepth f.type
    let dup : Bool := bits fn 1 1 = 1
    let slot := bits fn 2 2
    let map := T.mapSlot slot
    let scaled := narrow && b.scaled
    let nb := if b.len ≤ 32 then 32 / b.len else 1
    let addr (base i g : Nat) : Nat := (base + nb * i + g) % 2 ^ 64
    let scaleAs (base : Nat) : List Access := (List.range 24).flatMap fun i => (List.range nb).map fun g => scaleAccess (addr base i g)
    let as := if scaled then scaleAs sa ++ scaleAs sb else []
    let draws := if narrow && b.rnd = 2 then 576 * ((depth + 15) / 16) else 0
    let drawAs := (List.range draws).map fun i => (⟨0xFF, G.drawAddr i, 4⟩ : Access)
    let dm := bits G.rng.toNat 0 2
    let das := if dm = 0 then [] else drawAs
    let dn : Need := if dm = 1 then { w := true } else { r := true }
    let da := if dm = 1 then 2 else 1
    if !e.allLanes then raiseLane s T G e { kind := .illegalConvergence }
    else if narrow && (!b.legal || b.rnd = 3 || !mmaCodeOk b.afmt || !mmaCodeOk b.bfmt) then
      raiseLane s T G e { kind := .badFormatBlock }
    else if dup && G.busy.any (·.maps.contains slot) then lanePass s T G .collector G.yld
    else if dup && map.bad then raiseLane s T G e { kind := .tileBounds }
    else if dup && G.busy.any (fun b => b.vecs.any (panelReads (srcIx f.b) depth map).contains) then
      lanePass s T G .collector G.yld
    else match firstCheck [s.checkPages T 1 as, s.checkPages T da das, s.checkRights T 1 { r := true } as,
        s.checkRights T da dn das] with
      | .pass =>
        if G.streamFull then lanePass s T G .matrixRoom false
        else match s.takeDraws T G draws e.spc e.off e.lpc with
          | .stop c => laneStop s T G e c
          | .load s1 G1 => lanePass s1 T G1 .collector G.yld
          | .ok s1 G1 ws bad =>
            let regs (i : Nat) : List LaneVec := [G.vget i, G.vget (i + 1)]
            let bs := if dup then dupFragment (fun k => G.vget (srcIx f.b + k)) depth map else regs (srcIx f.b)
            let table (base : Nat) : ScaleTable := if scaled then s.scaleTable T 24 nb (addr base) else .none
            drawFault (matrixIssue s1 T G1 e 0xD0 f (.mma f.type f.func (dstIx f.d) (regs (srcIx f.a)) bs fmtw ws) (table sa)
              (table sb)) (T.tag G e.spc) bad e.off e.lpc.toNat
      | c => laneStop s T G e c

/-- `v.mmac` (R269, R271, R277). -/
def execVMmac (f : LaneFields) (s : State) : Out :=
  laneReady s 0xD1 f fun T G e _ =>
    let regs (i : Nat) : List LaneVec := [G.vget i, G.vget (i + 1)]
    if !e.allLanes then raiseLane s T G e { kind := .illegalConvergence }
    else if G.streamFull then lanePass s T G .matrixRoom false
    else matrixIssue s T G e 0xD1 f (.mmac f.func (dstIx f.d) (regs (srcIx f.a)) (regs (srcIx f.b))) .none .none

/-! ## The path (R265, R278) -/

/-- A group's pipe (R25). -/
def Group.pipe (G : Group) : Nat := G.idx % 2

/-- The digital entry of a group that starts next: its stream's order is kept (R265). -/
def Group.nextDigital (G : Group) : Option MatrixEntry := G.stream.find? fun e => e.op.isDigital && !e.started

/-- No other group's next operation on a path, of those that wait for no array's scale bytes, became ready before a moment
(R174, R265). -/
def State.firstReady (s : State) (die core pipe moment : Nat) : Bool :=
  s.teams.all fun T => !(T.die = die && T.core = core) || T.groups.all fun G => G.pipe ≠ pipe ||
    match G.nextDigital.filter fun e => !s.scalesBusy T e with
    | some e => (match e.ready with
      | some n => decide (moment ≤ n)
      | none => true)
    | none => true

/-- DIGITAL_MATRIX_START (R265, R278): of the entries of its path that are ready to start the group's became so first; it
reads its scale bytes now. It need not be the head of its stream, and need not wait for the writes of a chain to land; the
path has finished the operation before it, whose cycles the model leaves out (log 15). A scale byte in an array whose pass runs or
that switches is waited for (R174, R248). -/
def execDigitalMatrixStart (t g : Nat) (s : State) : Out :=
  match s.find t g with
  | none => .next s
  | some (T, G) =>
    match G.nextDigital with
    | some e =>
      match e.ready with
      | some n =>
        if s.firstReady T.die T.core G.pipe n && !s.scalesBusy T e then
          .next (s.put T { G with stream := G.stream.map fun x =>
            if x = e then { s.readEntry T x with started := true } else x }).noteReady
        else .next s
      | none => .next s
    | none => .next s

/-- DIGITAL_MATRIX_COMPLETE (R200, R255, R273, R275, R278): the result of the head of a stream lands in its C registers; with
a poisoned scale byte none changes (R277). -/
def execDigitalMatrixComplete (t g : Nat) (s : State) : Out :=
  match s.find t g with
  | none => .next s
  | some (T, G) =>
    match G.stream with
    | e :: _ =>
      if !e.started then .next s
      else (match e.op with
       | .mma ty fn d a b fmt ws =>
         (match e.poisonedScale with
          | some va => streamPoison s T G e va
          | none => .next (streamDone s T (G.mma ty fn d a b fmt e.ascales.bytes e.bscales.bytes ws) e))
       | .mmac fn d a b => .next (streamDone s T (G.mmac fn d a b) e)
       | _ => .next s)
    | [] => .next s

/-! ## Batches (R279, R280) -/

/-- Closed batches that are not performed (R279). -/
def Group.openBatches (G : Group) : Nat :=
  match G.pendingEntries with
  | [] => 0
  | e :: _ => (G.batch + 256 - e.batch) % 256

/-- `mclose` (R279). -/
def execMclose (d : SReg) (s : State) : Out :=
  scalarWord s [(20, d)] [d] true fun T G =>
    if 16 ≤ G.openBatches then waitFor s T G .batchRoom
    else doneWith s T { G with batch := (G.batch + 1) % 256 } d (BitVec.ofNat 64 G.batch)

/-- How many closes ago a batch number was closed, less one (R280). -/
def Group.closedAgo (G : Group) (n : Nat) : Nat := (G.batch + 511 - n) % 256

/-- Batch n and every earlier batch are performed, or n names nothing to wait for (R280). -/
def Group.batchOver (G : Group) (n : Nat) : Bool :=
  decide (16 ≤ G.closedAgo n) ||
    G.pendingEntries.all fun e => e.batch = G.batch || decide (G.closedAgo e.batch < G.closedAgo n)

/-- The `mwait` words: an acquire at die scope (R280). -/
def mwaitWord (s : State) (T : Team) (G : Group) (n : Option Nat) : Out :=
  let ended := match n with
    | some n => G.batchOver n
    | none => G.pendingEntries.isEmpty
  if ended then done (s.acquire T.die T.core .die) T G else waitFor s T G (.batch n)

/-- `mwait n` (R280). -/
def execMwait (n : BitVec 8) (s : State) : Out :=
  scalarWord s [] [] true fun T G => mwaitWord s T G (some n.toNat)

/-- `mwait sA` (R280). -/
def execMwaitR (a : SReg) (s : State) : Out :=
  scalarWord s [(14, a)] [a] true fun T G => mwaitWord s T G (some (field (G.sget a) 0 8))

/-- `mwait.all` (R280). -/
def execMwaitAll (s : State) : Out := scalarWord s [] [] true fun T G => mwaitWord s T G none

end Sys2Proof.Machine
end

