-- ==== Sys2Proof/Machine/LaneCross.lean ====
section
/-! DEFINITION. The quad and cross-lane words (R117 to R128). -/
namespace Sys2Proof.Machine

/-! ## Copies between lanes -/

/-- A word whose active lanes each read A of another lane, active or not (R117): of `%lane` and `%quad` the value of that other lane
(DESIGN CHOICE, log 53). -/
def routeOp (f : LaneFields) (late : Bool) (from_ : LaneEnv → Nat → Nat) : LaneOp :=
  { mapOp f.type (fun E => let a := E.src f.type f.a; let g := from_ E; fun l => a (g l)) with late := late }

/-- `v.qswap` (R119). -/
def execVQswap (f : LaneFields) (s : State) : Out :=
  laneWord s 0x90 f (routeOp f false fun _ l => l ^^^ bits f.func.toNat 0 2)

/-- `v.qbcast` (R119). -/
def execVQbcast (f : LaneFields) (s : State) : Out :=
  laneWord s 0x91 f (routeOp f false fun _ l => l / 4 * 4 + bits f.func.toNat 0 2)

/-- The source lane of `v.shfl` (R122). -/
def shuffleFrom (mode l b : Nat) : Nat :=
  match mode with
  | 0 => b % 96
  | 1 => if l < b then l else l - b
  | 2 => if 95 < l + b then l else l + b
  | _ => if 95 < l ^^^ b then l else l ^^^ b

/-- `v.shfl` (R122). -/
def execVShfl (f : LaneFields) (s : State) : Out :=
  laneWord s 0x93 f (routeOp f true fun E =>
    let b := E.src .n32 f.b
    fun l => shuffleFrom (bits f.func.toNat 0 2) l (b l))

/-- `v.bcast` (R124). -/
def execVBcast (f : LaneFields) (s : State) : Out :=
  laneWord s 0x95 f (routeOp f true fun E => let k := E.src .n32 f.b 0 % 96; fun _ => k)

/-- `v.push`: the highest sender to a lane remains (R123). -/
def execVPush (f : LaneFields) (s : State) : Out :=
  laneWord s 0x94 f
    { late := true,
      act := fun E G =>
        let a := E.src f.type f.a
        let b := E.src .n32 f.b
        let sent := E.lanes.reverse.map fun l => (b l, a l)
        let got := E.lanes.filterMap fun l => (sent.find? (·.1 = l)).map fun p => (l, p.2)
        let G1 := G.writeD f f.type got
        if bits f.func.toNat 4 1 = 1 then G1.writeP (predIx (bits f.func.toNat 0 4)) E.act (maskOfLanes (got.map (·.1)))
        else G1 }

/-! ## Combines (R120) -/

/-- One combine of two patterns, its flags with it; `.fadd` rounds without SAT (R120). -/
def combine (t : ElemType) (op x y : Nat) (m : Mode) : Nat × FFlags :=
  let F := ElemType.ffmt t
  match op with
  | 0 => ((x + y) % 2 ^ t.width, 0)
  | 1 => (if readInt t y < readInt t x then y else x, 0)
  | 2 => (if readInt t x < readInt t y then y else x, 0)
  | 3 => (x &&& y, 0)
  | 4 => (x ||| y, 0)
  | 5 => (x ^^^ y, 0)
  | 8 => froundTo t false m ((F.decode x).add (F.decode y))
  | 9 => (F.minmax false x y, 0)
  | _ => (F.minmax true x y, 0)

/-- SAT on the final result of a `.fadd` (R97, R120). -/
def satInf (t : ElemType) (sat : Bool) (x : Nat) : Nat :=
  let F := ElemType.ffmt t
  match F.decode x with
  | .inf n => if sat then F.sign n + F.maxBits else x
  | _ => x

/-- The identity of the exclusive scan (R120). -/
def combineIdentity (t : ElemType) (op : Nat) : Nat :=
  let F := ElemType.ffmt t
  match op with
  | 1 => if t.isSigned then 2 ^ (t.width - 1) - 1 else 2 ^ t.width - 1
  | 2 => if t.isSigned then 2 ^ (t.width - 1) else 0
  | 3 => 2 ^ t.width - 1
  | 9 => F.infBits
  | 10 => F.sign true + F.infBits
  | _ => 0

/-- A fold in hand: the next draw and the flags so far. -/
structure Folding where
  draw : Nat
  flags : FFlags
deriving DecidableEq, Repr

/-- Join two values that may be absent (R125). -/
def joinOpt (t : ElemType) (op : Nat) (mode : Nat → Mode) (x y : Option Nat) (st : Folding) : Option Nat × Folding :=
  match x, y with
  | none, y => (y, st)
  | x, none => (x, st)
  | some x, some y =>
    let r := combine t op x y (mode st.draw)
    (some r.1, ⟨st.draw + 1, st.flags ||| r.2⟩)

/-- One level of the tree: adjacent values joined in ascending order (R125). -/
def joinPairs (t : ElemType) (op : Nat) (mode : Nat → Mode) : List (Option Nat) → Folding → List (Option Nat) × Folding
  | x :: y :: l, st =>
    let r := joinOpt t op mode x y st
    let rest := joinPairs t op mode l r.2
    (r.1 :: rest.1, rest.2)
  | l, st => (l, st)

/-- `k` levels of the tree. -/
def joinLevels (t : ElemType) (op : Nat) (mode : Nat → Mode) : Nat → List (Option Nat) → Folding → List (Option Nat) × Folding
  | 0, l, st => (l, st)
  | k + 1, l, st => let r := joinPairs t op mode l st; joinLevels t op mode k r.1 r.2

/-- The reduction over the 96 lane positions: five levels, then the two final joins (R125). -/
def reduceTree (t : ElemType) (op : Nat) (mode : Nat → Mode) (xs : List (Option Nat)) : Option Nat × Folding :=
  let r := joinLevels t op mode 5 xs ⟨0, 0⟩
  let a := joinOpt t op mode (r.1.getD 0 none) (r.1.getD 1 none) r.2
  joinOpt t op mode a.1 (r.1.getD 2 none) a.2

/-- The operation of a combining word. -/
def combineOf (f : LaneFields) : Nat := bits f.func.toNat 0 4

/-- Draws of n combines under SR: only `.fadd` rounds (R120). -/
def combineDraws (f : LaneFields) (E : LaneEnv) (n : Nat) : Nat := if E.stochastic && combineOf f = 8 then n else 0

/-- The sum of integers of a TYPE. -/
def intSum (t : ElemType) (xs : List Nat) : Int := xs.foldl (fun acc x => acc + readInt t x) 0

/-- The result of `v.red` over the active lanes: an integer sum is exact and reduced once (R120, R125). With one active lane
nothing is combined, and the lane's element is returned as it is, a NaN with its payload (DESIGN CHOICE against R96's
canonical NaN, log 53). -/
def reduceLanes (f : LaneFields) (E : LaneEnv) : Nat × FFlags :=
  let a := E.src f.type f.a
  if combineOf f = 0 then (intResult f.type f.sat (intSum f.type (E.lanes.map a)), 0)
  else
    let r := reduceTree f.type (combineOf f) E.mode ((List.range 96).map fun l => if E.act.getLsbD l then some (a l) else none)
    let x := r.1.getD 0
    (if combineOf f = 8 then satInf f.type f.sat x else x, r.2.flags)

/-- `v.red` (R125). -/
def execVRed (f : LaneFields) (s : State) : Out :=
  laneWord s 0x96 f
    { draws := fun E => combineDraws f E (E.lanes.length - 1), late := true,
      act := fun E G =>
        let r := reduceLanes f E
        if E.act = 0 then G
        else
          let G1 := match f.d with
            | .s _ => G.writeS f E.act (scalarOf f.type r.1)
            | _ => G.writeD f f.type (E.lanes.map fun l => (l, r.1))
          G1.raiseFlags r.2 }

/-- The four values of a quad combined, helpers included (R121). -/
def reduceQuad (f : LaneFields) (x : Nat → Nat) (mode : Nat → Mode) : Nat × FFlags :=
  let op := combineOf f
  if op = 0 then (intResult f.type f.sat (intSum f.type [x 0, x 1, x 2, x 3]), 0)
  else
    let p := combine f.type op (x 0) (x 1) (mode 0)
    let q := combine f.type op (x 2) (x 3) (mode 1)
    let r := combine f.type op p.1 q.1 (mode 2)
    (if op = 8 then satInf f.type f.sat r.1 else r.1, p.2 ||| q.2 ||| r.2)

/-- The quads with an active lane, ascending. -/
def LaneEnv.quads (E : LaneEnv) : List Nat := (List.range 24).filter fun q => (List.range 4).any fun i => E.act.getLsbD (4 * q + i)

/-- `v.qred` (R121). -/
def execVQred (f : LaneFields) (s : State) : Out :=
  laneWord s 0x92 f
    { draws := fun E => combineDraws f E (3 * E.quads.length),
      act := fun E G =>
        let a := E.src f.type f.a
        let rs := E.quads.zipIdx.map fun p => (p.1, reduceQuad f (fun i => a (4 * p.1 + i)) fun i => E.mode (3 * p.2 + i))
        let val (l : Nat) : Nat := ((rs.find? (·.1 = l / 4)).map (·.2.1)).getD 0
        (G.writeD f f.type (E.lanes.map fun l => (l, val l))).raiseFlags (flagsOf rs) }

/-- Inclusive folds over the active lanes, left to right, each with the flags so far (R126). -/
def scanFold (t : ElemType) (op : Nat) (mode : Nat → Mode) (acc : Nat) (st : Folding) : List Nat → List (Nat × FFlags)
  | [] => []
  | x :: l =>
    let r := combine t op acc x (mode st.draw)
    (r.1, r.2) :: scanFold t op mode r.1 ⟨st.draw + 1, 0⟩ l

/-- Exact prefix sums (R120). -/
def prefixSums (t : ElemType) (sat : Bool) (acc : Int) : List Nat → List Nat
  | [] => []
  | x :: l => let a := acc + readInt t x; intResult t sat a :: prefixSums t sat a l

/-- The inclusive results of a list of values and their flags (R126). The first one combines nothing and is the value itself, a
NaN with its payload (DESIGN CHOICE against R96's canonical NaN, log 53). -/
def inclusive (f : LaneFields) (mode : Nat → Mode) (xs : List Nat) : List (Nat × FFlags) :=
  if combineOf f = 0 then (prefixSums f.type f.sat 0 xs).map fun x => (x, 0)
  else match xs with
    | [] => []
    | x :: l => (x, 0) :: scanFold f.type (combineOf f) mode x ⟨0, 0⟩ l

/-- The values a scan delivers to the active lanes (R126). -/
def scanLanes (f : LaneFields) (mode : Nat → Mode) (xs : List Nat) : List (Nat × FFlags) :=
  let rs := if bits f.func.toNat 4 1 = 1 then (combineIdentity f.type (combineOf f), 0) :: inclusive f mode xs.dropLast
    else inclusive f mode xs
  if combineOf f = 8 then rs.map fun r => (satInf f.type f.sat r.1, r.2) else rs

/-- `v.scan`: the exclusive form does not form the last fold (R126). -/
def execVScan (f : LaneFields) (s : State) : Out :=
  laneWord s 0x97 f
    { draws := fun E => combineDraws f E (E.lanes.length - 1 - bits f.func.toNat 4 1), late := true,
      act := fun E G =>
        if E.act = 0 then G
        else
          let a := E.src f.type f.a
          G.writeF f f.type (E.lanes.zip (scanLanes f E.mode (E.lanes.map a))) }

/-- Two keys match: equal values for a floating-point TYPE, NaN with nothing, else equal patterns (R127). -/
def keysMatch (t : ElemType) (x y : Nat) : Bool :=
  if t.isFloat then ((ElemType.ffmt t).decode x).eq ((ElemType.ffmt t).decode y) else x = y

/-- `v.match`: a natural 32-bit value, in the low register of a pair (R127). That the high register of a pair becomes 0, as
R127 says of `v.popc`, is a DESIGN CHOICE (log 53). -/
def execVMatch (f : LaneFields) (s : State) : Out :=
  laneWord s 0x98 f
    { late := true,
      act := fun E G =>
        let a := E.src f.type f.a
        let same (l : Nat) : List Nat := E.lanes.filter fun k => k = l || keysMatch f.type (a k) (a l)
        let lead (l : Nat) : Nat := (same l).headD l
        let val (l : Nat) : Nat := if bits f.func.toNat 5 1 = 1 then (same l).length else lead l
        let t : ElemType := if f.type.isPair then .n64 else .n32
        let G1 := G.writeD f t (E.lanes.map fun l => (l, val l))
        if bits f.func.toNat 4 1 = 1 then
          G1.writeP (predIx (bits f.func.toNat 0 4)) E.act (maskOfLanes (E.lanes.filter fun l => lead l = l))
        else G1 }

/-- `v.vote` (R128). -/
def execVVote (f : LaneFields) (s : State) : Out :=
  laneWord s 0x99 f
    { late := true,
      act := fun E G =>
        let p := E.act &&& E.G.pget (predIx (bits f.func.toNat 0 4))
        let r : Bool := match bits f.func.toNat 4 2 with
          | 0 => p ≠ 0
          | 1 => p = E.act
          | _ => p = 0 || p = E.act
        if E.act = 0 then G
        else match f.d with
          | .s _ => G.writeS f E.act (if r then 1 else 0)
          | _ => G.writeP (LaneFields.dPred f) E.act (if r then E.act else 0) }

end Sys2Proof.Machine
end

