-- ==== Sys2Proof/Machine/Header.lean ====
section
/-! DEFINITION. Kernel headers (R65 to R67, R298), launch records (R282), class entries (R293) and front save records
(R303) as bytes. -/
namespace Sys2Proof.Machine

/-- Little-endian number in bytes [lo + n - 1 : lo] of a structure. -/
def le (bs : List Byte) (lo n : Nat) : Nat := ofBytes ((bs.drop lo).take n)

/-- Bytes [lo, hi) are all zero. -/
def zeros (bs : List Byte) (lo hi : Nat) : Bool := ((bs.drop lo).take (hi - lo)).all (· = 0)

/-- Round up to a granule (R26). -/
def roundUp (n g : Nat) : Nat := (n + (g - 1)) / g * g

/-- The rounded budgets (R26). -/
def Budget.rounded (v s t a : Nat) : Budget := ⟨roundUp v 8, min (roundUp s 8) 56, roundUp t 4, roundUp a 2⟩

/-! ## The kernel header -/

/-- A signed 16-bit component of a dependence vector. -/
def component (x lo : Nat) : Int := (BitVec.ofNat 16 (bits x lo 16)).toInt

/-- The first non-zero component is positive (R298). -/
def lexPositive (d : Int × Int × Int) : Bool :=
  if d.1 ≠ 0 then decide (0 < d.1) else if d.2.1 ≠ 0 then decide (0 < d.2.1) else decide (0 < d.2.2)

/-- The front descriptor, if it is well formed (R298). -/
def parseFront (bs : List Byte) : Option FrontDesc :=
  let rank := le bs 0 1
  let ndep := le bs 1 1
  let vecs := (List.range 4).map fun j => le bs (8 + 8 * j) 8
  let deps := (vecs.take ndep).map fun x => (component x 0, component x 16, component x 32)
  let within (d : Int × Int × Int) : Bool := (rank = 3 || d.2.2 = 0) && (2 ≤ rank || d.2.1 = 0)
  if 1 ≤ rank && rank ≤ 3 && ndep ≤ 4 && zeros bs 2 8 && zeros bs 40 64 && (vecs.drop ndep).all (· = 0) &&
      vecs.all (fun x => bits x 48 16 = 0) && deps.all within && deps.all lexPositive then
    some { rank := rank, deps := deps }
  else none

/-- A volatile range: none where malformed, else the range if valid (R65, R67). -/
def parseRange (x limit : Nat) : Option (Option (Nat × Nat)) :=
  let valid := bits x 0 8
  let first := bits x 8 8
  let last := bits x 16 8
  if bits x 24 8 ≠ 0 || 2 ≤ valid then none
  else if valid = 0 then some none
  else if first ≤ last && last < limit then some (some (first, last)) else none

/-- The roles of a header: each role, or the one budget set (R65, R66). -/
def parseRoles (bs : List Byte) (n : Nat) : List Role :=
  if n = 0 then
    [{ spc := BitVec.ofNat 32 (le bs 32 4), lpc := BitVec.ofNat 32 (le bs 36 4),
       bud := Budget.rounded (le bs 52 2) (le bs 54 1) (le bs 55 1) (le bs 56 1), groups := le bs 40 1 }]
  else
    (List.range n).map fun j =>
      let o := 192 + 16 * j
      { spc := BitVec.ofNat 32 (le bs o 4), lpc := BitVec.ofNat 32 (le bs (o + 4) 4),
        bud := Budget.rounded (le bs (o + 8) 1 + 1) (le bs (o + 9) 1) (le bs (o + 10) 1) (le bs (o + 11) 1),
        groups := le bs (o + 12) 1 }

/-- The budgets and counts of a header lie in their ranges (R64 to R67). With one to three roles bytes 32 to 39 and 52 to 56 are
zero (R66); that a header in which they are not is rejected is a DESIGN CHOICE (log 55): R67 does not list it. -/
def rolesInRange (bs : List Byte) (n : Nat) : Bool :=
  let ok (s t a : Nat) : Bool := decide (s ≤ 56) && decide (t ≤ 16) && decide (a ≤ 8)
  if n = 0 then
    decide (1 ≤ le bs 52 2) && decide (le bs 52 2 ≤ 256) && ok (le bs 54 1) (le bs 55 1) (le bs 56 1) && zeros bs 192 240
  else
    zeros bs 32 40 && zeros bs 52 57 && zeros bs (192 + 16 * n) 240 &&
    ((List.range n).all fun j =>
      let o := 192 + 16 * j
      ok (le bs (o + 9) 1) (le bs (o + 10) 1) (le bs (o + 11) 1) && zeros bs (o + 13) (o + 16) &&
        decide (1 ≤ le bs (o + 12) 1) && decide (le bs (o + 12) 1 ≤ 8)) &&
    ((List.range n).map fun j => le bs (192 + 16 * j + 12) 1).foldl (· + ·) 0 = le bs 40 1

/-- Magic, version and resv bits (R65, R67). Without the front flag the front's bytes are zero (R65); that a header in which they are
not is rejected is a DESIGN CHOICE (log 55): R67 does not list it. -/
def headerFrame (bs : List Byte) : Bool :=
  le bs 0 2 = 0x4B48 && le bs 2 2 = 1 && bits (le bs 4 4) 7 25 = 0 && bits (le bs 4 4) 4 2 ≠ 3 && zeros bs 43 44 &&
    zeros bs 49 52 && zeros bs 57 64 && zeros bs 84 128 && zeros bs 240 256 &&
    (bits (le bs 4 4) 6 1 = 1 || zeros bs 128 192)

/-- An entry index of a role is legal (R67). -/
def entryOk (r : Role) (scalLen laneLen : Nat) : Bool :=
  decide (r.spc.toNat < scalLen) && (decide (r.lpc.toNat < laneLen) || (r.lpc = 0 && laneLen = 0))

/-- The kernel header of 256 bytes, if it is well formed (R65 to R67, R298); every role's budget bounds a volatile range
and the progress register. -/
def parseHeader (bs : List Byte) : Option Header :=
  let flags := le bs 4 4
  let n := le bs 42 1
  let roles := parseRoles bs n
  let least (f : Budget → Nat) : Nat := roles.foldl (fun m r => min m (f r.bud)) 256
  let front := parseFront ((bs.drop 128).take 64)
  let isFront : Bool := bits flags 6 1 = 1
  let scratch := roundUp (le bs 44 4) 16384
  match parseRange (le bs 64 4) (least (·.v)), parseRange (le bs 68 4) (least (·.s)),
      parseRange (le bs 72 4) (least (·.t)), parseRange (le bs 76 4) (least (·.a)), parseRange (le bs 80 4) 12 with
  | some v, some s, some t, some a, some p =>
    if headerFrame bs && n ≤ 3 && 1 ≤ le bs 40 1 && le bs 40 1 ≤ 8 && le bs 44 4 ≤ 786432 && le bs 48 1 ≤ 32 &&
        rolesInRange bs n && (le bs 41 1 = 0 || le bs 41 1 < least (·.s)) &&
        roles.all (fun r => entryOk r (le bs 24 4) (le bs 28 4)) && le bs 8 8 % 64 = 0 && le bs 16 8 % 64 = 0 &&
        le bs 48 1 ≤ scratch / 24576 && (!isFront || front.isSome) then
      some { scalBase := le bs 8 8, laneBase := le bs 16 8, scalLen := le bs 24 4, laneLen := le bs 28 4,
             team := le bs 40 1, progress := le bs 41 1, scratch := scratch, arrays := le bs 48 1,
             idempotent := bits flags 0 1 = 1, energy := bits flags 1 3, affinity := bits flags 4 2, roles := roles,
             roleCount := n, vol := { v := v, s := s, t := t, a := a, p := p }, front := if isFront then front else none }
    else none
  | _, _, _, _, _ => none

/-! ## The launch record -/

/-- A launch record's fields (R282). -/
def recordOf (bs : List Byte) : Record :=
  let ext := le bs 24 8
  { done := le bs 56 8, hand := le bs 48 8, succ := le bs 40 8, win := le bs 32 8, x := bits ext 0 21, y := bits ext 21 21,
    z := bits ext 42 21, args := BitVec.ofNat 64 (le bs 16 8), header := le bs 8 8, front := bits (le bs 7 1) 0 1 = 1,
    dies := le bs 6 1, asid := le bs 4 2, cls := le bs 3 1 % 16 }

/-- Magic, version, resv bits, extents and alignments of a record (R282, R283). -/
def recordFrame (bs : List Byte) : Bool :=
  let r := recordOf bs
  let ext (n : Nat) : Bool := decide (1 ≤ n) && decide (n ≤ 2 ^ 20)
  bs.length = 64 && le bs 0 2 = 0x4352 && le bs 2 1 = 1 && bits (le bs 24 8) 63 1 = 0 && bits (le bs 7 1) 1 7 = 0 &&
    bits (le bs 3 1) 4 4 = 0 && ext r.x && ext r.y && ext r.z && r.header % 256 = 0 && r.done % 8 = 0 && r.hand % 8 = 0 &&
    r.succ % 64 = 0

/-- The dies of a mask whose class matches an affinity (R283); affinity 3 is the header's fault. -/
def dieSet (mask affinity : Nat) : List Nat :=
  (List.range 8).filter fun d => (mask = 0 || bits mask d 1 = 1) &&
    (affinity = 0 || affinity = 3 || (affinity = 1 && d < 4) || (affinity = 2 && 4 ≤ d))

/-- The checks of a record that read the header's bytes (R283). -/
def recordFits (r : Record) (h : List Byte) : Bool :=
  let flags := le h 4 4
  let rank := le h 128 1
  let dies := dieSet r.dies (bits flags 4 2)
  let front : Bool := bits flags 6 1 = 1
  r.front = front && !dies.isEmpty && (front || decide (r.x * r.y * r.z ≤ 4096 * dies.length)) &&
    (!front || rank < 1 || 3 ≤ rank || (r.z = 1 && (2 ≤ rank || r.y = 1))) &&
    (le h 44 4 = 0 || (r.win % 2 ^ 35 = 0 && decide (r.win + 2 ^ 35 ≤ 2 ^ 64) && canonical (r.win + (2 ^ 35 - 1))))

/-! ## Class entries (R293) -/

/-- The entry of a service class. -/
def State.classSlot (s : State) (c : Nat) : Slot := (assoc s.classes c).getD ⟨[0, 0, 0, 0], [none, none, none, none]⟩

/-- The class takes records. -/
def State.classOpen (s : State) (c : Nat) : Bool := field ((s.classSlot c).word 0) 3 1 = 1

/-- Its priority. -/
def State.priority (s : State) (c : Nat) : Nat := field ((s.classSlot c).word 0) 0 3

/-- Its preempt field. -/
def State.preempt (s : State) (c : Nat) : Nat := field ((s.classSlot c).word 0) 4 2

/-- Its energy share; 0 is unlimited. -/
def State.share (s : State) (c : Nat) : Nat := field ((s.classSlot c).word 0) 8 8

/-- Its bound on launches. -/
def State.qmax (s : State) (c : Nat) : Nat := field ((s.classSlot c).word 2) 0 16

/-- Its admission tag. -/
def State.tagOf (s : State) (c : Nat) : DWord := (s.classSlot c).word 3

/-! ## Fronts (R299 to R304) -/

/-- The rank of a front launch. -/
def Launch.rank (L : Launch) : Nat := (L.header.front.map (·.rank)).getD 1

/-- Extent of the inner coordinate. -/
def Launch.inner (L : Launch) : Nat :=
  match L.rank with
  | 1 => L.record.x
  | 2 => L.record.y
  | _ => L.record.z

/-- Lines of the space (R299). -/
def Launch.lineCount (L : Launch) : Nat :=
  match L.rank with
  | 1 => 1
  | 2 => L.record.x
  | _ => L.record.x * L.record.y

/-- The point of a line and an inner index. -/
def Launch.point (L : Launch) (line i : Nat) : Nat × Nat × Nat :=
  match L.rank with
  | 1 => (i, 0, 0)
  | 2 => (line, i, 0)
  | _ => (line / L.record.y, line % L.record.y, i)

/-- Line and inner index of a point. -/
def Launch.lineOf (L : Launch) (p : Nat × Nat × Nat) : Nat × Nat :=
  match L.rank with
  | 1 => (0, p.1)
  | 2 => (p.1, p.2.1)
  | _ => (p.1 * L.record.y + p.2.1, p.2.2)

/-- Front-store entries a launch reserves. -/
def Launch.reserve (L : Launch) : Nat := min 4096 L.lineCount

/-- Open lines while fewer than the reserved entries are live (R299). -/
def openLines (entries total : Nat) : Nat → Front → Front
  | 0, f => f
  | n + 1, f =>
    if f.lines.length < entries && f.next < total then
      openLines entries total n { f with lines := f.lines ++ [⟨f.next, 0, 0, 0⟩], next := f.next + 1 }
    else f

/-- Open every line that may be. -/
def Launch.openFront (L : Launch) (f : Front) : Front := openLines f.entries L.lineCount f.entries f

/-- A front with no point complete and no line opened. -/
def Front.empty (entries : Nat) : Front :=
  { die := none, entries := entries, next := 0, done := 0, lines := [], reserved := false, offered := [] }

/-- One bits of a window. -/
def windowCount (w : BitVec 64) : Nat := ((List.range 64).filter fun i => w.getLsbD i).length

/-- A front save record as bytes (R303). -/
def Launch.frontRecord (L : Launch) (f : Front) : List Byte :=
  let flight := (f.lines.map fun l => windowCount l.flight).foldl (· + ·) 0
  let coords (l : Nat) : Nat :=
    match L.rank with
    | 1 => 0
    | 2 => l * 2 ^ 21
    | _ => l / L.record.y * 2 ^ 21 + l % L.record.y * 2 ^ 41
  leBytes (0x4653 + 2 ^ 16 + 2 ^ 24 * L.rank + 2 ^ 32 * f.lines.length) 8 ++
    leBytes (L.record.x + 2 ^ 21 * L.record.y + 2 ^ 42 * L.record.z) 8 ++ leBytes f.next 8 ++ leBytes f.done 8 ++
    leBytes flight 8 ++ List.replicate 24 0 ++
    f.lines.flatMap fun l => leBytes (l.w + coords l.line) 8 ++ leBytes l.comp.toNat 8 ++ leBytes l.flight.toNat 8

/-- One line of a front save record, if it is well formed (R303); one whose coordinates the launch does not have is not (DESIGN
CHOICE, log 55). -/
def Launch.parseLine (L : Launch) (bs : List Byte) : Option FrontLine :=
  let x := le bs 0 8
  let w := bits x 0 21
  let c1 := bits x 21 20
  let c2 := bits x 41 20
  let comp : BitVec 64 := BitVec.ofNat 64 (le bs 8 8)
  let flight : BitVec 64 := BitVec.ofNat 64 (le bs 16 8)
  let line := match L.rank with
    | 1 => 0
    | 2 => c1
    | _ => c1 * L.record.y + c2
  let coordsOk : Bool := match L.rank with
    | 1 => c1 = 0 && c2 = 0
    | 2 => c2 = 0
    | _ => decide (c1 < L.record.x) && decide (c2 < L.record.y)
  if bits x 61 3 = 0 && coordsOk && w < L.inner && !comp.getLsbD 0 && comp &&& flight = 0 &&
      (comp ||| flight).toNat / 2 ^ (L.inner - w) = 0 then
    some ⟨line, w, comp, flight⟩
  else none

/-- A front save record against its launch (R303). -/
def Launch.parseFrontRecord (L : Launch) (bs : List Byte) : Option Front :=
  let n := le bs 4 4
  let next := le bs 16 8
  let lines := (List.range n).filterMap fun j => L.parseLine ((bs.drop (64 + 24 * j)).take 24)
  let ixs := lines.map (·.line)
  let done := (next - n) * L.inner + (lines.map fun l => l.w + windowCount l.comp).foldl (· + ·) 0
  if le bs 0 2 = 0x4653 && le bs 2 1 = 1 && le bs 3 1 = L.rank && n ≤ 4096 && bs.length = 64 + 24 * n &&
      le bs 8 8 = L.record.x + 2 ^ 21 * L.record.y + 2 ^ 42 * L.record.z && next ≤ L.lineCount && zeros bs 40 64 &&
      lines.length = n && (ixs.zip (ixs.drop 1)).all (fun p => decide (p.1 < p.2)) && ixs.all (fun l => decide (l < next)) &&
      le bs 24 8 = done && le bs 32 8 = (lines.map fun l => windowCount l.flight).foldl (· + ·) 0 then
    some { die := none, entries := L.reserve, next := next, done := done, lines := lines, reserved := false, offered := [] }
  else none

/-- A point is complete (R300). -/
def Launch.complete (L : Launch) (f : Front) (p : Nat × Nat × Nat) : Bool :=
  let q := L.lineOf p
  match f.lines.find? (·.line = q.1) with
  | some l => decide (q.2 < l.w) || (decide (q.2 - l.w < 64) && l.comp.getLsbD (q.2 - l.w))
  | none => decide (q.1 < f.next)

/-- A point with signed coordinates lies inside the space. -/
def Launch.inside (L : Launch) (p : Int × Int × Int) : Bool :=
  let ok (a : Int) (n : Nat) : Bool := decide (0 ≤ a) && decide (a < n)
  ok p.1 L.record.x && ok p.2.1 L.record.y && ok p.2.2 L.record.z

/-- A point fires (R301). -/
def Launch.canFire (L : Launch) (f : Front) (line i : Nat) : Bool :=
  match f.lines.find? (·.line = line) with
  | none => false
  | some l =>
    let p := L.point line i
    decide (i < L.inner) && decide (l.w ≤ i) && decide (i < l.w + 64) && !l.comp.getLsbD (i - l.w) &&
      !l.flight.getLsbD (i - l.w) &&
      ((L.header.front.map (·.deps)).getD []).all fun d =>
        let q : Int × Int × Int := ((p.1 : Int) - d.1, (p.2.1 : Int) - d.2.1, (p.2.2 : Int) - d.2.2)
        !L.inside q || L.complete f (q.1.toNat, q.2.1.toNat, q.2.2.toNat)

/-- A point that stands before another in the order of R301, by line and inner index, can fire and has not. -/
def Launch.firesBefore (L : Launch) (f : Front) (line i : Nat) : Bool :=
  f.lines.any fun l => decide (l.line ≤ line) && (List.range 64).any fun k =>
    (decide (l.line < line) || decide (l.w + k < i)) && L.canFire f l.line (l.w + k)

/-- The watermark advances past every completed index, both windows with it (R300). -/
def FrontLine.slide : Nat → FrontLine → FrontLine
  | 0, l => l
  | n + 1, l => if l.comp.getLsbD 0 then FrontLine.slide n { l with w := l.w + 1, comp := l.comp >>> 1, flight := l.flight >>> 1 }
                else l

/-- Bit i of a window. -/
def windowBit (i : Nat) : BitVec 64 := (1 : BitVec 64) <<< i

/-- A point completes: its line's marks, lines that are done retire, others open (R299, R300). -/
def Launch.finish (L : Launch) (f : Front) (line i : Nat) : Front :=
  match f.lines.find? (·.line = line) with
  | none => f
  | some l =>
    if i < l.w || 64 ≤ i - l.w || l.comp.getLsbD (i - l.w) then f
    else
      let b := windowBit (i - l.w)
      let l1 := FrontLine.slide 64 { l with comp := l.comp ||| b, flight := l.flight &&& ~~~b }
      let lines := f.lines.filterMap fun x => if x.line ≠ line then some x else if L.inner ≤ l1.w then none else some l1
      L.openFront { f with lines := lines, done := f.done + 1 }

/-- A flushed point is neither complete nor in flight (R304). -/
def Front.unfire (f : Front) (line i : Nat) : Front :=
  { f with lines := f.lines.map fun l =>
      if l.line = line && l.w ≤ i && i - l.w < 64 then { l with flight := l.flight &&& ~~~windowBit (i - l.w) } else l,
           offered := f.offered.filter (· ≠ (line, i)) }

/-- Points of the space. -/
def Launch.pointCount (L : Launch) : Nat := L.record.x * L.record.y * L.record.z

end Sys2Proof.Machine
end

