-- ==== Sys2Proof/Machine/System.lean ====
section
/-! DEFINITION. The system words (R348 to R357, R364). -/
namespace Sys2Proof.Machine

/-! ## Traps -/

/-- `trap`: a precise software trap; a resume continues at the next word (R349). -/
def execTrap (n : BitVec 10) (s : State) : Out :=
  scalarWord s [] [] true fun T G =>
    raiseAt s T G.advance { kind := .softwareTrap, aux := n.toNat } G.spc.toNat 0xFF 0xFFFFFFFF

/-- The debug stop is enabled for an address space (R350, R386). -/
def State.brkEnabled (s : State) (asid : Nat) : Bool :=
  match s.asidSlot asid with
  | some (_, e) => field (e.word 0) 9 1 = 1
  | none => false

/-- `brk` (R350). -/
def execBrk (n : BitVec 10) (s : State) : Out :=
  scalarWord s [] [] true fun T G =>
    if s.brkEnabled T.asid then raiseAt s T G.advance { kind := .debugStop, aux := n.toNat } G.spc.toNat 0xFF 0xFFFFFFFF
    else done s T G

/-! ## `exit` -/

/-- The group is no longer live: its slot, queue and latches are free (R364). -/
def Group.exited (G : Group) : Group :=
  { G.withdraw with
           status := .exited, queue := [], tent := [], pfx := [], latches := [], wait := none, laneWait := none, stall := 0,
           arrived := none, arrivedDie := none, rerun := none, replay := none, mustStop := false, stopFault := false }

/-- `exit`: the barriers' completion tests are made again; the last group's exit ends the team (R364, R365). -/
def execExit (s : State) : Out :=
  scalarWord s [] [] true fun T G =>
    let s1 := (s.retire T G.exited).barrierExits T.launch T.die 1
    .next (s1.modTeam T.uid fun T => { T.settleBars with ending := T.liveCount = 0 })

/-! ## Control and status words -/

/-- The g of `id.team` (R356). -/
def Team.gWord (T : Team) : Nat := T.g.getD 0xFFFFFFFF

/-- The value a control or status word holds (R355, R356). -/
def State.csr (s : State) (T : Team) (G : Group) (c : Csr) : DWord :=
  match c with
  | .ctlRound => G.round
  | .ctlRpt => G.rpt
  | .ctlRng => G.rng
  | .ctlLull => G.lull
  | .stFp => G.fp
  | .stQ => G.q
  | .stFallback => G.fallback
  | .stStale => BitVec.ofNat 64 ((s.die T.die).stale + 2 ^ 32 * (s.gens.getD T.die 0).toNat)
  | .clk => BitVec.ofNat 64 (s.clock T.die)
  | .idGroup => BitVec.ofNat 64 (G.idx + 2 ^ 8 * (T.groups.length - 1) + 2 ^ 12 * G.role)
  | .idTeam => BitVec.ofNat 64 (T.num + 2 ^ 32 * T.gWord)
  | .idCore => BitVec.ofNat 64 (T.core + 2 ^ 16 * globalCore T.die T.core)
  | .idDie => BitVec.ofNat 64 (T.die + (if 4 ≤ T.die then 16 else 0))
  | .idLaunch =>
    BitVec.ofNat 64 (T.launch + 2 ^ 32 * T.asid + 2 ^ 48 * ((s.launch T.launch).map (·.record.cls)).getD 0)
  | .idPoint => BitVec.ofNat 64 (pointWord T.point)

/-- The words whose reading waits for the lane words (R357). -/
def csrWaits : Csr → Bool
  | .ctlRng | .stFp | .stQ | .stFallback => true
  | _ => false

/-- `csrr` (R352, R357). -/
def execCsrr (d : SReg) (c : Csr) (s : State) : Out :=
  scalarWord s [(20, d)] [d] true fun T G =>
    if csrWaits c && !s.lanesRetired T G then waitFor s T G .laneRetired else doneWith s T G d (s.csr T G c)

/-- What `ctl.round` stores (R356). -/
def storedRound (x : DWord) : DWord := let m := field x 0 2; if m = 3 then 0 else BitVec.ofNat 64 m

/-- What `ctl.rpt` stores (R243). -/
def storedRpt (x : DWord) : DWord :=
  let pin := field x 16 3
  let tgt := field x 8 8
  let tgt' := if tgt = 0 then 0 else if tgt < 66 then 66 else if 86 < tgt then 86 else tgt
  BitVec.ofNat 64 ((if 6 ≤ pin then 0 else pin) * 2 ^ 16 + tgt' * 2 ^ 8)

/-- What `ctl.rng` stores (R140). -/
def storedRng (x : DWord) : DWord :=
  let m := field x 0 2
  BitVec.ofNat 64 ((if m = 3 then 0 else m) + 4 * field x 2 55)

/-- What `ctl.lull` stores (R209). -/
def storedLull (x : DWord) : DWord :=
  let t := field x 0 32
  BitVec.ofNat 64 (if t = 0 then 0 else max t 256)

/-- Write a control or status word under its field rules (R98, R141, R339, R352, R356). -/
def Group.csrSet (G : Group) (c : Csr) (x : DWord) : Group :=
  match c with
  | .ctlRound => { G with round := storedRound x }
  | .ctlRpt => { G with rpt := storedRpt x }
  | .ctlRng => { G with rng := storedRng x }
  | .ctlLull => { G with lull := storedLull x }
  | .stFp => { G with fp := BitVec.ofNat 64 (field x 0 5) }
  | .stQ => { G with q := x }
  | .stFallback => { G with fallback := BitVec.ofNat 64 (field x 0 32) }
  | _ => G

/-- `csrw` (R352, R357); a word that is not writable raises the illegal-encoding trap. -/
def execCsrw (c : Csr) (a : SReg) (s : State) : Out :=
  if !c.writable then illegalScalar s [(14, a)] 0
  else scalarWord s [(14, a)] [a] true fun T G =>
    if !s.lanesRetired T G then waitFor s T G .laneRetired else done s T (G.csrSet c (G.sget a))

/-- `clock` (R353). -/
def execClock (d : SReg) (s : State) : Out :=
  scalarWord s [(20, d)] [d] true fun T G => doneWith s T G d (BitVec.ofNat 64 s.wallNs)

/-- `noise` and `noise.2`: n draws (R354, R140). -/
def noiseWord (s : State) (d : SReg) (n : Nat) : Out :=
  scalarWord s [(20, d)] [d] true fun T G =>
    if !s.lanesRetired T G then waitFor s T G .laneRetired
    else match s.takeDraws T G n G.spc 0xFF 0xFFFFFFFF with
      | .stop c => onPass s T G c (.next s)
      | .load s1 G1 => waitFor s1 T G1 .draws
      | .ok s1 G1 ws bad =>
        drawFault (doneWith s1 T { G1 with words := G1.words + 1 } d
          (BitVec.ofNat 64 ((ws.getD 0 0).toNat + 2 ^ 32 * (ws.getD 1 0).toNat))) (T.tag G G.spc) bad 0xFF 0xFFFFFFFF

/-- `noise` (R354). -/
def execNoise (d : SReg) (s : State) : Out := noiseWord s d 1

/-- `noise.2` (R354). -/
def execNoise2 (d : SReg) (s : State) : Out := noiseWord s d 2

end Sys2Proof.Machine
end

