-- ==== Sys2Proof/Machine/Launch.lean ====
section
/-! DEFINITION. Launch records: the checks of the dispatcher, the routes, `launch`, `flaunch` and `fpost` (R282 to R286,
R299, R305 to R307). -/
namespace Sys2Proof.Machine

/-! ## Reads by the dispatcher -/

/-- What a read by the dispatcher gives. -/
inductive DieRead where
  | ok (bs : List Byte)
  | bad (kind : FaultKind)
  | absent (pa : Nat)
deriving DecidableEq, Repr

/-- The first failing page of a read by the dispatcher, which walks the page tables (R158, R159, R387). -/
def State.dieReadFail (s : State) (asid : Nat) : List Nat → Option DieRead
  | [] => none
  | va :: rest =>
    match s.xlate 8 0 asid va with
    | .bad k => some (.bad k)
    | .absent pa => some (.absent pa)
    | .ok e => if e.r then s.dieReadFail asid rest else some (.bad .noRead)

/-- Where the dispatcher finds byte i of an extent. -/
def State.diePlace (s : State) (asid va : Nat) : Option Place :=
  match s.xlate 8 0 asid (va % 2 ^ 64) with
  | .ok e => some (s.readPlace 8 0 asid (va % 2 ^ 64) (e.loc (va % 2 ^ 64)))
  | _ => none

/-- n bytes as the dispatcher reads them at their homes: translation, permission, poison. -/
def State.dieRead (s : State) (asid va n : Nat) : DieRead :=
  match s.dieReadFail asid (extentPages va n) with
  | some f => f
  | none =>
    let ps := (List.range n).filterMap fun i => s.diePlace asid (va + i)
    if ps.any fun p => match p with
      | .mem l => s.poisoned l
      | .pad .. => false
    then .bad .memory else .ok (ps.map s.takeByte)

/-! ## The checks of a record (R283, R284) -/

/-- The route of a record (R284). -/
inductive Route where
  | program (asid : Nat) (front : Bool)
  | host
  | network
  | successor (asid : Nat)
deriving DecidableEq, Repr

/-- The address space a record runs in, if it may name it on its route; one that it names is configured (R283, R292). On
the program route 0 stands for the issuer's own, configured or not (DESIGN CHOICE, log 55). -/
def State.recordAsid (s : State) (rt : Route) (a : Nat) : Option Nat :=
  match rt with
  | .program own _ | .successor own => if a = 0 || (a = own && (s.asidSlot a).isSome) then some own else none
  | .host | .network => if a ≠ 0 && (s.asidSlot a).isSome then some a else none

/-- The verdict on a record. -/
inductive Verdict where
  | accept (r : Record) (h : Header) (f : Option Front)
  | refuse (code : Nat)
  | absent (pa : Nat)
deriving DecidableEq, Repr

/-- A launch is accepted and has not completed (R284). -/
def Launch.uncompleted (L : Launch) : Bool :=
  match L.stage with
  | .active | .cancelled | .saving _ | .saved _ => true
  | _ => false

/-- The launch a record and header describe, with an id (R283, R299). -/
def Launch.of (s : State) (id : Nat) (r : Record) (h : Header) (f : Option Front) : Launch :=
  let L : Launch := { id := id, asid := r.asid, record := r, header := h, dies := dieSet r.dies h.affinity, age := s.wallNs,
                      order := s.nextUid, placed := [], again := [], ended := 0, front := none, bars := [],
                      stage := .active, waits := [] }
  { L with front := if r.front then some (f.getD (Front.empty L.reserve)) else none }

/-- Class open, then room in the dispatcher and the class (R284, R293); before memory is trained no class is open (R391,
log 54). -/
def State.takeIn (s : State) (r : Record) (h : Header) (f : Option Front) : Verdict :=
  let waiting := s.launches.filter Launch.uncompleted
  if !s.control.trained || !s.classOpen r.cls then .refuse 0xFF04
  else if 16384 ≤ waiting.length || s.qmax r.cls ≤ (waiting.filter fun L => L.record.cls = r.cls).length then .refuse 0xFF05
  else .accept r h f

/-- The front save record of an `flaunch` (R303, R306): its flight word is 0. One whose flight word is not 0, or that lists more than
4,096 lines, is refused as malformed, 0xFF07, in the second case with its lines unread (DESIGN CHOICE, log 55). -/
def State.vetFront (s : State) (r : Record) (h : Header) (va : Nat) : Verdict :=
  if va % 8 ≠ 0 then .refuse 0xFF08
  else match s.dieRead r.asid va 64 with
    | .absent pa => .absent pa
    | .bad _ => .refuse 0xFF08
    | .ok hd =>
      let n := le hd 4 4
      if 4096 < n then .refuse 0xFF07
      else match s.dieRead r.asid va (64 + 24 * n) with
        | .absent pa => .absent pa
        | .bad _ => .refuse 0xFF08
        | .ok bs =>
          match (Launch.of s 0 r h none).parseFrontRecord bs with
          | some f => if le bs 32 8 = 0 then s.takeIn r h (some f) else .refuse 0xFF07
          | none => .refuse 0xFF07

/-- The checks of a record in the order of R284. -/
def State.vet (s : State) (rt : Route) (bs : List Byte) (saved : Option Nat) : Verdict :=
  let r := recordOf bs
  let form : Bool := match rt with
    | .program _ front => r.front != front
    | _ => false
  if form then .refuse 0xFF06
  else if !recordFrame bs then .refuse 0xFF01
  else match s.recordAsid rt r.asid with
    | none => .refuse 0xFF01
    | some a =>
      match s.dieRead a r.header 256 with
      | .absent pa => .absent pa
      | .bad _ => .refuse 0xFF03
      | .ok hb =>
        if !recordFits r hb then .refuse 0xFF01
        else match parseHeader hb with
          | none => .refuse 0xFF02
          | some h =>
            match saved with
            | none => s.takeIn { r with asid := a } h none
            | some va => s.vetFront { r with asid := a } h va

/-- Accept a record: the next launch id (R284). -/
def State.accept (s : State) (r : Record) (h : Header) (f : Option Front) : State :=
  { s with launches := s.launches ++ [Launch.of s s.nextLaunch r h f], nextLaunch := (s.nextLaunch + 1) % 2 ^ 32,
           nextUid := s.nextUid + 1 }

/-! ## `launch` and `flaunch` (R305, R306) -/

/-- A refusal code as S[SD] shows it (R305). -/
def refusalCode (c : Nat) : DWord := BitVec.ofNat 64 (2 ^ 64 - 2 ^ 16 + c)

/-- Both words: a release at device scope, then the dispatcher's answer. -/
def launchWord (s : State) (fields : List (Nat × SReg)) (regs : List SReg) (d a : SReg) (front : Bool)
    (saved : Option SReg) : Out :=
  scalarWord s fields regs true fun T G =>
    let va := (G.sget a).toNat
    onPass s T G (s.checkGlobal T 1 64 { r := true } [⟨0xFF, va, 64⟩])
      (if s.loadPoison T G .home va 64 then raise s T G { kind := .memory, acc := 1, addr := va }
       else if !G.performedAt T .dev then waitFor s T G (.performed .dev)
       else
         let s1 := s.renew T .home [(va, 64)]
         match s.vet (.program T.asid front) (s.loadBytes T G .home va 64) (saved.map fun b => (G.sget b).toNat) with
         | .absent pa => .fault (.noSuchDramAddress pa)
         | .refuse c => doneWith s1 T G d (refusalCode c)
         | .accept r h f => doneWith (s1.accept r h f) T G d (BitVec.ofNat 64 s.nextLaunch))

/-- `launch` (R305). -/
def execLaunch (d a : SReg) (s : State) : Out := launchWord s [(20, d), (14, a)] [d, a] d a false none

/-- `flaunch` (R306); SB = s0 names no front save record. -/
def execFlaunch (d a b : SReg) (s : State) : Out :=
  launchWord s [(20, d), (14, a), (8, b)] [d, a, b] d a true (if b = 0 then none else some b)

/-! ## `fpost` (R307) -/

/-- `fpost`. -/
def execFpost (d : SReg) (s : State) : Out :=
  scalarWord s [(20, d)] [d] true fun T G =>
    match (s.launch T.launch).bind fun L => L.front.bind fun f => T.point.map fun p => (L, f, p) with
    | none => raise s T G { kind := .noPoint }
    | some (L, f, p) =>
      if !G.performedAt T .dev then waitFor s T G (.performed .dev)
      else if L.complete f p then doneWith s T G d 0
      else
        let q := L.lineOf p
        let s1 := s.putLaunch { L with front := some (L.finish f q.1 q.2) }
        doneWith (s1.modTeam T.uid fun T => { T with posted := true }) T G d 1

/-! ## The host and network routes (R284 to R286) -/

/-- What a class counts (R284, R285). -/
inductive Counted where
  | malformed | tag | notOpen | full
deriving DecidableEq, Repr

/-- The counts of a class; class 16 stands for writes and datagrams that name none (log 24). -/
def State.refusalsOf (s : State) (c : Nat) : Refusals := (s.refusals.find? (·.cls = c)).getD ⟨c, 0, 0, 0, 0⟩

/-- Count a refused or dropped record. -/
def State.countRefusal (s : State) (c : Nat) (k : Counted) : State :=
  let r := s.refusalsOf c
  let r' : Refusals := match k with
    | .malformed => { r with malformed := r.malformed + 1 }
    | .tag => { r with tag := r.tag + 1 }
    | .notOpen => { r with notOpen := r.notOpen + 1 }
    | .full => { r with full := r.full + 1 }
  { s with refusals := r' :: s.refusals.filter (·.cls ≠ c) }

/-- Report something to the host. -/
def State.tell (s : State) (r : Report) : State := { s with reports := s.reports ++ [r] }

/-- A refused record is counted; it is reported on the host route, and on the network route where it is malformed
(R284). -/
def State.refuseRecord (s : State) (rt : Route) (cls code : Nat) : State :=
  let kind : Counted := if code = 0xFF04 then .notOpen else if code = 0xFF05 then .full else .malformed
  let s1 := s.countRefusal cls kind
  if rt = .network && kind ≠ .malformed then s1 else s1.tell (.refusedRecord cls code)

/-- One record of the host or network route. -/
def takeRecord (s : State) (rt : Route) (bs : List Byte) : Out :=
  let c := (recordOf bs).cls
  match s.vet rt bs none with
  | .absent pa => .fault (.noSuchDramAddress pa)
  | .refuse code => .next (s.refuseRecord rt c code)
  | .accept r h f => .next (s.accept r h f)

/-- A host write of bytes at an offset of the enabled record window (R286). -/
def windowWrite (s : State) (offset : Nat) (bytes : List Byte) : Out :=
  if offset % 64 ≠ 0 || 4096 ≤ offset || bytes.length ≠ 64 then .next (s.countRefusal 16 .malformed)
  else takeRecord s .host bytes

/-- HOST_RECORD_SUBMIT (R286). -/
def execHostRecordSubmit (offset : Nat) (bytes : List Byte) (s : State) : Out :=
  if field s.control.window 0 1 = 0 then .next s else windowWrite s offset bytes

/-- The records of a datagram in payload order. -/
def takeRecords (c : Nat) : List (List Byte) → State → Out
  | [], s => .next s
  | bs :: rest, s =>
    if (recordOf bs).cls ≠ c then takeRecords c rest (s.countRefusal c .malformed)
    else andThen (takeRecord s .network bs) (takeRecords c rest)

/-- RECORD_DATAGRAM (R285): a datagram on a port that is not enabled, or at no class's UDP port, is no record datagram. -/
def execRecordDatagram (port udpPort : Nat) (payload : List Byte) (s : State) : Out :=
  let base := field s.control.udp 0 16
  let c := udpPort - base
  let n := (payload.length - 8) / 64
  if 8 ≤ port || field s.control.udp (16 + port) 1 = 0 || udpPort < base || 16 ≤ c then .next s
  else if payload.length ≠ 8 + 64 * n || n = 0 || 16 < n then .next (s.countRefusal c .malformed)
  else if BitVec.ofNat 64 (le payload 0 8) ≠ s.tagOf c then .next (s.countRefusal c .tag)
  else takeRecords c ((List.range n).map fun i => (payload.drop (8 + 64 * i)).take 64) s

end Sys2Proof.Machine
end

