-- ==== Sys2Proof/Machine/Reduce.lean ====
section
/-! DEFINITION. Deadline reductions: `dred`, `dtake`, arrivals, deadlines, windows (R310 to R327). -/
namespace Sys2Proof.Machine

/-! ## The fixed tree (R316) -/

/-- The combine of an operation: TYPE and code of `combine`. -/
def redCombine (op : Nat) : ElemType × Nat :=
  match op with
  | 2 => (.f32, 10)
  | 3 => (.n32, 0)
  | _ => (.f32, 8)

/-- The result of no leaf. -/
def redAbsent (op : Nat) : Nat := if op = 2 then 0xFF800000 else 0

/-- One element over its 64 leaves; a NaN result is the canonical one. -/
def redElement (op : Nat) (leaves : List (Option Nat)) : Word :=
  let c := redCombine op
  let r := ((joinLevels c.1 c.2 (fun _ => .rne) 6 leaves ⟨0, 0⟩).1.getD 0 none).getD (redAbsent op)
  BitVec.ofNat 32 (if op ≠ 3 && (fmt32.decode r).isNan then fmt32.nanBits else r)

/-- Leaf i of an element over a bitmap. -/
def RedObj.leaf (o : RedObj) (m : BitVec 64) (e i : Nat) : Option Nat :=
  if i < o.ncon && m.getLsbD i then (o.leaves.find? (·.1 = i)).map fun l => (l.2.getD e 0).toNat else none

/-- The result over a bitmap (R316). -/
def RedObj.result (o : RedObj) (m : BitVec 64) : List Word :=
  (List.range o.len).map fun e => redElement o.op ((List.range 64).map (o.leaf m e))

/-! ## Objects (R310 to R315) -/

/-- The open object of a launch with an id. -/
def State.object (s : State) (launch id : Nat) : Option RedObj := s.objects.find? fun o => o.launch = launch && o.id = id

/-- Put an object back. -/
def State.putObject (s : State) (o : RedObj) : State :=
  { s with objects := s.objects.map fun x => if x.born = o.born then o else x }

/-- The deadline moment (R313). -/
def RedObj.td (o : RedObj) : Nat := o.t0 + o.dl

/-- The window has ended (R313). On a part that does not decide a peer object this is by the part's own open moment and clock, for the
check of a put and for the freeing: R325 gives the deciding root's clock for E and U alone (DESIGN CHOICE, log 23). -/
def RedObj.ended (o : RedObj) (now : Nat) : Bool := o.windowOver || decide (o.td + o.corr ≤ now)

/-- All contributors have arrived. -/
def RedObj.full (o : RedObj) : Bool := (List.range o.ncon).all fun i => o.union.getLsbD i

/-- The object is freed (R315). -/
def RedObj.freed (o : RedObj) (now : Nat) : Bool := o.closed && o.ended now && o.takers.isEmpty

/-- Free what may be freed (R315). -/
def State.freeObjects (s : State) : State :=
  { s with objects := s.objects.filter fun o => !o.freed s.wallNs }

/-- The objects of a launch go when it completes (R315). -/
def State.dropObjects (s : State) (launch : Nat) : State :=
  { s with objects := s.objects.filter (·.launch ≠ launch), peerOpens := s.peerOpens.filter (·.launch ≠ launch),
           opens := s.opens.filter (·.1.1 ≠ launch) }

/-- Count a contribution that reaches a freed object (R315); the 32-bit count wraps (DESIGN CHOICE, log 23). -/
def State.lostPut (s : State) : State := { s with control := { s.control with drops := s.control.drops + 1 } }

/-- Form the early result (R314). -/
def RedObj.formEarly (o : RedObj) : RedObj :=
  if o.earlyResult.isSome then o else { o with earlyResult := some (o.result o.early) }

/-- The window ends: the corrected result is formed; it equals the early one over an equal bitmap (R314, R323). -/
def RedObj.endWindow (o : RedObj) : RedObj :=
  let o1 := o.formEarly
  { o1 with corrected := some (o1.corrected.getD (o1.result o1.union)), windowOver := true }

/-- The part decides the results of a peer set (R325): it has the lowest peer index of the set (log 23). -/
def State.decides (s : State) (o : RedObj) : Bool :=
  !o.peer ||
    (match s.launch o.launch with
     | none => true
     | some L => match s.asidSlot L.asid with
       | some (_, e) => field (e.word 6) 0 16 = Config.lowestPeer (field (e.word 6) 16 48)
       | none => true)

/-- How often an id of a launch has been opened with peer = 1: which opening the next one is (R325). -/
def State.nextTurn (s : State) (launch obj : Nat) : Nat := ((s.opens.find? (·.1 = (launch, obj))).map (·.2)).getD 0

/-- What a frame of another part of the set says of an object that this part is still to open (R325): the first descriptor heard
of it is kept. -/
def State.hearPeer (s : State) (launch obj : Nat) (h : PeerHead) : State :=
  if h.turn ≠ s.nextTurn launch obj || s.peerOpens.any fun p => p.launch = launch && p.obj = obj && p.head.turn = h.turn then s
  else { s with peerOpens := s.peerOpens ++ [⟨launch, obj, h⟩] }

/-- The descriptor differs from the one that the peer set has for the object about to be opened (R325). -/
def State.peerDiffers (s : State) (launch obj : Nat) (desc : List Byte) : Bool :=
  s.peerOpens.any fun p => p.launch = launch && p.obj = obj && p.head.turn = s.nextTurn launch obj && p.head.desc ≠ desc

/-- This part has opened a peer object: the next opening of its id is another one (R325). -/
def State.countOpen (s : State) (launch obj : Nat) : State :=
  { s with opens := ((launch, obj), s.nextTurn launch obj + 1) :: s.opens.filter (·.1 ≠ (launch, obj)),
           peerOpens := s.peerOpens.filter fun p => !(p.launch = launch && p.obj = obj && p.head.turn = s.nextTurn launch obj) }

/-- A contribution arrives (R313): dropped, on time or late. -/
def RedObj.arrive (o : RedObj) (now idx : Nat) (xs : List Word) : RedObj :=
  if o.ended now || o.union.getLsbD idx then { o with drops := o.drops + 1 }
  else
    let b := windowBit idx
    let o1 := { o with leaves := o.leaves ++ [(idx, xs)], union := o.union ||| b,
                       early := if now < o.td then o.early ||| b else o.early }
    if o1.full then o1.endWindow else o1

/-! ## Tickets and extents (R312, R324) -/

/-- A ticket is well formed; its idx may be non-zero on `dred.put` only (R312). -/
def ticketOk (t : DWord) (put : Bool) : Bool := field t 22 42 = 0 && field t 12 4 = 0 && (put || field t 16 6 = 0)

/-- Translation, then protection of an extent of any length (R324). -/
def State.checkExtent (s : State) (T : Team) (acc : Nat) (need : Need) (va n : Nat) : Check :=
  let pages := extentPages va n
  firstCheck
    ((pages.map fun p => match s.xlate T.die T.core T.asid p with
      | .bad k => .trap { kind := k, acc := acc, addr := p }
      | .absent pa => .absent pa
      | .ok _ => .pass) ++
     (pages.map fun p => match s.xlate T.die T.core T.asid p with
      | .ok e => (match e.lacks need with
        | some k => .trap { kind := k, acc := acc, addr := p }
        | none => .pass)
      | _ => .pass))

/-- A check of alignment alone. -/
def checkMod (acc align va : Nat) : Check := checkAlign acc align [⟨0xFF, va, 1⟩]

/-- A protection fault of a reduction word unless a test holds. -/
def demand (ok : Bool) (k : FaultKind) : Check := if ok then .pass else .trap { kind := k }

/-! ## `dred.open` (R311, R319) -/

/-- An object descriptor keeps R311. -/
def descriptorOk (bs : List Byte) : Bool :=
  zeros bs 17 32 && bits (le bs 16 1) 1 7 = 0 && 1 ≤ le bs 8 4 && 1 ≤ le bs 4 4 && le bs 4 4 ≤ 262144 && 1 ≤ le bs 3 1 &&
    le bs 3 1 ≤ 64 && le bs 2 1 ≤ 3 && bits (le bs 0 2) 12 4 = 0

/-- A peer set is configured for an address space (R325, R386). -/
def State.peerSet (s : State) (asid : Nat) : Bool :=
  match s.asidSlot asid with
  | some (_, e) => field (e.word 0) 10 1 = 1
  | none => false

/-- The root's answer to an open (R319): the code, and the state with the object where it is 0. -/
def State.openObject (s : State) (T : Team) (bs : List Byte) : DWord × State :=
  let id := le bs 0 2
  let peer : Bool := bits (le bs 16 1) 0 1 = 1
  let used := (s.objects.map fun o => 8 * o.len).foldl (· + ·) 0
  if !descriptorOk bs then (refusalCode 0xFF12, s)
  else if peer && !s.peerSet T.asid then (refusalCode 0xFF14, s)
  else if peer && s.peerDiffers T.launch id bs then (refusalCode 0xFF12, s)
  else if (s.object T.launch id).isSome then (refusalCode 0xFF11, s)
  else if 1024 ≤ s.objects.length || 32 * 2 ^ 20 < used + 8 * le bs 4 4 then (refusalCode 0xFF13, s)
  else
    let o : RedObj := { launch := T.launch, id := id, born := s.nextUid, desc := bs, turn := s.nextTurn T.launch id,
                        op := le bs 2 1, ncon := le bs 3 1, len := le bs 4 4,
                        t0 := s.wallNs, dl := le bs 8 4, corr := le bs 12 4, peer := peer, leaves := [], early := 0, union := 0,
                        drops := 0, closed := false, windowOver := false, earlyResult := none, corrected := none,
                        takers := [] }
    let s1 := if peer then s.countOpen T.launch id else s
    (0, { s1 with objects := s.objects ++ [o], nextUid := s.nextUid + 1 })

/-- `dred.open` (R319). -/
def execDredOpen (d a : SReg) (s : State) : Out :=
  scalarWord s [(20, d), (14, a)] [d, a] true fun T G =>
    let va := (G.sget a).toNat
    onPass s T G (s.checkGlobal T 1 8 { r := true } [⟨0xFF, va, 32⟩])
      (match s.poisonAt T G .home va 32 with
       | some i => raise s T G { kind := .memory, acc := 1, addr := va + i }
       | none =>
       if !G.performedAt T .dev then waitFor s T G (.performed .dev)
       else let r := (s.renew T .home [(va, 32)]).openObject T (s.loadBytes T G .home va 32); doneWith r.2 T G d r.1)

/-! ## `dred.put`, `dred.wait`, `dred.close` -/

/-- Bytes of a contribution element (R311). -/
def RedObj.elemBytes (o : RedObj) : Nat := if o.op = 1 then 2 else 4

/-- `dred.put` (R320, R324). -/
def execDredPut (a b : SReg) (s : State) : Out :=
  scalarWord s [(14, a), (8, b)] [a, b] true fun T G =>
    let t := G.sget a
    let va := (G.sget b).toNat
    match s.object T.launch (field t 0 12) with
    | none => onPass s T G (firstCheck [demand (ticketOk t true) .badTicket, demand false .noObject]) (.next s)
    | some o =>
      onPass s T G (firstCheck [demand (ticketOk t true) .badTicket, demand (!o.closed && !o.ended s.wallNs) .noObject,
          demand (decide (field t 16 6 < o.ncon)) .badContributor, checkMod 1 16 va,
          s.checkExtent T 1 { r := true } va (o.len * o.elemBytes)])
        (done { s with puts := s.puts ++ [{ id := s.nextUid, tag := T.tag G G.spc, obj := o.id, born := o.born,
                                            idx := field t 16 6, src := va, fence := false }],
                       nextUid := s.nextUid + 1 } T G)

/-- The incomplete puts of a group, fences among them, in order. -/
def State.putsOf (s : State) (t g : Nat) : List Put := s.puts.filter fun p => p.tag.team = t && p.tag.group = g

/-- `dred.wait` (R321): an acquire at die scope. -/
def execDredWait (s : State) : Out :=
  scalarWord s [] [] true fun T G =>
    if (s.putsOf T.uid G.idx).any fun p => !p.fence then waitFor s T G .puts else done (s.acquire T.die T.core .die) T G

/-- `dred.close` (R322). -/
def execDredClose (d a : SReg) (s : State) : Out :=
  scalarWord s [(20, d), (14, a)] [d, a] true fun T G =>
    let t := G.sget a
    match s.object T.launch (field t 0 12) with
    | none => onPass s T G (firstCheck [demand (ticketOk t false) .badTicket, demand false .noObject]) (.next s)
    | some o =>
      onPass s T G (firstCheck [demand (ticketOk t false) .badTicket, demand (!o.closed) .noObject])
        (doneWith (s.putObject { o with closed := true }).freeObjects T G d (BitVec.ofNat 64 o.drops))

/-! ## `dtake` (R323, R324) -/

/-- No destination granule lies in an array in compute mode. -/
def State.checkTarget (s : State) (T : Team) (va n : Nat) : Check :=
  firstCheck ((List.range (n / 16 + 1)).map fun i =>
    let x := (va + 16 * i) % 2 ^ 64
    if n ≤ 16 * i then .pass
    else match s.padOf T x with
      | some (W, o) => if W.storeBusy o then .trap { kind := .arrayBusy, acc := 2, addr := x } else .pass
      | none => .pass)

/-- A store of the group is refused at the memory side: its page no longer translates with write permission, or its line holds
poison (R184). -/
def State.storeRefused (s : State) (T : Team) (va n : Nat) : Bool :=
  s.atomicPoison T va n || (match s.xlate T.die T.core T.asid va with
    | .ok e => !e.w
    | _ => true)

/-- Write result elements; the first address refused (R184). -/
def State.writeResult (s : State) (T : Team) (va : Nat) : List Word → State × Option Nat
  | [] => (s, none)
  | w :: ws =>
    let bad := s.storeRefused T va 4
    let r := State.writeResult (if bad then s else s.atomicWrite T va (leBytes w.toNat 4)) T ((va + 4) % 2 ^ 64) ws
    (r.1, if bad then some va else r.2)

/-- The result a take delivers, if it is formed, with its bitmap. -/
def RedObj.taken (o : RedObj) (corr : Bool) : Option (List Word × BitVec 64) :=
  if corr then o.corrected.map fun r => (r, o.union) else o.earlyResult.map fun r => (r, o.early)

/-- A take delivers a result and its bitmap, the wait over (R323): the writes are performed, refused ones are faults of the memory
side (R184), then the word is an acquire at die scope. -/
def deliverTake (s : State) (T : Team) (G : Group) (o : RedObj) (d : SReg) (va : Nat) (r : List Word × BitVec 64) : Out :=
  let s1 := (s.putObject { o with takers := o.takers.filter (· ≠ (T.uid, G.idx)) }).freeObjects
  let w := s1.writeResult T va r.1
  let s2 := (w.1.acquire T.die T.core .die).retire T (G.sset d r.2).advance
  match w.2 with
  | none => .next s2
  | some x => raiseImprecise s2 (T.tag G G.spc) { kind := .storeFault, acc := 2, addr := x } 0xFF 0xFFFFFFFF 0

/-- Both take words (R323, R324, R327): a take whose checks pass is accepted, and waits until its result is formed and the writes
that its own must follow are performed (R188, R198); WAIT_COMPLETE delivers it. A word abandoned at a stop stays accepted: when
it issues again it makes its checks again, but not that the object is open (DESIGN CHOICE, log 23). -/
def takeWord (s : State) (d a b : SReg) (corr : Bool) : Out :=
  scalarWord s [(20, d), (14, a), (8, b)] [d, a, b] true fun T G =>
    let t := G.sget a
    let va := (G.sget b).toNat
    match s.object T.launch (field t 0 12) with
    | none => onPass s T G (firstCheck [demand (ticketOk t false) .badTicket, demand false .noObject]) (.next s)
    | some o =>
      let mine := o.takers.contains (T.uid, G.idx)
      onPass s T G (firstCheck [demand (ticketOk t false) .badTicket, demand (mine || !o.closed) .noObject, checkMod 2 16 va,
            s.checkExtent T 2 { w := true } va (4 * o.len), s.checkTarget T va (4 * o.len)])
        (let wait :=
           waitFor (if mine then s else s.putObject { o with takers := o.takers ++ [(T.uid, G.idx)] }) T G
             (.take o.born corr va d)
         match o.taken corr with
         | none => wait
         | some r => if s.ordered T G [(va, 4 * o.len)] true then deliverTake s T G o d va r else wait)

/-- `dtake` (R323). -/
def execDtake (d a b : SReg) (s : State) : Out := takeWord s d a b false

/-- `dtake.corr` (R323). -/
def execDtakeCorr (d a b : SReg) (s : State) : Out := takeWord s d a b true

/-! ## The engines -/

/-- The core an asynchronous entry's issuer runs on; a core that does not exist where it has gone. -/
def State.tagCore (s : State) (g : Tag) : Nat := ((s.team g.team).map (·.core)).getD (coresOf g.die)

/-- The element bytes of a contribution as words (R311): bfloat16 is widened exactly. -/
def widen (op : Nat) (bs : List Byte) (n : Nat) : List Word :=
  (List.range n).map fun i =>
    if op = 1 then BitVec.ofNat 32 (le bs (2 * i) 2 * 2 ^ 16) else BitVec.ofNat 32 (le bs (4 * i) 4)

/-- The first granule of an extent that no longer translates, has lost its read permission or holds poison (R184, R320, R358). -/
def State.badGranule (s : State) (g : Tag) (va n : Nat) : Option (Nat × FaultKind) :=
  (List.range ((n + 15) / 16)).findSome? fun i =>
    let x := (va + 16 * i) % 2 ^ 64
    match s.xlate g.die (s.tagCore g) g.asid x with
    | .ok e =>
      (match e.lacks { r := true }, s.readPlace g.die (s.tagCore g) g.asid x (e.loc x) with
       | some k, _ => some (x, k)
       | none, .mem l => if s.poisoned l then some (x, .memory) else none
       | none, .pad .. => none)
    | .bad k => some (x, k)
    | .absent _ => some (x, .notMapped)

/-- The bytes of an extent as an engine reads them. -/
def State.engineBytes (s : State) (g : Tag) (va n : Nat) : List Byte :=
  (List.range n).map fun i => match s.granuleAt true g.die (s.tagCore g) g.asid ((va + i) % 2 ^ 64) with
    | .ok p => s.takeByte p.1
    | .error _ => 0

/-- Some granule of an extent lies in an array whose pass runs: the read of an entry waits (R174). -/
def State.engineBusy (s : State) (id : Nat) (g : Tag) (va n : Nat) : Bool :=
  (List.range ((n + 15) / 16)).any fun i =>
    match s.granuleAt true g.die (s.tagCore g) g.asid ((va + 16 * i) % 2 ^ 64) with
    | .ok p => s.placeBusy id p.1
    | .error _ => false

/-- CONTRIBUTION_ARRIVAL (R313, R315, R320): the oldest entry of its group's reduction stream is read and accepted. A part that does
not decide a peer object passes it on and counts no drop, so that `dred.close` gives 0 there (DESIGN CHOICE, log 23). -/
def execContributionArrival (id : Nat) (s : State) : Out :=
  match s.puts.find? fun p => p.id = id && !p.fence with
  | none => .next s
  | some p =>
    if ((s.putsOf p.tag.team p.tag.group).head?).map (·.id) ≠ some id then .next s
    else
      let gone := { s with puts := s.puts.filter fun q => !(q.id = id && !q.fence) }
      match s.objects.find? (·.born = p.born) with
      | none => .next gone.lostPut.settleFences
      | some o =>
        let n := o.len * o.elemBytes
        match s.badGranule p.tag p.src n with
        | some (x, k) => raiseImprecise gone.settleFences p.tag { kind := k, acc := 1, addr := x } 0xFF 0xFFFFFFFF 0
        | none =>
          if s.engineBusy p.id p.tag p.src n then .next s
          else if !s.decides o then .next gone.settleFences
          else .next ((gone.putObject (o.arrive s.wallNs p.idx (widen o.op (s.engineBytes p.tag p.src n) o.len))).freeObjects).settleFences

/-- DEADLINE_EXPIRY (R314). -/
def execDeadlineExpiry (launch obj : Nat) (s : State) : Out :=
  match s.object launch obj with
  | none => .next s
  | some o =>
    if s.wallNs < o.td || !s.decides o then .next s
    else .next (s.putObject (if o.corr = 0 then o.endWindow else o.formEarly)).freeObjects

/-- CORRECTION_WINDOW_END (R314). -/
def execCorrectionWindowEnd (launch obj : Nat) (s : State) : Out :=
  match s.object launch obj with
  | none => .next s
  | some o => if s.wallNs < o.td + o.corr || !s.decides o then .next s else .next (s.putObject o.endWindow).freeObjects

/-- The open peer object that a frame of another part is about: the same opening of the id, with an identical descriptor; a part
whose descriptor differs takes no part (R325). -/
def State.peerObject (s : State) (launch obj : Nat) (h : PeerHead) : Option RedObj :=
  (s.object launch obj).filter fun o => o.peer && o.turn = h.turn && decide (o.desc = h.desc)

/-- A peer's frame is about an opening of an id that is over here, or of an id that nothing has open (R315, R325). -/
def State.peerOver (s : State) (launch obj : Nat) (h : PeerHead) : Bool :=
  match s.object launch obj with
  | none => true
  | some o => decide (h.turn < o.turn)

/-- PEER_CONTRIBUTION (R325): a contribution of another part, widened by its sender. One whose object has been freed here is dropped
and counted part-wide, its id opened again or not (R315); so is one of an id that this part has not open (DESIGN CHOICE, log 23). -/
def execPeerContribution (launch obj idx : Nat) (frame : PeerFrame) (s0 : State) : Out :=
  let s := s0.hearPeer launch obj frame.head
  match s.peerObject launch obj frame.head with
  | none => .next (if s.peerOver launch obj frame.head then s.lostPut else s)
  | some o =>
    if !s.decides o || o.ncon ≤ idx || frame.data.length ≠ o.len then .next s
    else .next (s.putObject (o.arrive s.wallNs idx frame.data)).freeObjects

/-- The early or the corrected result of the deciding root, with its bitmap, as this part stores it (R314, R325). -/
def RedObj.receive (o : RedObj) (corr : Bool) (r : List Word) (m : BitVec 64) : RedObj :=
  if corr then { o with corrected := some r, union := m, windowOver := true } else { o with earlyResult := some r, early := m }

/-- PEER_RESULT (R325): a result of the deciding root reaches this part, the early or the corrected one, each by itself. -/
def execPeerResult (launch obj : Nat) (corr : Bool) (head : PeerHead) (r : List Word) (m : DWord) (s0 : State) : Out :=
  let s := s0.hearPeer launch obj head
  match s.peerObject launch obj head with
  | none => .next s
  | some o => if s.decides o then .next s else .next (s.putObject (o.receive corr r m)).freeObjects

end Sys2Proof.Machine
end

