-- ==== Sys2Proof/Machine/Stack.lean ====
section
/-! DEFINITION. The stack engines: command blocks, scans, bank adds, `cblk` (R328 to R344, R347). -/
namespace Sys2Proof.Machine

/-! ## Command blocks (R334 to R338) -/

/-- A command's op. -/
def cmdOp (c : List Byte) : Nat := le c 0 1

/-- A command keeps R335, R337 or R338. -/
def cmdOk (c : List Byte) : Bool :=
  let lenOk : Bool := 1 ≤ le c 12 4 && le c 12 4 ≤ 2 ^ 28
  match cmdOp c with
  | 0 =>
    let test := bits (le c 1 1) 0 4
    bits (le c 1 1) 6 2 = 0 && bits (le c 1 1) 4 2 ≠ 3 && test ≤ 9 && lenOk && 1 ≤ le c 2 2 && (test < 8 || le c 2 2 ≤ 256)
  | 1 => zeros c 2 12 && (le c 1 1 = 0 || le c 1 1 = 2) && lenOk
  | 2 => zeros c 1 32
  | 3 => le c 1 1 ≤ 1 && zeros c 2 32
  | _ => false

/-- The commands of a block of n. -/
def blockCmds (bs : List Byte) (n : Nat) : List (List Byte) := (List.range n).map fun j => (bs.drop (32 * j)).take 32

/-- A failing alignment of a block's flag and of its commands from index i on (R341). -/
def blockMisaligned (flag : Nat) (cmds : List (List Byte)) : Option (Nat × Nat) :=
  if flag % 8 ≠ 0 then some (flag, 3)
  else cmds.findSome? fun c =>
    match cmdOp c with
    | 0 => if le c 24 8 % 16 ≠ 0 then some (le c 24 8, 8) else none
    | 1 => if le c 24 8 % 4 ≠ 0 then some (le c 24 8, 9) else none
    | _ => none

/-- The group's entries of the stack stream, fences among them, in order. -/
def State.blocksOf (s : State) (t g : Nat) : List Block := s.blocks.filter fun b => b.tag.team = t && b.tag.group = g

/-- The group's blocks that are not complete. -/
def State.openBlocks (s : State) (t g : Nat) : Nat := ((s.blocksOf t g).filter fun b => !b.fence).length

/-- An earlier `v.badd` of the group has an add that is not accepted (R341). -/
def State.addsWait (s : State) (t g : Nat) : Bool :=
  s.adds.any fun a => !a.accepted && a.tag.team = t && a.tag.group = g && a.word.isSome

/-- A plain read of the group by a scalar word: translation, protection, poison; in an array whose pass runs or that switches it
waits (R174). -/
def State.checkBlockRead (s : State) (T : Team) (G : Group) (va n : Nat) : Check :=
  firstCheck [s.checkExtent T 1 { r := true } va n,
    match s.poisonAt T G .scalar va n with
    | some i => .trap { kind := .memory, acc := 1, addr := va + i }
    | none => .pass,
    s.checkArrays T 1 false [⟨0xFF, va, n⟩]]

/-- Adds a command sends. -/
def cmdAdds (c : List Byte) : Nat := if cmdOp c = 1 then le c 12 4 else 0

/-- The first sequence number of each command's adds, counted on from a number in program order (R331). -/
def cmdSeqs (n : BitVec 32) : List (List Byte) → List (BitVec 32)
  | [] => []
  | c :: l => n :: cmdSeqs (n + BitVec.ofNat 32 (cmdAdds c)) l

/-- Of the sequence numbers of a group, n that were reserved from one on are not sent after all: those after them fall by n, so
that they count the adds that are sent, in program order (R331, R337, R343). -/
def lowerSeq (start : BitVec 32) (n : Nat) (x : BitVec 32) : BitVec 32 :=
  let d := (x - start).toNat
  if decide (n ≤ d) && decide (d < 2 ^ 31) then x - BitVec.ofNat 32 n else x

/-- The adds of a group that are not sent after all are not counted (R331). -/
def State.unsend (s : State) (t g : Nat) (start : BitVec 32) (n : Nat) : State :=
  let mine (x : Tag) : Bool := x.team = t && x.group = g
  { s with
    seqs := s.seqs.map fun p => if p.1 = (t, g) then (p.1, lowerSeq start n p.2) else p,
    adds := s.adds.map fun a => if mine a.tag then { a with seq := lowerSeq start n a.seq } else a,
    blocks := s.blocks.map fun b => if mine b.tag then { b with seqs := b.seqs.map (lowerSeq start n) } else b }

/-- The adds that a block's commands from its next one on have not sent are not counted (R331, R343). -/
def State.unsendBlock (s : State) (b : Block) : State :=
  s.unsend b.tag.team b.tag.group (b.seqs.getD b.next 0 + BitVec.ofNat 32 b.adds)
    (((b.cmds.drop b.next).map cmdAdds).sum - b.sent)

/-- The block enters the group's stack stream (R341); its adds take their sequence numbers now, in program order (R331). -/
def enterBlock (s : State) (T : Team) (G : Group) (b : Block) : Out :=
  let todo := b.cmds.drop b.next
  let b1 := { b with id := s.nextUid,
                     seqs := List.replicate b.next 0 ++ cmdSeqs (s.nextSeq T.uid G.idx) todo }
  let s1 := s.countAdds T.uid G.idx (todo.map cmdAdds).sum
  done { s1 with blocks := s1.blocks ++ [b1], nextUid := s1.nextUid + 1 } T G

/-- Both `cblk` forms (R341): the block is read once and checked in order, then entered; a full stream is waited for with the
block as it was read. -/
def blockWord (s : State) (fields : List (Nat × SReg)) (a : SReg) (start : Group → Nat) : Out :=
  scalarWord s fields (fields.map (·.2)) true fun T G =>
    let va := (G.sget a).toNat
    let i := start G
    if s.addsWait T.uid G.idx then waitFor s T G .bankAdds
    else onPass s T G (firstCheck [checkMod 1 64 va, s.checkBlockRead T G va 16])
      (let hd := s.loadBytes T G .scalar va 16
       let n := le hd 0 1
       onPass s T G (if n = 0 then .pass else s.checkBlockRead T G (va + 16) (32 * n))
         (let cmds := blockCmds (s.loadBytes T G .scalar (va + 16) (32 * n)) n
          let flag := le hd 8 8
          if n < 1 || 16 < n || !zeros hd 1 8 || !cmds.all cmdOk || n ≤ i then raise s T G { kind := .badBlock }
          else match blockMisaligned flag (cmds.drop i) with
            | some (x, acc) => raise s T G { kind := .misaligned, acc := acc, addr := x }
            | none =>
              let b : Block := { id := 0, tag := T.tag G G.spc, va := va, flag := flag, cmds := cmds, next := i,
                                 started := false, sent := 0, adds := 0, ahead := [], pages := [], seqs := [],
                                  told := false, fell := 0, fence := false }
              let s1 := s.renew T .scalar [(va, 16 + 32 * n)]
              if 8 ≤ s.openBlocks T.uid G.idx then waitFor s1 T G (.blockRoom b) else enterBlock s1 T G b))

/-- `cblk` (R340, R341). -/
def execCblk (a : SReg) (i : BitVec 4) (s : State) : Out := blockWord s [(14, a)] a fun _ => i.toNat

/-- `cblk.r` (R340, R341). -/
def execCblkR (d a : SReg) (s : State) : Out := blockWord s [(20, d), (14, a)] a fun G => field (G.sget d) 0 4

/-- `cblk.wait` (R344): an acquire at die scope. -/
def execCblkWait (d : SReg) (n : BitVec 3) (s : State) : Out :=
  scalarWord s [(20, d)] [d] true fun T G =>
    let k := s.openBlocks T.uid G.idx
    if n.toNat < k then waitFor s T G (.blocks n.toNat)
    else doneWith (s.acquire T.die T.core .die) T (G.observe fun _ => true) d (BitVec.ofNat 64 k)

/-! ## Bank adds (R330 to R333) -/

/-- The key of an add (R331): launch, source, group, sequence number. -/
def BankAdd.key (a : BankAdd) : List Nat :=
  match a.tag.point with
  | some (x, y, z) => [a.tag.launch, x, y, z, a.tag.group, a.seq.toNat]
  | none => [a.tag.launch, a.tag.die, a.tag.num, 0, a.tag.group, a.seq.toNat]

/-- Lexicographic order of keys. -/
def keyLt : List Nat → List Nat → Bool
  | x :: l, y :: m => if x = y then keyLt l m else decide (x < y)
  | [], y :: _ => decide (0 ≤ y)
  | _, [] => false

/-- Insert an add by its key. -/
def insertAdd (a : BankAdd) : List BankAdd → List BankAdd
  | [] => [a]
  | b :: l => if keyLt a.key b.key then a :: b :: l else b :: insertAdd a l

/-- Adds in ascending key order. -/
def sortAdds (l : List BankAdd) : List BankAdd := l.foldr insertAdd []

/-- Deterministic mode of an address space (R332). -/
def State.deterministic (s : State) (asid : Nat) : Bool := s.detMode.contains asid

/-- The window of the issuing core that holds an add's word: the team and the offset (R162 step 2). -/
def State.addWindow (s : State) (a : BankAdd) : Option (Nat × Nat) :=
  a.core.bind fun c => (s.windowTeam a.tag.die c a.tag.asid a.va).map fun W => (W.uid, a.va % 2 ^ 64 - W.window)

/-- The place of the word an add changes: the issuing core's own window, a granule some scratchpad has registered, else DRAM
(R162, R172). -/
def State.addPlace (s : State) (a : BankAdd) : Place :=
  match s.addWindow a with
  | some (t, o) => .pad t o
  | none => s.homePlace ⟨false, a.pa⟩

/-- The place of the word an add reads: of an own window's granule that is not written the backing memory (R172). -/
def State.addSource (s : State) (a : BankAdd) : Place :=
  match s.addWindow a with
  | some (t, o) => if (s.team t).any (·.isWritten o) then .pad t o else .mem ⟨false, a.pa⟩
  | none => s.homePlace ⟨false, a.pa⟩

/-- Why an add is refused before its unit accepts it: its line holds poison; one of an `addv`, also an array that refuses it, unless it
came before the array's mode moment (R174, R184, R248, R264). A lane's add has passed its fault point (R182). -/
def State.addRefusal (s : State) (a : BankAdd) : Option FaultKind :=
  if a.block.isSome then s.storeRefusal a.born (s.addPlace a) else s.homeRefusal (s.addPlace a)

/-- An `addv` sends no add into an array that refuses it (R174). -/
def State.addRefused (s : State) (a : BankAdd) : Bool := s.addRefusal a = some .arrayBusy

/-- The new word (R330). -/
def BankAdd.new (a : BankAdd) (m : Nat) : Nat :=
  if a.float then addF32 m a.value.toNat else (m + a.value.toNat) % 2 ^ 32

/-- One atomic read-modify-write (R330). -/
def State.applyAdd (s : State) (a : BankAdd) : State :=
  let p := s.addPlace a
  let m := ofBytes ((List.range 4).map fun i => s.takeByte ((s.addSource a).plus i))
  (leBytes (a.new m) 4).zipIdx.foldl (fun s b => s.putByte (p.plus b.2) b.1 false) s

/-- The fault of a refused add (R174, R184). -/
def BankAdd.refusal (a : BankAdd) (k : FaultKind) : Trap :=
  { kind := k, acc := if a.block.isSome then 9 else 4, addr := a.va, aux := (a.block.map (·.2)).getD 0 }

/-- Apply an accepted add; its home refuses it for poison alone (R182, R184). -/
def takeAdd (s : State) (a : BankAdd) : Out :=
  match s.homeRefusal (s.addPlace a) with
  | some k => raiseImprecise s a.tag (a.refusal k) a.off a.lpc.toNat 0
  | none => .next (s.applyAdd a)

/-- Apply adds one after another. -/
def takeAdds : List BankAdd → State → Out
  | [], s => .next s
  | a :: l, s => andThen (takeAdd s a) (takeAdds l)

/-- Apply every accepted add of an address space, in key order (R332, R338). -/
def flushAdds (s : State) (asid : Nat) : Out :=
  let mine (a : BankAdd) : Bool := a.accepted && a.tag.asid = asid
  takeAdds (sortAdds (s.adds.filter mine)) { s with adds := s.adds.filter fun a => !mine a }

/-- Adds a bank-add unit buffers: those accepted in deterministic mode (R332). -/
def State.buffered (s : State) (bank : Nat) : Nat := (s.adds.filter fun a => a.held && Config.bankOf a.pa = bank).length

/-- An earlier store of the group to the same home die is not performed: the add is a write that follows it (R191, R198). -/
def State.storeBefore (s : State) (a : BankAdd) : Bool :=
  match a.word, s.find a.tag.team a.tag.group with
  | some w, some (_, G) => G.reqs.any fun r => r.kind = .store && !r.performed && r.home = some a.home && decide (r.word < w)
  | _, _ => false

/-- An add goes to DRAM, so that R198 speaks of it: it is not forwarded to a scratchpad. -/
def State.addHomed (s : State) (a : BankAdd) : Bool :=
  match s.addPlace a with
  | .mem _ => true
  | .pad .. => false

/-- An earlier `v.badd` of an add's group has an add to the same home die, or to the same word, in a list: they are writes of the
group in program order (R188, R191, R198). -/
def State.addsBefore (s : State) (a : BankAdd) (l : List BankAdd) : Bool :=
  l.any fun b => b.tag.team = a.tag.team && b.tag.group = a.tag.group &&
    (match b.word, a.word with
     | some v, some w => decide (v < w)
     | _, _ => false) && (b.pa = a.pa || (b.home = a.home && s.addHomed a && s.addHomed b))

/-- The request of a `v.badd` that an add belongs to is rejected still: it has no entry (R167). -/
def State.addUnentered (s : State) (a : BankAdd) : Bool :=
  match a.word, s.find a.tag.team a.tag.group with
  | some w, some (_, G) =>
    G.reqs.any fun r => r.kind = .bankAdd && r.word = w && !r.entry && decide (r.tag = ⟨false, a.pa / 256 * 256⟩)
  | _, _ => false

/-- BANK_ADD_ACCEPT (R167, R182, R330, R332): the unit takes add k, once its request holds an entry, unless its buffer is full; the
adds of one `addv` are accepted in ascending element order (R337), and none before an earlier store, or the adds of an earlier word,
of its group to that die (R198). The mode at this moment says whether the unit buffers it (R338); the home slice writes back the line
and drops it (R329). An add its home refuses leaves with its fault. -/
def execBankAddAccept (k : Nat) (s : State) : Out :=
  match s.adds[k]? with
  | none => .next s
  | some a =>
    let earlier := (s.adds.take k).any fun b => !b.accepted && a.block.isSome && b.block = a.block
    if a.accepted || earlier || s.storeBefore a || s.addsBefore a (s.adds.filter (!·.accepted)) || s.addUnentered a ||
        2048 ≤ s.buffered (Config.bankOf a.pa) then .next s
    else match s.addRefusal a with
    | some why => raiseImprecise { s with adds := s.adds.eraseIdx k } a.tag (a.refusal why) a.off a.lpc.toNat 0
    | none => .next { s.sliceWriteBack a.pa true with
                 adds := s.adds.set k { a with accepted := true, held := s.deterministic a.tag.asid } }

/-- BANK_ADD_APPLY (R330): a unit applies an add that it accepted outside deterministic mode at any time, the adds of one group's words
to one home die in program order (R198, R333; log 7). -/
def execBankAddApply (k : Nat) (s : State) : Out :=
  match s.adds[k]? with
  | none => .next s
  | some a =>
    if !a.accepted || a.held || s.addsBefore a s.adds then .next s
    else takeAdd { s with adds := s.adds.eraseIdx k } a

/-! ## Blocks (R342, R343) -/

/-- A block that is an entry, by its id. -/
def State.block (s : State) (id : Nat) : Option Block := s.blocks.find? fun b => b.id = id && !b.fence

/-- Put a block back. -/
def State.putBlock (s : State) (b : Block) : State :=
  { s with blocks := s.blocks.map fun x => if x.id = b.id && !x.fence then b else x }

/-- Change a block. -/
def State.modBlock (s : State) (id : Nat) (f : Block → Block) : State :=
  { s with blocks := s.blocks.map fun x => if x.id = id && !x.fence then f x else x }

/-- STACK_BLOCK_START (R200, R342): the oldest entry of its stream starts. -/
def execStackBlockStart (id : Nat) (s : State) : Out :=
  match s.block id with
  | none => .next s
  | some b =>
    if (((s.blocksOf b.tag.team b.tag.group).head?).map (·.id)) ≠ some id then .next s
    else .next (s.putBlock { b with started := true })

/-- The running command of a block, if its op is the one asked for. -/
def State.running (s : State) (id op : Nat) : Option (Block × List Byte) :=
  (s.block id).bind fun b => if b.started then (b.cmds[b.next]?).bind fun c => if cmdOp c = op then some (b, c) else none else none

/-- The command ends; one through the shuffle network is counted (R339). -/
def State.endCmd (s : State) (b : Block) (fell : Bool) : State :=
  s.putBlock { b with
    next := b.next + 1, sent := 0, adds := 0, ahead := [], pages := [], told := false,
    fell := if fell then b.fell + 1 else b.fell }

/-- Commands of a block through the shuffle network await their group's observation, by `cblk.wait` or through the flag word
(R339, R342); 0 is no flag. -/
def State.owe (s : State) (g : Tag) (n flag : Nat) : State :=
  if n = 0 then s
  else s.modTeam g.team fun T => match T.group g.group with
    | some G => T.putGroup { G with unseen := G.unseen ++ [(n, flag)] }
    | none => T

/-- The group waits for its blocks no longer: a `cblk.wait` or a `cblk` at which it waits has not completed, and is its stop point
(R343, R344). -/
def Group.leaveBlocks (G : Group) : Group :=
  match G.wait with
  | some ⟨.blocks _, _⟩ | some ⟨.blockRoom _, _⟩ => { G with wait := none }
  | _ => G

/-- The group that issued an entry waits for its blocks no longer. -/
def State.leaveBlocks (s : State) (g : Tag) : State :=
  s.modTeam g.team fun T => match T.group g.group with
    | some G => T.putGroup G.leaveBlocks
    | none => T

/-- Command j fails: its block ends without its flag, every later block of the stream is cancelled, and the group stops at its next
scalar turn, a word at which it waits for its blocks among those that do not complete (R343, R344). The shuffle-network commands that the
failed block has ended show in `st.fallback` at the group's next `cblk.wait`, since no completion of the block can be observed
(R339; DESIGN CHOICE, log 58). -/
def failBlock (s : State) (b : Block) (k : FaultKind) (acc addr : Nat) : Out :=
  let later := (s.blocksOf b.tag.team b.tag.group).filter fun x => !x.fence && x.id ≠ b.id
  let s0 := later.reverse.foldl State.unsendBlock s
  let s1 := { s0.unsendBlock b with blocks := (s0.unsendBlock b).blocks.filter fun x =>
    x.fence || !(x.tag.team = b.tag.team && x.tag.group = b.tag.group) }
  raiseImprecise (((s1.owe b.tag b.fell 0).settleFences).leaveBlocks b.tag) b.tag { kind := k, acc := acc, addr := addr, aux := b.va } 0xFF
    0xFFFFFFFF (b.next + 16 * later.length)

/-- The home die of an entry's page at an address, where it is a B-die, and which of its base dies holds it (R328). -/
def TlbEntry.baseDie (e : TlbEntry) (va : Nat) : Option (Nat × Nat) :=
  match e.homeDie va with
  | some d => if d < 4 then none else some (d, Config.stackOf ((e.loc va).addr / 64) % 2)
  | none => none

/-- Translation of an address for a stack command: the issuing die's hub finds the base die that holds it, and that die
translates it through its buffer, else through its die's L2 TLB (R328). -/
def State.stackXlate (s : State) (g : Tag) (va0 : Nat) : Xlate :=
  let va := va0 % 2 ^ 64
  match s.xlate g.die (coresOf g.die) g.asid va with
  | .ok e =>
    match e.baseDie va with
    | none => .ok e
    | some (d, b) =>
      match ((s.die d).base.getD b []).find? (·.hits g.asid va) with
      | some x => .ok x
      | none => s.xlate d (coresOf d) g.asid va
  | x => x

/-- The base dies that hold some of n bytes on one page, each with the first address that it holds of them: a line lies in one
(R328, log 17). -/
def TlbEntry.baseParts (e : TlbEntry) (va n : Nat) : List ((Nat × Nat) × Nat) :=
  ((List.range ((va % 64 + n + 63) / 64)).map fun i => if i = 0 then va else (va / 64 + i) * 64).foldl (fun l x =>
    match e.baseDie x with
    | some b => if l.any (·.1 = b) then l else l ++ [(b, x)]
    | none => l) []

/-- The addresses of an extent at which it is translated: on each page the first, and the first of each further base die that holds
some of it, which translates its own part (R328). -/
def State.stackPoints (s : State) (g : Tag) (va n : Nat) : List Nat :=
  (extentPages va n).flatMap fun p =>
    match s.xlate g.die (coresOf g.die) g.asid p with
    | .ok e => (p :: (e.baseParts p (min (2 ^ 16 - p % 2 ^ 16) ((va % 2 ^ 64 + n + 2 ^ 64 - p) % 2 ^ 64))).map (·.2)).eraseDups
    | _ => [p]

/-- The buffers of the base dies that hold an extent take the translations of their parts of it, 1,024 entries each (R328). -/
def State.fillBase (s : State) (g : Tag) (va n : Nat) : State :=
  (s.stackPoints g va n).foldl (fun s p =>
    match s.stackXlate g p with
    | .ok e => (match e.baseDie p with
      | some (d, b) => let D := s.die d; s.putDie d { D with base := setAt D.base b (tlbAdd 1024 (D.base.getD b []) e) }
      | none => s)
    | _ => s) s

/-- The first part of an extent that fails for a stack command: translation, then permission, then its home (R328, R343). -/
def State.stackFail (s : State) (g : Tag) (need : Need) (bDie : Bool) (va n : Nat) : Option (FaultKind × Nat) :=
  let pages := s.stackPoints g va n
  let bad := pages.findSome? fun p => match s.stackXlate g p with
    | .bad k => some (k, p)
    | _ => none
  let perm := pages.findSome? fun p => match s.stackXlate g p with
    | .ok e => (e.lacks need).map fun k => (k, p)
    | _ => none
  let home := pages.findSome? fun p => match s.stackXlate g p with
    | .ok e => if bDie && ((e.homeDie p).map fun d => decide (d < 4)).getD true then some (FaultKind.notStackHomed, p) else none
    | _ => none
  bad.orElse fun _ => perm.orElse fun _ => home

/-- An address of an extent that no DRAM has. -/
def State.stackAbsent (s : State) (g : Tag) (va n : Nat) : Option Nat :=
  (s.stackPoints g va n).findSome? fun p => match s.stackXlate g p with
    | .absent pa => some pa
    | _ => none

/-- Where a stack engine finds a byte. -/
def State.stackPlace (s : State) (g : Tag) (va : Nat) : Place :=
  match s.stackXlate g va with
  | .ok e => s.readPlace g.die (coresOf g.die) g.asid (va % 2 ^ 64) (e.loc (va % 2 ^ 64))
  | _ => .mem ⟨false, 0⟩

/-- The addresses of the poisoned granules of an extent. -/
def State.stackPoison (s : State) (g : Tag) (va n : Nat) : List Nat :=
  let first := va / 16
  (List.range ((va + n + 15) / 16 - first)).filterMap fun i =>
    let x := (first + i) * 16 % 2 ^ 64
    if s.placePoisoned (s.stackPlace g (max x va)) then some x else none

/-- A 4-byte element. -/
def State.stackWord (s : State) (g : Tag) (va : Nat) : Nat :=
  ofBytes ((List.range 4).map fun i => s.takeByte (s.stackPlace g (va + i)))

/-- Raise a command's memory fault, at its first poisoned granule (R336, R337). -/
def raisePoison (b : Block) (acc : Nat) : List Nat → State → Out
  | [], s => .next s
  | x :: _, s => raiseImprecise s b.tag { kind := .memory, acc := acc, addr := x, aux := b.va } 0xFF 0xFFFFFFFF b.next

/-! ### `scan` (R335, R336) -/

/-- An element's order under an etype: a < b. -/
def scanLt (etype a b : Nat) : Bool :=
  match etype with
  | 0 => (BitVec.ofNat 32 a).slt (BitVec.ofNat 32 b)
  | 1 => decide (a < b)
  | _ => (fmt32.decode a).lt (fmt32.decode b)

/-- Equality under an etype. -/
def scanEq (etype a b : Nat) : Bool := if etype = 2 then (fmt32.decode a).eq (fmt32.decode b) else a = b

/-- A pattern is NaN under an etype. -/
def scanNan (etype x : Nat) : Bool := etype = 2 && (fmt32.decode x).isNan

/-- A predicate test of an element (R335). -/
def scanHolds (etype test a b x : Nat) : Bool :=
  let lt := scanLt etype
  let eq := scanEq etype
  if test = 1 then scanNan etype x || scanNan etype a || !eq x a
  else if scanNan etype x || scanNan etype a || scanNan etype b then false
  else match test with
    | 0 => eq x a
    | 2 => lt x a
    | 3 => lt x a || eq x a
    | 4 => lt a x
    | 5 => lt a x || eq x a
    | 6 => (lt a x || eq x a) && (lt x b || eq x b)
    | _ => lt x a || lt b x

/-- Insert an entry into a top-k list: `before` orders values, ties keep the lower index first. -/
def insertTop (before : Nat → Nat → Bool) (p : Nat × Nat) : List (Nat × Nat) → List (Nat × Nat)
  | [] => [p]
  | q :: l => if before p.2 q.2 then p :: q :: l else q :: insertTop before p l

/-- The selected entries in their order: index and pattern (R335, R336). -/
def scanSelect (etype test a b cap : Nat) (xs : List (Nat × Nat)) : List (Nat × Nat) :=
  if test < 8 then xs.filter fun p => scanHolds etype test a b p.2
  else
    let before (x y : Nat) : Bool := if test = 8 then scanLt etype y x else scanLt etype x y
    ((xs.filter fun p => !scanNan etype p.2).foldl (fun l p => insertTop before p l) []).take cap

/-- The bytes a scan writes at out (R336). -/
def scanOutput (sel : List (Nat × Nat)) (cap : Nat) : List Byte :=
  let w := min sel.length cap
  leBytes sel.length 8 ++ leBytes w 8 ++ (sel.take w).flatMap fun p => leBytes p.1 4 ++ leBytes p.2 4

/-- Write bytes of the stack engine for a block accepted at some moment; the first address that is refused: a poisoned line, or an
array that refuses it (R174, R184, R248, R264). An output inside a scratchpad window is written there (DESIGN CHOICE, log 47). -/
def State.stackWrite (s : State) (g : Tag) (born va : Nat) : List Byte → State × Option (Nat × FaultKind)
  | [] => (s, none)
  | b :: bs =>
    let p := s.stackPlace g va
    let bad := s.storeRefusal born p
    let home := match s.stackXlate g va with
      | .ok e => e.homeDie va
      | _ => none
    let s1 := match p with
      | .mem l => s.touchHome home l true .none
      | .pad .. => s
    let r := State.stackWrite (if bad.isSome then s else s1.putByte p b false) g born ((va + 1) % 2 ^ 64) bs
    (r.1, match bad with
      | some k => some (va, k)
      | none => r.2)

/-- The home slices write back the dirty bytes of a region before a scan reads it (R329). -/
def State.writeBackRegion (s : State) (g : Tag) (va n : Nat) : State :=
  (List.range ((va % 64 + n + 63) / 64)).foldl (fun s i =>
    match s.stackPlace g (va / 64 * 64 + 64 * i) with
    | .mem l => if l.host then s else s.sliceWriteBack l.addr false
    | .pad .. => s) s

/-- SCAN (R335, R336, R343): the whole region is read before any output is written. -/
def execScan (id : Nat) (s : State) : Out :=
  match s.running id 0 with
  | none => .next s
  | some (b, c) =>
    let base := le c 16 8
    let n := le c 12 4
    let out := le c 24 8
    let cap := le c 2 2
    let test := bits (le c 1 1) 0 4
    let etype := bits (le c 1 1) 4 2
    let room := 16 + 8 * min cap n
    match (s.stackFail b.tag { r := true } true base (4 * n)).orElse fun _ => s.stackFail b.tag { w := true } false out room with
    | some (k, x) => failBlock s b k 8 x
    | none =>
      match (s.stackAbsent b.tag base (4 * n)).orElse fun _ => s.stackAbsent b.tag out room with
      | some pa => .fault (.noSuchDramAddress pa)
      | none =>
        if s.engineBusy b.id b.tag base (4 * n) then .next s
        else
          let poison := s.stackPoison b.tag base (4 * n)
          let clean (i : Nat) : Bool := !(poison.contains ((base + 4 * i) / 16 * 16) || poison.contains ((base + 4 * i + 3) / 16 * 16))
          let xs := ((List.range n).filter clean).map fun i => (i, s.stackWord b.tag (base + 4 * i))
          let sel := scanSelect etype test (le c 4 4) (le c 8 4) cap xs
          let s0 := ((s.fillBase b.tag base (4 * n)).fillBase b.tag out room).writeBackRegion b.tag base (4 * n)
          let w := s0.stackWrite b.tag b.id out (scanOutput sel cap)
          andThen (raisePoison b 8 poison (w.1.endCmd b (base % 64 ≠ 0))) fun s =>
            match w.2 with
            | none => .next s
            | some x => raiseImprecise s b.tag { kind := x.2, acc := 8, addr := x.1, aux := b.va } 0xFF 0xFFFFFFFF b.next

/-! ### `addv` (R337) -/

/-- The translations of an extent, page by page. -/
def State.stackPages (s : State) (g : Tag) (va n : Nat) : List TlbEntry :=
  (extentPages va n).filterMap fun p => match s.stackXlate g p with
    | .ok e => some e
    | _ => none

/-- The translation that a running `addv` has checked of an address. -/
def Block.entry (b : Block) (va : Nat) : Option TlbEntry := b.pages.find? (·.hits b.tag.asid va)

/-- Where a running `addv` finds a byte of its source, by the translation it has checked. -/
def State.sourcePlace (s : State) (b : Block) (va : Nat) : Place :=
  match b.entry va with
  | some e => s.readPlace b.tag.die (coresOf b.tag.die) b.tag.asid va (e.loc va)
  | none => s.stackPlace b.tag va

/-- The 16-byte granule at an address, from the address on, read in one step; none for each byte of a poisoned one (R201,
R337). -/
def State.readAhead (s : State) (b : Block) (va : Nat) : List (Option Byte) :=
  let bad := s.placePoisoned (s.sourcePlace b va)
  (List.range (16 - va % 16)).map fun i => if bad then none else some (s.takeByte (s.sourcePlace b ((va + i) % 2 ^ 64)))

/-- The add of element i of an `addv` with its value (R331, R337). -/
def vectorAdd (b : Block) (c : List Byte) (i : Nat) (x : Nat) : BankAdd :=
  let va := (le c 24 8 + 4 * i) % 2 ^ 64
  { tag := b.tag, seq := b.seqs.getD b.next 0 + BitVec.ofNat 32 b.adds, va := va,
    pa := ((b.entry va).map fun e => (e.loc va).addr).getD 0, home := ((b.entry va).bind fun e => e.homeDie va).getD 0,
    float := le c 1 1 = 2, value := BitVec.ofNat 32 x, accepted := false, held := false, born := b.id, word := none, core := none, block := some (b.id, b.va),
    off := 0xFF, lpc := 0xFFFFFFFF }

/-- The next element of an `addv` whose bytes have been read: its add is sent, or refused by an array; a poisoned element sends
none, and its number is not counted (R174, R331, R337). -/
def sendElement (s : State) (b : Block) (c : List Byte) (bs : List (Option Byte)) : Out :=
  let b1 := { b with sent := b.sent + 1, ahead := b.ahead.drop 4 }
  if bs.any Option.isNone then
    .next ((s.unsend b.tag.team b.tag.group (b.seqs.getD b.next 0 + BitVec.ofNat 32 b.adds) 1).modBlock b.id fun x =>
      { x with sent := b1.sent, ahead := b1.ahead })
  else
    let a := vectorAdd b c b.sent (ofBytes (bs.filterMap id))
    let s1 := s.putBlock { b1 with adds := b.adds + 1 }
    if s.addRefused a then
      raiseImprecise s1 b.tag { kind := .arrayBusy, acc := 9, addr := a.va, aux := b.va } 0xFF 0xFFFFFFFF b.next
    else .next { s1 with adds := s.adds ++ [a] }

/-- The next granule of the source of an `addv` is read; the first poisoned one is reported (R201, R337). -/
def readElement (s : State) (b : Block) (va : Nat) : Out :=
  if s.engineBusy b.id b.tag va 1 then .next s
  else
    let bs := s.readAhead b va
    let bad := bs.any Option.isNone
    let s1 := s.putBlock { b with ahead := b.ahead ++ bs, told := b.told || bad }
    if bad && !b.told then raisePoison b 9 [va / 16 * 16] s1 else .next s1

/-- One step of a running `addv`: the next granule is read where the next element is not read whole, else its add is sent. -/
def addvElement (s : State) (b : Block) (c : List Byte) : Out :=
  if b.ahead.length < 4 then readElement s b ((le c 16 8 + 4 * b.sent + b.ahead.length) % 2 ^ 64)
  else sendElement s b c (b.ahead.take 4)

/-- ADDV (R337, R343): both extents are checked before any add is sent, and the command goes on with the translations it has
checked; then granule by granule and element by element in ascending order, stopping at an element until its add is accepted
(R332); the command ends when every add it sent is accepted. -/
def execAddv (id : Nat) (s : State) : Out :=
  match s.running id 1 with
  | none => .next s
  | some (b, c) =>
    let src := le c 16 8
    let dst := le c 24 8
    let n := le c 12 4
    if s.adds.any fun a => !a.accepted && a.block = some (b.id, b.va) then .next s
    else if n ≤ b.sent then .next (s.endCmd b (src % 64 ≠ 0 || dst % 64 ≠ 0))
    else if b.pages ≠ [] then addvElement s b c
    else match (s.stackFail b.tag { r := true } false src (4 * n)).orElse fun _ => s.stackFail b.tag { w := true } true dst (4 * n) with
      | some (k, x) => failBlock s b k 9 x
      | none =>
        match (s.stackAbsent b.tag src (4 * n)).orElse fun _ => s.stackAbsent b.tag dst (4 * n) with
        | some pa => .fault (.noSuchDramAddress pa)
        | none =>
          let b1 := { b with pages := s.stackPages b.tag src (4 * n) ++ s.stackPages b.tag dst (4 * n) }
          addvElement (((s.fillBase b.tag src (4 * n)).fillBase b.tag dst (4 * n)).putBlock b1) b1 c

/-- What a block still names: its flag and the extents of its commands. -/
def Block.extents (b : Block) : List (Nat × Nat) :=
  (b.flag, 8) :: (b.cmds.drop b.next).flatMap fun c =>
    let n := le c 12 4
    match cmdOp c with
    | 0 => [(le c 16 8, 4 * n), (le c 24 8, 16 + 8 * min (le c 2 2) n)]
    | 1 => [(le c 16 8, 4 * n), (le c 24 8, 4 * n)]
    | _ => []

/-! ### `flush` and `mode` (R338) -/

/-- FLUSH (R338). -/
def execFlush (id : Nat) (s : State) : Out :=
  match s.running id 2 with
  | none => .next s
  | some (b, _) => andThen (flushAdds s b.tag.asid) fun s => .next (s.endCmd b false)

/-- MODE (R338): turning the mode off first applies the buffer. -/
def execMode (id : Nat) (s : State) : Out :=
  match s.running id 3 with
  | none => .next s
  | some (b, c) =>
    let on : Bool := bits (le c 1 1) 0 1 = 1
    if on then .next ({ s with detMode := insertNat s.detMode b.tag.asid }.endCmd b false)
    else andThen (if s.deterministic b.tag.asid then flushAdds s b.tag.asid else .next s) fun s =>
      .next ({ s with detMode := s.detMode.filter (· ≠ b.tag.asid) }.endCmd b false)

/-- STACK_BLOCK_COMPLETE (R342): every command has ended, the flag add is performed, the block leaves its stream. -/
def execStackBlockComplete (id : Nat) (s : State) : Out :=
  match s.block id with
  | none => .next s
  | some b =>
    if !b.started || b.next < b.cmds.length then .next s
    else
      let gone (s : State) : State :=
        ({ s with blocks := s.blocks.filter fun x => x.fence || x.id ≠ id }.owe b.tag b.fell b.flag).settleFences
      if b.flag = 0 then .next (gone s)
      else match s.flagFault b.tag.die (coresOf b.tag.die) b.tag.asid b.flag b.id with
        | some k => raiseImprecise (gone s) b.tag { kind := k, acc := 3, addr := b.flag, aux := b.va } 0xFF 0xFFFFFFFF b.next
        | none => .next (gone (s.addFlag b.tag.die (coresOf b.tag.die) b.tag.asid b.flag))

end Sys2Proof.Machine
end

