-- ==== Sys2Proof/Machine/Wait.lean ====
section
/-! DEFINITION. What ends a wait; the end of an array's switch (R248, R250); the memory system's own steps; illegal words and
fetch faults (R32, R57, R71, R116, R160, R164 to R167, R172, R198, R208, R381). -/
namespace Sys2Proof.Machine

/-! ## Waits -/

/-- What a group waits for has come (R71 to R73, R86, R204 to R208). -/
def State.waitOver (s : State) (T : Team) (G : Group) : WaitFor → Bool
  | .registers rs => !rs.any G.pending
  | .inFlight => decide (G.loads.length < 8)
  | .tentativeRoom => decide (G.tent.length < 16) || G.queue.isEmpty
  | .laneFaultPoints => G.queue.isEmpty
  | .laneRetired => s.lanesRetired T G
  | .laneRoom n => decide (G.queue.length + n ≤ 32)
  | .predicate k => !G.predBusy k
  | .performed sc => G.performedAt T sc
  | .ordered vas write => s.ordered T G vas write
  | .barrier b ph => (T.bar b).phase ≠ ph
  | .dieBarrier ph => match s.launch T.launch with
    | some L => (L.bar T.die).phase ≠ ph
    | none => true
  | .memory c a v _ => s.awaitOver T G c a v
  | .yield => true
  | .fullGranules gs => s.granulesFull gs
  | .collector => true
  | .take born corr _ _ => match s.objects.find? (·.born = born) with
    | some o => (o.taken corr).isSome
    | none => true
  | .copyRoom q => !s.queueFull q
  | .copies q n => decide (s.ownCopies T G q ≤ n)
  | .matrixRoom => !G.streamFull
  | .batchRoom => decide (G.openBatches < 16)
  | .batch n => match n with
    | some n => G.batchOver n
    | none => G.pendingEntries.isEmpty
  | .puts => !(s.putsOf T.uid G.idx).any fun p => !p.fence
  | .blockRoom _ => decide (s.openBlocks T.uid G.idx < 8)
  | .blocks n => decide (s.openBlocks T.uid G.idx ≤ n)
  | .bankAdds => !s.addsWait T.uid G.idx
  | .draws => !G.drawsLoad
  | .arrays k n _ _ => ((T.array k).map fun a => decide (n ≤ a.switched)).getD true
  | .arrayPass t k => match s.team t with
    | none => true
    | some W => !W.loadBusy (24576 * k)
  | .mapSlot m => !G.busy.any (·.maps.contains m)
  | .cellQuiet => !s.cellWork T
  | .missEntry => !G.reqs.any fun r => !r.entry && !r.performed && (r.kind = .atomic || r.pads ≠ [])

/-- WAIT_COMPLETE (R71): what the waiting word waits for has come, and it goes on at the next scalar turn; an `amode` goes on
with its next array or is over (R248), a `cblk` enters the block it has read (R341), a take delivers its result
(R323). An `await` reads memory again by AWAIT_POLL. -/
def execWaitComplete (t g : Nat) (s : State) : Out :=
  match s.find t g with
  | none => .next s
  | some (T, G) =>
    match G.wait with
    | none => .next s
    | some w =>
      match w.what with
      | .memory .. => .next s
      | .arrays k n rest compute =>
        if s.waitOver T G (.arrays k n rest compute) then amodeNext s T G compute rest else .next s
      | .blockRoom b =>
        if s.waitOver T G (.blockRoom b) then andThen (enterBlock s T G b) fun s => .next (s.finishStops t g) else .next s
      | .take born corr va d =>
        match s.objects.find? (·.born = born) with
        | none => .next (s.put T { G with wait := none })
        | some o =>
          match o.taken corr with
          | some r => if s.ordered T G [(va, 4 * o.len)] true then deliverTake s T G o d va r else .next s
          | none => .next s
      | k => if s.waitOver T G k then .next (s.put T { G with wait := none }) else .next s

/-- LANE_RESULT_WRITEBACK (R116): the oldest result of a long-latency word over registers lands. -/
def execLaneResultWriteback (t g : Nat) (s : State) : Out :=
  match s.find t g with
  | none => .next s
  | some (T, G) =>
    match G.busy.findIdx? fun b => !b.memory && !b.matrix with
    | none => .next s
    | some i => .next (s.put T { G with busy := G.busy.eraseIdx i }).noteReady

/-! ## The end of an array's switch (R248, R250) -/

/-- The stretches of memory behind an array of a team: first place and bytes of each (R169, R171). -/
def Team.arraySpans (T : Team) (arr : Nat) : List (Loc × Nat) :=
  T.backing.zipIdx.filterMap fun p =>
    let lo := max (16384 * p.2) (24576 * arr)
    let hi := min (16384 * (p.2 + 1)) (24576 * (arr + 1))
    if lo < hi then some (p.1.plus (lo - 16384 * p.2), hi - lo) else none

/-- An extent of an engine touches an array of a team. -/
def State.extentIn (s : State) (T : Team) (arr die core asid va n : Nat) : Bool :=
  decide (0 < n) && (extentPages va n).any fun p =>
    match s.xlate die core asid p with
    | .ok e =>
      let l := e.loc p
      let len := min (2 ^ 16 - p % 2 ^ 16) ((va % 2 ^ 64 + n + 2 ^ 64 - p) % 2 ^ 64)
      (T.arraySpans arr).any fun x => x.1.host = l.host && decide (x.1.addr < l.addr + len) && decide (l.addr < x.1.addr + x.2)
    | _ => false

/-- A matrix entry that issued before a moment is to read a scale byte of the array (R248, R257, R270). -/
def MatrixEntry.readsFrom (e : MatrixEntry) (T : Team) (arr moment : Nat) : Bool :=
  e.unread && decide (e.born < moment) && (e.ascales.places ++ e.bscales.places).any fun r => r.any fun x => T.arrayHolds arr x.2

/-- A contribution accepted before a moment is to be read from the array (R248, R320). -/
def State.putReads (s : State) (T : Team) (arr moment : Nat) (p : Put) : Bool :=
  !p.fence && decide (p.id < moment) && (s.objects.find? (·.born = p.born)).any fun o =>
    s.extentIn T arr p.tag.die (s.tagCore p.tag) p.tag.asid p.src (o.len * o.elemBytes)

/-- A command block accepted before a moment names the array: in an extent of a command that has not ended, or with its flag
(R248, R342). -/
def State.blockNames (s : State) (T : Team) (arr moment : Nat) (b : Block) : Bool :=
  !b.fence && decide (b.id < moment) && b.extents.any fun x =>
    decide (x.1 ≠ 0) && s.extentIn T arr b.tag.die (coresOf b.tag.die) b.tag.asid x.1 x.2

/-- An entry that passed its fault point before a moment has an access to the array that is not performed: a copy, a matrix entry's
scale bytes, a contribution, a command block (R224, R248). -/
def State.entriesInto (s : State) (T : Team) (arr moment : Nat) : Bool :=
  s.copiesBefore T.uid moment || (s.teams.any fun W => W.groups.any fun G => G.stream.any (·.readsFrom T arr moment)) ||
    s.puts.any (s.putReads T arr moment) || s.blocks.any (s.blockNames T arr moment)

/-- ARRAY_MODE_SWITCH_COMPLETE (R248): every access that passed its fault point before the mode moment is performed, those of
groups and those of entries, and toward storage every pass has ended. An array of a team all of whose groups have exited returns to
storage mode once its copies are complete, the team has left its cell and the array's last pass has ended (R250, R365). -/
def execArrayModeSwitchComplete (t arr : Nat) (s : State) : Out :=
  match s.team t with
  | none => .next s
  | some T =>
    match T.array arr with
    | none => .next s
    | some a =>
      let quiet := !s.storesInto T arr a.moment && !s.entriesInto T arr a.moment
      let done (m : ArrayMode) : Out :=
        .next (s.putTeam (T.modArray arr fun a => { a with mode := m, switched := a.switched + 1 }))
      match a.mode with
      | .toCompute => if quiet then done .compute else .next s
      | .toStorage => if quiet && !T.passesOn arr a then done .storage else .next s
      | .compute => if T.ending && !s.teamCopies T.uid && T.cell.isNone && !T.passesOn arr a then done .storage else .next s
      | .storage => .next s

/-! ## Requests (R166, R167) -/

/-- Fill one line into the cache a load names (R90, R163 to R165); the core's other cache, where it holds the line, takes the same
bytes, so that no later load of the core finds an older copy (R188). -/
def State.fillLine (s0 : State) (die core : Nat) (r : Req) (i : Nat) : State :=
  let l := r.tag.plus (64 * i)
  if !s0.fillable l then s0
  else
    let s := if r.fill = .none || r.fill = .slice then s0 else s0.renewLine die core l
    let C := s.core die core
    let bs := s.fillBytes die core l
    match r.fill with
    | .none | .slice => s
    | .l1 => s.putCore { C with l1 := cacheFill C.l1 (some l1Blocks) l bs r.hint false }
    | .scalar => s.putCore { C with scalar := cacheFill C.scalar none l bs r.hint false }
    | .constant => s.putCore { C with scalar := cacheFill C.scalar none l bs r.hint true }

/-- A load that memory serves allocates its line in the home slice (R163, R164). -/
def State.fillHome (s : State) (r : Req) (i : Nat) : State :=
  let l := r.tag.plus (64 * i)
  if r.fill = .none || !s.fillable l then s else s.touchHome r.home l false r.hint

/-- The lines a request touches. -/
def Req.touched (r : Req) : List Nat := (List.range 4).filter fun i => r.lines.getLsbD i

/-- The response or acknowledgement of a request may arrive. -/
def State.canRespond (s : State) (T : Team) (G : Group) (r : Req) : Bool :=
  r.entry && (match r.kind with
    | .load => true
    | .store | .atomic => r.performed
    | .bankAdd => !s.adds.any fun a => !a.accepted && a.tag.team = T.uid && a.tag.group = G.idx && a.word = some r.word)

/-- The results of a word land with its last request (R71, R116). -/
def Group.landed (G : Group) (word : Nat) : Group :=
  if G.reqs.any (·.word = word) then G
  else { G with busy := G.busy.filter fun b => !(b.memory && b.word = word), loads := G.loads.filter (·.1 ≠ word) }

/-- MEMORY_RESPONSE (R167, R184): the oldest request that may be answered leaves its miss entry, its lines fill, its word's
results land, and poison it met is reported. -/
def execMemoryResponse (t g : Nat) (s : State) : Out :=
  match s.find t g with
  | none => .next s
  | some (T, G) =>
    match G.reqs.findIdx? (s.canRespond T G) with
    | none => .next s
    | some i =>
      match G.reqs[i]? with
      | none => .next s
      | some r =>
        let s1 := if r.kind = .load then r.touched.foldl (fun s k => (s.fillHome r k).fillLine T.die T.core r k) s else s
        let s2 := (s1.put T ({ G with reqs := G.reqs.eraseIdx i }.landed r.word)).noteReady
        match r.bad with
        | none => .next s2
        | some b =>
          raiseImprecise s2 (T.tag G r.spc) { kind := .memory, acc := 1, addr := b.2, lane := b.1 } r.off r.lpc.toNat 0

/-- An older senior request of the core waits for an entry (R167). -/
def State.elderWaits (s : State) (die core since : Nat) : Bool :=
  s.teams.any fun T => T.die = die && T.core = core && T.groups.any fun G => G.reqs.any fun r =>
    !r.entry && decide (16 ≤ r.age) && decide (r.since < since)

/-- The operand a lane atomic's step has for a lane. -/
def AtomWork.operand (w : AtomWork) (get : AtomStep → Nat) (l : Nat) : Nat := ((w.steps.find? (·.lane = l)).map get).getD 0

/-- Request i of a group, rejected until now, takes its entry and acts (R167): a store updates the core's lines (R164) and writes
what it has for the core's own scratchpads (R172), a lane atomic makes its steps (R181). -/
def takeEntry (s : State) (T : Team) (G : Group) (i : Nat) (r0 : Req) : Out :=
  let r := { r0 with entry := true, stamp := s.lastStamp T.die T.core + 1 }
  match r.atom with
  | some w =>
    atomAct s T G w.fields w.returns (w.operand (·.c)) (w.operand (·.e))
      (w.steps.map fun x => ⟨x.lane, x.va, elemBytes w.fields⟩) r.spc r.off r.lpc fun s1 G1 =>
        s1.put T { G1 with reqs := G1.reqs.set i r.atomDone }
  | none =>
    let s1 := s.writePads r
    .next ((s1.put T { G with reqs := G.reqs.set i r.padsDone, regs := G.regs ++ s1.unregisteredOf r.padGranules }).follow T.die
      T.core [r])

/-- Present request i of a group again (R167): it takes an entry where one is free for it, and acts; else it has been rejected once
more. A write behind a rejected write of its group is rejected (log 7). -/
def representOne (s : State) (t g i : Nat) : Out :=
  match s.find t g with
  | none => .next s
  | some (T, G) =>
    match G.reqs[i]? with
    | none => .next s
    | some r =>
      let mayTake : Bool := s.entriesUsed T.die T.core < 64 && !s.elderWaits T.die T.core r.since &&
        (decide (16 ≤ r.age) || !s.seniorWaits T.die T.core) &&
        (r.kind = .load || (G.reqs.take i).all fun x => x.kind = .load || x.entry)
      if r.entry then .next s
      else if mayTake then takeEntry s T G i r
      else .next (s.put T { G with reqs := G.reqs.set i { r with age := r.age + 1 } })

/-- REQUEST_REPRESENT (R167): every rejected request of the group is presented again, in order. -/
def execRequestRepresent (t g : Nat) (s : State) : Out :=
  match s.find t g with
  | none => .next s
  | some (_, G) => (List.range G.reqs.length).foldl (fun o i => andThen o fun s => representOne s t g i) (.next s)

/-- The bytes of a store at their home; those refused there are not written (R184). -/
def State.performStore (s : State) (r : Req) : State :=
  r.data.foldl (fun s p =>
    let l : Loc := ⟨r.tag.host, p.1⟩
    let h := s.homePlace l
    if (s.homeRefusal h).isSome then s
    else match h with
      | .mem l => (s.touchHome r.home l true r.hint).putByte h p.2 false
      | .pad .. => s.putByte h p.2 false) s

/-- The first line of a store that its home refuses: why, its address and its lane. -/
def State.refusedMark (s : State) (r : Req) : Option (FaultKind × Nat × Nat) :=
  r.marks.findSome? fun m => r.data.findSome? fun p =>
    if p.1 / 64 = m.1 then (s.homeRefusal (s.homePlace ⟨r.tag.host, p.1⟩)).map fun k => (k, m.2) else none

/-- What a group has on its way to home slices: a store, by its place in the group's requests, or a granule to register. -/
inductive HomeWork where
  | store (i : Nat) (r : Req)
  | register (team granule : Nat)
deriving DecidableEq, Repr

/-- What may reach its home now (R172, R198): each store that nothing holds back, each registration. -/
def State.homeWork (s : State) (T : Team) (G : Group) : List HomeWork :=
  ((G.reqs.zipIdx.filter fun p => s.mayPerform T G p.2 p.1).map fun p => HomeWork.store p.2 p.1) ++
    G.regs.map fun x => .register x.1 x.2

/-- A granule is registered with its home slice's directory (R172). -/
def State.register (s : State) (t k : Nat) : State :=
  s.modTeam t fun T => { T with unregistered := T.unregistered.filter (· ≠ k) }

/-- A store is performed at its home, a granule is registered there (R172, R191). -/
def doHomeWork (s : State) (T : Team) (G : Group) : HomeWork → Out
  | .register t k => .next ((s.register t k).modTeam T.uid (·.putGroup { G with regs := G.regs.erase (t, k) }))
  | .store i r =>
    let s1 := (s.performStore r).modTeam T.uid (·.putGroup { G with reqs := G.reqs.set i { r with performed := true } })
    match s.refusedMark r with
    | none => .next s1
    | some (k, va, lane) =>
      raiseImprecise s1 (T.tag G r.spc) { kind := k, acc := 2, addr := va, lane := lane } r.off r.lpc.toNat 0

/-- HOME_SLICE_REQUEST (R172, R198, R411): one of what the group has on its way reaches its home; where the rules leave the order
open, a free choice says which (log 7). -/
def execHomeSliceRequest (t g : Nat) (s : State) : Out :=
  match s.find t g with
  | none => .next s
  | some (T, G) =>
    match s.homeWork T G with
    | [] => .next s
    | [x] => doHomeWork s T G x
    | x :: l => doHomeWork (s.bump 1) T G (((x :: l)[Config.freeChoice s.freeCtr % (x :: l).length]?).getD x)

/-! ## Page walks and fabric messages -/

/-- PAGE_WALK (R160): a walk fills the die's and the core's TLBs. -/
def execPageWalk (die core : Nat) (asid : BitVec 16) (va : DWord) (s : State) : Out :=
  if 8 ≤ die || coresOf die ≤ core || !canonical va.toNat then .next s
  else match s.walk asid.toNat va.toNat with
    | none => .next s
    | some e =>
      let D := s.die die
      let C := s.core die core
      .next ((s.putDie die { D with tlb := tlbAdd 8192 D.tlb e }).putCore { C with tlb := tlbAdd 64 C.tlb e })

/-- FABRIC_MESSAGE_RECEIVE (R356, R381): a message arrives; a stale one is dropped and counted on its die. -/
def execFabricMessageReceive (receiver sender : Nat) (gen : BitVec 4) (response : Bool) (s : State) : Out :=
  let now := s.gens.getD (if response then receiver else sender) 0
  let s1 := { s with fabric := s.fabric.erase ⟨receiver, sender, gen, response⟩ }
  if gen = now || 8 ≤ receiver then .next s1
  else
    let D := s1.die receiver
    .next (s1.putDie receiver { D with stale := min (D.stale + 1) (2 ^ 32 - 1) })

/-! ## Illegal words and fetch faults -/

/-- ILLEGAL_ENCODING_SCALAR_WORD (R40, R57, R58): precise at the word or the first prefix of its run. -/
def execIllegalEncodingScalarWord (w : Word) (s : State) : Out :=
  match s.current with
  | none => .next s
  | some (T, G) =>
    if G.queue.isEmpty then
      raise s T G { kind := .illegalEncoding, aux := (scalarIllegal G.bud G.pfx w).getD 26 + 256 * G.pfx.length }
    else waitFor s T G .laneFaultPoints

/-- ILLEGAL_ENCODING_LANE_WORD (R57, R58): at the fault point of the word at the head of the queue. -/
def execIllegalEncodingLaneWord (w : LaneBits) (s : State) : Out :=
  match s.current with
  | none => .next s
  | some (T, G) =>
    match G.queue with
    | [] => .next s
    | e :: _ => raiseLane s T G e { kind := .illegalEncoding, aux := (laneIllegal G.bud (Raw.ofBits w)).getD 88 }

/-- The address of a failing scalar fetch. -/
def State.fetchAddr (s : State) (T : Team) (G : Group) : Nat :=
  let i := (G.spc + BitVec.ofNat 32 G.pfx.length).toNat
  match s.fetchScalar T i with
  | .bad _ va => va
  | _ => ((s.header T).scalBase + 4 * i) % 2 ^ 64

/-- INSTRUCTION_FETCH_FAULT (R32, R79, R80): a lane word that could not be fetched faults at its fault point, a scalar fetch
precise at the word. -/
def execInstructionFetchFault (f : FetchFault) (s : State) : Out :=
  match s.current with
  | none => .next s
  | some (T, G) =>
    match G.queue with
    | e :: _ =>
      (match e.fetch with
       | .fault k va => raiseLane s T G e { kind := fetchKind k, acc := 5, addr := va }
       | .word _ => waitFor s T G .laneFaultPoints)
    | [] => raise s T G { kind := fetchKind f, acc := 5, addr := s.fetchAddr T G }

end Sys2Proof.Machine
end

