-- ==== Sys2Proof/Machine/Place.lean ====
section
/-! DEFINITION. The dispatcher: room and placement, team start and end, fronts, completion, handoff, successors, the energy
window (R25 to R27, R68, R169 to R173, R287 to R302, R365). -/
namespace Sys2Proof.Machine

/-! ## Room (R25, R27) -/

/-- The role of group i: its number and the role (R66). -/
def roleAt (rs : List Role) (i : Nat) : Option (Nat × Role) :=
  ((rs.zipIdx.flatMap fun p => List.replicate p.1.groups (p.2, p.1))[i]?)

/-- The budgets of a team's groups by index. -/
def Header.budgets (h : Header) : List (Nat × Budget) :=
  (List.range h.team).filterMap fun i => (roleAt h.roles i).map fun p => (i, p.2.bud)

/-- The teams that hold resources of a core. -/
def State.onCore (s : State) (d c : Nat) : List Team := s.teams.filter fun T => T.present && T.die = d && T.core = c

/-- Registers in the granules of n that the registers of a list lie in. -/
def granulesOf (n : Nat) (rs : List Nat) : Nat := n * ((rs.map (· / n)).eraseDups).length

/-- The accumulators an entry of the matrix stream writes: ceil(cols / 64) of them for a `v.amm` (R246). -/
def MatrixOp.accs : MatrixOp → List Nat
  | .amm a _ tile _ _ _ => (List.range ((field tile 32 9 + 63) / 64)).map (a + ·)
  | .accld a .. | .accscl a .. => [a]
  | .accclr a n => (List.range n).map (a + ·)
  | _ => []

/-- The registers a group holds of each pool: its budget while it lives; after its exit the granules that a write still
outstanding will land in (R364). -/
def Group.held (G : Group) : Budget :=
  if G.live then G.bud
  else
    { v := granulesOf 8 (G.busy.flatMap (·.vecs)),
      s := granulesOf 8 (((G.loads.map (·.2.toNat)) ++ G.busy.flatMap fun b => b.sregs.map (·.toNat)).filter (· < 56)),
      t := 0,
      a := granulesOf 2 (G.stream.flatMap (·.op.accs)) }

/-- The groups that hold, or may hold, registers of a core. -/
def State.holders (s : State) (d c : Nat) : List Group := (s.onCore d c).flatMap (·.groups)

/-- Sum over a list. -/
def sumOf (l : List α) (f : α → Nat) : Nat := (l.map f).foldl (· + ·) 0

/-- Free slots of a pipe, ascending; slot numbers are 8 × pipe + slot. -/
def State.freeSlots (s : State) (d c pipe : Nat) : List Nat :=
  let used := (s.onCore d c).flatMap fun T => (T.groups.filter Group.live).map (·.slot)
  ((List.range 8).map (8 * pipe + ·)).filter fun x => !used.contains x

/-- Slots for group indices, each on pipe (i mod 2) (R25). -/
def slotsFor (free0 free1 : List Nat) : List Nat → Option (List Nat)
  | [] => some []
  | i :: rest =>
    if i % 2 = 0 then match free0 with
      | [] => none
      | x :: l => (slotsFor l free1 rest).map (x :: ·)
    else match free1 with
      | [] => none
      | x :: l => (slotsFor free0 l rest).map (x :: ·)

/-- The lowest run of free scratchpad pages (R27, R169). -/
def State.freePages (s : State) (d c n : Nat) (aligned : Bool) : Option Nat :=
  let used (p : Nat) : Bool := (s.onCore d c).any fun T => decide (T.page ≤ p) && decide (p < T.page + T.pages)
  (List.range (49 - n)).find? fun p => (!aligned || p % 3 = 0) && (List.range n).all fun i => !used (p + i)

/-- Room on a core for groups with these indices and budgets and for n pages: the slots and the first page (R27). -/
def State.room (s : State) (d c : Nat) (gs : List (Nat × Budget)) (n : Nat) (aligned : Bool) : Option (List Nat × Nat) :=
  let held := s.holders d c
  let vectors (pipe : Nat) : Bool :=
    sumOf (held.filter (·.idx % 2 = pipe)) (·.held.v) + sumOf (gs.filter (·.1 % 2 = pipe)) (·.2.v) ≤ 512
  let pool (f : Budget → Nat) (cap : Nat) : Bool := sumOf held (fun G => f G.held) + sumOf gs (fun g => f g.2) ≤ cap
  if coresOf d ≤ c || s.gated.contains (globalCore d c) then none
  else if vectors 0 && vectors 1 && pool (·.s) 640 && pool (·.t) 128 && pool (·.a) 128 then
    match slotsFor (s.freeSlots d c 0) (s.freeSlots d c 1) (gs.map (·.1)), s.freePages d c n aligned with
    | some slots, some page => some (slots, page)
    | _, _ => none
  else none

/-- Some core of a die has room. -/
def State.dieRoom (s : State) (d : Nat) (gs : List (Nat × Budget)) (n : Nat) (aligned : Bool) : Bool :=
  (List.range (coresOf d)).any fun c => (s.room d c gs n aligned).isSome

/-- Scratchpad pages of a kernel. -/
def Header.pages (h : Header) : Nat := h.scratch / 16384

/-- Room on a core for a new team of a launch. -/
def State.newRoom (s : State) (L : Launch) (d c : Nat) : Option (List Nat × Nat) :=
  s.room d c L.header.budgets L.header.pages (decide (0 < L.header.arrays))

/-- The groups of a saved team that hold something: those not exited. -/
def Team.budgets (T : Team) : List (Nat × Budget) := (T.groups.filter Group.live).map fun G => (G.idx, G.bud)

/-- Room on a core for a saved team. -/
def State.oldRoom (s : State) (T : Team) (c : Nat) : Option (List Nat × Nat) :=
  s.room T.die c T.budgets T.pages (!T.arrays.isEmpty)

/-! ## What a launch offers (R287, R301) -/

/-- A team to place: g of a plain launch, or a fired point by line and inner index. -/
inductive Offer where
  | plain (g : Nat)
  | point (line inner : Nat)
deriving DecidableEq, Repr

/-- Teams of g mod |D| = i not yet offered: the next one on a die (R287). -/
def Launch.freshG (L : Launch) (d : Nat) : Option Nat :=
  let i := L.dies.findIdx (· = d)
  let g := i + (assoc L.placed d).getD 0 * L.dies.length
  if i < L.dies.length && g < L.record.x * L.record.y * L.record.z then some g else none

/-- A team to be offered again on a die (R370). -/
def Launch.againG (L : Launch) (d : Nat) : Option Nat := L.again.find? fun g => L.dies.getD (g % L.dies.length) 8 = d

/-- The lowest free front slot of a launch on a die (R301). -/
def State.frontSlot (s : State) (L : Launch) (d : Nat) : Option Nat :=
  let used := (s.teams.filter fun T => T.launch = L.id && T.die = d).map (·.num)
  (List.range 4096).find? fun n => !used.contains n

/-- The next team of a launch for a die, with its `%team`: of the fired points the first, once no point before it can fire still, since a
point fires as soon as it can (R301). -/
def State.offer (s : State) (L : Launch) (d : Nat) : Option (Offer × Nat) :=
  match L.front with
  | some f => if f.reserved && L.dies.contains d then
      match f.offered.head?, s.frontSlot L d with
      | some p, some n => if L.firesBefore f p.1 p.2 then none else some (.point p.1 p.2, n)
      | _, _ => none
    else none
  | none => ((L.againG d).orElse fun _ => L.freshG d).map fun g => (.plain g, g / L.dies.length)

/-- The launch is in dispatch: active, its address space resident, memory trained (R158, R284). -/
def State.dispatches (s : State) (L : Launch) : Bool := L.stage = .active && s.resident L.asid && s.control.trained

/-- A launch has a team ready for a die that fits on some core of it (R294). -/
def State.ready (s : State) (L : Launch) (d : Nat) : Bool :=
  s.dispatches L && (s.offer L d).isSome && s.dieRoom d L.header.budgets L.header.pages (decide (0 < L.header.arrays))

/-! ## Energy (R295) -/

/-- The charge of a launch's team. -/
def Launch.charge (L : Launch) : Nat := 2 ^ (L.header.energy + 4)

/-- The host pins a die's clock. -/
def State.pinned (s : State) (d : Nat) : Nat := field s.control.pin (8 * d) 8

/-- The clock a die runs at when power does not lower it (R295, R391). -/
def State.nominal (s : State) (d : Nat) : Nat :=
  if !s.control.calibrated.getLsbD d then 350 else if s.pinned d = 0 then 700 else 50 * s.pinned d

/-- The charge fits what remains of the budget and of the class's share. -/
def State.fitsEnergy (s : State) (L : Launch) (d : Nat) : Bool :=
  let D := s.die d
  let c := L.record.cls
  decide ((L.charge : Int) ≤ D.left) &&
    (s.share c = 0 || decide (256 * ((assoc D.spent c).getD 0 + L.charge) ≤ s.share c * D.budget))

/-- Deduct a placement's charge. -/
def State.deduct (s : State) (L : Launch) (d : Nat) : State :=
  let D := s.die d
  let c := L.record.cls
  s.putDie d { D with left := D.left - L.charge, spent := assocSet D.spent c ((assoc D.spent c).getD 0 + L.charge) }

/-- The older of two launches. -/
def older (L M : Launch) : Launch := if M.order < L.order then M else L

/-- The oldest launch of a list. -/
def oldest : List Launch → Option Launch
  | [] => none
  | L :: l => some (l.foldl older L)

/-- The launches of the highest priority among those ready for a die (R294, R295). -/
def State.contenders (s : State) (d : Nat) : List Launch :=
  let ls := s.launches.filter fun L => s.ready L d
  let top := (ls.map fun L => s.priority L.record.cls).foldl max 0
  ls.filter fun L => s.priority L.record.cls = top

/-- The launch the dispatcher takes for a die, and whether its charge fits (R295); on a pinned die there is no energy
test. -/
def State.choose (s : State) (d : Nat) : Option (Launch × Bool) :=
  let ls := s.contenders d
  if s.pinned d ≠ 0 then (oldest ls).map fun L => (L, true)
  else match oldest (ls.filter fun L => s.fitsEnergy L d) with
    | some L => some (L, true)
    | none => (oldest ls).map fun L => (L, false)

/-- The power manager lowers a die's clock in 50 MHz steps, to no lower than 350 MHz (R295, log 18). -/
def State.lower (s : State) (d : Nat) : State :=
  let D := s.die d
  let f := 50 * max 7 (min (D.mhz / 50) (Config.loweredClock d s.freeCtr))
  (s.putDie d { D with mhz := f }).bump 1

/-- The clock a die takes when a window begins: its nominal one; that of a pinned die stays as it is while the module limit
wins over the pins (R295). -/
def State.windowClock (s : State) (d : Nat) : Nat :=
  if s.pinned d ≠ 0 && Config.pinsExceed s.control.pin.toNat then min (s.die d).mhz (s.nominal d) else s.nominal d

/-- ENERGY_WINDOW (R295): the budget less the charges of the resident teams, which count in their classes' shares too (DESIGN
CHOICE, log 37); the clock is no longer lowered for the window before. -/
def execEnergyWindow (die budget : Nat) (s : State) : Out :=
  if 8 ≤ die then .next s
  else
    let D := s.die die
    let s0 := s.putDie die { D with budget := budget, left := budget, spent := [], mhz := s.windowClock die }
    .next ((s.teams.filter fun T => T.present && T.die = die).foldl (fun s T =>
      match s.launch T.launch with
      | some L => s.deduct L die
      | none => s) s0)

/-! ## Team start (R68, R170, R171, R288) -/

/-- A scalar value assigned at entry, where the register lies within the budget (R288). -/
def Group.entry (G : Group) (r : SReg) (x : Nat) : Group := if G.bud.sOk r.toNat then G.sset r (BitVec.ofNat 64 x) else G

/-- A group at its start (R68). -/
def Group.start (idx slot : Nat) (role : Nat × Role) (seed : Nat) (args : DWord) (p : Nat × Nat × Nat) : Group :=
  let G : Group :=
    { idx := idx, slot := slot, role := role.1, bud := role.2.bud, spc := role.2.spc, lpc := role.2.lpc, pfx := [],
      sregs := Vector.replicate 64 0, preds := Vector.replicate 12 0, tiles := Vector.replicate 16 0, vregs := [], accs := [],
      latches := [], seed := seed, queue := [], tent := [], rerun := none, runs := 0, words := 0, round := 0, rpt := 0,
      rng := 0, lull := 4096, fp := 0, q := 0, fallback := 0, unseen := [], batch := 0, stream := [], busy := [], loads := [],
      reqs := [], regs := [], replay := none, wait := none, laneWait := none, stall := 0, yld := false, arrived := none, arrivedDie := none,
      status := .running, mustStop := false, stopFault := false }
  ((((G.setMask (BitVec.allOnes 96)).entry 1 args.toNat).entry 2 p.1).entry 3 p.2.1).entry 4 p.2.2

/-- A team that holds nothing yet. -/
def Team.blank (uid : Nat) (L : Launch) (d num : Nat) (o : Offer) : Team :=
  { uid := uid, launch := L.id, asid := L.asid, die := d, core := 0, num := num,
    g := (match o with
      | .plain g => some g
      | .point .. => none),
    point := (match o with
      | .plain _ => none
      | .point l i => some (L.point l i)),
    groups := [], page := 0, pages := 0, window := 0, backing := [], pad := [], written := [],
    unregistered := [], full := [], arrays := [],
    maps := [], bars := List.replicate 4 ⟨0, false⟩, cell := none, leaving := false, place := .resident, frozen := false,
    posted := false, drain := none, ending := false, lull := false, lullAt := 0, lullWaits := [], metAt := none,
    thawing := none, restoring := false,
    placedAt := 0, watch := 0, saveSince := 0, watchReported := false }

/-- Grid coordinates of a team (R287, R288). -/
def Launch.coords (L : Launch) (o : Offer) : Nat × Nat × Nat :=
  match o with
  | .plain g => (g % L.record.x, g / L.record.x % L.record.y, g / (L.record.x * L.record.y))
  | .point l i => L.point l i

/-- The window of a team (R171). -/
def windowOf (L : Launch) (d num : Nat) : Nat := L.record.win + 2 ^ 32 * d + 2 ^ 20 * num

/-- The backing memory of a window, page by page; or the first page that does not translate with read and write
permission (R171). -/
def State.backingFrom (s : State) (asid d c window : Nat) : Nat → Except (Nat × Xlate) (List Loc)
  | 0 => .ok []
  | k + 1 =>
    match s.backingFrom asid d c window k with
    | .error e => .error e
    | .ok ls =>
      let va := window + 16384 * k
      match s.xlate d c asid va with
      | .ok e => match e.lacks { r := true, w := true } with
        | some f => .error (va, .bad f)
        | none => .ok (ls ++ [e.loc va])
      | x => .error (va, x)

/-- The launch has offered a team: it is not offered again. -/
def Launch.taken (L : Launch) (d : Nat) (o : Offer) : Launch :=
  let L1 := { L with waits := assocDel L.waits d }
  match o with
  | .plain g =>
    if L.again.contains g then { L1 with again := L.again.filter (· ≠ g) }
    else { L1 with placed := assocSet L.placed d ((assoc L.placed d).getD 0 + 1) }
  | .point l i => { L1 with front := L.front.map fun f => { f with offered := f.offered.filter (· ≠ (l, i)) } }

/-- The caches of a core before the first access of a team on it (R90, R164). -/
def State.fresh (s : State) (d c : Nat) : State :=
  s.putCore { s.core d c with l1 := [], scalar := [] }

/-- A backing page that fails stops the start: the team is held frozen and a record goes to the fault queue (R171). -/
def failStart (s : State) (L : Launch) (T : Team) (va : Nat) (k : FaultKind) : Out :=
  let r := (L.header.roles.head?).getD ⟨0, 0, ⟨0, 0, 0, 0⟩, 0⟩
  report { s with teams := s.teams ++ [{ T with place := .startFailed, frozen := true, placedAt := s.wallNs, watch := s.wallNs }] }
    { kind := k, die := T.die, flags := 4, acc := 2, off := 0xFF, lane := 0xFF, group := 0xFF, core := 0xFFFF, team := T.num,
      asid := T.asid, launch := T.launch, time := s.clock T.die, spc := r.spc.toNat, lpc := r.lpc.toNat,
      point := pointWord T.point, aux := 0, addr := va }

/-- Start a team on a core whose room gave slots and a first page: its charge is deducted, and the clock lowered where the
charge did not fit (R295). -/
def startTeam (s : State) (L : Launch) (d c : Nat) (o : Offer) (num : Nat) (slots : List Nat) (page : Nat) (fits : Bool) : Out :=
  let uid := s.nextUid
  let h := L.header
  let T := Team.blank uid L d num o
  let s1 := { s.putLaunch (L.taken d o) with nextUid := uid + 1 + h.team }
  let window := if h.scratch = 0 then 0 else windowOf L d num
  match s1.backingFrom L.asid d c window h.pages with
  | .error (_, .absent pa) => .fault (.noSuchDramAddress pa)
  | .error (va, .bad k) => failStart s1 L T va k
  | .error (va, .ok _) => failStart s1 L T va .notMapped
  | .ok backing =>
    let gs := (List.range h.team).zip slots |>.filterMap fun p =>
      (roleAt h.roles p.1).map fun r => Group.start p.1 p.2 r (uid + 1 + p.1) L.record.args (L.coords o)
    let T1 := { T with core := c, groups := gs, page := page, pages := h.pages, window := window, backing := backing,
                       arrays := List.replicate h.arrays ⟨.storage, none, ⟨0, []⟩, 0, 0⟩, placedAt := s.wallNs, watch := s.wallNs }
    let s2 := ({ s1 with teams := s1.teams ++ [T1] }.fresh d c).deduct L d
    .next (if fits then s2 else s2.lower d)

/-- The launch lets its saved teams return: active, its front store reserved (R304, R399). -/
def State.letsReturn (s : State) (T : Team) : Bool :=
  match s.launch T.launch with
  | none => false
  | some L => s.dispatches L && (L.front.map (·.reserved)).getD true

/-- A launch offers a new team that finds no room on a die as it stands in `r` (R287, R297). -/
def State.newWaits (s r : State) (L : Launch) (d : Nat) : Bool :=
  (s.offer L d).isSome && !r.dieRoom d L.header.budgets L.header.pages (decide (0 < L.header.arrays))

/-- A launch in dispatch waits for room on a die, as it stands in `r`: for a new team, or for one that is to be restored there (R297,
R377, R399). -/
def State.waitsRoom (s r : State) (L : Launch) (d : Nat) : Bool :=
  s.dispatches L && (s.newWaits r L d || s.teams.any fun T => T.launch = L.id && T.die = d && T.restoring && s.letsReturn T &&
    !r.dieRoom d T.budgets T.pages (!T.arrays.isEmpty))

/-- A restored or thawing team whose launch lets it return stands before new teams on a die (R294): a thawing one always, a
restored one where it fits. -/
def State.heldBack (s : State) (d : Nat) : Bool :=
  s.teams.any fun T => T.die = d && s.letsReturn T && (T.thawing.isSome || (T.restoring && s.dieRoom d T.budgets T.pages (!T.arrays.isEmpty)))

/-- TEAM_PLACEMENT (R27, R287 to R289, R294, R295). -/
def execTeamPlacement (launch die core : Nat) (s : State) : Out :=
  match s.choose die with
  | none => .next s
  | some (L, fits) =>
    if L.id ≠ launch || s.heldBack die then .next s
    else match s.offer L die, s.newRoom L die core with
      | some (o, num), some (slots, page) =>
        startTeam s L die core o num slots page fits
      | _, _ => .next s

/-! ## Fronts (R299, R301) -/

/-- Free entries of a die's front store. -/
def State.frontFree (s : State) (d : Nat) : Nat :=
  65536 - sumOf s.launches fun L => match L.front with
    | some f => if f.reserved && f.die = some d then f.entries else 0
    | none => 0

/-- The die of the set with the most free entries, the lowest on a tie. -/
def State.frontDie (s : State) (L : Launch) : Option Nat :=
  L.dies.foldl (fun best d => match best with
    | none => some d
    | some b => if s.frontFree b < s.frontFree d then some d else some b) none

/-- FRONT_STORE_RESERVE (R299): the reserved entries, then the first lines open. -/
def execFrontStoreReserve (launch : Nat) (s : State) : Out :=
  match s.launch launch with
  | none => .next s
  | some L =>
    match L.front, s.frontDie L with
    | some f, some d =>
      if f.reserved || L.stage ≠ .active || s.frontFree d < L.reserve then .next s
      else .next (s.putLaunch { L with front := some (L.openFront { f with die := some d, entries := L.reserve, reserved := true }) })
    | _, _ => .next s

/-- Insert a point in ascending line and inner index. -/
def insertPoint (p : Nat × Nat) : List (Nat × Nat) → List (Nat × Nat)
  | [] => [p]
  | q :: l => if p.1 < q.1 || (p.1 = q.1 && p.2 < q.2) then p :: q :: l else q :: insertPoint p l

/-- FRONT_POINT_FIRE (R301): the flight bit is set and the point's team is offered for placement; of the points that can fire the first in
ascending line and inner index fires first. -/
def execFrontPointFire (launch line inner : Nat) (s : State) : Out :=
  match s.launch launch with
  | none => .next s
  | some L =>
    match L.front with
    | none => .next s
    | some f =>
      if !f.reserved || L.stage ≠ .active || !L.canFire f line inner || L.firesBefore f line inner then .next s
      else
        let lines := f.lines.map fun l =>
          if l.line = line then { l with flight := l.flight ||| windowBit (inner - l.w) } else l
        .next (s.putLaunch { L with front := some { f with lines := lines, offered := insertPoint (line, inner) f.offered } })

/-! ## Write-back and team end (R173, R365) -/

/-- The bytes of a written granule. -/
def Team.granule (T : Team) (i : Nat) : List Byte := (List.range 16).map fun k => T.padByte (16 * i + k)

/-- The backing place of a granule. -/
def Team.backingOf (T : Team) (i : Nat) : Loc := (T.backing.getD (16 * i / 16384) ⟨false, 0⟩).plus (16 * i % 16384)

/-- Where the write-back puts a granule: the place its window address translates to with write permission, none where it
does not (R171, R173, R387). -/
def State.backTo (s : State) (T : Team) (i : Nat) : Option Loc :=
  match s.xlate T.die T.core T.asid (T.window + 16 * i) with
  | .ok e => if e.w then some (e.loc (T.window + 16 * i)) else none
  | _ => none

/-- Write one granule to its place; a poisoned line, or no place, refuses it and its address is noted (R173, R418). -/
def Team.writeGranule (T : Team) (r : State × List Nat) (x : Nat × Option Loc) : State × List Nat :=
  match x.2 with
  | none => (r.1, r.2 ++ [T.window + 16 * x.1])
  | some l => if r.1.poisoned l then (r.1, r.2 ++ [T.window + 16 * x.1]) else (r.1.setBytes l (T.granule x.1), r.2)

/-- Write every written granule to its backing address; the addresses refused come back (R173, R418). -/
def State.writeBack (s : State) (T : Team) : State × List Nat :=
  (T.written.map fun i => (i, s.backTo T i)).foldl T.writeGranule (s, [])

/-- The imprecise store fault of an exited team whose write-back was refused, at the first address refused (R173, R363). -/
def storeFaults (T : Team) (addrs : List Nat) (s : State) : Out :=
  match addrs with
  | [] => .next s
  | x :: _ =>
    raiseImprecise s { team := T.uid, group := 0xFF, launch := T.launch, asid := T.asid, die := T.die, num := T.num,
                       point := T.point, spc := 0xFFFFFFFF } { kind := .storeFault, acc := 2, addr := x } 0xFF 0xFFFFFFFF 0

/-- Some add of a team is not accepted. -/
def State.addsOf (s : State) (t : Nat) : Bool := s.adds.any fun a => !a.accepted && a.tag.team = t && a.word.isSome

/-- Nothing of an exited team is under way (R365 steps 1, 3 and 4, and what step 2 waits for). -/
def State.quiet (s : State) (T : Team) : Bool :=
  T.liveCount = 0 && !s.teamCopies T.uid && !s.cellWork T && !s.addsOf T.uid &&
    T.groups.all (fun G => G.stream.isEmpty && G.reqs.isEmpty && G.regs.isEmpty && G.busy.isEmpty && G.loads.isEmpty) &&
    T.arrays.all fun a => a.pass.isNone && a.mode != .toStorage && a.mode != .toCompute

/-- A team has exited: its point completes unless posted, the launch counts it, it is gone (R290, R302, R365). -/
def State.endTeam (s : State) (T : Team) : State :=
  let s1 := { s with teams := s.teams.filter (·.uid ≠ T.uid) }
  match s1.launch T.launch with
  | none => s1
  | some L =>
    let f := match L.front, T.point with
      | some f, some p => if T.posted then some f else let q := L.lineOf p; some (L.finish f q.1 q.2)
      | f, _ => f
    s1.putLaunch { L with ended := L.ended + 1, front := f }

/-! ## Completion, handoff, successors (R290 to R292) -/

/-- The launch completes: every team has exited, every point is complete. -/
def State.completes (s : State) (L : Launch) : Bool :=
  !(s.teams.any (·.launch = L.id)) &&
    (match L.front with
     | some f => f.reserved && f.done = L.pointCount && f.offered.isEmpty
     | none => L.ended = L.pointCount)

/-- LAUNCH_COMPLETION (R290, R315): the done add, a refused one reported by a record of die 8 (R416). -/
def execLaunchCompletion (launch : Nat) (s : State) : Out :=
  match s.launch launch with
  | none => .next s
  | some L =>
    if L.stage ≠ .active || !s.completes L then .next s
    else
      let s1 := (s.putLaunch { L with stage := .completed, front := none }).dropObjects L.id
      if L.record.done = 0 then .next s1
      else if s1.flagRefused 8 0 L.asid L.record.done then
        report s1 (dispatcherRecord s1 none L.asid L.id { kind := .storeFault } 1)
      else .next (s1.addFlag 8 0 L.asid L.record.done)

/-- The launch leaves the dispatcher. -/
def State.dropLaunch (s : State) (id : Nat) : State := { s with launches := s.launches.filter (·.id ≠ id) }

/-- One entry of a handoff table (R291): source, destination, bytes. -/
structure HandoffEntry where
  src : Nat
  dst : Nat
  bytes : Nat
deriving DecidableEq, Repr

/-- The entries of a table of n. -/
def handoffEntries (bs : List Byte) (n : Nat) : List HandoffEntry :=
  (List.range n).map fun j => ⟨le bs (24 * j) 8, le bs (24 * j + 8) 8, le bs (24 * j + 16) 8⟩

/-- A well-formed entry (R291). -/
def HandoffEntry.ok (e : HandoffEntry) : Bool :=
  e.src % 16 = 0 && e.dst % 16 = 0 && e.bytes % 16 = 0 && 16 ≤ e.bytes && e.bytes ≤ 2 ^ 32

/-- The dense copy of an entry. -/
def HandoffEntry.desc (e : HandoffEntry) : CopyDesc :=
  { c0 := BitVec.ofNat 64 e.src, c1 := BitVec.ofNat 64 e.dst, geo := 0, st := 0, flag := none, skind := false, dkind := false,
    dense := some (e.bytes / 16) }

/-- The source's home die; die D[0] for a host-homed source. -/
def State.handoffDie (s : State) (L : Launch) (e : HandoffEntry) : Nat :=
  let d0 := L.dies.getD 0 0
  match s.xlate 8 0 L.asid e.src with
  | .ok x => (x.homeDie e.src).getD d0
  | _ => d0

/-- The dispatcher as the issuer of handoff copies, for the checks of R225. -/
def Launch.issuer (L : Launch) : Team := { Team.blank (2 ^ 64) L 8 0 (.plain 0) with g := none }

/-- The handoff stops with a record of die 8; the successor is not released (R291). -/
def stopHandoff (s : State) (L : Launch) (k : FaultKind) (acc addr : Nat) : Out :=
  report (s.dropLaunch L.id) (dispatcherRecord s none L.asid L.id { kind := k, acc := acc, addr := addr } 1)

/-- Place entries on their queues in table order, or stop at the first that faults (R225, R291). -/
def placeHandoff (L : Launch) : List HandoffEntry → List Nat → State → Out
  | [], ids, s => .next (s.putLaunch { L with stage := .handing ids })
  | e :: rest, ids, s =>
    match s.checkCopy L.issuer e.desc true with
    | .trap t => stopHandoff s L t.kind t.acc t.addr
    | .absent pa => .fault (.noSuchDramAddress pa)
    | .wait _ => .next s
    | .pass =>
      let d := s.handoffDie L e
      let q := QueueId.dd d 7
      let c : CopyItem := .copy s.nextUid none L.id L.asid d (coresOf d) e.desc 0xFFFFFFFF none
      placeHandoff L rest (ids ++ [s.nextUid]) { s.setQueue q (s.queue q ++ [c]) with nextUid := s.nextUid + 1 }

/-- Every queue of the table's copies has room for all of them. -/
def State.handoffRoom (s : State) (L : Launch) (es : List HandoffEntry) : Bool :=
  (es.map (s.handoffDie L)).all fun d =>
    (s.queue (.dd d 7)).length + (es.filter fun e => s.handoffDie L e = d).length ≤ 32

/-- Some handoff copy of the list has not completed. -/
def State.copiesLeft (s : State) (ids : List Nat) : Bool :=
  s.allCopies.any fun p => match p.2 with
    | .copy id _ _ _ _ _ _ _ _ => ids.contains id
    | .fence _ => false

/-- HANDOFF (R291): the table is read at completion; its copies run on die-to-die queues 7. A table that cannot be read stops it
with the class of the read, acc 1 and the table's address (DESIGN CHOICE, log 55). -/
def execHandoff (launch : Nat) (s : State) : Out :=
  match s.launch launch with
  | none => .next s
  | some L =>
    match L.stage with
    | .handing ids => if s.copiesLeft ids then .next s else .next (s.putLaunch { L with stage := .releasing })
    | .completed =>
      if L.record.hand = 0 then .next (s.putLaunch { L with stage := .releasing })
      else match s.dieRead L.asid L.record.hand 8 with
        | .absent pa => .fault (.noSuchDramAddress pa)
        | .bad k => stopHandoff s L k 1 L.record.hand
        | .ok hd =>
          let n := le hd 0 4
          if n < 1 || 16 < n || le hd 4 4 ≠ 0 then stopHandoff s L .badCopy 0 0
          else match s.dieRead L.asid (L.record.hand + 8) (24 * n) with
            | .absent pa => .fault (.noSuchDramAddress pa)
            | .bad k => stopHandoff s L k 1 L.record.hand
            | .ok bs =>
              let es := handoffEntries bs n
              if !es.all HandoffEntry.ok then stopHandoff s L .badCopy 0 0
              else if !s.handoffRoom L es then .next s
              else placeHandoff L es [] s
    | _ => .next s

/-- SUCCESSOR_RELEASE (R292): the record is read and checked; a refused one is reported as on the host route, an unreadable
one by a record of die 8. -/
def execSuccessorRelease (launch : Nat) (s : State) : Out :=
  match s.launch launch with
  | none => .next s
  | some L =>
    if L.stage ≠ .releasing then .next s
    else
      let s1 := s.dropLaunch L.id
      if L.record.succ = 0 then .next s1
      else match s1.dieRead L.asid L.record.succ 64 with
        | .absent pa => .fault (.noSuchDramAddress pa)
        | .bad k => report s1 (dispatcherRecord s1 none L.asid L.id { kind := k, acc := 1, addr := L.record.succ } 3)
        | .ok bs =>
          match s1.vet (.successor L.asid) bs none with
          | .absent pa => .fault (.noSuchDramAddress pa)
          | .refuse code => .next (s1.refuseRecord .host (recordOf bs).cls code)
          | .accept r h f => .next (s1.accept r h f)

end Sys2Proof.Machine
end

