-- ==== Sys2Proof/Machine/Area.lean ====
section
/-! DEFINITION. The save pool and the save area of a team as bytes, written and read back (R371 to R375, R377, R415). -/
namespace Sys2Proof.Machine

/-! ## The pool (R371, R415) -/

/-- The area a team's place names. -/
def TeamPlace.area : TeamPlace → Option SaveArea
  | .stopping a | .saving a | .saved a => some a
  | _ => none

/-- The pool's extents in use: areas of teams and front save records. -/
def State.poolUsed (s : State) : List (Nat × Nat) :=
  (s.teams.filterMap fun T => T.place.area.bind fun a => if a.pool then some (a.pa, up256 a.length) else a.kept) ++
    s.launches.filterMap fun L => match L.stage with
      | .saving r | .saved r => r.map fun x => (x.1, up256 x.2)
      | _ => none

/-- The lowest free extent of n bytes in the pool, the extents in `used` taken. -/
def State.poolFind (s : State) (used : List (Nat × Nat)) (n : Nat) : Option Nat :=
  let base := s.control.pool.toNat
  let top := base + s.control.poolsz.toNat
  let m := up256 n
  let fits (a : Nat) : Bool :=
    decide (base ≤ a) && decide (a + m ≤ top) && decide (a + m ≤ dramBytes) &&
      used.all fun u => decide (a + m ≤ u.1) || decide (u.1 + u.2 ≤ a)
  let starts := (base :: used.map fun u => u.1 + u.2).filter fits
  match starts with
  | [] => none
  | a :: l => some (l.foldl min a)

/-! ## Writing (R372 to R375) -/

/-- Fill up to a multiple of 256 with zero bytes. -/
def padBlock (bs : List Byte) : List Byte := bs ++ List.replicate (up256 bs.length - bs.length) 0

/-- A bit block of n bytes from the numbers of its one bits. -/
def bitBlock (n : Nat) (ones : List Nat) : List Byte :=
  (List.range n).map fun i => BitVec.ofNat 8 (sumOf (ones.filter fun k => k / 8 = i) fun k => 2 ^ (k % 8))

/-- A map slot or installed map as 34 bytes (R153). -/
def DupMap.bytes (d : DupMap) : List Byte :=
  leBytes (2 ^ 256 * (d.cnt % 32) + sumOf (List.range 16) fun j => 2 ^ (16 * j) * (d.slots.getD j 0 % 512)) 34

/-- One of 64 bytes. -/
def DupMap.slot64 (d : DupMap) : List Byte := d.bytes ++ List.replicate 30 0

/-- Code of a save's reason. -/
def SaveReason.code : SaveReason → Nat
  | .preempt => 0
  | .lull => 1
  | .host => 2
  | .dump => 3

/-- A Bool as a number. -/
def bitOf (b : Bool) : Nat := if b then 1 else 0

/-- The team header (R372). -/
def Team.headerBytes (T : Team) (a : SaveArea) (state count : Nat) (back : Bool) : List Byte :=
  let cell := T.cell.getD (0, 0)
  let flags := bitOf T.cell.isSome + 2 * bitOf T.posted + 4 * bitOf back + 8 * bitOf T.frozen
  let amode := sumOf T.arrays.zipIdx fun p => if p.1.mode = .compute then 2 ^ p.2 else 0
  let bars := sumOf T.bars.zipIdx fun p => 2 ^ (8 * p.2) * (p.1.arrivals % 16 + 16 * bitOf p.1.phase)
  leBytes 0x5356 2 ++ leBytes 1 1 ++ leBytes state 1 ++ leBytes a.reason.code 1 ++ leBytes T.groups.length 1 ++
    leBytes flags 1 ++ leBytes T.arrays.length 1 ++ leBytes a.length 4 ++ leBytes count 4 ++ leBytes T.launch 4 ++
    leBytes T.asid 2 ++ leBytes T.num 2 ++ leBytes (pointWord T.point) 8 ++ leBytes (cell.1 + 256 * cell.2) 2 ++
    leBytes 0 2 ++ leBytes amode 4 ++ leBytes bars 4 ++ leBytes T.size 4 ++ List.replicate 208 0

/-- The team blocks (R373). -/
def Team.teamBlocks (T : Team) : List Byte :=
  ((List.range 4).flatMap fun m => (T.mapSlot m).slot64) ++ padBlock (T.arrays.flatMap fun a => a.map.slot64) ++
    padBlock (bitBlock (T.size / 128) T.written) ++ padBlock (bitBlock (T.size / 128) T.full)

/-- The registers of a class that are saved: those outside the volatile range. -/
def savedRegs (l : List Nat) (v : Option (Nat × Nat)) : List Nat :=
  match v with
  | none => l
  | some (lo, hi) => l.filter fun i => i < lo || hi < i

/-- The saved scalar registers of a group. -/
def savedScalars (b : Budget) (v : Volatile) : List Nat :=
  savedRegs ((List.range (max b.s 1)).drop 1 ++ (List.range 8).map (56 + ·)) v.s

/-- The group header (R374). -/
def Group.headerBytes (G : Group) (seq : BitVec 32) : List Byte :=
  let flags := bitOf G.rerun.isSome + 2 * bitOf (G.status = .faulted) + 4 * bitOf (G.status = .exited)
  let bar := (G.arrived.map (·.1)).getD 0 + 4 * bitOf G.arrived.isSome + 8 * bitOf G.arrivedDie.isSome
  leBytes G.spc.toNat 4 ++ leBytes G.lpc.toNat 4 ++ leBytes 0 8 ++ leBytes G.idx 1 ++ leBytes G.batch 1 ++
    leBytes ((G.rerun.map (·.off)).getD 0) 1 ++ leBytes flags 1 ++ leBytes bar 1 ++ leBytes G.role 1 ++ leBytes 0 2 ++
    leBytes (G.bud.v - 1) 1 ++ leBytes G.bud.s 1 ++ leBytes G.bud.t 1 ++ leBytes G.bud.a 1 ++ leBytes seq.toNat 4 ++
    ([G.round, G.rpt, G.rng, G.lull, G.fp, G.q, G.fallback].flatMap fun w => leBytes w.toNat 8) ++ List.replicate 168 0

/-- The elements of a vector as bytes. -/
def vecBytes (v : LaneVec) (n : Nat) : List Byte := (List.range n).flatMap fun l => leBytes (elem v l).toNat 4

/-- The header and blocks of a group (R371, R374, R375). -/
def Group.saveBytes (G : Group) (seq : BitVec 32) (v : Volatile) : List Byte :=
  if G.status = .exited then G.headerBytes seq
  else
    let snap (x : Vector DWord 64) : List Byte := x.toList.flatMap fun w => leBytes w.toNat 8
    G.headerBytes seq ++
      padBlock ((savedScalars G.bud v).flatMap fun i => leBytes (G.sget (BitVec.ofNat 6 i)).toNat 8) ++
      ((G.rerun.map fun r => snap r.snap).getD []) ++
      padBlock ((savedRegs (List.range G.bud.v) v.v).flatMap fun i => vecBytes (G.vget i) 96) ++
      padBlock ((savedRegs (List.range 12) v.p).flatMap fun i => leBytes (G.pget (Fin.ofNat 12 i)).toNat 12) ++
      padBlock ((savedRegs (List.range G.bud.t) v.t).flatMap fun i => leBytes (G.tget (BitVec.ofNat 4 i)).toNat 8) ++
      padBlock ((savedRegs (List.range G.bud.a) v.a).flatMap fun i => vecBytes (G.aget i) 512)

/-- The whole area but its header (R371). -/
def State.areaBody (s : State) (T : Team) : List Byte :=
  T.teamBlocks ++ T.groups.flatMap fun G => G.saveBytes (s.nextSeq T.uid G.idx) (s.header T).vol

/-- Bytes of a team's whole area. -/
def State.areaLength (s : State) (T : Team) : Nat := 256 + (s.areaBody T).length

/-! ## Reading back (R377) -/

/-- Lengths of a group's blocks. -/
def blockLen (n each : Nat) : Nat := up256 (n * each)

/-- Undefined contents of the volatile registers and the latches after a resume (R26, log 5). -/
def Group.undefine (G : Group) (seed : Nat) (v : Volatile) : Group :=
  let inside (r : Option (Nat × Nat)) (i : Nat) : Bool := match r with
    | none => false
    | some (lo, hi) => decide (lo ≤ i) && decide (i ≤ hi)
  let free (i : Nat) : BitVec 96 := Config.freeReg seed i
  { G with
    seed := seed, latches := [],
    vregs := ((List.range G.bud.v).filter fun i => !inside v.v i).map fun i => (i, G.vget i),
    accs := ((List.range G.bud.a).filter fun i => !inside v.a i).map fun i => (i, G.aget i),
    sregs := Vector.ofFn fun (i : Fin 64) => if inside v.s i.val && i.val ≠ 0 then (free i.val).setWidth 64 else G.sregs[i.val],
    preds := Vector.ofFn fun (i : Fin 12) => if inside v.p i.val then free (64 + i.val) else G.preds[i.val],
    tiles := Vector.ofFn fun (i : Fin 16) => if inside v.t i.val then (free (80 + i.val)).setWidth 64 else G.tiles[i.val] }

/-- The control and status words of a group header, in order (R374). -/
def savedWords : List Csr := [.ctlRound, .ctlRpt, .ctlRng, .ctlLull, .stFp, .stQ, .stFallback]

/-- Words of a block from an offset. -/
def wordsAt (bs : List Byte) (o n : Nat) : LaneVec := (List.range n).map fun l => BitVec.ofNat 32 (le bs (o + 4 * l) 4)

/-- Load scalar registers from a block. -/
def Group.loadScalars (G : Group) (bs : List Byte) (o : Nat) (regs : List Nat) : Group :=
  regs.zipIdx.foldl (fun G p => G.sset (BitVec.ofNat 6 p.1) (BitVec.ofNat 64 (le bs (o + 8 * p.2) 8))) G

/-- A group from its header and blocks at an offset of the area; the next offset (R374, R375). Its control and status words
are taken as `csrw` takes them (R355). The model's own counters stay; `arrivedDie` keeps the phase it awaits. -/
def Group.load (G : Group) (bs : List Byte) (o slot seed : Nat) (bars : List Barrier) (v : Volatile) : Group × Nat :=
  let flags := le bs (o + 19) 1
  let bar := le bs (o + 20) 1
  let word (k : Nat) : DWord := BitVec.ofNat 64 (le bs (o + 32 + 8 * k) 8)
  if bits flags 2 1 = 1 then ({ G with status := .exited, slot := slot }, o + 256)
  else
    let rerun : Bool := bits flags 0 1 = 1
    let scalars := savedScalars G.bud v
    let vs := savedRegs (List.range G.bud.v) v.v
    let ps := savedRegs (List.range 12) v.p
    let ts := savedRegs (List.range G.bud.t) v.t
    let as := savedRegs (List.range G.bud.a) v.a
    let o1 := o + 256
    let o2 := o1 + blockLen scalars.length 8
    let o3 := o2 + (if rerun then 512 else 0)
    let o4 := o3 + blockLen vs.length 384
    let o5 := o4 + blockLen ps.length 12
    let o6 := o5 + blockLen ts.length 8
    let b := bits bar 0 2
    let G1 : Group :=
      { G with
        slot := slot, spc := BitVec.ofNat 32 (le bs o 4), lpc := BitVec.ofNat 32 (le bs (o + 4) 4), batch := le bs (o + 17) 1,
        role := le bs (o + 21) 1, status := if bits flags 1 1 = 1 then .faulted else .running,
        arrived := if bits bar 2 1 = 1 then some (b, (bars.getD b ⟨0, false⟩).phase) else none,
        arrivedDie := if bits bar 3 1 = 1 then some (G.arrivedDie.getD false) else none,
        rerun := if rerun then
            some ⟨le bs (o + 18) 1, Vector.ofFn fun (i : Fin 64) => BitVec.ofNat 64 (le bs (o2 + 8 * i.val) 8)⟩
          else none,
        pfx := [], queue := [], tent := [], wait := none, laneWait := none, replay := none, mustStop := false,
        stopFault := false, stall := 0,
        vregs := vs.zipIdx.map fun p => (p.1, wordsAt bs (o3 + 384 * p.2) 96),
        accs := as.zipIdx.map fun p => (p.1, wordsAt bs (o6 + 2048 * p.2) 512) }
    let Gw := savedWords.zipIdx.foldl (fun G p => G.csrSet p.1 (word p.2)) G1
    let G2 := Gw.loadScalars bs o1 scalars
    let G3 := ps.zipIdx.foldl (fun G p => G.pset (Fin.ofNat 12 p.1) (BitVec.ofNat 96 (le bs (o4 + 12 * p.2) 12))) G2
    let G4 := ts.zipIdx.foldl (fun G p => G.tset (BitVec.ofNat 4 p.1) (BitVec.ofNat 64 (le bs (o5 + 8 * p.2) 8))) G3
    (G4.undefine seed v, o6 + blockLen as.length 2048)

/-- The budgets of a group header match the kernel header's (R377). -/
def Group.budgetsMatch (G : Group) (bs : List Byte) (o : Nat) : Bool :=
  le bs (o + 24) 1 + 1 = G.bud.v && le bs (o + 25) 1 = G.bud.s && le bs (o + 26) 1 = G.bud.t && le bs (o + 27) 1 = G.bud.a

/-- Bytes a to b - 1 of an area are zero. -/
def zeroBytes (bs : List Byte) (a b : Nat) : Bool := le bs a (b - a) = 0

/-- No resv bit of a group header is set, its words included (R5, R98, R140, R209, R243, R339, R356, R374). -/
def groupClean (bs : List Byte) (o : Nat) : Bool :=
  let word (k a n : Nat) : Bool := bits (le bs (o + 32 + 8 * k) 8) a n = 0
  zeroBytes bs (o + 8) (o + 16) && bits (le bs (o + 19) 1) 3 5 = 0 && bits (le bs (o + 20) 1) 4 4 = 0 &&
    zeroBytes bs (o + 22) (o + 24) && zeroBytes bs (o + 88) (o + 256) && word 0 2 62 && word 1 0 8 && word 1 19 45 &&
    word 2 57 7 && word 3 32 32 && word 4 5 59 && word 6 32 32

/-- No resv bit of a map slot of an area is set (R5, R153, R373). -/
def slotClean (bs : List Byte) (o : Nat) : Bool :=
  let x := le bs o 34
  zeroBytes bs (o + 34) (o + 64) && bits x 261 11 = 0 && (List.range 16).all fun j => bits x (16 * j + 9) 7 = 0

/-- No resv bit of a tile descriptor that an area gives a live group is set (R5, R245, R375). -/
def Group.tilesClean (G : Group) (v : Volatile) : Bool :=
  !G.live || (savedRegs (List.range G.bud.t) v.t).all fun i => field (G.tget (BitVec.ofNat 4 i)) 52 12 = 0

/-- The groups of a team from an area, each with its bank-add sequence number, with slots for the live ones in order; none
where a budget does not match or a resv bit is set (R5, R377). -/
def loadGroups (bs : List Byte) (bars : List Barrier) (v : Volatile) :
    List Group → Nat → List Nat → Nat → Option (List (Group × BitVec 32))
  | [], _, _, _ => some []
  | G :: rest, o, slots, seed =>
    if !G.budgetsMatch bs o || !groupClean bs o then none
    else
      let r := G.load bs o (slots.head?.getD 0) seed bars v
      if !r.1.tilesClean v then none
      else (loadGroups bs bars v rest r.2 (if r.1.live then slots.drop 1 else slots) (seed + 1)).map
        ((r.1, BitVec.ofNat 32 (le bs (o + 28) 4)) :: ·)

/-- The one bits of a bit block. -/
def bitsOf (bs : List Byte) (o n : Nat) : List Nat := (List.range n).filter fun k => bits (le bs (o + k / 8) 1) (k % 8) 1 = 1

/-- A map slot from its bytes (R153). -/
def mapAt (bs : List Byte) (o : Nat) : DupMap :=
  let x := le bs o 34
  { cnt := bits x 256 5, slots := (List.range 16).map fun j => bits x (16 * j) 9 }

/-- The team state of an area's header and team blocks (R372, R373). -/
def Team.load (T : Team) (bs : List Byte) (groups : List Group) : Team :=
  let amode := le bs 36 4
  let bars := le bs 40 4
  let flags := le bs 6 1
  { T with
    groups := groups,
    bars := (List.range 4).map fun j => ⟨bits bars (8 * j) 4, bits bars (8 * j + 4) 1 = 1⟩,
    arrays := T.arrays.zipIdx.map fun p =>
      { p.1 with mode := if bits amode p.2 1 = 1 then .compute else .storage, pass := none, map := mapAt bs (512 + 64 * p.2) },
    maps := (List.range 4).map fun m => (m, mapAt bs (256 + 64 * m)),
    cell := if bits flags 0 1 = 1 then some (le bs 32 1, bits (le bs 33 1) 0 4) else none,
    posted := bits flags 1 1 = 1,
    written := bitsOf bs T.writtenBitsAt (T.size / 16), full := bitsOf bs T.fullBitsAt (T.size / 16) }

/-- The checks of an area's team header and map slots: magic, version, state 0 (R377), no resv bit set (R5, R372, R373). -/
def areaOk (bs : List Byte) (arrays : Nat) : Bool :=
  le bs 0 2 = 0x5356 && le bs 2 1 = 1 && le bs 3 1 = 0 && bits (le bs 6 1) 4 4 = 0 && bits (le bs 31 1) 7 1 = 0 &&
    bits (le bs 32 2) 12 4 = 0 &&
    zeroBytes bs 34 36 && (List.range 4).all (fun j => bits (le bs (40 + j) 1) 5 3 = 0) && zeroBytes bs 48 256 &&
    (List.range 4).all (fun m => slotClean bs (256 + 64 * m)) && (List.range arrays).all fun j => slotClean bs (512 + 64 * j)

/-- Some line of an extent of device memory holds poison. -/
def State.extentPoison (s : State) (pa n : Nat) : Bool :=
  s.poison.any fun x => decide (pa / 64 ≤ x) && decide (x ≤ (pa + n - 1) / 64)

/-- The team as its area gives it back, with slots and its groups' bank-add sequence numbers; none where the checks
fail. -/
def State.loadTeam (s : State) (T : Team) (a : SaveArea) (slots : List Nat) (seed : Nat) : Option (Team × List (Nat × BitVec 32)) :=
  let bs := s.bytesAt ⟨false, a.pa⟩ a.length
  if s.extentPoison a.pa a.length || !areaOk bs T.arrays.length then none
  else
    let first := T.fullBitsAt + up256 (T.size / 128)
    let bars := (List.range 4).map fun j => (⟨bits (le bs 40 4) (8 * j) 4, bits (le bs 40 4) (8 * j + 4) 1 = 1⟩ : Barrier)
    (loadGroups bs bars (s.header T).vol T.groups first slots seed).map fun gs =>
      (T.load bs (gs.map (·.1)), gs.map fun g => (g.1.idx, g.2))

end Sys2Proof.Machine
end

