-- ==== Sys2Proof/Machine/Save.lean ====
section
/-! DEFINITION. Lulls, pre-emption, drains, saves, restores and the watchdog (R207 to R213, R234, R294, R297, R366 to R379,
R399, R415). -/
namespace Sys2Proof.Machine

/-! ## Stopping a team for a save (R366) -/

/-- A barrier that completed while its group waited is behind the group: its stop point is the next word (R204, R205). -/
def State.pastBarrier (s : State) (T : Team) (G : Group) : Group :=
  let G1 := match G.arrived with
    | some (b, ph) => if (T.bar b).phase = ph then G else { G with spc := G.spc + 1, arrived := none }
    | none => G
  match G1.arrivedDie, s.launch T.launch with
  | some ph, some L => if (L.bar T.die).phase = ph then G1 else { G1 with spc := G1.spc + 1, arrivedDie := none }
  | _, _ => G1

/-- A team stopped for a save: every live group at its stop point. -/
def State.stopped (s : State) (T : Team) : Team :=
  { T with groups := T.groups.map fun G => if G.status = .exited then G else (s.pastBarrier T G).stop, drain := none }

/-- Stop a team for a save of some reason, its whole area taken first; none where the pool has no room (R415). -/
def State.stopFor (s : State) (T : Team) (why : SaveReason) : Option State :=
  let T1 := s.stopped T
  let n := s.areaLength T1
  (s.poolFind s.poolUsed n).map fun pa =>
    s.putTeam { T1 with place := .stopping { pa := pa, length := n, reason := why, count := 0, stopped := false, pool := true, kept := none } }

/-- Stop teams one after another; none where the pool cannot hold them all. -/
def State.stopAll (why : SaveReason) : List Team → State → Option State
  | [], s => some s
  | T :: l, s => (s.stopFor T why).bind (State.stopAll why l)

/-! ## Lulls (R207 to R210) -/

/-- The waits that are lull points (R208). -/
def WaitFor.lullPoint : WaitFor → Bool
  | .barrier .. | .dieBarrier _ | .memory .. | .yield | .fullGranules _ | .collector | .take .. => true
  | _ => false

/-- The wait has lasted longer than the group's threshold; a threshold of 0 is never passed (R209). -/
def Group.longWait (G : Group) (w : Wait) : Bool := field G.lull 0 32 ≠ 0 && decide (field G.lull 0 32 < w.cycles)

/-- The lull point a group has waited at for longer than its threshold: of its scalar thread, or of its next lane word; a
collector wait counts only while the scalar thread issues no word (R52, R176, R208). -/
def Group.lullWait (G : Group) : Option WaitFor :=
  match G.wait.filter fun w => w.what.lullPoint && G.longWait w, G.laneWait with
  | some w, _ => some w.what
  | none, some l =>
    if l.what.lullPoint && G.longWait l && (l.what != .collector || G.wait.isSome) then some l.what else none
  | none, none => none

/-- The awaited conditions of a team all of whose live groups wait long enough; `y` is a group at a `yield`, whose wait
counts as long (R207, R210). -/
def Team.lullWaitsOf (T : Team) (y : Option Nat) : Option (List (Nat × WaitFor)) :=
  let live := T.groups.filter Group.live
  let ws := live.filterMap fun G =>
    if y = some G.idx then (if field G.lull 0 32 ≠ 0 then some (G.idx, WaitFor.yield) else none)
    else if G.status = .running then (G.lullWait).map fun w => (G.idx, w) else none
  if live.isEmpty || ws.length ≠ live.length then none else some ws

/-- What defers a swap (R211). -/
def State.lullDeferred (s : State) (T : Team) : Bool :=
  T.cell.isSome || s.copiesOf T.uid || s.allCopies.any (fun p => (s.copyTargets p.2).contains T.uid) ||
    T.groups.any (fun G => !G.pendingEntries.isEmpty) ||
    s.blocks.any (fun b => !b.fence && b.tag.team = T.uid) || s.puts.any (fun p => !p.fence && p.tag.team = T.uid) ||
    T.arrays.any fun a => a.mode.switching

/-- Work waits in dispatch for room on a die (R210). -/
def State.workWaits (s : State) (d : Nat) : Bool :=
  (s.launches.any fun L => s.dispatches L && s.newWaits s L d) ||
  s.teams.any fun T => T.die = d && (T.thawing.isSome || T.restoring) && s.letsReturn T && !s.dieRoom d T.budgets T.pages (!T.arrays.isEmpty)

/-- Enter a lull where R210 allows it. -/
def State.enterLull (s : State) (T : Team) (y : Option Nat) : Option State :=
  match T.lullWaitsOf y with
  | none => none
  | some ws =>
    if T.place ≠ .resident || T.frozen || T.ending || s.lullDeferred T || !s.workWaits T.die then none
    else
      s.stopFor { T with lull := true, lullAt := s.wallNs, lullWaits := ws, metAt := none } .lull

/-- `yield` (R207): after the lane words have retired the team is offered for a lull; the stop point is the next word. -/
def execYield (s : State) : Out :=
  scalarWord s [] [] true fun T G =>
    if !s.lanesRetired T G then waitFor s T G .laneRetired
    else
      let s1 := s.retire T G.advance
      match (s1.team T.uid).bind fun T1 => s1.enterLull T1 (some G.idx) with
      | some s2 => .next s2
      | none => .next s1

/-- LULL_ENTRY (R210): the test for one team. -/
def execLullEntry (t : Nat) (s : State) : Out :=
  match (s.team t).bind fun T => s.enterLull T none with
  | some s1 => .next s1
  | none => .next s

/-- LULL_THRESHOLD_EXPIRY (R209, R210): a wait passes its group's threshold, and the team's test is made. -/
def execLullThresholdExpiry (t g : Nat) (s : State) : Out :=
  match s.find t g with
  | none => .next s
  | some (T, G) =>
    if G.lullWait.isNone then .next s
    else match s.enterLull T none with
      | some s1 => .next s1
      | none => .next s

/-- The launch of a team is not held (R399). -/
def State.launchActive (s : State) (T : Team) : Bool := ((s.launch T.launch).map fun L => decide (L.stage = .active)).getD false

/-- The awaited condition of at least one group of a team in a lull holds (R212); that of a `yield` and of a collector wait once the
swap is complete (R210). -/
def State.conditionMet (s : State) (T : Team) : Bool :=
  T.lullWaits.any fun p => (T.savedArea.isSome || (p.2 ≠ .yield && p.2 ≠ .collector)) &&
    ((T.group p.1).map fun G => s.waitOver T G p.2).getD false

/-- The moment from which a condition of a team in a lull has held is noted before time passes (R212). -/
def State.noteMet (s : State) (T : Team) : Team :=
  if T.lull && T.metAt.isNone && T.thawing.isNone && s.conditionMet T then { T with metAt := some s.wallNs } else T

/-- THAW (R212): a condition of a team in a lull holds, or has held; it is thawing from that moment. -/
def execThaw (t : Nat) (s : State) : Out :=
  match s.team t with
  | none => .next s
  | some T =>
    if T.lull && T.savedArea.isSome && T.thawing.isNone && s.launchActive T && (T.metAt.isSome || s.conditionMet T) then
      .next (s.putTeam { T with thawing := some (T.metAt.getD s.wallNs), metAt := none })
    else .next s

/-! ## Saving (R367, R372, R379) -/

/-- Every entry a save waits for is over, and the issued words have retired (R366, R367). -/
def State.drained (s : State) (T : Team) : Bool :=
  !s.copiesOf T.uid && T.groups.all (fun G => !G.mustStop && G.stream.isEmpty && G.reqs.isEmpty && G.regs.isEmpty && G.busy.isEmpty &&
      G.loads.isEmpty) &&
    !s.addsOf T.uid && !s.blocks.any (fun b => !b.fence && b.tag.team = T.uid) &&
    !s.puts.any (fun p => !p.fence && p.tag.team = T.uid) && T.arrays.all fun a => !a.mode.switching && a.pass.isNone

/-- The area as it stands in a save in progress. -/
def State.areaBytes (s : State) (T : Team) (a : SaveArea) (state count : Nat) (back : Bool) : List Byte :=
  T.headerBytes a state count back ++ s.areaBody T

/-- Write block k of 256 bytes of an area in progress. -/
def State.writeBlock (s : State) (T : Team) (a : SaveArea) (k : Nat) : State :=
  s.setBytes ⟨false, a.pa + 256 * k⟩ (((s.areaBytes T a 2 0 false).drop (256 * k)).take 256)

/-- Rewrite the team header. -/
def State.writeHeader (s : State) (T : Team) (a : SaveArea) (state count : Nat) (back : Bool) : State :=
  s.setBytes ⟨false, a.pa⟩ (T.headerBytes a state count back)

/-- The written and full-empty bits as they stand when the window is parked (R373, R414). -/
def State.writeBits (s : State) (T : Team) (a : SaveArea) : State :=
  (s.setBytes ⟨false, a.pa + T.writtenBitsAt⟩ (padBlock (bitBlock (T.size / 128) T.written))).setBytes
    ⟨false, a.pa + T.fullBitsAt⟩ (padBlock (bitBlock (T.size / 128) T.full))

/-- A launch saved whole whose teams are all out writes its front save record and is held (R376, R399). -/
def State.settleSave (s : State) (launch : Nat) : State :=
  match s.launch launch with
  | none => s
  | some L =>
    match L.stage with
    | .saving r =>
      if s.teams.any fun T => T.launch = launch && T.savedArea.isNone then s
      else
        let L1 := { L with stage := .saved r, front := L.front.map fun f => { f with reserved := false, die := none } }
        match r, L.front with
        | some (pa, _), some f => (s.putLaunch L1).setBytes ⟨false, pa⟩ (L.frontRecord f)
        | _, _ => s.putLaunch L1
    | _ => s

/-- A team that is frozen in the pool: nothing brings it back but the host, and its watchdog is to report it once (R361, R378). -/
def Team.heldFrozen (T : Team) : Team :=
  { T with frozen := true, watchReported := T.frozen && T.watchReported, restoring := false, thawing := none, metAt := none,
           lull := false, lullWaits := [] }

/-- A write-back store refused in a save: the imprecise store fault of the team, at the first address refused, freezes it (R173,
R360, R361). The record names the team's core and no group. -/
def saveFaults (T : Team) (addrs : List Nat) (s : State) : Out :=
  match addrs with
  | [] => .next s
  | x :: _ =>
    report (s.modTeam T.uid Team.heldFrozen)
      (groupRecord s T 0xFF { kind := .storeFault, acc := 2, addr := x } 5 0xFFFFFFFF 0xFF 0xFFFFFFFF)

/-- The last part of a save: write-back and parking, the final header, the resources free (R367). -/
def finishSave (s : State) (T : Team) (a : SaveArea) : Out :=
  let w := s.writeBack T
  let s1 := (w.1.writeBits T a).writeHeader T a 0 a.length true
  let back : Bool := a.reason = .preempt && s.launchActive T
  let T1 := { T with place := .saved { a with count := a.length }, pad := [], unregistered := [], restoring := back, page := 0 }
  saveFaults T w.2 ((s1.putTeam T1).settleSave T.launch)

/-- TEAM_SAVE (R367): once its entries have drained a stopped team's area is written block by block, the header first with
state 2; then the rest. -/
def execTeamSave (t : Nat) (s : State) : Out :=
  match s.team t with
  | none => .next s
  | some T =>
    match T.place with
    | .stopping a =>
      if !s.drained T then .next s
      else .next ((s.writeBlock T a 0).putTeam { T with place := .saving { a with count := 256 }, saveSince := s.wallNs })
    | .saving a =>
      if a.stopped then .next s
      else if a.count < a.length then
        .next ((s.writeBlock T a (a.count / 256)).putTeam { T with place := .saving { a with count := a.count + 256 } })
      else finishSave s T a
    | _ => .next s

/-! ## Flush-and-restart, discard (R362, R370) -/

/-- The die barrier forgets a team that starts again: its exits and its arrivals (R205, R370). -/
def State.forgetBarrier (s : State) (T : Team) : State :=
  match s.launch T.launch with
  | none => s
  | some L =>
    let B := L.bar T.die
    let out := (T.groups.filter fun G => G.status = .exited).length
    let here := (T.groups.filter fun G => G.arrivedDie = some B.phase).length
    s.putLaunch (L.settleBar { B with exited := B.exited - out, count := B.count - here })

/-- A take of a team is no longer awaited. -/
def RedObj.dropTaker (t : Nat) (o : RedObj) : RedObj := { o with takers := o.takers.filter (·.1 ≠ t) }

/-- A team's takes are no longer awaited. -/
def State.dropTakers (s : State) (t : Nat) : State :=
  State.freeObjects { s with objects := s.objects.map (RedObj.dropTaker t) }

/-- Groups that will run no further. -/
def Team.silenced (T : Team) : Team := { T with groups := T.groups.map Group.exited, drain := none, frozen := false }

/-- The launch offers a flushed team again (R304, R370). -/
def Launch.offerAgain (L : Launch) (T : Team) : Launch :=
  match T.g, T.point with
  | some g, _ => { L with again := insertNat L.again g }
  | none, some p => let q := L.lineOf p; { L with front := L.front.map fun f => f.unfire q.1 q.2 }
  | none, none => L

/-- A flush-and-restart begins: no group runs on; TEAM_END ends it (R370). -/
def State.flush (s : State) (T : Team) : State :=
  ((s.forgetBarrier T).dropTakers T.uid).putTeam { T.silenced with place := .ending true }

/-- A discarded team is gone: the launch counts it as exited, its point stays incomplete (R362). A cancelled launch without
teams leaves the dispatcher. -/
def State.dropTeam (s : State) (T : Team) : State :=
  let s1 := { s with teams := s.teams.filter (·.uid ≠ T.uid) }
  match s1.launch T.launch with
  | none => s1
  | some L =>
    if L.stage = .cancelled && !(s1.teams.any (·.launch = L.id)) then s1.dropLaunch L.id
    else (s1.putLaunch { L with ended := L.ended + 1 }).settleSave L.id

/-- Discard a team (R362): one that holds resources ends once its entries have drained. -/
def State.discard (s : State) (T : Team) : State :=
  let s1 := (s.countDiscard T).dropTakers T.uid
  if T.present then s1.putTeam { T.silenced with place := .ending false, leaving := T.cell.isSome } else s1.dropTeam T

/-- A team stopped for a flush or a discard is gone. -/
def State.endStopped (s : State) (T : Team) (again : Bool) : State :=
  if again then
    let s1 := { s with teams := s.teams.filter (·.uid ≠ T.uid) }
    match s1.launch T.launch with
    | none => s1
    | some L => (s1.putLaunch (L.offerAgain T)).settleSave L.id
  else s.dropTeam T

/-- TEAM_END (R365): an exited team ends: its copies complete, it leaves its cell, its arrays return to storage mode (R250), its
stores are performed, then the write-back; a flushed or discarded one once nothing of it is under way (R362, R370). -/
def execTeamEnd (t : Nat) (s : State) : Out :=
  match s.team t with
  | none => .next s
  | some T =>
    match T.place with
    | .resident =>
      if T.groups.isEmpty || T.liveCount ≠ 0 || s.teamCopies T.uid then .next s
      else if T.cell.isSome then .next (s.leaveCell T)
      else if !s.quiet T || T.arrays.any (·.mode ≠ .storage) then .next s
      else
        let w := s.writeBack T
        storeFaults T w.2 ((w.1.endTeam T).settleSave T.launch)
    | .ending again => if s.quiet T then .next (s.endStopped T again) else .next s
    | _ => .next s

/-! ## Pre-emption (R234, R297, R368, R369) -/

/-- How a team is pre-empted (R368). -/
inductive PreemptMode where
  | drain | save | flush
deriving DecidableEq, Repr

/-- A group's progress (R368). -/
def progressOf (h : Header) (G : Group) : Nat :=
  if h.progress = 0 then 0 else field (G.sget (BitVec.ofNat 6 h.progress)) 0 10

/-- The members of a team's cell, or the team alone (R234). -/
def State.cellOf (s : State) (T : Team) : List Team :=
  match T.cell with
  | none => [T]
  | some (id, _) => s.cellMembers T.launch T.die id

/-- A flush is allowed (R368, R369). -/
def flushOk (h : Header) (T : Team) : Bool := h.idempotent && !T.posted

/-- The dispatcher's choice (R368). -/
def preemptMode (h : Header) (T : Team) : PreemptMode :=
  let ps := (T.groups.filter Group.live).map (progressOf h)
  if T.cell.isSome then .save
  else if ps.all fun p => 896 ≤ p then .drain
  else if flushOk h T && ps.all fun p => p < 128 then .flush
  else .save

/-- A mode the host names, within its limits (R369). -/
def hostMode (h : Header) (T : Team) (m : BitVec 2) : PreemptMode :=
  match m.toNat with
  | 0 => if T.cell.isSome then .save else .drain
  | 2 => if flushOk h T then .flush else .save
  | _ => .save

/-- Pre-empt a team; none where its save finds no room in the pool (R415). -/
def State.preemptOne (s : State) (T : Team) (m : PreemptMode) : Option State :=
  match m with
  | .drain => some (s.putTeam { T with drain := some s.wallNs })
  | .flush => some (s.flush T)
  | .save => s.stopFor T .preempt

/-- The teams a pre-emption of T acts on: those of its cell that are resident (R234). -/
def State.preemptSet (s : State) (T : Team) : List Team := (s.cellOf T).filter fun W => W.place = .resident

/-- The dispatcher may pre-empt a team with its cell: no member is frozen (R234, R361; log 48). -/
def State.mayPreempt (s : State) (T : Team) : Bool := (s.preemptSet T).all fun W => !W.frozen

/-- Pre-empt a team with the members of its cell. -/
def State.preemptAll (mode : Team → PreemptMode) : List Team → State → Option State
  | [], s => some s
  | T :: l, s => (s.preemptOne T (mode T)).bind (State.preemptAll mode l)

/-- A team the dispatcher may pre-empt: resident, not frozen, not on its way out (R361). -/
def Team.preemptable (T : Team) : Bool := T.place = .resident && !T.frozen && T.drain.isNone && !T.ending && !T.groups.isEmpty

/-- The priority of a team's launch's class. -/
def State.teamPriority (s : State) (T : Team) : Nat := ((s.launch T.launch).map fun L => s.priority L.record.cls).getD 0

/-- Insert a team: lowest rank first, then youngest, then the later uid. -/
def insertVictim (rank : Team → Nat) (T : Team) : List Team → List Team
  | [] => [T]
  | W :: l =>
    if rank T < rank W || (rank T = rank W && (W.placedAt < T.placedAt || (W.placedAt = T.placedAt && W.uid < T.uid))) then
      T :: W :: l
    else W :: insertVictim rank T l

/-- Pre-empt the first victim that can be. -/
def State.preemptFirst (s : State) : List Team → Option State
  | [] => none
  | T :: l =>
    match State.preemptAll (fun W => preemptMode (s.header W) W) (s.preemptSet T) s with
    | some s1 => some s1
    | none => s.preemptFirst l

/-- The state as it will be once the pre-emptions under way on a die are over. -/
def State.afterPreemptions (s : State) (d : Nat) : State :=
  { s with teams := s.teams.filter fun T =>
      !(T.die = d && (T.drain.isSome || (match T.place with
        | .stopping _ | .saving _ | .ending _ => true
        | _ => false))) }

/-- The thawing team that stands first on a die, of those whose launch lets them return (R212, R399): the one that became
thawing first. Which of two that became thawing at the same moment stands first R29 and R212 leave open: DESIGN CHOICE, the
lower uid (log 48). -/
def State.firstThaw (s : State) (d : Nat) : Option Team :=
  (s.teams.filter fun T => T.die = d && T.thawing.isSome && s.letsReturn T).foldl (fun best T => match best with
    | none => some T
    | some B =>
      let a := T.thawing.getD 0
      let b := B.thawing.getD 0
      if a < b || (a = b && T.uid < B.uid) then some T else some B) none

/-- The thawing team needs room on its die and pre-emptions under way will not give it (R212). -/
def State.thawNeeds (s : State) (d : Nat) : Option Team :=
  (s.firstThaw d).bind fun T =>
    if T.savedArea.isSome && !(s.afterPreemptions d).dieRoom d T.budgets T.pages (!T.arrays.isEmpty) then some T else none

/-- The launch has waited long enough for room on a die to pre-empt (R297). -/
def State.waited (s : State) (L : Launch) (d : Nat) : Bool :=
  match s.preempt L.record.cls with
  | 1 => true
  | 2 => false
  | _ => match assoc L.waits d with
    | some t => decide (t + 100000 ≤ s.wallNs)
    | none => false

/-- PREEMPTION_WAIT_EXPIRY (R212, R297): the dispatcher pre-empts one team on a die: for a launch the youngest of the lowest
priority, for its thawing team the youngest of the same or lower priority placed after the lull began. -/
def execPreemptionWaitExpiry (launch die : Nat) (s : State) : Out :=
  match s.launch launch with
  | none => .next s
  | some L =>
    let p := s.priority L.record.cls
    let victims (rank : Team → Nat) (ok : Team → Bool) : List Team :=
      (s.teams.filter fun T => T.die = die && T.preemptable && s.mayPreempt T && ok T).foldl (fun l T => insertVictim rank T l) []
    let goal : Option (List Team) := match s.thawNeeds die with
      | some W =>
        if W.launch = launch then some (victims (fun _ => 0) fun T => s.teamPriority T ≤ p && W.lullAt < T.placedAt) else none
      | none =>
        if s.waited L die && (s.firstThaw die).isNone && s.waitsRoom (s.afterPreemptions die) L die then
          some (victims s.teamPriority fun T => s.teamPriority T < p)
        else none
    match goal.bind s.preemptFirst with
    | some s1 => .next s1
    | none => .next s

/-- DRAIN_TIMEOUT (R234, R368, R415): 200 µs have passed; the team is stopped and saved, with the members of a cell it has
joined meanwhile, as soon as the pool has room. -/
def execDrainTimeout (t : Nat) (s : State) : Out :=
  match s.team t with
  | none => .next s
  | some T =>
    match T.drain with
    | none => .next s
    | some since =>
      if s.wallNs < since + 200000 || T.place ≠ .resident || T.ending || !s.mayPreempt T then .next s
      else match State.stopAll .preempt (s.preemptSet T) s with
        | some s1 => .next s1
        | none => .next s

/-! ## Restoring (R212, R213, R234, R377) -/

/-- A failed restore: the team stays frozen in the pool, and the fault of class 9 names its area (R377, R416). The watchdog of a team
newly frozen has not reported it (R378). -/
def failRestore (s : State) (T : Team) (a : SaveArea) : Out :=
  let T1 := T.heldFrozen
  report (s.putTeam T1) (dispatcherRecord s (some T) T.asid T.launch { kind := .lullRestore, aux := a.pa } 5)

/-- Scratchpad bytes loaded again from backing memory; poisoned granules keep undefined bits (R173). -/
def State.reload (s : State) (T : Team) : Team :=
  { T with pad := (T.written.filter fun i => !s.poisoned (T.backingOf i)).flatMap fun i =>
      (s.bytesAt (T.backingOf i) 16).zipIdx.map fun p => (16 * i + p.2, p.1) }

/-- A group of a restored team that is not frozen runs again (R362). -/
def Group.unfault (G : Group) (frozen : Bool) : Group := if G.status = .faulted && !frozen then { G with status := .running } else G

/-- It is this team's turn to be restored on its die (R212, R294). -/
def State.restoreTurn (s : State) (T : Team) : Bool :=
  match s.firstThaw T.die with
  | some W => W.uid = T.uid
  | none => T.restoring

/-- A team as it comes back to a core: what its area gives, its scratchpad loaded again, its hang period as it was (R173, R377, R378). -/
def State.returned (s : State) (T T1 : Team) (core page : Nat) (backing : List Loc) : Team :=
  s.reload { T1 with
    unregistered := [], backing := backing, metAt := none, core := core, page := page, place := .resident,
    restoring := false, thawing := none, lull := false,
    lullWaits := [], placedAt := s.wallNs, watch := T.watch, watchReported := T.watchReported, frozen := T.frozen,
    groups := T1.groups.map fun G => G.unfault T.frozen }

/-- Stores, atomics or adds are on their way to the backing memory of arrays that a team brings back in compute mode: mapped and
registered before they land, those would refuse them past their fault points (R174, R250). -/
def State.arraysAwaited (s : State) (T : Team) : Bool :=
  T.arrays.zipIdx.any fun p => p.1.mode ≠ .storage && s.storesInto T p.2 (s.nextUid + 1)

/-- TEAM_RESTORE (R173, R212, R213, R377): a thawing or restored team returns to a core of its die. Its window is mapped anew
(R171, R387); a page of it that no longer translates with read and write permission fails the restore (log 48). Accesses on their
way to arrays that come back in compute mode are waited for (DESIGN CHOICE, log 45). -/
def execTeamRestore (t core : Nat) (s : State) : Out :=
  match s.team t with
  | none => .next s
  | some T =>
    match T.savedArea, s.launch T.launch with
    | some a, some L =>
      if !s.restoreTurn T || !s.letsReturn T then .next s
      else match s.oldRoom T core with
        | none => .next s
        | some (slots, page) =>
          match s.backingFrom T.asid T.die core T.window (T.pages), s.loadTeam T a slots s.nextUid with
          | .error (_, .absent pa), _ => .fault (.noSuchDramAddress pa)
          | .ok backing, some (T1, seqs) =>
            let T2 := s.returned T T1 core page backing
            let s0 := s.putLaunch { L with waits := assocDel L.waits T.die }
            if s.arraysAwaited T2 then .next s
            else
              let s1 := (({ s0 with nextUid := s.nextUid + 8 }.putTeam T2).deduct L T.die).fresh T.die core
              .next (seqs.foldl (fun s q => s.setSeq t q.1 q.2) s1)
          | _, _ => failRestore s T a
    | _, _ => .next s

/-! ## The watchdog (R378, R379) -/

/-- The watchdog's record, which says whether the team is frozen (R360, R378, R416). -/
def watchRecord (s : State) (T : Team) (aux : Nat) : Out :=
  report s (dispatcherRecord s (some T) T.asid T.launch { kind := .watchdog, aux := aux } (if T.frozen then 5 else 1))

/-- The watchdog's two periods (R378): since the last retired scalar word, and of a save that runs. -/
inductive WatchPeriod where
  | idle | save
deriving DecidableEq, Repr

/-- The period of a team that has passed, of whatever length the host has set, the save's first; 0 sets no watchdog (R378). -/
def State.watchOver (s : State) (T : Team) : Option WatchPeriod :=
  let period := 1000 * s.control.wdog.toNat
  let saves : Bool := match T.place with
    | .saving a => !a.stopped
    | _ => false
  if period = 0 then none
  else if saves && decide (T.saveSince + period ≤ s.wallNs) then some .save
  else if T.watch + period ≤ s.wallNs then some .idle
  else none

/-- An expiry restarts its period (R378). -/
def Team.rewatch (T : Team) (now : Nat) : WatchPeriod → Team
  | .idle => { T with watch := now, watchReported := true }
  | .save => { T with saveSince := now, watchReported := true }

/-- The host has acted on a team: both periods of its watchdog start again (R378; DEDUCED, log 48). -/
def Team.hostActs (T : Team) (now : Nat) : Team := { T with watch := now, saveSince := now, watchReported := false }

/-- WATCHDOG_EXPIRY (R378, R379): it reports, and either period's expiry stops a save at the boundary it has reached. -/
def execWatchdogExpiry (t : Nat) (s : State) : Out :=
  match s.team t with
  | none => .next s
  | some T =>
    match s.watchOver T with
    | none => .next s
    | some w =>
      let T1 := T.rewatch s.wallNs w
      match T.place with
      | .saving a =>
        if a.stopped then .next s
        else if a.count < a.length then
          let T2 := { T1 with place := .saving { a with stopped := true }, frozen := true }
          watchRecord ((s.writeHeader T2 a 1 a.count false).putTeam T2) T2 a.pa
        else watchRecord (s.putTeam T1) T1 a.pa
      | .saved _ =>
        if !(T.frozen || T.lull) || (T.frozen && T.watchReported) then .next s else watchRecord (s.putTeam T1) T1 0
      | .ending _ => .next s
      | _ => if T.frozen && T.watchReported then .next s else watchRecord (s.putTeam T1) T1 0

end Sys2Proof.Machine
end

