-- ==== Sys2Proof/Machine/Host.lean ====
section
/-! DEFINITION. The host actions: resume, save, restore, discard, cancel launch, retry, dump and pre-empt (R362, R376,
R377, R379, R388, R399, R415). -/
namespace Sys2Proof.Machine

/-! ## Refusal and naming (R388) -/

/-- Bit 1 of `act`: the last action was refused. -/
def State.setRefused (s : State) (b : Bool) : State := { s with control := { s.control with actRefused := b } }

/-- A refused action has no effect but its bit (R388). -/
def refuseAction (s : State) : Out := .next (s.setRefused true)

/-- A team that an action, or the dispatcher, is still moving: it drains, is being saved, restored or ended. -/
def Team.moving (T : Team) : Bool :=
  T.drain.isSome || T.restoring || (match T.place with
    | .stopping _ | .ending _ => true
    | .saving a => !a.stopped
    | _ => false)

/-- The teams of a launch an action names (R388). -/
def State.named (s : State) (launch : Nat) : TeamName → List Team
  | .all => s.teams.filter (·.launch = launch)
  | .one d n => s.teams.filter fun T => T.launch = launch && T.die = d && T.num = n

/-- A team, by its identity number, is being moved. -/
def State.isMoving (s : State) (u : Nat) : Bool := (s.team u).any Team.moving

/-- Bit 0 of `act`: an action is being carried out (R388). -/
def State.actBusy (s : State) : Bool := s.control.acting.any s.isMoving

/-- An action is over for the teams that have come to rest. -/
def State.settleAct (s : State) : Control := { s.control with acting := s.control.acting.filter s.isMoving }

/-- An action on teams has been taken; it is carried out until those it names, and every other that it moves, have come to rest;
earlier actions go on (R388). `s0` is the state before it. -/
def takenOn (s0 s : State) (launch : Nat) (name : TeamName) : Out :=
  let us := s.control.acting ++ (s.named launch name).map (·.uid) ++ (s.teams.map (·.uid)).filter fun u => !s0.isMoving u
  .next { s with control := { s.control with actRefused := false, acting := us.eraseDups.filter s.isMoving } }

/-- Act on teams one after another; none where one act is refused. -/
def actOn (act : Team → State → Option State) : List Team → State → Option State
  | [], s => some s
  | T :: l, s => (act ((s.team T.uid).getD T) s).bind (actOn act l)

/-- An action on the named teams; refused where it names none, or one in a state to which it does not apply (R388). -/
def teamAction (s : State) (launch : Nat) (name : TeamName) (ok : Launch → Team → Bool)
    (act : Team → State → Option State) : Out :=
  match s.launch launch with
  | none => refuseAction s
  | some L =>
    let ts := s.named launch name
    if ts.isEmpty || !ts.all (ok L) then refuseAction s
    else match actOn act ts s with
      | some s1 => takenOn s s1 launch name
      | none => refuseAction s

/-- The launch is active or on its way to being held. -/
def Launch.open (L : Launch) : Bool :=
  match L.stage with
  | .active | .saving _ => true
  | _ => false

/-! ## Resume (R362, R399) -/

/-- A group of a resumed resident team continues from its stop point; its volatile registers and latches are undefined
(R26, R362). -/
def Group.goOn (seed : Nat) (v : Volatile) (G : Group) : Group :=
  if G.live then ({ G with status := .running, mustStop := false, stopFault := false }).undefine (seed + G.idx) v else G

/-- Resume a frozen team. A team whose start failed is offered again (R171); one in the pool is restored first. -/
def State.resumeTeam (T : Team) (s : State) : Option State :=
  match T.place with
  | .startFailed =>
    let s1 := { s with teams := s.teams.filter (·.uid ≠ T.uid) }
    some (match s1.launch T.launch with
      | some L => s1.putLaunch (L.offerAgain T)
      | none => s1)
  | .saved _ => some (s.putTeam { T.hostActs s.wallNs with frozen := false, restoring := true })
  | _ =>
    let T1 : Team := { T.hostActs s.wallNs with frozen := false, groups := T.groups.map (Group.goOn s.nextUid (s.header T).vol) }
    some { s.putTeam T1 with nextUid := s.nextUid + 8 }

/-- A team a resume applies to. -/
def resumable (L : Launch) (T : Team) : Bool :=
  L.open && T.frozen && (match T.place with
    | .resident | .startFailed | .saved _ => true
    | _ => false)

/-- A saved launch is active again, its front record's place free; its teams return (R304, R377, R399). -/
def State.returnLaunch (s : State) (L : Launch) (f : Option Front) : State :=
  let back (T : Team) : Team :=
    if T.launch = L.id && T.savedArea.isSome && !T.lull then { T with restoring := true, frozen := false } else T
  { s.putLaunch { L with stage := .active, front := f } with teams := s.teams.map back }

/-- The restore of a saved front launch fails: the launch stays held (R399, R416). -/
def failReturn (s : State) (L : Launch) (pa : Nat) : Out :=
  report (s.setRefused false) (dispatcherRecord s none L.asid L.id { kind := .lullRestore, aux := pa } 1)

/-- Restore a saved launch: the front record first (R303, R399). -/
def resumeLaunch (s : State) (L : Launch) (rec1 : Option (Nat × Nat)) : Out :=
  match L.front, rec1 with
  | some _, some (pa, n) =>
    let lines := le (s.bytesAt ⟨false, pa⟩ 64) 4 4
    if n < 64 + 24 * lines || s.extentPoison pa (64 + 24 * lines) then failReturn s L pa
    else match L.parseFrontRecord (s.bytesAt ⟨false, pa⟩ (64 + 24 * lines)) with
      | none => failReturn s L pa
      | some f => takenOn s (s.returnLaunch L (some f)) L.id .all
  | _, _ => takenOn s (s.returnLaunch L L.front) L.id .all

/-- A launch saved whole, with the place of its front record. -/
def Launch.heldRecord (L : Launch) : Option (Launch × Option (Nat × Nat)) :=
  match L.stage with
  | .saved r => some (L, r)
  | _ => none

/-- HOST_RESUME (R362, R399). -/
def execHostResume (launch : Nat) (team : TeamName) (s : State) : Out :=
  match team, (s.launch launch).bind Launch.heldRecord with
  | .all, some (L, r) => resumeLaunch s L r
  | _, _ => teamAction s launch team resumable State.resumeTeam

/-! ## Save, restore, discard, cancel (R362) -/

/-- HOST_SAVE (R362): a resident frozen team is saved with reason 2 and stays frozen. -/
def execHostSave (launch : Nat) (team : TeamName) (s : State) : Out :=
  teamAction s launch team (fun L T => L.open && T.frozen && T.place = .resident) fun T s => s.stopFor T .host

/-- HOST_RESTORE (R362): a team the save action has placed in the pool returns, still frozen. -/
def execHostRestore (launch : Nat) (team : TeamName) (s : State) : Out :=
  teamAction s launch team (fun L T => L.stage = .active && T.frozen && (match T.place with
    | .saved a => a.reason = .host && a.pool
    | _ => false)) fun T s => some (s.putTeam { T.hostActs s.wallNs with restoring := true })

/-- A team a discard applies to: frozen, and not on its way out of its core. -/
def discardable (T : Team) : Bool :=
  T.frozen && (match T.place with
    | .resident | .startFailed | .saved _ => true
    | .saving a => a.stopped
    | _ => false)

/-- HOST_DISCARD (R362). -/
def execHostDiscard (launch : Nat) (team : TeamName) (s : State) : Out :=
  teamAction s launch team (fun _ T => discardable T) fun T s => some (s.discard T)

/-- Cancel a launch (R315, R362): every team is discarded, nothing further is placed. -/
def State.cancel (s : State) (L : Launch) : State :=
  let s1 := (s.putLaunch { L with stage := .cancelled, front := none, again := [] }).dropObjects L.id
  let ts := s1.teams.filter fun T => T.launch = L.id && T.place ≠ .ending false
  if s1.teams.any (·.launch = L.id) then ts.foldl (fun s T => s.discard ((s.team T.uid).getD T)) s1 else s1.dropLaunch L.id

/-- HOST_CANCEL_LAUNCH (R362). -/
def execHostCancelLaunch (launch : Nat) (s : State) : Out :=
  match s.launch launch with
  | none => refuseAction s
  | some L => if L.uncompleted && L.stage ≠ .cancelled then takenOn s (s.cancel L) L.id .all else refuseAction s

/-! ## Retry and dump (R379) -/

/-- The team was frozen before its save was stopped: the host's save or dump leaves it frozen, or a fault of a group (R362, R379). -/
def Team.wasFrozen (T : Team) (a : SaveArea) : Bool := a.reason = .host || a.reason = .dump || T.groups.any (·.status = .faulted)

/-- A save stopped by the watchdog. -/
def stoppedSave (_ : Launch) (T : Team) : Bool :=
  match T.place with
  | .saving a => a.stopped
  | _ => false

/-- HOST_RETRY (R379): the save goes on from count. -/
def execHostRetry (launch : Nat) (team : TeamName) (s : State) : Out :=
  teamAction s launch team stoppedSave fun T s =>
    match T.place with
    | .saving a => some (s.putTeam { T.hostActs s.wallNs with place := .saving { a with stopped := false }, frozen := T.wasFrozen a })
    | _ => none

/-- The extent of the pool that a save holds and a dump leaves in use until the team has returned or gone (R415). -/
def SaveArea.poolExtent (a : SaveArea) : Option (Nat × Nat) := if a.pool then some (a.pa, up256 a.length) else a.kept

/-- HOST_DUMP (R379): the whole area is written again at the address of act + 16, with reason 3; the pool area stays taken until
the team has been restored or discarded (R415). The team is frozen and in no lull from here on: the host alone brings it back
(R379). -/
def execHostDump (launch : Nat) (team : TeamName) (s : State) : Out :=
  teamAction s launch team stoppedSave fun T s =>
    let pa := s.control.act16.toNat
    match T.place with
    | .saving a =>
      if pa % 256 ≠ 0 || dramBytes < pa + a.length then none
      else some (s.putTeam { T.heldFrozen.hostActs s.wallNs with
        place := .saving { a with pa := pa, reason := .dump, count := 0, stopped := false, pool := false, kept := a.poolExtent } })
    | _ => none

/-! ## Pre-empt and whole-launch save (R369, R399) -/

/-- The mode of a host pre-emption. -/
def State.modeFor (s : State) (expert : Bool) (mode : BitVec 2) (T : Team) : PreemptMode :=
  if expert then hostMode (s.header T) T mode else preemptMode (s.header T) T

/-- A fired point without a team is flushed (R304). -/
def Launch.flushOffered (L : Launch) : Launch :=
  { L with front := L.front.map fun f => { f.offered.foldl (fun f p => f.unfire p.1 p.2) f with offered := [] } }

/-- The front record's place is taken first (R415): its address and length; none where the pool has no room. -/
def State.recordPlace (s : State) (L : Launch) : Option (Option (Nat × Nat)) :=
  match L.front with
  | none => some none
  | some _ =>
    let n := 64 + 24 * L.reserve
    (s.poolFind s.poolUsed n).map fun pa => some (pa, n)

/-- What a whole-launch save does to a team: one that has not started is offered again after the restore; one of a plain
launch is saved, one of a front launch pre-empted in its mode, where a frozen one, which runs no further, is saved instead of
drained; one already on its way stays (R368, R369, R399). -/
def State.saveOne (expert : Bool) (mode : BitVec 2) (T : Team) (s : State) : Option State :=
  match T.place with
  | .startFailed => s.resumeTeam T
  | .resident =>
    if T.ending || T.groups.isEmpty then some s
    else if T.point.isNone then s.stopFor T .preempt
    else match s.modeFor expert mode T with
      | .drain =>
        if T.frozen then s.stopFor T .preempt
        else some (if T.drain.isSome then s else s.putTeam { T with drain := some s.wallNs })
      | .flush => some (s.flush T)
      | .save => s.stopFor T .preempt
  | _ => some s

/-- A whole-launch save (R376, R399); none where the pool has no room for all of it. -/
def State.saveLaunch (s : State) (L : Launch) (expert : Bool) (mode : BitVec 2) : Option State :=
  (s.recordPlace L).bind fun r =>
    let s1 := s.putLaunch { L.flushOffered with stage := .saving r }
    (actOn (State.saveOne expert mode) (s1.teams.filter (·.launch = L.id)) s1).map fun s2 => s2.settleSave L.id

/-- HOST_PREEMPT (R369, R388, R399). -/
def execHostPreempt (launch : Nat) (team : TeamName) (expert : Bool) (mode : BitVec 2) (s : State) : Out :=
  if expert && mode = 3 then refuseAction s
  else match team, s.launch launch with
    | _, none => refuseAction s
    | .all, some L =>
      if L.stage ≠ .active then refuseAction s
      else match s.saveLaunch L expert mode with
        | some s1 => takenOn s s1 launch team
        | none => refuseAction s
    | .one .., some _ =>
      teamAction s launch team (fun L T => L.open && T.preemptable && s.mayPreempt T) fun T s =>
        State.preemptAll (s.modeFor expert mode) (s.preemptSet T) s

end Sys2Proof.Machine
end

