-- ==== Sys2Proof/Machine/Platform.lean ====
section
/-! DEFINITION. The control page, the tables' commits, invalidations, resets, power, host memory accesses, bring-up and
security (R13, R30, R293, R295, R345, R380 to R394, R417, R418). -/
namespace Sys2Proof.Machine

/-! ## Clock pins (R295, R385, R391) -/

/-- Every byte of a pin word is 0 or 7 to 14 (R385). -/
def pinsOk (w : DWord) : Bool := (List.range 8).all fun i => let p := field w (8 * i) 8; p = 0 || (decide (7 ≤ p) && decide (p ≤ 14))

/-- Dies whose pin changed take the clock it gives them (R295, R391). -/
def State.repin (s : State) (w : DWord) : State :=
  let s1 := { s with control := { s.control with pin := w } }
  (List.range 8).foldl (fun r d => if s.pinned d = s1.pinned d then r else r.putDie d { r.die d with mhz := s1.nominal d }) s1

/-- The module limit wins over the pins: pinned dies are lowered, and the broken pins reported (R295, log 18). -/
def State.breakPins (s : State) : State :=
  ((List.range 8).filter fun d => s.pinned d ≠ 0 && s.control.calibrated.getLsbD d).foldl
    (fun s d => (s.lower d).tell (.brokenPin d)) s

/-- CLOCK_PIN_WRITE (R295, R385). -/
def execClockPinWrite (w : DWord) (s : State) : Out :=
  if !pinsOk w then .next s
  else if Config.pinsExceed w.toNat then .next (s.repin w).breakPins
  else .next (s.repin w)

/-! ## The ASID table (R386, R417) -/

/-- A slot that nothing has written. -/
def Slot.empty (n : Nat) : Slot := ⟨List.replicate n 0, List.replicate n none⟩

/-- An ASID slot. -/
def State.slot (s : State) (i : Nat) : Slot := (assoc s.asids i).getD (.empty 8)

/-- Hold a written word until the commit (R417). -/
def Slot.hold (e : Slot) (k : Nat) (w : DWord) : Slot := { e with held := e.held.set k (some w) }

/-- The words as held, the commit word new. -/
def Slot.merged (e : Slot) (w : DWord) : List DWord := (e.words.zipWith (fun x h => h.getD x) e.held).set 0 w

/-- The held words are gone. -/
def Slot.unheld (e : Slot) : Slot := { e with held := e.held.map fun _ => none }

/-- An ASID entry keeps its fields' limits (R386). -/
def asidEntryOk (ws : List DWord) : Bool :=
  let w (i : Nat) : DWord := ws.getD i 0
  let fqn := field (w 4) 32 32
  field (w 0) 0 8 = 0 && field (w 0) 12 4 = 0 && field (w 0) 32 32 = 0 && field (w 1) 1 11 = 0 && field (w 1) 57 7 = 0 &&
    w 2 = 0 && (fqn = 0 || (decide (2 ≤ fqn.log2) && decide (fqn.log2 ≤ 16) && fqn = 2 ^ fqn.log2)) && field (w 5) 0 6 = 0

/-- A configured entry of another slot names the same ASID. -/
def State.asidTaken (s : State) (i : Nat) (w : DWord) : Bool :=
  field w 11 1 = 1 && s.asids.any fun e =>
    e.1 ≠ i && field (e.2.word 0) 11 1 = 1 && field (e.2.word 0) 16 16 = field w 16 16

/-- The entry put in force: a new configured flag, ring or ASID starts the queue at 0 (R386). -/
def Slot.commitAsid (e : Slot) (w : DWord) : Slot :=
  let e1 : Slot := { e with words := e.merged w }
  let e2 := e1.setHalf 4 false (field (e.word 4) 0 32)
  let fresh : Bool :=
    (field w 11 1 = 1 && field (e.word 0) 11 1 = 0) || e.word 5 ≠ e1.word 5 || field (e.word 4) 32 32 ≠ field (e1.word 4) 32 32 ||
      field (e.word 0) 16 16 ≠ field w 16 16
  (if fresh then (e2.setHalf 4 false 0).setHalf 3 false 0 else e2).unheld

/-- A commit configures an address space anew: the slot did not name it before (R332, R386). -/
def Slot.configures (e : Slot) (w : DWord) : Bool :=
  field w 11 1 = 1 && (field (e.word 0) 11 1 = 0 || field (e.word 0) 16 16 ≠ field w 16 16)

/-- Deterministic mode is off for an address space that the host configures (R332). -/
def State.modeOff (s : State) (asid : Nat) : State := { s with detMode := s.detMode.filter (· ≠ asid) }

/-- ASID_ENTRY_COMMIT (R332, R386, R417). -/
def execAsidEntryCommit (slot : Nat) (w : DWord) (s : State) : Out :=
  if 64 ≤ slot then .next s
  else
    let e := s.slot slot
    if !asidEntryOk (e.merged w) || s.asidTaken slot w then .next (s.putSlot slot e.unheld)
    else
      let s1 := if e.configures w then s.modeOff (field w 16 16) else s
      .next (s1.putSlot slot (e.commitAsid w))

/-- The consumer index a host write leaves: not beyond fqp, not back (R386). -/
def consumer (fqc fqp x : Nat) : Nat := if (x + 2 ^ 32 - fqc) % 2 ^ 32 ≤ (fqp + 2 ^ 32 - fqc) % 2 ^ 32 then x else fqc

/-- FAULT_QUEUE_CONSUMER_WRITE (R386, R417): fqc at once; fqd is cleared by a 0. -/
def execFaultQueueConsumerWrite (slot : Nat) (w : DWord) (s : State) : Out :=
  if 64 ≤ slot then .next s
  else
    let e := s.slot slot
    let e1 := e.setHalf 3 true (consumer (field (e.word 3) 32 32) (field (e.word 4) 0 32) (field w 32 32))
    .next (s.putSlot slot (if field w 0 32 = 0 then e1.setHalf 3 false 0 else e1))

/-! ## The class table (R293, R417) -/

/-- A class entry keeps its fields' limits (R293). -/
def classEntryOk (ws : List DWord) : Bool :=
  let w (i : Nat) : DWord := ws.getD i 0
  let most (lo hi : Nat) : Bool := hi = 0 || decide (lo ≤ hi)
  field (w 0) 6 2 = 0 && field (w 0) 4 2 ≠ 3 && field (w 0) 16 8 ≠ 0 && field (w 0) 24 8 ≠ 0 &&
    most (field (w 0) 32 16) (field (w 0) 48 16) && most (field (w 1) 0 16) (field (w 1) 16 16) && field (w 1) 32 32 = 0 &&
    decide (1 ≤ field (w 2) 0 16) && decide (field (w 2) 0 16 ≤ 16384) && field (w 2) 16 48 = 0

/-- The minimums of the other classes and a new entry stay within 90 % of the bandwidths (R293). -/
def State.minimumsOk (s : State) (c : Nat) (ws : List DWord) : Bool :=
  let others := s.classes.filter (·.1 ≠ c)
  let h := others.foldl (fun n e => n + field (e.2.word 0) 32 16) (field (ws.getD 0 0) 32 16)
  let g := others.foldl (fun n e => n + field (e.2.word 1) 0 16) (field (ws.getD 1 0) 0 16)
  decide (10 * h ≤ 9 * 24576) && decide (10 * g ≤ 9 * 6144)

/-- Put a class slot back. -/
def State.putClass (s : State) (c : Nat) (e : Slot) : State := { s with classes := assocSet s.classes c e }

/-- CLASS_ENTRY_COMMIT (R293, R417): a refused entry is reported. -/
def execClassEntryCommit (slot : Nat) (w : DWord) (s : State) : Out :=
  if 16 ≤ slot then .next s
  else
    let e := s.classSlot slot
    let ws := e.merged w
    if !classEntryOk ws || !s.minimumsOk slot ws then .next ((s.putClass slot e.unheld).tell (.refusedWrite (0x1100 + 32 * slot)))
    else .next (s.putClass slot { e with words := ws }.unheld)

/-! ## Invalidation (R160, R387) -/

/-- The entry's mapping is the one an inval word names. -/
def TlbEntry.named (w : DWord) (e : TlbEntry) : Bool :=
  e.asid = field w 0 16 && (field w 16 48 = 2 ^ 48 - 1 || e.hits (field w 0 16) (2 ^ 16 * field w 16 48))

/-- Drop a mapping from every TLB and every base die's translation buffer (R160, R328). -/
def State.forget (s : State) (w : DWord) : State :=
  { s with
    cores := s.cores.map fun (c : Core) => { c with tlb := c.tlb.filter fun e => !e.named w },
    dies := s.dies.map fun (d : Die) =>
      { d with tlb := d.tlb.filter fun e => !e.named w, base := d.base.map fun l => l.filter fun e => !e.named w } }

/-- The backing place of a page of a team's window by the mapping now in force; the old one where the page does not translate
with read and write permission, which then no access reaches (R171, R387). -/
def State.backingNow (s : State) (T : Team) (l : Loc) (k : Nat) : Loc :=
  match s.xlate T.die T.core T.asid (T.window + 16384 * k) with
  | .ok e => if e.r && e.w then e.loc (T.window + 16384 * k) else l
  | _ => l

/-- The windows of an address space follow its new mappings (R171, R387). -/
def State.remap (s : State) (asid : Nat) : State :=
  { s with teams := s.teams.map fun T =>
      if T.asid = asid then { T with backing := T.backing.zipIdx.map fun p => s.backingNow T p.1 p.2 } else T }

/-- An entry of a matrix stream is still to read scale bytes at places that were translated when it was issued (R257, R270). -/
def MatrixEntry.placed (e : MatrixEntry) : Bool :=
  (e.ascales.places ≠ [] || e.bscales.places ≠ []) && !e.started

/-- Accesses of an address space that may use an old mapping and are not performed at system scope: requests of groups, stores whose
granules are still to be registered (R172), scale bytes of matrix entries, a running `addv`; a bank add is performed when it is applied (R333). -/
def State.underWay (s : State) (asid : Nat) : Bool :=
  (s.teams.any fun T => T.asid = asid && T.groups.any fun G => (G.reqs.any fun r => r.kind != .load && !r.performed) ||
    !G.regs.isEmpty || G.stream.any MatrixEntry.placed) || (s.blocks.any fun b => b.tag.asid = asid && b.pages ≠ []) ||
    s.adds.any fun a => a.tag.asid = asid

/-- Set the word of an invalidation under way. -/
def State.setInval (s : State) (w : Option DWord) : State := { s with control := { s.control with inval := w } }

/-- INVAL (R160, R387): the mapping leaves the TLBs; the invalidation ends once every access by it has been performed. A
write while another is under way is refused (log 30). -/
def execInval (w : DWord) (s : State) : Out :=
  match s.control.inval with
  | some x =>
    if x ≠ w then .next s
    else if s.underWay (field w 0 16) then .next (s.forget w)
    else .next (((s.forget w).remap (field w 0 16)).setInval none)
  | none => .next ((s.forget w).setInval (some w))

/-! ## Resets (R380 to R382, R391) -/

/-- A generation rises (R380). -/
def State.raiseGen (s : State) (d : Nat) : State := { s with gens := s.gens.set d ((s.gens.getD d 0) + 1) }

/-- The copies of a list of queues that a reset leaves. -/
def keepCopies (keep : CopyItem → Bool) (qs : List (List CopyItem)) : List (List CopyItem) := qs.map (·.filter keep)

/-- A copy of the dispatcher's own. -/
def CopyItem.ofHandoff : CopyItem → Bool
  | .copy _ none .. => true
  | _ => false

/-- A discarded team is gone at once, and reported (R380). -/
def State.wipeTeam (s : State) (T : Team) : State :=
  (((s.countDiscard T).dropTakers T.uid).dropTeam T).tell (.discarded T.launch T.num)

/-- The messages of a die's teams on the fabric: each request that its home has not taken, and the response to each that it
has (R381, log 31). -/
def State.messagesOf (s : State) (d : Nat) : List FabricMsg :=
  let gen := s.gens.getD d 0
  let reqs := (s.teams.filter (·.die = d)).flatMap fun T => T.groups.flatMap fun G => G.reqs.filterMap fun r =>
    match r.home with
    | some h => if h = d then none else some (if r.performed then ⟨d, h, gen, true⟩ else ⟨h, d, gen, false⟩)
    | none => none
  let adds := (s.adds.filter fun a => a.tag.die = d && !a.accepted && a.word.isNone && a.home ≠ d).map fun a =>
    (⟨a.home, d, gen, false⟩ : FabricMsg)
  reqs ++ adds ++ (s.puts.filter fun p => p.tag.die = d && !p.fence).map fun _ => ⟨8, d, gen, false⟩

/-- What a die's teams sent and no home has taken is performed nowhere; its copies end (R380, R381, log 31). -/
def State.wipeDie (s : State) (d : Nat) : State :=
  { s with
    blocks := s.blocks.filter fun b => b.tag.die ≠ d,
    puts := s.puts.filter fun p => p.tag.die ≠ d,
    adds := s.adds.filter fun a => a.accepted || a.tag.die ≠ d,
    cores := s.cores.filter fun C => C.die ≠ d }

/-- DIE_RESET (R356, R380, R381): the die's teams end and are reported, its generation rises, its cycles start at 0, its
messages stay on the fabric, stale. -/
def execDieReset (die : Nat) (s : State) : Out :=
  if 8 ≤ die then .next s
  else
    let s0 := { s with fabric := s.fabric ++ s.messagesOf die }
    let s1 := (s0.teams.filter fun T => T.die = die).foldl (fun s T => s.wipeTeam T) s0
    let D := s1.die die
    .next ((s1.wipeDie die).putDie die { D with clk := 0, tlb := [], base := [], dd := keepCopies CopyItem.ofHandoff D.dd }
      |>.raiseGen die)

/-- A started block keeps the translations it has begun with when the tables are cleared (R382, log 32). -/
def State.keepPages (s : State) (b : Block) : State :=
  (b.extents.flatMap fun x => extentPages x.1 x.2).foldl (fun s va =>
    match s.stackXlate b.tag va with
    | .ok e => s.putDie b.tag.die { s.die b.tag.die with tlb := e :: (s.die b.tag.die).tlb }
    | _ => s) s

/-- What a reset of die 8 leaves in flight: started blocks with their adds, accepted adds (R382, log 32). -/
def State.wipeWork (s : State) : State :=
  { s with
    launches := [], teams := [], objects := [], peerOpens := [], opens := [], puts := [],
    blocks := s.blocks.filter fun b => b.started && !b.fence,
    adds := s.adds.filter fun a => a.accepted || a.block.isSome,
    cores := s.cores.map fun (c : Core) => { c with queues := [], l1 := [], scalar := [] },
    dies := s.dies.map fun (d : Die) => { d with dd := [] } }

/-- The control page after a reset of die 8 (R382 items 3 and 4): the dies stay calibrated, memory trained, the noise
failure reported. -/
def Control.restart (c : Control) : Control :=
  { Control.reset with calibrated := c.calibrated, failed := c.failed, trained := c.trained, noiseFailed := c.noiseFailed }

/-- P_DIE_RESET (R382). -/
def execPDieReset (s : State) : Out :=
  let s1 := ((s.blocks.filter fun b => b.started && !b.fence).foldl (fun s b => s.keepPages b) s).wipeWork
  let s2 := { s1.repin 0 with asids := [], classes := [], measurements := [], nextLaunch := 0 }
  .next ({ s2 with control := s2.control.restart }.raiseGen 8)

/-- FULL_RESET (R353, R356, R380, R391): the part as after power-on; the host's memory, its safe tier and what it has been
told stay, and so do the model's own counters. -/
def execFullReset (s : State) : Out :=
  .next { State.reset with agenda := s.agenda, beat := s.beat, freeCtr := s.freeCtr, nextUid := s.nextUid, hostMem := s.hostMem,
                           safeTier := s.safeTier, reports := s.reports, interrupts := s.interrupts }

/-! ## Power (R345, R385, R392) -/

/-- A refused power request is counted and reported (R345, R392). -/
def State.refusePower (s : State) (w : Nat) : State :=
  { s.tell (.power (BitVec.ofNat 64 w)) with control := { s.control with refusedPower := s.control.refusedPower + 1 } }

/-- A core is idle: no team holds anything there, no copy is queued (R392). -/
def State.idleCore (s : State) (g : Nat) : Bool :=
  !(s.teams.any fun T => T.present && globalCore T.die T.core = g) &&
    s.cores.all fun C => globalCore C.die C.core ≠ g || C.queues.all List.isEmpty

/-- GATE_CORE (R392): granted only on an idle core. -/
def execGateCore (core : Nat) (s : State) : Out :=
  if 640 ≤ core then .next s
  else if s.idleCore core then .next { s with gated := insertNat s.gated core }
  else .next (s.refusePower (1 + 256 * core))

/-- UNGATE_CORE (R385). -/
def execUngateCore (core : Nat) (s : State) : Out := .next { s with gated := s.gated.filter (· ≠ core) }

/-- A channel; one not listed is in service. -/
def State.channel (s : State) (ch : Nat) : Channel := (s.channels.find? (·.ch = ch)).getD ⟨ch, .up, none⟩

/-- Put a channel back. -/
def State.putChannel (s : State) (c : Channel) : State := { s with channels := c :: s.channels.filter (·.ch ≠ c.ch) }

/-- Request a state of a channel (R345). A request on a channel with one pending replaces it and begins its 1 ms anew, and the first
is neither granted nor refused and reported; `CHANNEL_UP` drops a pending one likewise (DESIGN CHOICE, log 58). -/
def requestChannel (s : State) (ch : Nat) (x : ChannelState) : Out :=
  if 1024 ≤ ch then .next s else .next (s.putChannel { s.channel ch with pending := some (x, s.wallNs) })

/-- CHANNEL_DOWN (R345). -/
def execChannelDown (ch : Nat) (s : State) : Out := requestChannel s ch .down

/-- SELF_REFRESH (R345). -/
def execSelfRefresh (ch : Nat) (s : State) : Out := requestChannel s ch .selfRefresh

/-- CHANNEL_UP (R385): the channel is in service again at once. -/
def execChannelUp (ch : Nat) (s : State) : Out := if 1024 ≤ ch then .next s else .next (s.putChannel ⟨ch, .up, none⟩)

/-- A scan of a started block reads the channel: a 64-byte line of its region lies there. -/
def State.scans (s : State) (b : Block) (ch : Nat) : Bool :=
  match s.running b.id 0 with
  | none => false
  | some (_, c) =>
    let va := le c 16 8 / 64 * 64
    (List.range ((le c 16 8 % 64 + 4 * le c 12 4 + 63) / 64)).any fun i =>
      match s.stackXlate b.tag (va + 64 * i) with
      | .ok e => Config.channelOf (e.loc (va + 64 * i)).addr = ch
      | _ => false

/-- What defers a request: an accepted add not yet applied, a scan of the channel (R345). -/
def State.channelBusy (s : State) (ch : Nat) : Bool :=
  (s.adds.any fun a => a.accepted && Config.channelOf a.pa = ch) || s.blocks.any fun b => !b.fence && s.scans b ch

/-- CHANNEL_REQUEST_GRANT (R345): within 1 ms of the request, once nothing defers it. -/
def execChannelRequestGrant (ch : Nat) (s : State) : Out :=
  let c := s.channel ch
  match c.pending with
  | none => .next s
  | some (x, since) =>
    if s.channelBusy ch || decide (since + 1000000 ≤ s.wallNs) then .next s
    else .next (s.putChannel { c with state := x, pending := none })

/-- A request whose channel nothing defers is granted before time passes: at the first such moment (R345). -/
def State.settleChannel (s : State) (c : Channel) : Channel :=
  match c.pending with
  | none => c
  | some (x, since) =>
    if s.channelBusy c.ch || decide (since + 1000000 ≤ s.wallNs) then c else { c with state := x, pending := none }

/-- CHANNEL_REQUEST_REFUSE (R345): 1 ms after a request that has not been granted; the channel stays in service. -/
def execChannelRequestRefuse (ch : Nat) (s : State) : Out :=
  let c := s.channel ch
  match c.pending with
  | none => .next s
  | some (x, since) =>
    if s.wallNs < since + 1000000 then .next s
    else
      let kind := if x = .down then 3 else 4
      .next (((s.putChannel { c with pending := none }).refusePower (kind + 256 * ch)).tell (.channel ch))

/-- A write of the power word (R385). -/
def powerWrite (s : State) (w : DWord) : Out :=
  let n := field w 8 10
  if field w 18 46 ≠ 0 then .next s
  else match field w 0 8 with
    | 1 => execGateCore n s
    | 2 => if n < 640 then execUngateCore n s else .next s
    | 3 => requestChannel s n .down
    | 4 => requestChannel s n .selfRefresh
    | 5 => execChannelUp n s
    | _ => .next s

/-! ## The control page (R385, R388) -/

/-- The action of `act`, on the team that act + 8 names (R388). -/
def hostAction (s : State) (w : DWord) : Out :=
  let act := s.control.act
  let launch := field act 32 32
  let op := field act 0 3
  let name : TeamName := if field w 32 32 = 2 ^ 32 - 1 then .all else .one (field w 8 4) (field w 32 32)
  let limits : Bool := field act 4 28 = 0 &&
    (op = 3 || (field w 12 20 = 0 && field w 6 2 = 0 && field w 0 4 = 0 && (name = .all || decide (field w 8 4 < 8))))
  if !limits then refuseAction s
  else match op with
    | 0 => execHostResume launch name s
    | 1 => execHostSave launch name s
    | 2 => execHostDiscard launch name s
    | 3 => execHostCancelLaunch launch s
    | 4 => execHostRetry launch name s
    | 5 => execHostDump launch name s
    | 6 => execHostPreempt launch name (decide (field act 3 1 = 1)) (BitVec.ofNat 2 (field w 4 2)) s
    | _ => execHostRestore launch name s

/-- Change the control page. -/
def State.setControl (s : State) (f : Control → Control) : Out := .next { s with control := f s.control }

/-- A write of a word of the tables (R386, R293, R417). -/
def tableWrite (s : State) (off : Nat) (w : DWord) : Out :=
  if off < 0x1100 then
    let i := (off - 0x100) / 64
    match (off - 0x100) % 64 / 8 with
    | 0 => execAsidEntryCommit i w s
    | 3 => execFaultQueueConsumerWrite i w s
    | k => .next (s.putSlot i ((s.slot i).hold k w))
  else
    let i := (off - 0x1100) / 32
    match (off - 0x1100) % 32 / 8 with
    | 0 => execClassEntryCommit i w s
    | k => .next (s.putClass i ((s.classSlot i).hold k w))

/-- CONTROL_PAGE_WRITE (R385): a write that breaks a field's limits leaves the old value; read-only words, other offsets
and unaligned ones are dropped. -/
def execControlPageWrite (off : Nat) (w : DWord) (s : State) : Out :=
  if off % 8 ≠ 0 then .next s
  else if 0x100 ≤ off then (if off < 0x1300 then tableWrite s off w else .next s)
  else match off with
    | 0x08 =>
      if field w 1 11 = 0 && decide (w.toNat / 4096 * 4096 + 4096 ≤ dramBytes) then s.setControl fun c => { c with window := w }
      else .next s
    | 0x10 => if field w 0 16 ≤ 65520 && field w 24 40 = 0 then s.setControl fun c => { c with udp := w } else .next s
    | 0x18 => execClockPinWrite w s
    | 0x20 => s.setControl fun c => { c with wdog := w }
    | 0x28 => if field w 0 8 = 0 then s.setControl fun c => { c with pool := w } else .next s
    | 0x30 => s.setControl fun c => { c with poolsz := w }
    | 0x38 => execInval w s
    | 0x40 => s.setControl fun c => { c with act := w, actRefused := false }
    | 0x48 => hostAction { s with control := { s.control with act8 := w } } w
    | 0x50 => if field w 0 8 = 0 then s.setControl fun c => { c with act16 := w } else .next s
    | 0x58 => if w = 8 then execPDieReset s else if w.toNat < 8 then execDieReset w.toNat s else .next s
    | 0x60 => powerWrite s w
    | _ => .next s

/-- A word of the tables as the host reads it: the entry in force (R417). -/
def State.tableRead (s : State) (off : Nat) : Nat :=
  if off < 0x1100 then ((s.slot ((off - 0x100) / 64)).word ((off - 0x100) % 64 / 8)).toNat
  else ((s.classSlot ((off - 0x1100) / 32)).word ((off - 0x1100) % 32 / 8)).toNat

/-- What a host read of n bytes of the control page returns (R385): of an aligned 8-byte word what the page says of it; zero of
a word that is only written and of any other access. -/
def State.controlRead (s : State) (off n : Nat) : Nat :=
  let c := s.control
  if n ≠ 8 || off % 8 ≠ 0 then 0
  else if 0x100 ≤ off then (if off < 0x1300 then s.tableRead off else 0)
  else match off with
    | 0x00 => c.calibrated.toNat + 2 ^ 8 * bitOf c.trained + 2 ^ 9 * bitOf c.booted + 2 ^ 10 * bitOf c.noiseFailed
    | 0x08 => c.window.toNat
    | 0x10 => c.udp.toNat
    | 0x18 => c.pin.toNat
    | 0x20 => c.wdog.toNat
    | 0x28 => c.pool.toNat
    | 0x30 => c.poolsz.toNat
    | 0x38 => bitOf c.inval.isSome
    | 0x40 => bitOf s.actBusy + 2 * bitOf c.actRefused
    | 0x60 => bitOf (s.channels.any (·.pending.isSome))
    | 0x68 => c.drops.toNat + 2 ^ 32 * c.refusedPower.toNat
    | _ => 0

/-! ## Host accesses to device memory (R286, R418) -/

/-- The place of the record window, while it is enabled. -/
def State.windowAt (s : State) : Option Nat :=
  if field s.control.window 0 1 = 1 then some (s.control.window.toNat / 4096 * 4096) else none

/-- A host write in pieces of 64-byte lines: a whole line is written and its poison cleared, part of a poisoned line is not
performed (R418); nothing lies beyond the HDM range (R384). -/
def State.hostWrite (s : State) (pa : Nat) (bytes : List Byte) : State :=
  let first := pa / 64
  let lines := (List.range ((pa + bytes.length + 63) / 64 - first)).map (first + ·)
  lines.foldl (fun s k =>
    let lo := max pa (64 * k)
    let piece := (bytes.drop (lo - pa)).take (64 * k + 64 - lo)
    if dramBytes < lo + piece.length then s
    else if piece.length = 64 then
      { s.setBytes ⟨false, lo⟩ piece with poison := s.poison.filter (· ≠ k) }
    else if s.poison.contains k then s
    else s.setBytes ⟨false, lo⟩ piece) s

/-- HOST_MEM_WRITE (R286, R418): a write of one slot of the record window submits a record; any other write that touches the
window is dropped there and counted, and reaches memory beside it only. -/
def execHostMemWrite (pa : Nat) (bytes : List Byte) (s : State) : Out :=
  let last := pa + bytes.length
  match s.windowAt with
  | some x =>
    if bytes.isEmpty || decide (last ≤ x) || decide (x + 4096 ≤ pa) then .next (s.hostWrite pa bytes)
    else if decide (x ≤ pa) && decide (last ≤ x + 4096) then windowWrite s (pa - x) bytes
    else
      let s1 := s.hostWrite pa (bytes.take (x - pa))
      let s2 := if last ≤ x + 4096 then s1 else s1.hostWrite (x + 4096) (bytes.drop (x + 4096 - pa))
      .next (s2.countRefusal 16 .malformed)
  | none => .next (s.hostWrite pa bytes)

/-- An address of the record window. -/
def State.inWindow (s : State) (pa : Nat) : Bool :=
  match s.windowAt with
  | some x => decide (x ≤ pa) && decide (pa < x + 4096)
  | none => false

/-- A byte as the host reads it: the record window reads zero (R286). -/
def State.hostByte (s : State) (pa : Nat) : Byte := if s.inWindow pa then 0 else s.mem.get pa

/-- HOST_MEM_READ (R286, R384, R418): poison where a line outside the record window holds it; beyond the HDM range nothing is
read. -/
def execHostMemRead (pa n : Nat) (s : State) : Out :=
  if dramBytes < pa + n then .next s
  else
    let bad : Bool := (List.range n).any fun i => !s.inWindow (pa + i) && s.poison.contains ((pa + i) / 64)
    .next { s with hostRead := if bad then none else some ((List.range n).map fun i => s.hostByte (pa + i)) }

/-! ## Bring-up, security and errors (R13, R30, R390 to R394) -/

/-- MEMORY_TRAINED (R391): every line is written with valid check bits; what it then holds the manual leaves undefined
(log 3). -/
def execMemoryTrained (s : State) : Out :=
  if s.control.trained then .next s
  else .next { s with mem := [], poison := [], control := { s.control with trained := true } }

/-- DIE_CALIBRATED (R391): the die's bit is set and it takes its clock, a pinned one below its pin where the module limit wins over
the pins (R295); a die that fails is reported and never sets its bit. -/
def execDieCalibrated (die : Nat) (passed : Bool) (s : State) : Out :=
  if 8 ≤ die then .next s
  else if !passed then
    .next ({ s with control := { s.control with failed := s.control.failed ||| BitVec.ofNat 8 (2 ^ die) } }.tell (.calibration die))
  else if s.control.failed.getLsbD die then .next s
  else
    let s1 := { s with control := { s.control with calibrated := s.control.calibrated ||| BitVec.ofNat 8 (2 ^ die) } }
    let s2 := s1.putDie die { s1.die die with mhz := s1.nominal die }
    .next (if s2.pinned die ≠ 0 && Config.pinsExceed s2.control.pin.toNat then (s2.lower die).tell (.brokenPin die) else s2)

/-- Images up to the first that fails verification are measured (R394). -/
def measure : List FwImage → List (List Byte) × Bool
  | [] => ([], true)
  | i :: l =>
    if Config.mldsaVerify i.image i.signature then
      let r := measure l
      (Config.shake256 i.image :: r.1, r.2)
    else ([], false)

/-- SECURITY_BOOT (R394). -/
def execSecurityBoot (images : List FwImage) (s : State) : Out :=
  let r := measure images
  .next { s with measurements := r.1, control := { s.control with booted := r.2 } }

/-- ATTESTATION_REQUEST (R394): the measurements, signed with the request. -/
def execAttestationRequest (request : List Byte) (s : State) : Out :=
  let m := s.measurements.flatten
  .next { s with attestation := m ++ Config.mldsaSign (request ++ m) }

/-- NOISE_HEALTH_FAILURE (R393). -/
def execNoiseHealthFailure (core : Nat) (s : State) : Out :=
  .next ({ s with control := { s.control with noiseFailed := true } }.tell (.noise core))

/-- UNIT_TEST_FAILURE (R13). -/
def execUnitTestFailure (unit : Nat) (s : State) : Out := .next (s.tell (.unit unit))

/-- UNCORRECTABLE_MEMORY_ERROR (R30): corrected, or the line is poisoned and the error reported. -/
def execUncorrectableMemoryError (pa : Nat) (correctable : Bool) (s : State) : Out :=
  if correctable || decide (dramBytes ≤ pa) then .next s
  else .next ({ s with poison := insertNat s.poison (pa / 64) }.tell (.memory pa))

/-- The 16-byte granules in which a memory lists a byte. -/
def Memory.granules (m : Memory) : List Nat := (m.map fun c => c.1 / 16).eraseDups

/-- While a checkpoint copy runs the safe tier takes a granule that has been written since in its new form or keeps it in its
old one, whole; which, the manual leaves open (R390, log 50). -/
def State.recopy (s : State) : State :=
  let gs := ((s.mem.granules ++ s.safeTier.granules).eraseDups).filter fun g => Config.freeBit (s.freeCtr + g)
  { s with safeTier := gs.foldl (fun m g => m.write (16 * g) (s.mem.read (16 * g) 16)) s.safeTier }.bump (dramBytes / 16)

/-- CHECKPOINT (R390): a checkpoint begins, at most 7 s long, or 1 s where the ports carry their share; while one is under way
the copy goes on. -/
def execCheckpoint (ports : Bool) (s : State) : Out :=
  let start : State :=
    { s with safeTier := s.mem, checkpoint := some (s.wallNs + (if ports then 1 else 7) * 1000000000) }
  match s.checkpoint with
  | none => .next start
  | some last => if s.wallNs < last then .next s.recopy else .next start

end Sys2Proof.Machine
end

