-- ==== Sys2Proof/Machine/Dispatch.lean ====
section
/-! DEFINITION. One arm per instruction and device step of the opcode table. -/
namespace Sys2Proof.Machine

def exec (i : Instr) (s : State) : Host.Outcome State Fault Refusal :=
  match i with
  | .add d a b => Sys2Proof.Machine.execAdd d a b s
  | .sub d a b => Sys2Proof.Machine.execSub d a b s
  | .mul d a b => Sys2Proof.Machine.execMul d a b s
  | .mulh d a b => Sys2Proof.Machine.execMulh d a b s
  | .mulhn d a b => Sys2Proof.Machine.execMulhn d a b s
  | .div d a b => Sys2Proof.Machine.execDiv d a b s
  | .divn d a b => Sys2Proof.Machine.execDivn d a b s
  | .rem d a b => Sys2Proof.Machine.execRem d a b s
  | .remn d a b => Sys2Proof.Machine.execRemn d a b s
  | .and d a b => Sys2Proof.Machine.execAnd d a b s
  | .or d a b => Sys2Proof.Machine.execOr d a b s
  | .xor d a b => Sys2Proof.Machine.execXor d a b s
  | .andn d a b => Sys2Proof.Machine.execAndn d a b s
  | .shl d a b => Sys2Proof.Machine.execShl d a b s
  | .shr d a b => Sys2Proof.Machine.execShr d a b s
  | .sar d a b => Sys2Proof.Machine.execSar d a b s
  | .min d a b => Sys2Proof.Machine.execMin d a b s
  | .max d a b => Sys2Proof.Machine.execMax d a b s
  | .minn d a b => Sys2Proof.Machine.execMinn d a b s
  | .maxn d a b => Sys2Proof.Machine.execMaxn d a b s
  | .seq d a b => Sys2Proof.Machine.execSeq d a b s
  | .sne d a b => Sys2Proof.Machine.execSne d a b s
  | .slt d a b => Sys2Proof.Machine.execSlt d a b s
  | .sltn d a b => Sys2Proof.Machine.execSltn d a b s
  | .clz d a => Sys2Proof.Machine.execClz d a s
  | .ctz d a => Sys2Proof.Machine.execCtz d a s
  | .popc d a => Sys2Proof.Machine.execPopc d a s
  | .mov d a => Sys2Proof.Machine.execMov d a s
  | .sel d c a b => Sys2Proof.Machine.execSel d c a b s
  | .addi d a k => Sys2Proof.Machine.execAddi d a k s
  | .andi d a k => Sys2Proof.Machine.execAndi d a k s
  | .ori d a k => Sys2Proof.Machine.execOri d a k s
  | .xori d a k => Sys2Proof.Machine.execXori d a k s
  | .shli d a k => Sys2Proof.Machine.execShli d a k s
  | .shri d a k => Sys2Proof.Machine.execShri d a k s
  | .sari d a k => Sys2Proof.Machine.execSari d a k s
  | .slti d a k => Sys2Proof.Machine.execSlti d a k s
  | .sltni d a k => Sys2Proof.Machine.execSltni d a k s
  | .muli d a k => Sys2Proof.Machine.execMuli d a k s
  | .li d k => Sys2Proof.Machine.execLi d k s
  | .addpc d k => Sys2Proof.Machine.execAddpc d k s
  | .br c a k => Sys2Proof.Machine.execBr c a k s
  | .brm c k => Sys2Proof.Machine.execBrm c k s
  | .jmp k => Sys2Proof.Machine.execJmp k s
  | .call k => Sys2Proof.Machine.execCall k s
  | .jr a => Sys2Proof.Machine.execJr a s
  | .jrCall a => Sys2Proof.Machine.execJrCall a s
  | .vrun k => Sys2Proof.Machine.execVrun k s
  | .vjmp a k => Sys2Proof.Machine.execVjmp a k s
  | .vset d a => Sys2Proof.Machine.execVset d a s
  | .vdrain => Sys2Proof.Machine.execVdrain s
  | .vdrainIss => Sys2Proof.Machine.execVdrainIss s
  | .mpredSet k => Sys2Proof.Machine.execMpredSet k s
  | .mpredAnd k => Sys2Proof.Machine.execMpredAnd k s
  | .mpredAndn k => Sys2Proof.Machine.execMpredAndn k s
  | .mpredOr k => Sys2Proof.Machine.execMpredOr k s
  | .mcount d => Sys2Proof.Machine.execMcount d s
  | .mcountFirst d => Sys2Proof.Machine.execMcountFirst d s
  | .mcountLast d => Sys2Proof.Machine.execMcountLast d s
  | .ld d a k => Sys2Proof.Machine.execLd d a k s
  | .ldw d a k => Sys2Proof.Machine.execLdw d a k s
  | .st d a k => Sys2Proof.Machine.execSt d a k s
  | .stw d a k => Sys2Proof.Machine.execStw d a k s
  | .ldc d a k => Sys2Proof.Machine.execLdc d a k s
  | .amoLd d a ord sc => Sys2Proof.Machine.execAmoLd d a ord sc s
  | .amoSt a b ord sc => Sys2Proof.Machine.execAmoSt a b ord sc s
  | .amoSwap d a b ord sc => Sys2Proof.Machine.execAmoSwap d a b ord sc s
  | .amoCas d a b ord sc => Sys2Proof.Machine.execAmoCas d a b ord sc s
  | .amoAdd d a b ord sc => Sys2Proof.Machine.execAmoAdd d a b ord sc s
  | .amoAnd d a b ord sc => Sys2Proof.Machine.execAmoAnd d a b ord sc s
  | .amoOr d a b ord sc => Sys2Proof.Machine.execAmoOr d a b ord sc s
  | .amoXor d a b ord sc => Sys2Proof.Machine.execAmoXor d a b ord sc s
  | .amoMin d a b ord sc => Sys2Proof.Machine.execAmoMin d a b ord sc s
  | .amoMax d a b ord sc => Sys2Proof.Machine.execAmoMax d a b ord sc s
  | .amoMinn d a b ord sc => Sys2Proof.Machine.execAmoMinn d a b ord sc s
  | .amoMaxn d a b ord sc => Sys2Proof.Machine.execAmoMaxn d a b ord sc s
  | .fenceAcq sc => Sys2Proof.Machine.execFenceAcq sc s
  | .fenceRel sc => Sys2Proof.Machine.execFenceRel sc s
  | .fenceFull sc => Sys2Proof.Machine.execFenceFull sc s
  | .fenceQ sc => Sys2Proof.Machine.execFenceQ sc s
  | .bar b => Sys2Proof.Machine.execBar b s
  | .dbar => Sys2Proof.Machine.execDbar s
  | .await c d a v sc => Sys2Proof.Machine.execAwait c d a v sc s
  | .cjoin d id => Sys2Proof.Machine.execCjoin d id s
  | .cjoinR d a => Sys2Proof.Machine.execCjoinR d a s
  | .cleave => Sys2Proof.Machine.execCleave s
  | .yield => Sys2Proof.Machine.execYield s
  | .cpy f a b dd after skind dkind q => Sys2Proof.Machine.execCpy f a b dd after skind dkind q s
  | .qfence q => Sys2Proof.Machine.execQfence q s
  | .qwait d dd q n => Sys2Proof.Machine.execQwait d dd q n s
  | .mclose d => Sys2Proof.Machine.execMclose d s
  | .mwait n => Sys2Proof.Machine.execMwait n s
  | .mwaitR a => Sys2Proof.Machine.execMwaitR a s
  | .mwaitAll => Sys2Proof.Machine.execMwaitAll s
  | .amodeSt j n => Sys2Proof.Machine.execAmodeSt j n s
  | .amodeCmp j n => Sys2Proof.Machine.execAmodeCmp j n s
  | .tbind d a => Sys2Proof.Machine.execTbind d a s
  | .tmap k => Sys2Proof.Machine.execTmap k s
  | .launch d a => Sys2Proof.Machine.execLaunch d a s
  | .flaunch d a b => Sys2Proof.Machine.execFlaunch d a b s
  | .fpost d => Sys2Proof.Machine.execFpost d s
  | .dredOpen d a => Sys2Proof.Machine.execDredOpen d a s
  | .dredPut a b => Sys2Proof.Machine.execDredPut a b s
  | .dredClose d a => Sys2Proof.Machine.execDredClose d a s
  | .dredWait => Sys2Proof.Machine.execDredWait s
  | .dtake d a b => Sys2Proof.Machine.execDtake d a b s
  | .dtakeCorr d a b => Sys2Proof.Machine.execDtakeCorr d a b s
  | .cblk a n => Sys2Proof.Machine.execCblk a n s
  | .cblkR d a => Sys2Proof.Machine.execCblkR d a s
  | .cblkWait d n => Sys2Proof.Machine.execCblkWait d n s
  | .trap n => Sys2Proof.Machine.execTrap n s
  | .brk n => Sys2Proof.Machine.execBrk n s
  | .exit => Sys2Proof.Machine.execExit s
  | .csrr d c => Sys2Proof.Machine.execCsrr d c s
  | .csrw c a => Sys2Proof.Machine.execCsrw c a s
  | .clock d => Sys2Proof.Machine.execClock d s
  | .noise d => Sys2Proof.Machine.execNoise d s
  | .noise2 d => Sys2Proof.Machine.execNoise2 d s
  | .pfx p => Sys2Proof.Machine.execPfx p s
  | .vNop f => Sys2Proof.Machine.execVNop f s
  | .vAdd f => Sys2Proof.Machine.execVAdd f s
  | .vSub f => Sys2Proof.Machine.execVSub f s
  | .vMul f => Sys2Proof.Machine.execVMul f s
  | .vMulh f => Sys2Proof.Machine.execVMulh f s
  | .vMad f => Sys2Proof.Machine.execVMad f s
  | .vAddc f => Sys2Proof.Machine.execVAddc f s
  | .vSubb f => Sys2Proof.Machine.execVSubb f s
  | .vMin f => Sys2Proof.Machine.execVMin f s
  | .vMax f => Sys2Proof.Machine.execVMax f s
  | .vAbs f => Sys2Proof.Machine.execVAbs f s
  | .vNeg f => Sys2Proof.Machine.execVNeg f s
  | .vAnd f => Sys2Proof.Machine.execVAnd f s
  | .vOr f => Sys2Proof.Machine.execVOr f s
  | .vXor f => Sys2Proof.Machine.execVXor f s
  | .vNot f => Sys2Proof.Machine.execVNot f s
  | .vAndn f => Sys2Proof.Machine.execVAndn f s
  | .vShl f => Sys2Proof.Machine.execVShl f s
  | .vShr f => Sys2Proof.Machine.execVShr f s
  | .vSar f => Sys2Proof.Machine.execVSar f s
  | .vBfe f => Sys2Proof.Machine.execVBfe f s
  | .vBfi f => Sys2Proof.Machine.execVBfi f s
  | .vPopc f => Sys2Proof.Machine.execVPopc f s
  | .vClz f => Sys2Proof.Machine.execVClz f s
  | .vBrev f => Sys2Proof.Machine.execVBrev f s
  | .vSad f => Sys2Proof.Machine.execVSad f s
  | .vFadd f => Sys2Proof.Machine.execVFadd f s
  | .vFsub f => Sys2Proof.Machine.execVFsub f s
  | .vFmul f => Sys2Proof.Machine.execVFmul f s
  | .vFma f => Sys2Proof.Machine.execVFma f s
  | .vFms f => Sys2Proof.Machine.execVFms f s
  | .vFmin f => Sys2Proof.Machine.execVFmin f s
  | .vFmax f => Sys2Proof.Machine.execVFmax f s
  | .vFrcp f => Sys2Proof.Machine.execVFrcp f s
  | .vFrsq f => Sys2Proof.Machine.execVFrsq f s
  | .vFsqrt f => Sys2Proof.Machine.execVFsqrt f s
  | .vFexp2 f => Sys2Proof.Machine.execVFexp2 f s
  | .vFlog2 f => Sys2Proof.Machine.execVFlog2 f s
  | .vFsin f => Sys2Proof.Machine.execVFsin f s
  | .vFcos f => Sys2Proof.Machine.execVFcos f s
  | .vFdivs f => Sys2Proof.Machine.execVFdivs f s
  | .vFfloor f => Sys2Proof.Machine.execVFfloor f s
  | .vFceil f => Sys2Proof.Machine.execVFceil f s
  | .vFtrunc f => Sys2Proof.Machine.execVFtrunc f s
  | .vFround f => Sys2Proof.Machine.execVFround f s
  | .vFclass f => Sys2Proof.Machine.execVFclass f s
  | .vFscale f => Sys2Proof.Machine.execVFscale f s
  | .vFfrac f => Sys2Proof.Machine.execVFfrac f s
  | .vCmp f => Sys2Proof.Machine.execVCmp f s
  | .vFcmp f => Sys2Proof.Machine.execVFcmp f s
  | .vSel f => Sys2Proof.Machine.execVSel f s
  | .vPand f => Sys2Proof.Machine.execVPand f s
  | .vPor f => Sys2Proof.Machine.execVPor f s
  | .vPxor f => Sys2Proof.Machine.execVPxor f s
  | .vPnot f => Sys2Proof.Machine.execVPnot f s
  | .vPmov f => Sys2Proof.Machine.execVPmov f s
  | .vPmovToVector f => Sys2Proof.Machine.execVPmovToVector f s
  | .vPmovPredCopy f => Sys2Proof.Machine.execVPmovPredCopy f s
  | .vMov f => Sys2Proof.Machine.execVMov f s
  | .vMovsFirst f => Sys2Proof.Machine.execVMovsFirst f s
  | .vMovsLast f => Sys2Proof.Machine.execVMovsLast f s
  | .vMovsAt f => Sys2Proof.Machine.execVMovsAt f s
  | .vBallot f => Sys2Proof.Machine.execVBallot f s
  | .vCvt f => Sys2Proof.Machine.execVCvt f s
  | .vPack f => Sys2Proof.Machine.execVPack f s
  | .vUnpack f => Sys2Proof.Machine.execVUnpack f s
  | .vBscale f => Sys2Proof.Machine.execVBscale f s
  | .vQnt f => Sys2Proof.Machine.execVQnt f s
  | .vDqnt f => Sys2Proof.Machine.execVDqnt f s
  | .vQerr f => Sys2Proof.Machine.execVQerr f s
  | .vHrot f => Sys2Proof.Machine.execVHrot f s
  | .vOsplit f => Sys2Proof.Machine.execVOsplit f s
  | .vRand f => Sys2Proof.Machine.execVRand f s
  | .vQswap f => Sys2Proof.Machine.execVQswap f s
  | .vQbcast f => Sys2Proof.Machine.execVQbcast f s
  | .vQred f => Sys2Proof.Machine.execVQred f s
  | .vShfl f => Sys2Proof.Machine.execVShfl f s
  | .vPush f => Sys2Proof.Machine.execVPush f s
  | .vBcast f => Sys2Proof.Machine.execVBcast f s
  | .vRed f => Sys2Proof.Machine.execVRed f s
  | .vScan f => Sys2Proof.Machine.execVScan f s
  | .vMatch f => Sys2Proof.Machine.execVMatch f s
  | .vVote f => Sys2Proof.Machine.execVVote f s
  | .vLd f => Sys2Proof.Machine.execVLd f s
  | .vSt f => Sys2Proof.Machine.execVSt f s
  | .vLds f => Sys2Proof.Machine.execVLds f s
  | .vSts f => Sys2Proof.Machine.execVSts f s
  | .vLdfe f => Sys2Proof.Machine.execVLdfe f s
  | .vStfe f => Sys2Proof.Machine.execVStfe f s
  | .vAtom f => Sys2Proof.Machine.execVAtom f s
  | .vAtomr f => Sys2Proof.Machine.execVAtomr f s
  | .vBadd f => Sys2Proof.Machine.execVBadd f s
  | .vAmm f => Sys2Proof.Machine.execVAmm f s
  | .vAmw f => Sys2Proof.Machine.execVAmw f s
  | .vAccmov f => Sys2Proof.Machine.execVAccmov f s
  | .vAccld f => Sys2Proof.Machine.execVAccld f s
  | .vAccclr f => Sys2Proof.Machine.execVAccclr f s
  | .vAccscl f => Sys2Proof.Machine.execVAccscl f s
  | .vMma f => Sys2Proof.Machine.execVMma f s
  | .vMmac f => Sys2Proof.Machine.execVMmac f s
  | .fusedRun n => Sys2Proof.Machine.execFusedRun n s
  | .laneResultWriteback t g => Sys2Proof.Machine.execLaneResultWriteback t g s
  | .waitComplete t g => Sys2Proof.Machine.execWaitComplete t g s
  | .awaitPoll t g => Sys2Proof.Machine.execAwaitPoll t g s
  | .memoryResponse t g => Sys2Proof.Machine.execMemoryResponse t g s
  | .requestRepresent t g => Sys2Proof.Machine.execRequestRepresent t g s
  | .pageWalk die core asid va => Sys2Proof.Machine.execPageWalk die core asid va s
  | .homeSliceRequest t g => Sys2Proof.Machine.execHomeSliceRequest t g s
  | .fabricMessageReceive receiver sender gen response => Sys2Proof.Machine.execFabricMessageReceive receiver sender gen response s
  | .copyEntryStart q => Sys2Proof.Machine.execCopyEntryStart q s
  | .copyStep q => Sys2Proof.Machine.execCopyStep q s
  | .copyComplete q => Sys2Proof.Machine.execCopyComplete q s
  | .arrayModeSwitchComplete t arr => Sys2Proof.Machine.execArrayModeSwitchComplete t arr s
  | .arrayPassStart t g => Sys2Proof.Machine.execArrayPassStart t g s
  | .arrayPassComplete t g => Sys2Proof.Machine.execArrayPassComplete t g s
  | .digitalMatrixStart t g => Sys2Proof.Machine.execDigitalMatrixStart t g s
  | .digitalMatrixComplete t g => Sys2Proof.Machine.execDigitalMatrixComplete t g s
  | .accEntryPerform t g => Sys2Proof.Machine.execAccEntryPerform t g s
  | .stackBlockStart id => Sys2Proof.Machine.execStackBlockStart id s
  | .scan id => Sys2Proof.Machine.execScan id s
  | .addv id => Sys2Proof.Machine.execAddv id s
  | .flush id => Sys2Proof.Machine.execFlush id s
  | .mode id => Sys2Proof.Machine.execMode id s
  | .stackBlockComplete id => Sys2Proof.Machine.execStackBlockComplete id s
  | .bankAddAccept k => Sys2Proof.Machine.execBankAddAccept k s
  | .bankAddApply k => Sys2Proof.Machine.execBankAddApply k s
  | .contributionArrival id => Sys2Proof.Machine.execContributionArrival id s
  | .deadlineExpiry launch obj => Sys2Proof.Machine.execDeadlineExpiry launch obj s
  | .correctionWindowEnd launch obj => Sys2Proof.Machine.execCorrectionWindowEnd launch obj s
  | .peerContribution launch obj idx frame => Sys2Proof.Machine.execPeerContribution launch obj idx frame s
  | .peerResult launch obj corr head r m => Sys2Proof.Machine.execPeerResult launch obj corr head r m s
  | .hostRecordSubmit offset bytes => Sys2Proof.Machine.execHostRecordSubmit offset bytes s
  | .recordDatagram port udpPort payload => Sys2Proof.Machine.execRecordDatagram port udpPort payload s
  | .frontStoreReserve launch => Sys2Proof.Machine.execFrontStoreReserve launch s
  | .teamPlacement launch die core => Sys2Proof.Machine.execTeamPlacement launch die core s
  | .frontPointFire launch line inner => Sys2Proof.Machine.execFrontPointFire launch line inner s
  | .teamEnd t => Sys2Proof.Machine.execTeamEnd t s
  | .launchCompletion launch => Sys2Proof.Machine.execLaunchCompletion launch s
  | .handoff launch => Sys2Proof.Machine.execHandoff launch s
  | .successorRelease launch => Sys2Proof.Machine.execSuccessorRelease launch s
  | .energyWindow die budget => Sys2Proof.Machine.execEnergyWindow die budget s
  | .preemptionWaitExpiry launch die => Sys2Proof.Machine.execPreemptionWaitExpiry launch die s
  | .teamSave t => Sys2Proof.Machine.execTeamSave t s
  | .drainTimeout t => Sys2Proof.Machine.execDrainTimeout t s
  | .lullThresholdExpiry t g => Sys2Proof.Machine.execLullThresholdExpiry t g s
  | .lullEntry t => Sys2Proof.Machine.execLullEntry t s
  | .thaw t => Sys2Proof.Machine.execThaw t s
  | .teamRestore t core => Sys2Proof.Machine.execTeamRestore t core s
  | .watchdogExpiry t => Sys2Proof.Machine.execWatchdogExpiry t s
  | .hostResume launch team => Sys2Proof.Machine.execHostResume launch team s
  | .hostSave launch team => Sys2Proof.Machine.execHostSave launch team s
  | .hostDiscard launch team => Sys2Proof.Machine.execHostDiscard launch team s
  | .hostCancelLaunch launch => Sys2Proof.Machine.execHostCancelLaunch launch s
  | .hostRetry launch team => Sys2Proof.Machine.execHostRetry launch team s
  | .hostDump launch team => Sys2Proof.Machine.execHostDump launch team s
  | .hostPreempt launch team expert mode => Sys2Proof.Machine.execHostPreempt launch team expert mode s
  | .hostRestore launch team => Sys2Proof.Machine.execHostRestore launch team s
  | .inval w => Sys2Proof.Machine.execInval w s
  | .clockPinWrite w => Sys2Proof.Machine.execClockPinWrite w s
  | .asidEntryCommit slot w => Sys2Proof.Machine.execAsidEntryCommit slot w s
  | .classEntryCommit slot w => Sys2Proof.Machine.execClassEntryCommit slot w s
  | .faultQueueConsumerWrite slot w => Sys2Proof.Machine.execFaultQueueConsumerWrite slot w s
  | .controlPageWrite off w => Sys2Proof.Machine.execControlPageWrite off w s
  | .dieReset die => Sys2Proof.Machine.execDieReset die s
  | .pDieReset => Sys2Proof.Machine.execPDieReset s
  | .gateCore core => Sys2Proof.Machine.execGateCore core s
  | .ungateCore core => Sys2Proof.Machine.execUngateCore core s
  | .channelDown ch => Sys2Proof.Machine.execChannelDown ch s
  | .selfRefresh ch => Sys2Proof.Machine.execSelfRefresh ch s
  | .channelUp ch => Sys2Proof.Machine.execChannelUp ch s
  | .channelRequestGrant ch => Sys2Proof.Machine.execChannelRequestGrant ch s
  | .channelRequestRefuse ch => Sys2Proof.Machine.execChannelRequestRefuse ch s
  | .hostMemWrite pa bytes => Sys2Proof.Machine.execHostMemWrite pa bytes s
  | .hostMemRead pa n => Sys2Proof.Machine.execHostMemRead pa n s
  | .fullReset => Sys2Proof.Machine.execFullReset s
  | .memoryTrained => Sys2Proof.Machine.execMemoryTrained s
  | .dieCalibrated die passed => Sys2Proof.Machine.execDieCalibrated die passed s
  | .securityBoot images => Sys2Proof.Machine.execSecurityBoot images s
  | .attestationRequest request => Sys2Proof.Machine.execAttestationRequest request s
  | .noiseHealthFailure core => Sys2Proof.Machine.execNoiseHealthFailure core s
  | .unitTestFailure unit => Sys2Proof.Machine.execUnitTestFailure unit s
  | .illegalEncodingScalarWord w => Sys2Proof.Machine.execIllegalEncodingScalarWord w s
  | .illegalEncodingLaneWord w => Sys2Proof.Machine.execIllegalEncodingLaneWord w s
  | .instructionFetchFault f => Sys2Proof.Machine.execInstructionFetchFault f s
  | .uncorrectableMemoryError pa correctable => Sys2Proof.Machine.execUncorrectableMemoryError pa correctable s
  | .checkpoint ports => Sys2Proof.Machine.execCheckpoint ports s

end Sys2Proof.Machine
end

