-- ==== Sys2Proof/Machine/Turn.lean ====
section
/-! DEFINITION. A turn of a group's scalar thread or lane queue, and time passing (R19 to R23, R52, R79, R86, R111, R209,
R297, R353, R356; log 1). -/
namespace Sys2Proof.Machine

/-! ## Turns -/

/-- Every member of a team's cell is on a core (R234). -/
def State.cellHere (s : State) (T : Team) : Bool := (s.cellOf T).all Team.present

/-- The group may issue: it runs, its team holds its core and is not stopped (R361, R366). A group that has begun a word
completes it first. -/
def State.mayIssue (s : State) (T : Team) (G : Group) : Bool :=
  G.status = .running && (G.mustStop || (!T.frozen && T.place = .resident && s.cellHere T))

/-- The index the scalar thread fetches at: past the prefixes it holds (R39, log 6). -/
def Group.fetchIndex (G : Group) : Nat := (G.spc + BitVec.ofNat 32 G.pfx.length).toNat

/-- Run a fetched scalar word under the prefixes held. -/
def runScalarWord (s : State) (pfx : List (BitVec 26)) (w : Word) : Out :=
  match decodeScalar pfx w with
  | .ok i => exec i s
  | .error _ => execIllegalEncodingScalarWord w s

/-- Fetch the next scalar word and run it (R32, R79). -/
def runScalar (s : State) (T : Team) (G : Group) : Out :=
  match s.fetchScalar T G.fetchIndex with
  | .ok bs => runScalarWord s G.pfx (BitVec.ofNat 32 (ofBytes bs))
  | .bad f _ => execInstructionFetchFault f s
  | .absent pa => .fault (.noSuchDramAddress pa)

/-- A scalar turn: a group that waits, or may not issue, does nothing. -/
def scalarTurn (s : State) (t g : Nat) : Out :=
  match s.find t g with
  | none => .next s
  | some (T, G) =>
    if !s.mayIssue T G || G.wait.isSome then .next s
    else andThen (runScalar { s with cur := some (t, g) } T G) fun s => .next (s.finishStops t g)

/-- Run the word at the head of the lane queue, fused with its followers where they fuse (R85, R111). -/
def runLane (s : State) (G : Group) (e : QEntry) : Out :=
  match e.fetch with
  | .fault f _ => execInstructionFetchFault f s
  | .word w =>
    match fusible G with
    | some n => execFusedRun n s
    | none =>
      match decodeLane w with
      | .ok i => exec i s
      | .error _ => execIllegalEncodingLaneWord w s

/-- A lane turn: empty while a STALL or a word's further requests take turns (R52, R166), while a request is presented
again (R167), and while the queue is empty. -/
def laneTurn (s : State) (t g : Nat) : Out :=
  match s.find t g with
  | none => .next s
  | some (T, G) =>
    if !s.mayIssue T G || G.mustStop || G.reqs.any (fun r => !r.entry) then .next s
    else if G.stall ≠ 0 then .next (s.put T { G with stall := G.stall - 1 })
    else match G.queue with
      | [] => .next s
      | e :: _ => runLane { s with cur := some (t, g) } G e

/-! ## Time -/

/-- A wait grows by cycles (R209). -/
def Wait.grow (n : Nat) (w : Wait) : Wait := { w with cycles := w.cycles + n }

/-- Each die's cycles in ns nanoseconds, in thousandths (R356). -/
def Die.pass (ns : Nat) (D : Die) : Die := { D with clk := D.clk + ns * D.mhz }

/-- A team's waits grow by the cycles of its die that have passed. -/
def State.growWaits (s : State) (ns : Nat) (T : Team) : Team :=
  let D := s.die T.die
  let n := (D.pass ns).clk / 1000 - D.clk / 1000
  { T with groups := T.groups.map fun G => { G with wait := G.wait.map (Wait.grow n), laneWait := G.laneWait.map (Wait.grow n) } }

/-- Since when a launch waits for room on each die, for a new team or for one to be restored (R297). -/
def State.noteWaits (s : State) (L : Launch) : Launch :=
  { L with waits := L.dies.foldl (fun w d =>
      if s.waitsRoom s L d then
        (if (assoc w d).isSome then w else assocSet w d s.wallNs)
      else assocDel w d) L.waits }

/-- Time passes (R345, R209, R297, R353, R356); objects whose window ends with it are freed where they may be (R315). -/
def State.pass (s : State) (ns : Nat) : State :=
  State.freeObjects { s with
    wallNs := s.wallNs + ns, dies := s.dies.map (Die.pass ns), teams := s.teams.map fun T => s.growWaits ns (s.noteMet T),
    launches := s.launches.map s.noteWaits, control := s.settleAct,
    channels := s.channels.map s.settleChannel }

/-! ## An entry of the agenda -/

/-- The row runs in a turn of its group only: a scalar or lane word, a fused run, an illegal word, a fetch fault. -/
def Instr.inTurn (i : Instr) : Bool :=
  match i with
  | .fusedRun _ | .illegalEncodingScalarWord _ | .illegalEncodingLaneWord _ | .instructionFetchFault _ => true
  | i => !(encodeScalar i).isEmpty || (encodeLane i).isSome

/-- Carry out one entry of the agenda; a row that runs in a turn only does nothing there. -/
def Sched.run (x : Sched) (s : State) : Out :=
  match x with
  | .instr i => if Instr.inTurn i then .next s else exec i s
  | .scalar t g => scalarTurn s t g
  | .lane t g => laneTurn s t g
  | .tick ns => .next (s.pass ns)

end Sys2Proof.Machine
end

