-- ==== Sys2Proof/Machine/Auto.lean ====
section
/-! DEFINITION. What the part does of itself when nothing stands in the agenda: the steps that its teams, queues, engines
and launches are ready for, one after another (log 1). -/
namespace Sys2Proof.Machine

/-- Something the part may do. -/
abbrev Move := State → Out

/-- Steps of one group. -/
def groupSteps (t g : Nat) : List Move :=
  [fun s => scalarTurn s t g, fun s => laneTurn s t g, execLaneResultWriteback t g, execWaitComplete t g, execAwaitPoll t g,
   execHomeSliceRequest t g, execMemoryResponse t g, execRequestRepresent t g, execArrayPassStart t g,
   execArrayPassComplete t g, execDigitalMatrixStart t g, execDigitalMatrixComplete t g,
   execAccEntryPerform t g, execLullThresholdExpiry t g]

/-- Steps of one team. -/
def teamSteps (T : Team) : List Move :=
  (T.groups.flatMap fun G => groupSteps T.uid G.idx) ++
    ((List.range T.arrays.length).map fun j => execArrayModeSwitchComplete T.uid j) ++
    [execTeamEnd T.uid, execTeamSave T.uid, execDrainTimeout T.uid, execLullEntry T.uid,
     execThaw T.uid, execWatchdogExpiry T.uid] ++
    (if T.savedArea.isSome then (List.range (coresOf T.die)).map fun c => execTeamRestore T.uid c else [])

/-- Steps of one copy queue. -/
def queueSteps (q : QueueId) : List Move := [execCopyEntryStart q, execCopyStep q, execCopyComplete q]

/-- Steps of one command block. -/
def blockSteps (b : Block) : List Move :=
  [execStackBlockStart b.id, execScan b.id, execAddv b.id, execFlush b.id, execMode b.id,
   execStackBlockComplete b.id]

/-- Steps of one launch. -/
def launchSteps (L : Launch) : List Move :=
  [execFrontStoreReserve L.id, execLaunchCompletion L.id, execHandoff L.id, execSuccessorRelease L.id] ++
    (match L.front with
     | none => []
     | some f => f.lines.flatMap fun l => (List.range 64).map fun i => execFrontPointFire L.id l.line (l.w + i)) ++
    L.dies.flatMap fun d =>
      (List.range (coresOf d)).map (fun c => execTeamPlacement L.id d c) ++ [execPreemptionWaitExpiry L.id d]

/-- Everything the part may do next, in a fixed order. -/
def State.candidates (s : State) : List Move :=
  s.teams.flatMap teamSteps ++ ((List.range 8).flatMap s.queuesOf).flatMap queueSteps ++ s.blocks.flatMap blockSteps ++
    ((List.range s.adds.length).flatMap fun k => [execBankAddAccept k, execBankAddApply k]) ++
    (s.puts.map fun p => execContributionArrival p.id) ++
    (s.objects.flatMap fun o => [execDeadlineExpiry o.launch o.id, execCorrectionWindowEnd o.launch o.id]) ++
    s.launches.flatMap launchSteps ++ (s.control.inval.toList.map fun w => execInval w) ++
    (s.fabric.map fun m => execFabricMessageReceive m.receiver m.sender m.gen m.response) ++
    s.channels.flatMap fun c => [execChannelRequestGrant c.ch, execChannelRequestRefuse c.ch]

/-- A candidate that would change the state, or stop the machine. -/
def acts (s : State) (x : Move) : Bool :=
  match x s with
  | .next s1 => decide (s1 ≠ s)
  | .fault _ => true
  | .refused _ => true

/-- The list from its place `n`, round. -/
def rotate (l : List α) (n : Nat) : List α := l.drop (n % l.length) ++ l.take (n % l.length)

/-- With nothing in the agenda, the first candidate in turn that acts runs; where none does, time passes. Each takes 1 ns. -/
def autoStep (s : State) : Out :=
  match (rotate s.candidates s.beat).find? (acts s) with
  | none => .next (s.pass 1)
  | some x => andThen (x s) fun s1 => .next { s1.pass 1 with beat := s1.beat + 1 }

/-- The next entry of the agenda, or what the part does of itself. -/
def nextStep (s : State) : Out :=
  match s.agenda with
  | x :: rest => x.run { s with agenda := rest }
  | [] => autoStep s

end Sys2Proof.Machine
end

