-- ==== Sys2Proof/Machine/Step.lean ====
section
/-! DEFINITION. One step of the part, and the placing of one instruction where the next step fetches it. -/
namespace Sys2Proof.Machine

/-- One step: the next entry of the agenda, or what the part does of itself (log 1). -/
def step (s : State) : Host.Outcome State Fault Refusal := nextStep s

/-! ## Placing an instruction (log 8) -/

/-- The address space, launch, team and group that hold a placed instruction. -/
def placedAsid : Nat := 65535

/-- The page of a placed instruction: device address 0, read, write and execute. -/
def placedPage : TlbEntry :=
  { asid := placedAsid, base := 0, size := 65536, pa := 0, home := 0, die := 0, r := true, w := true, x := true }

/-- The ASID entry: resident and configured, no fault queue. -/
def placedSlot : Slot :=
  ⟨[BitVec.ofNat 64 (2 ^ 8 + 2 ^ 11 + 2 ^ 16 * placedAsid), 0, 0, 0, 0, 0, 0, 0], List.replicate 8 none⟩

/-- The budgets of the group: every register of the classes. -/
def placedBudget : Budget := { v := 256, s := 56, t := 16, a := 8 }

/-- The kernel header: scalar code at 4096, lane code at 8192, one group, one page of scratchpad. -/
def placedHeader : Header :=
  { scalBase := 4096, laneBase := 8192, scalLen := 16, laneLen := 16, team := 1, progress := 0, scratch := 0, arrays := 0,
    idempotent := false, energy := 0, affinity := 0, roles := [{ spc := 0, lpc := 0, bud := placedBudget, groups := 1 }],
    roleCount := 1, vol := ⟨none, none, none, none, none⟩, front := none }

/-- The launch record. -/
def placedRecord : Record :=
  { done := 0, hand := 0, succ := 0, win := 0, x := 1, y := 1, z := 1, args := 0, header := 0, front := false, dies := 1,
    asid := placedAsid, cls := 0 }

/-- The launch. -/
def placedLaunch (id order : Nat) : Launch :=
  { id := id, asid := placedAsid, record := placedRecord, header := placedHeader, dies := [0], age := 0, order := order,
    placed := [(0, 1)], again := [], ended := 0, front := none, bars := [], stage := .active, waits := [] }

/-- The group at its start; a lane word stands at the head of its queue. -/
def placedGroup (nbits w seed : Nat) : Group :=
  let G := Group.start 0 0 (0, { spc := 0, lpc := 0, bud := placedBudget, groups := 1 }) seed 0 (0, 0, 0)
  if nbits = 96 then
    { G with spc := 1, lpc := 1, runs := 1,
             queue := [{ fetch := .word (BitVec.ofNat 96 w), snap := G.sregs, spc := 0, off := 0, lpc := 0, run := 0 }] }
  else G

/-- The team of one group. -/
def placedTeam (nbits w uid launch : Nat) : Team :=
  { Team.blank uid (placedLaunch launch uid) 0 0 (.plain 0) with groups := [placedGroup nbits w (uid + 1)] }

/-- The state with an instruction where the next step fetches it: a scalar word at the group's SPC, a lane word at the head
of its queue, and its turn at the head of the agenda. -/
def State.withFetchWord (s : State) (nbits w : Nat) : State :=
  let t := s.nextUid
  let code := if nbits = 96 then (8192, leBytes w 12) else (4096, leBytes w 4)
  let C := s.core 0 0
  let s1 := (s.putSlot 63 placedSlot).putCore { C with tlb := placedPage :: C.tlb }
  { s1.setBytes ⟨false, code.1⟩ code.2 with
    overwritten := [], agenda := (if nbits = 96 then Sched.lane t 0 else .scalar t 0) :: s.agenda,
    teams := placedTeam nbits w t s.nextLaunch :: s.teams,
    launches := placedLaunch s.nextLaunch t :: s.launches,
    nextUid := t + 2 }

end Sys2Proof.Machine
end

