-- ==== Sys2Proof/Safety.lean ====
section
/-! DEFINITION. What a safe run is: steps that neither fault nor refuse, through states in their canonical form. -/
namespace Sys2Proof.Machine

/-- The memories are in their canonical form. -/
def State.memWf (s : State) : Bool := Memory.wf s.mem && Memory.wf s.hostMem && Memory.wf s.safeTier

/-- One step leads from a state to another. -/
def Steps (s t : State) : Prop := step s = .next t

/-- A state that steps lead to. -/
inductive Reaches (s : State) : State → Prop where
  | here : Reaches s s
  | more {t u : State} : Reaches s t → Steps t u → Reaches s u

/-- A state whose next step is neither a fault nor a refusal. -/
def State.safe (s : State) : Prop := ∃ t, Steps s t

end Sys2Proof.Machine
end

