-- ==== Sys2Proof/WellFormed.lean ====
section
/-! DEFINITION. Which instructions are well formed: exactly those an instruction word of some group can be (R34 to R58).
Register budgets are a group's own and are checked when its words run (R26). -/
namespace Sys2Proof

/-- The extended immediate of the shifts (R75). -/
def shiftImmOk (k : DWord) : Bool := decide (k.toNat < 64)

/-- The three registers of a copy or reduction descriptor, SA to SA + 2 (R219). -/
def tripleOk (a : SReg) : Bool := decide (1 ≤ a.toNat) && decide (a.toNat ≤ 53)

/-- A queue number: q0 to q3 of a core, 0 to 7 of a die (R215). -/
def queueOk (dd : Bool) (q : BitVec 3) : Bool := dd || decide (q.toNat < 4)

/-- A lane word's fields obey the rules of its opcode under the widest budgets (R57). -/
def laneOk (f : LaneFields) (opc : Nat) : Bool := (laneIllegal .full (f.toRaw opc)).isNone

/-- An instruction is well formed. A device step is, whatever it names. -/
def Instr.wf : Instr → Bool
  | .shli _ _ k | .shri _ _ k | .sari _ _ k => shiftImmOk k
  | .br c a _ => c != .always || decide (a = 0)
  | .vrun k => decide (1 ≤ k.toNat) && decide (k.toNat ≤ 32)
  | .fenceQ s => s != .grp
  | .cpy _ a _ dd _ sk dk q => tripleOk a && queueOk dd q && (!dd || (!sk && !dk))
  | .qfence q => decide (q ≠ 0)
  | .qwait _ dd q _ => queueOk dd q
  | .csrw c _ => c.writable
  | .vNop f => laneOk f 0x00
  | .vAdd f => laneOk f 0x01
  | .vSub f => laneOk f 0x02
  | .vMul f => laneOk f 0x03
  | .vMulh f => laneOk f 0x04
  | .vMad f => laneOk f 0x05
  | .vAddc f => laneOk f 0x06
  | .vSubb f => laneOk f 0x07
  | .vMin f => laneOk f 0x08
  | .vMax f => laneOk f 0x09
  | .vAbs f => laneOk f 0x0A
  | .vNeg f => laneOk f 0x0B
  | .vAnd f => laneOk f 0x0C
  | .vOr f => laneOk f 0x0D
  | .vXor f => laneOk f 0x0E
  | .vNot f => laneOk f 0x0F
  | .vAndn f => laneOk f 0x10
  | .vShl f => laneOk f 0x11
  | .vShr f => laneOk f 0x12
  | .vSar f => laneOk f 0x13
  | .vBfe f => laneOk f 0x14
  | .vBfi f => laneOk f 0x15
  | .vPopc f => laneOk f 0x16
  | .vClz f => laneOk f 0x17
  | .vBrev f => laneOk f 0x18
  | .vSad f => laneOk f 0x19
  | .vFadd f => laneOk f 0x30
  | .vFsub f => laneOk f 0x31
  | .vFmul f => laneOk f 0x32
  | .vFma f => laneOk f 0x33
  | .vFms f => laneOk f 0x34
  | .vFmin f => laneOk f 0x35
  | .vFmax f => laneOk f 0x36
  | .vFrcp f => laneOk f 0x37
  | .vFrsq f => laneOk f 0x38
  | .vFsqrt f => laneOk f 0x39
  | .vFexp2 f => laneOk f 0x3A
  | .vFlog2 f => laneOk f 0x3B
  | .vFsin f => laneOk f 0x3C
  | .vFcos f => laneOk f 0x3D
  | .vFdivs f => laneOk f 0x3E
  | .vFfloor f => laneOk f 0x3F
  | .vFceil f => laneOk f 0x40
  | .vFtrunc f => laneOk f 0x41
  | .vFround f => laneOk f 0x42
  | .vFclass f => laneOk f 0x43
  | .vFscale f => laneOk f 0x44
  | .vFfrac f => laneOk f 0x45
  | .vCmp f => laneOk f 0x60
  | .vFcmp f => laneOk f 0x61
  | .vSel f => laneOk f 0x62
  | .vPand f => laneOk f 0x63
  | .vPor f => laneOk f 0x64
  | .vPxor f => laneOk f 0x65
  | .vPnot f => laneOk f 0x66
  | .vMov f => laneOk f 0x68
  | .vBallot f => laneOk f 0x6A
  | .vCvt f => laneOk f 0x70
  | .vPack f => laneOk f 0x71
  | .vUnpack f => laneOk f 0x72
  | .vBscale f => laneOk f 0x73
  | .vQnt f => laneOk f 0x74
  | .vDqnt f => laneOk f 0x75
  | .vQerr f => laneOk f 0x76
  | .vHrot f => laneOk f 0x77
  | .vOsplit f => laneOk f 0x78
  | .vRand f => laneOk f 0x79
  | .vQswap f => laneOk f 0x90
  | .vQbcast f => laneOk f 0x91
  | .vQred f => laneOk f 0x92
  | .vShfl f => laneOk f 0x93
  | .vPush f => laneOk f 0x94
  | .vBcast f => laneOk f 0x95
  | .vRed f => laneOk f 0x96
  | .vScan f => laneOk f 0x97
  | .vMatch f => laneOk f 0x98
  | .vVote f => laneOk f 0x99
  | .vLd f => laneOk f 0xA0
  | .vSt f => laneOk f 0xA1
  | .vLds f => laneOk f 0xA2
  | .vSts f => laneOk f 0xA3
  | .vLdfe f => laneOk f 0xA4
  | .vStfe f => laneOk f 0xA5
  | .vAtom f => laneOk f 0xA6
  | .vAtomr f => laneOk f 0xA7
  | .vBadd f => laneOk f 0xA8
  | .vAmm f => laneOk f 0xC0
  | .vAmw f => laneOk f 0xC1
  | .vAccmov f => laneOk f 0xC2
  | .vAccld f => laneOk f 0xC3
  | .vAccclr f => laneOk f 0xC4
  | .vAccscl f => laneOk f 0xC5
  | .vMma f => laneOk f 0xD0
  | .vMmac f => laneOk f 0xD1
  | .vPmov f => laneOk f 0x67 && decide (bits f.func.toNat 0 2 = 0)
  | .vPmovToVector f => laneOk f 0x67 && decide (bits f.func.toNat 0 2 = 1)
  | .vPmovPredCopy f => laneOk f 0x67 && decide (bits f.func.toNat 0 2 = 2)
  | .vMovsFirst f => laneOk f 0x69 && decide (f.func = 0)
  | .vMovsLast f => laneOk f 0x69 && decide (f.func = 1)
  | .vMovsAt f => laneOk f 0x69 && decide (f.func = 2)
  | .add _ _ _ | .sub _ _ _ | .mul _ _ _ | .mulh _ _ _ | .mulhn _ _ _ | .div _ _ _ | .divn _ _ _ | .rem _ _ _
  | .remn _ _ _ | .and _ _ _ | .or _ _ _ | .xor _ _ _ | .andn _ _ _ | .shl _ _ _ | .shr _ _ _ | .sar _ _ _
  | .min _ _ _ | .max _ _ _ | .minn _ _ _ | .maxn _ _ _ | .seq _ _ _ | .sne _ _ _ | .slt _ _ _ | .sltn _ _ _
  | .clz _ _ | .ctz _ _ | .popc _ _ | .mov _ _ | .sel _ _ _ _ | .addi _ _ _ | .andi _ _ _ | .ori _ _ _
  | .xori _ _ _ | .slti _ _ _ | .sltni _ _ _ | .muli _ _ _ | .li _ _ | .addpc _ _ | .brm _ _ | .jmp _ | .call _
  | .jr _ | .jrCall _ | .vjmp _ _ | .vset _ _ | .vdrain | .vdrainIss | .mpredSet _ | .mpredAnd _ | .mpredAndn _
  | .mpredOr _ | .mcount _ | .mcountFirst _ | .mcountLast _ | .ld _ _ _ | .ldw _ _ _ | .st _ _ _ | .stw _ _ _
  | .ldc _ _ _ | .amoLd _ _ _ _ | .amoSt _ _ _ _ | .amoSwap _ _ _ _ _ | .amoCas _ _ _ _ _ | .amoAdd _ _ _ _ _
  | .amoAnd _ _ _ _ _ | .amoOr _ _ _ _ _ | .amoXor _ _ _ _ _ | .amoMin _ _ _ _ _ | .amoMax _ _ _ _ _
  | .amoMinn _ _ _ _ _ | .amoMaxn _ _ _ _ _ | .fenceAcq _ | .fenceRel _ | .fenceFull _ | .bar _ | .dbar
  | .await _ _ _ _ _ | .cjoin _ _ | .cjoinR _ _ | .cleave | .yield | .mclose _ | .mwait _ | .mwaitR _ | .mwaitAll
  | .amodeSt _ _ | .amodeCmp _ _ | .tbind _ _ | .tmap _ | .launch _ _ | .flaunch _ _ _ | .fpost _ | .dredOpen _ _
  | .dredPut _ _ | .dredClose _ _ | .dredWait | .dtake _ _ _ | .dtakeCorr _ _ _ | .cblk _ _ | .cblkR _ _
  | .cblkWait _ _ | .trap _ | .brk _ | .exit | .csrr _ _ | .clock _ | .noise _ | .noise2 _ | .pfx _ | .fusedRun _
  | .laneResultWriteback _ _ | .waitComplete _ _ | .awaitPoll _ _ | .memoryResponse _ _ | .requestRepresent _ _
  | .pageWalk _ _ _ _ | .homeSliceRequest _ _ | .fabricMessageReceive _ _ _ _ | .copyEntryStart _ | .copyStep _
  | .copyComplete _ | .arrayModeSwitchComplete _ _ | .arrayPassStart _ _ | .arrayPassComplete _ _
  | .digitalMatrixStart _ _ | .digitalMatrixComplete _ _ | .accEntryPerform _ _ | .stackBlockStart _ | .scan _
  | .addv _ | .flush _ | .mode _ | .stackBlockComplete _ | .bankAddAccept _ | .bankAddApply _
  | .contributionArrival _ | .deadlineExpiry _ _ | .correctionWindowEnd _ _ | .peerContribution _ _ _ _
  | .peerResult _ _ _ _ _ _ | .hostRecordSubmit _ _ | .recordDatagram _ _ _ | .frontStoreReserve _
  | .teamPlacement _ _ _ | .frontPointFire _ _ _ | .teamEnd _ | .launchCompletion _ | .handoff _
  | .successorRelease _ | .energyWindow _ _ | .preemptionWaitExpiry _ _ | .teamSave _ | .drainTimeout _
  | .lullThresholdExpiry _ _ | .lullEntry _ | .thaw _ | .teamRestore _ _ | .watchdogExpiry _ | .hostResume _ _
  | .hostSave _ _ | .hostDiscard _ _ | .hostCancelLaunch _ | .hostRetry _ _ | .hostDump _ _
  | .hostPreempt _ _ _ _ | .hostRestore _ _ | .inval _ | .clockPinWrite _ | .asidEntryCommit _ _
  | .classEntryCommit _ _ | .faultQueueConsumerWrite _ _ | .controlPageWrite _ _ | .dieReset _ | .pDieReset
  | .gateCore _ | .ungateCore _ | .channelDown _ | .selfRefresh _ | .channelUp _ | .channelRequestGrant _
  | .channelRequestRefuse _ | .hostMemWrite _ _ | .hostMemRead _ _ | .fullReset | .memoryTrained
  | .dieCalibrated _ _ | .securityBoot _ | .attestationRequest _ | .noiseHealthFailure _ | .unitTestFailure _
  | .illegalEncodingScalarWord _ | .illegalEncodingLaneWord _ | .instructionFetchFault _
  | .uncorrectableMemoryError _ _ | .checkpoint _ => true

end Sys2Proof
end

