-- ==== Sys2Proof/Certificates/Slice0/Obligations.lean ====
section
/-! DEFINITION. The statements for the provers, and the few predicates they share. -/
namespace Sys2Proof.Slice0
open Sys2Proof.Machine

/-! ## What the statements share -/

/-- A scalar word that names the registers `rs` acts at this turn of group G of team T: it is the group's turn, the
registers lie in its budgets (R26), none is pending (R71), and no lane word before it is short of its fault point, or, for
a word that only writes scalar registers, SPC or LPC, or releases lane words (`effect` false), fewer than 16 scalar words
are tentative (R86). A word with another effect waits while a lane atomic of the group, or a store of it to the scratchpads of its
own core, is rejected and has not acted (R167; the wait is the model's choice, log 7). -/
def ScalarActs (s : State) (T : Team) (G : Group) (rs : List SReg) (effect : Bool) : Prop :=
  s.current = some (T, G) ∧ (∀ r ∈ rs, G.bud.sOk r.toNat = true ∧ G.pending r = false) ∧
    (G.queue = [] ∨ (effect = false ∧ G.tent.length < 16)) ∧
    (effect = true → ∀ r ∈ G.reqs, r.entry = true ∨ r.performed = true ∨ G.words < r.word ∨ (r.atom = none ∧ r.pads = []))

/-- A scalar word has written register d and gone on, tentatively where the commit rule says so (R86). -/
def wrote (s : State) (T : Team) (G : Group) (d : SReg) (x : DWord) : State :=
  s.retire T (G.tentatively [d] fun G => (G.sset d x).advance)

/-- A scalar word has gone on at `target` and written no register. -/
def flowed (s : State) (T : Team) (G : Group) (target : BitVec 32) : State :=
  s.retire T (G.tentatively [] fun G => G.jump target)

/-- Nothing but team T changes: no other team, and no field of the part beside its teams. -/
def OnlyTeam (s t : State) (T : Team) : Prop :=
  t = { s with teams := t.teams } ∧ ∀ u, u ≠ T.uid → t.team u = s.team u

/-- Every other group of team T is as before. -/
def OtherGroups (s t : State) (T : Team) (G : Group) : Prop :=
  ∀ g, g ≠ G.idx → (t.find T.uid g).map (·.2) = (s.find T.uid g).map (·.2)

/-- Every register and every control and status word of a group, but the scalar registers `ws`, is as before. -/
def KeepsRegisters (G G' : Group) (ws : List SReg) : Prop :=
  (∀ r, r ∉ ws → G'.sget r = G.sget r) ∧ (∀ k, G'.pget k = G.pget k) ∧ (∀ k, G'.tget k = G.tget k) ∧
    (∀ i, G'.vget i = G.vget i) ∧ (∀ i, G'.aget i = G.aget i) ∧ (∀ i, G'.lget i = G.lget i) ∧ G'.round = G.round ∧
    G'.rpt = G.rpt ∧ G'.rng = G.rng ∧ G'.lull = G.lull ∧ G'.fp = G.fp ∧ G'.q = G.q ∧ G'.fallback = G.fallback

/-- The byte at every place of device and host memory is as before. -/
def KeepsMemory (s t : State) : Prop := ∀ l, t.byteAt l = s.byteAt l

/-- The state without the head of its agenda. -/
def popped (s : State) (rest : List Sched) : State := { s with agenda := rest }

/-- The state at the turn of a group. -/
def turnOf (s : State) (t g : Nat) : State := { s with cur := some (t, g) }

/-- The words of `mpred`: what they make of the mask m and the predicate q (R83). -/
def maskWords (k : Fin 12) (m q : LaneMask) : List (Instr × LaneMask) :=
  [(.mpredSet k, q), (.mpredAnd k, m &&& q), (.mpredAndn k, m &&& ~~~q), (.mpredOr k, m ||| q)]

/-- The scalar words that only write registers or move the SPC or LPC, each with the registers it names and those it
writes. -/
def plainWords (d a b c : SReg) (k : DWord) (bc : BrCond) (mc : MaskCond) (p : Fin 12) :
    List (Instr × List SReg × List SReg) :=
     [(.add d a b, [d, a, b], [d]), (.sub d a b, [d, a, b], [d]), (.mul d a b, [d, a, b], [d]),
      (.mulh d a b, [d, a, b], [d]), (.mulhn d a b, [d, a, b], [d]), (.div d a b, [d, a, b], [d]),
      (.divn d a b, [d, a, b], [d]), (.rem d a b, [d, a, b], [d]), (.remn d a b, [d, a, b], [d]),
      (.and d a b, [d, a, b], [d]), (.or d a b, [d, a, b], [d]), (.xor d a b, [d, a, b], [d]),
      (.andn d a b, [d, a, b], [d]), (.shl d a b, [d, a, b], [d]), (.shr d a b, [d, a, b], [d]),
      (.sar d a b, [d, a, b], [d]), (.min d a b, [d, a, b], [d]), (.max d a b, [d, a, b], [d]),
      (.minn d a b, [d, a, b], [d]), (.maxn d a b, [d, a, b], [d]), (.seq d a b, [d, a, b], [d]),
      (.sne d a b, [d, a, b], [d]), (.slt d a b, [d, a, b], [d]), (.sltn d a b, [d, a, b], [d]),
      (.clz d a, [d, a], [d]), (.ctz d a, [d, a], [d]), (.popc d a, [d, a], [d]), (.mov d a, [d, a], [d]),
      (.sel d c a b, [d, c, a, b], [d]), (.addi d a k, [d, a], [d]), (.andi d a k, [d, a], [d]),
      (.ori d a k, [d, a], [d]), (.xori d a k, [d, a], [d]), (.shli d a k, [d, a], [d]),
      (.shri d a k, [d, a], [d]), (.sari d a k, [d, a], [d]), (.slti d a k, [d, a], [d]),
      (.sltni d a k, [d, a], [d]), (.muli d a k, [d, a], [d]), (.li d k, [d], [d]), (.addpc d k, [d], [d]),
      (.br bc a k, [a], []), (.brm mc k, [61, 62, 63], []), (.jmp k, [], []), (.call k, [59], [59]),
      (.jr a, [a], []), (.jrCall a, [a, 59], [59]), (.vjmp a k, [a], []), (.vset d a, [d, a], [d]),
      (.mpredSet p, [61, 62, 63], [61, 62, 63]), (.mpredAnd p, [61, 62, 63], [61, 62, 63]),
      (.mpredAndn p, [61, 62, 63], [61, 62, 63]), (.mpredOr p, [61, 62, 63], [61, 62, 63]),
      (.mcount d, [d, 61, 62, 63], [d]), (.mcountFirst d, [d, 61, 62, 63], [d]),
      (.mcountLast d, [d, 61, 62, 63], [d])]

/-! ### Memory -/

/-- An access of n bytes at va, aligned to n, translates and has the permissions it needs (R89, R158, R159). -/
def PageServes (s : State) (T : Team) (va n : Nat) (need : Need) : Prop :=
  va % n = 0 ∧ ∃ e, s.xlate T.die T.core T.asid va = .ok e ∧ (need.r = true → e.r = true) ∧ (need.w = true → e.w = true)

/-- No byte of the access lies in a charge array that refuses or delays it (R174). -/
def ArraysServe (s : State) (T : Team) (va n : Nat) (store : Bool) : Prop :=
  ∀ i, i < n → ∀ W o, s.padOf T ((va + i) % 2 ^ 64) = some (W, o) → (if store then W.storeBusy o else W.loadBusy o) = false

/-- A word that acts beyond the scalar registers has ended; its register d holds x. -/
def got (s : State) (T : Team) (G : Group) (d : SReg) (x : DWord) : State := s.retire T (G.sset d x).advance

/-- A word that acts beyond the scalar registers has ended. -/
def passed (s : State) (T : Team) (G : Group) : State := s.retire T G.advance

/-- A load has retired: register d holds x, pending while requests of it are in flight (R71). -/
def loaded (s : State) (T : Team) (G : Group) (d : SReg) (x : DWord) (rs : List Req) : State :=
  s.retire T { G.sset d x with words := G.words + 1, reqs := G.reqs ++ rs,
                               loads := if rs.isEmpty then G.loads else G.loads ++ [(G.words + 1, d)] }.advance

/-- Of a group nothing changes but what it has observed of its complete blocks (R339). -/
def Observes (G G1 : Group) : Prop :=
  G1 = { G with fallback := G1.fallback, unseen := G1.unseen } ∧ (G.unseen = [] → G1 = G)

/-- The state after the core of a team has discarded its lines, as an acquire at cell scope or wider does (R164). -/
def discarded (s : State) (T : Team) : State := s.putCore (s.core T.die T.core).discard

/-- The n little-endian bytes a load of the group finds at va, as a number (R2). -/
def loadValue (s : State) (T : Team) (G : Group) (via : Via) (va n : Nat) : Nat := ofBytes (s.loadBytes T G via va n)

/-- The writes of the words that a group has issued are performed; a request of the word at which it waits is none of them. -/
def WritesPerformed (G : Group) : Prop := ∀ r ∈ G.reqs, r.kind = .load ∨ r.performed = true ∨ G.words < r.word

/-- The accesses of a group before now are performed at a scope, spelled out (R185, R189, R192): all of them at cell scope and
wider; at team scope its writes, those of a team of one group at once (log 7). -/
def PerformedAt (T : Team) (G : Group) (sc : Scope) : Prop :=
  match sc with
  | .grp => True
  | .team => T.groups.length ≤ 1 ∨ WritesPerformed G
  | .cell => if T.cell = none then T.groups.length ≤ 1 ∨ WritesPerformed G else WritesPerformed G ∧ G.regs = []
  | _ => WritesPerformed G ∧ G.regs = []

/-- No saved team's window is backed by a place (R414). -/
def NoneParkedAt (s : State) (l : Loc) : Prop := ∀ T ∈ s.teams, T.savedArea ≠ none → T.backedAt l = none

/-- The fault queue of an address space can take or count one more record: its ring slot, if it has one, lies in memory. -/
def RecordHasRoom (s : State) (asid : Nat) : Prop :=
  ∀ i e, s.asidSlot asid = some (i, e) → field (e.word 4) 32 32 ≠ 0 →
    (e.word 5).toNat + 64 * (field (e.word 4) 0 32 % field (e.word 4) 32 32) + 64 ≤ dramBytes

/-- A step has taken a fault of the group in hand: the group is stopped and its team frozen. -/
def TakesItsFault (s : State) (o : Out) : Prop :=
  ∃ t T G, o = .next t ∧ t.current = some (T, G) ∧ T.frozen = true ∧ G.status = .faulted ∧ t.cur = s.cur

/-- The read-modify-write forms of `amo`. -/
def amoForms (d a b : SReg) (o : Bool) (sc : Scope) : List Instr :=
  [.amoSwap d a b o sc, .amoCas d a b o sc, .amoAdd d a b o sc, .amoAnd d a b o sc, .amoOr d a b o sc, .amoXor d a b o sc,
   .amoMin d a b o sc, .amoMax d a b o sc, .amoMinn d a b o sc, .amoMaxn d a b o sc]
/-! ### Lane words -/

/-- A lane word with opcode `opc` and fields f acts at this turn of group G: it heads the queue, is legal under the group's
budgets (R26, R57), and its sources have landed (R116). -/
def LaneActs (s : State) (T : Team) (G : Group) (e : QEntry) (opc : Nat) (f : LaneFields) : Prop :=
  s.current = some (T, G) ∧ (∃ q, G.queue = e :: q) ∧ laneIllegal G.bud (f.toRaw opc) = none ∧
    G.collectorWaits (f.toRaw opc) = false

/-- A lane word has issued and left its group as G'. -/
def issuedAs (s : State) (T : Team) (G' : Group) (f : LaneFields) : State := s.put T (G'.issued f none)

/-- A lane word whose results land after its issue has issued: its destinations are held where some lane is active (R71,
R116). -/
def issuedLate (s : State) (T : Team) (G' : Group) (e : QEntry) (f : LaneFields) (opc : Nat) (G : Group) : State :=
  s.put T (G'.issued f (if G.active e f = 0 then none else some (Busy.of (f.toRaw opc) (G.words + 1) false false)))

/-- The group with `val l` in D of each active lane l, under a TYPE. -/
def withD (G : Group) (e : QEntry) (f : LaneFields) (t : ElemType) (val : Nat → Nat) : Group :=
  G.writeD f t ((lanesOf (G.active e f)).map fun l => (l, val l))

/-- The group with `bit l` in predicate D of each active lane l. -/
def withP (G : Group) (e : QEntry) (f : LaneFields) (bit : Nat → Bool) : Group :=
  match f.d with
  | .p k => G.pset k ((G.pget k &&& ~~~(G.active e f)) ||| maskOfLanes ((lanesOf (G.active e f)).filter bit))
  | _ => G

/-- The pattern of an exact integer result (R99): the nearest value of the TYPE under SAT, else the result modulo 2^w. -/
def fit (t : ElemType) (sat : Bool) (x : Int) : Nat :=
  let lo : Int := if t.isSigned then -(2 ^ (t.width - 1) : Nat) else 0
  let hi : Int := (if t.isSigned then (2 ^ (t.width - 1) : Nat) else (2 ^ t.width : Nat)) - 1
  (BitVec.ofInt t.width (if sat then (if x < lo then lo else if hi < x then hi else x) else x)).toNat

/-- The pattern and the flags of a floating-point result: one rounding of the exact value (R97, R101). -/
def rounded (t : ElemType) (sat : Bool) (m : Mode) (v : FVal × FFlags) : Nat × FFlags :=
  let r := (ElemType.ffmt t).round v.1 m sat
  (r.1, v.2 ||| r.2)

/-- A matrix word has joined its group's matrix stream in the open batch, with the places of its scale bytes, none of them
read yet (R255, R257, R270, R279). -/
def streamed (s : State) (T : Team) (G : Group) (e : QEntry) (f : LaneFields) (opc : Nat) (op : MatrixOp)
    (as bs : ScaleTable) : State :=
  let held : Option Busy := if opc ∈ [0xC2, 0xD0, 0xD1] then some (Busy.of (f.toRaw opc) (G.words + 1) false true) else none
  let G' := G.issued f held
  (s.put T { G' with stream := G'.stream ++ [{ op := op, batch := G.batch, started := false, word := G.words + 1, passes := 0,
                                               ascales := as, bscales := bs, ready := none, born := s.nextUid,
                                               spc := e.spc, off := e.off, lpc := e.lpc }] }).noteReady

/-- A fixed tree over 2^k adjacent places from `lo`, in which a place without a value is absent (R125). -/
def treeOf (join : Nat → Nat → Nat) (v : Nat → Option Nat) : Nat → Nat → Option Nat
  | 0, lo => v lo
  | k + 1, lo =>
    match treeOf join v k lo, treeOf join v k (lo + 2 ^ k) with
    | none, y => y
    | x, none => x
    | some x, some y => some (join x y)

/-- The mask snapshot of a lane word has every bit set. -/
def FullMask (e : QEntry) : Prop := maskOf (snapReg e.snap 61) (snapReg e.snap 62) (snapReg e.snap 63) = BitVec.allOnes 96

/-- The byte accesses of n active lanes of a memory word: lane, address, length. -/
def laneAccesses (G : Group) (e : QEntry) (f : LaneFields) (addr : Nat → Nat) (len : Nat) : List Access :=
  (lanesOf (G.active e f)).map fun l => ⟨l, addr l, len⟩

/-- What one pass of a charge array adds (R238 to R241, R257, R258). The converter's code of a count of n rows is the largest j
whose threshold (j - 1/2)/255 the count reaches; a snapped count is at most n; within the exact limit of the repeat the sum of
a column is that of its true counts; the pass adds its term, rounded once, to every column of its vector and changes nothing
else. -/
def PassAdds : Prop :=
  (∀ k n j, 0 < n → j ≤ 255 → (j ≤ converterCode k n ↔ (2 * j - 1) * n ≤ 510 * k)) ∧
  (∀ codes n, snappedCount codes n ≤ n) ∧
  (∀ (T : Team) (t : Tile) (ph pl : Nat) (acts : List (Nat × Nat)) (rep ctr c : Nat), rep ∈ repeatList →
    acts.length ≤ exactLimit rep →
    T.columnSum t ph pl acts rep ctr c = ((List.range ph).flatMap fun p => (List.range pl).map fun q =>
      (if decide (p = ph - 1) != decide (q = pl - 1) then (-1 : Int) else 1) * (2 ^ (p + q) : Nat) *
        (T.count t pl acts c p q : Nat)).sum) ∧
  (∀ (G : Group) (T : Team) (acc : Nat) (act : LaneVec) (t : Tile) (fmt : FormatBlock) (rep g b ctr ph pl x y : Nat) (ea ew : Int)
    (as bs : List (List (Option Byte))), arrayFormat fmt.afmt = some (ph, x, ea) → arrayFormat t.wfmt = some (pl, y, ew) →
    let G1 := G.pass T acc act t fmt rep as bs g b ctr
    let len := (segments fmt t).2
    let map := ((T.array t.array).map (·.map)).getD ⟨0, []⟩
    let code (i : Nat) : Option Nat := (rowElement t map i).map (actCode act ph)
    let rows := (List.range len).map (len * g + ·)
    let acts := rows.map fun i => (i, ((code i).map (actInteger fmt.afmt ph)).getD 0)
    let term (c : Nat) : Nat :=
      let sa := scaleCode as b g
      let sw := scaleCode bs c g
      let i := T.columnSum t ph pl acts rep ctr c
      if sa = 255 ∨ sw = 255 ∨ (fmt.afmt = 0x23 ∧ (rows.any fun i => code i = some 8) = true) then fmt32.nanBits
      else (fmt32.round (.fin (decide (i < 0)) i.natAbs ((sa : Int) + sw - 254 + ea + ew) false) .rne false).1
    G1 = { G with accs := G1.accs } ∧
    (∀ i k, (∀ c, c < t.cols → i ≠ acc + c / 64 ∨ k ≠ 64 * b + c % 64) → elem (G1.aget i) k = elem (G.aget i) k) ∧
    ∀ c, c < t.cols →
      let v := G.aget (acc + c / 64)
      let k := 64 * b + c % 64
      k < v.length → elem (G1.aget (acc + c / 64)) k = BitVec.ofNat 32 (addF32 (elem v k).toNat (term c)))

/-- What the digital matrix words leave (R267, R272 to R275). A chunk's sum is NaN where a product is, or where infinities of
both signs meet, and an infinity where one is; C (m, n) of `v.mma` is its old value, or 0 under `.nacc`, with each chunk of
sixteen products added and rounded once, in order, a narrow chunk under its two scales; `v.mmac` adds one chunk to the real
and one to the imaginary part; no other register changes. -/
def ProductsLand : Prop :=
  (∀ ps : List FVal,
    ((ps.any FVal.isNan = true ∨ (FVal.inf true ∈ ps ∧ FVal.inf false ∈ ps)) → chunkSum ps = .nan) ∧
    (ps.any FVal.isNan = false → ∀ n, FVal.inf n ∈ ps → FVal.inf (!n) ∉ ps → chunkSum ps = .inf n) ∧
    (∀ x r, ps = x :: r → ps.any FVal.isNan = false → ps.any FVal.isInf = false → chunkSum ps = r.foldl FVal.addFin x)) ∧
  (∀ (G : Group) (ty : ElemType) (fn : BitVec 8) (d : Nat) (a b : List LaneVec) (fmt : DWord) (as bs : List (List (Option Byte)))
    (ws : List Word),
    let G1 := G.mma ty fn d a b fmt as bs ws
    let blk := formatOf fmt
    let add (x : Nat) (v : FVal) (m : Mode) : Nat := (fmt32.round ((fmt32.decode x).add v).1 m false).1
    (∀ i, i < d ∨ d + 6 ≤ i → G1.vget i = G.vget i) ∧
    ∀ m n, m < 24 → n < 24 →
      let l := 4 * m + n / 6
      let old := G.vget (d + n % 6)
      let x := if fn.toNat % 2 = 1 then 0 else (elem old l).toNat
      l < old.length →
      (ty ≠ .narrow → as = [] → bs = [] →
        let F := ElemType.ffmt ty
        let k := if ty = .f32 then 8 else 16
        elem (G1.vget (d + n % 6)) l = BitVec.ofNat 32 (add x (chunkSum ((List.range k).map fun i =>
          ((F.decode (fragment a k m i)).mul (F.decode (fragment b k n i))).1)) .rne)) ∧
      (ty = .narrow →
        let val (c v : Nat) : FVal := ((NFmt.ofCode c).getD .e8m0).decode v
        let chunk (h : Nat) : FVal :=
          let g := if blk.len ≤ 32 then 16 * h / blk.len else 0
          let sa := scaleCode as m g
          let sb := scaleCode bs n g
          if sa = 255 ∨ sb = 255 then .nan
          else (chunkSum ((List.range 16).map fun i => ((val blk.afmt (fragment a 32 m (16 * h + i))).mul
            (val blk.bfmt (fragment b 32 n (16 * h + i)))).1)).scale ((sa : Int) + sb - 254)
        let mode (h : Nat) : Mode := match blk.rnd with
          | 0 => .rne
          | 1 => .rtz
          | _ => .sr (ws.getD ((24 * m + n) * 2 + h) 0)
        elem (G1.vget (d + n % 6)) l = BitVec.ofNat 32 (add (add x (chunk 0) (mode 0)) (chunk 1) (mode 1)))) ∧
  (∀ (G : Group) (fn : BitVec 8) (d : Nat) (a b : List LaneVec),
    let G1 := G.mmac fn d a b
    let part (regs : List LaneVec) (im : Bool) (i k : Nat) : FVal :=
      fmtB16.decode ((elem (regs.getD (k % 2) []) (4 * i + k / 2)).toNat / 2 ^ (if im then 16 else 0) % 2 ^ 16)
    let conj (c : Bool) (v : FVal) : FVal := if c then v.negate else v
    (∀ i, i < d ∨ d + 12 ≤ i → G1.vget i = G.vget i) ∧
    ∀ m n, m < 24 → n < 24 → ∀ im : Bool,
      let l := 4 * m + n / 6
      let r := d + 2 * (n % 6) + (if im then 1 else 0)
      let x := if fn.toNat % 2 = 1 then 0 else (elem (G.vget r) l).toNat
      l < (G.vget r).length →
      elem (G1.vget r) l = BitVec.ofNat 32 ((fmt32.round ((fmt32.decode x).add (chunkSum ((List.range 8).flatMap fun k =>
        let ar := part a false m k
        let ai := conj (fn.getLsbD 1) (part a true m k)
        let br := part b false n k
        let bi := conj (fn.getLsbD 2) (part b true n k)
        if im then [(ar.mul bi).1, (ai.mul br).1] else [(ar.mul br).1, (ai.mul bi).1.negate]))).1 .rne false).1))

/-- What the stack engines compute (R331, R332, R335, R336, R338). Adds are applied in ascending key order, each once, where its home
refuses none at its turn; the tests
of a scan hold as their table says, with a NaN in any of the three values only test 1; the selection by a test keeps the
elements that hold in index order, a top-k one the cap best in order, of equal values the lower index first; the output is the two counts and the first cap
entries. -/
def StackEnginesCompute : Prop :=
  (∀ l : List BankAdd, (sortAdds l).Perm l ∧ (sortAdds l).Pairwise fun a b => keyLt b.key a.key = false) ∧
  (∀ (s : State) (asid : Nat),
    let mine (a : BankAdd) : Bool := a.accepted && decide (a.tag.asid = asid)
    let line := sortAdds (s.adds.filter mine)
    let s0 : State := { s with adds := s.adds.filter fun a => !mine a }
    (∀ before a after, line = before ++ a :: after → let s1 := before.foldl State.applyAdd s0
      s1.homeRefusal (s1.addPlace a) = none) →
      flushAdds s asid = .next (line.foldl State.applyAdd s0)) ∧
  (∀ test a b x, test < 8 →
    (∀ etype, etype < 2 → a < 2 ^ 32 → b < 2 ^ 32 → x < 2 ^ 32 →
      let v (z : Nat) : Int := if etype = 0 then (BitVec.ofNat 32 z).toInt else z
      scanHolds etype test a b x = match test with
        | 0 => decide (v x = v a) | 1 => decide (v x ≠ v a) | 2 => decide (v x < v a) | 3 => decide (v x ≤ v a)
        | 4 => decide (v a < v x) | 5 => decide (v a ≤ v x) | 6 => decide (v a ≤ v x ∧ v x ≤ v b)
        | _ => decide (v x < v a ∨ v b < v x)) ∧
    (let nan (z : Nat) : Bool := (fmt32.decode z).isNan
     (test ≠ 1 → (nan x || nan a || nan b) = true → scanHolds 2 test a b x = false) ∧
     (test = 1 → scanHolds 2 test a b x = (nan x || nan a || !(fmt32.decode x).eq (fmt32.decode a))) ∧
     ((nan x || nan a || nan b) = false →
       let lt (y z : Nat) : Bool := (fmt32.decode y).lt (fmt32.decode z)
       let eq (y z : Nat) : Bool := (fmt32.decode y).eq (fmt32.decode z)
       scanHolds 2 test a b x = match test with
         | 0 => eq x a | 1 => !eq x a | 2 => lt x a | 3 => lt x a || eq x a | 4 => lt a x | 5 => lt a x || eq x a
         | 6 => (lt a x || eq x a) && (lt x b || eq x b) | _ => lt x a || lt b x))) ∧
  (∀ etype test a b cap (xs : List (Nat × Nat)),
    let r := scanSelect etype test a b cap xs
    (test < 8 → r = xs.filter fun p => scanHolds etype test a b p.2) ∧
    (8 ≤ test → etype < 3 → (∀ p ∈ xs, p.2 < 2 ^ 32) → (xs.map (·.1)).Pairwise (· < ·) →
      let better (p q : Nat × Nat) : Prop := if test = 8 then scanLt etype q.2 p.2 = true else scanLt etype p.2 q.2 = true
      let first (p q : Nat × Nat) : Prop := better p q ∨ (¬ better q p ∧ p.1 < q.1)
      let ok := xs.filter fun p => !scanNan etype p.2
      r.length = min cap ok.length ∧ r.Pairwise first ∧ (∀ p ∈ r, p ∈ ok) ∧ ∀ p ∈ ok, p ∉ r → ∀ q ∈ r, first q p)) ∧
  (∀ (sel : List (Nat × Nat)) (cap : Nat), sel.length < 2 ^ 32 →
    let bs := scanOutput sel cap
    let w := min sel.length cap
    bs.length = 16 + 8 * w ∧ le bs 0 8 = sel.length ∧ le bs 8 8 = w ∧
      ∀ j p, j < w → sel[j]? = some p → le bs (16 + 8 * j) 4 = p.1 % 2 ^ 32 ∧ le bs (20 + 8 * j) 4 = p.2 % 2 ^ 32)

/-- The results of a reduction (R314, R316, R323): the element of a result is its fixed tree over the 64 places, in which a
contributor that is not in the bitmap is absent, a NaN canonical; the early result is that over the early bitmap, and the
corrected one that over the union, formed once each. -/
def ReductionResults : Prop :=
  (∀ (o : RedObj) (m : BitVec 64) (e : Nat), e < o.len →
    let join (x y : Nat) : Nat := if o.op = 2 then fmt32.minmax true x y else if o.op = 3 then (x + y) % 2 ^ 32 else addF32 x y
    let leaf (i : Nat) : Option Nat :=
      if i < o.ncon ∧ m.getLsbD i = true then (o.leaves.find? (·.1 = i)).map fun l => (l.2.getD e 0).toNat else none
    let x := (treeOf join leaf 6 0).getD (if o.op = 2 then 0xFF800000 else 0)
    (o.result m)[e]? = some (BitVec.ofNat 32 (if o.op ≠ 3 ∧ (fmt32.decode x).isNan = true then fmt32.nanBits else x))) ∧
  (∀ o : RedObj, (∀ m, (o.result m).length = o.len) ∧ o.formEarly.earlyResult = some (o.earlyResult.getD (o.result o.early)) ∧
    o.endWindow.earlyResult = o.formEarly.earlyResult ∧ o.endWindow.corrected = some (o.corrected.getD (o.result o.union)) ∧
    o.endWindow.windowOver = true)

/-- What the words that pick, round or class one value give, in each format (R103 to R105). Of two operands the lesser or the
greater is returned, -0 below +0, a NaN only where both are NaN; the integral value is the nearest one in its direction with
the sign of the operand; the class is the one bit of the value's kind. -/
def PickedValues : Prop :=
  ∀ f ∈ [fmt32, fmt16, fmtB16], ∀ x y, x < 2 ^ f.width → y < 2 ^ f.width →
    let a := f.decode x
    let b := f.decode y
    let ulp : Int := f.emin - (f.prec - 1 : Nat)
    (∀ max, (a.isNan = true → b.isNan = true → f.minmax max x y = f.nanBits) ∧
      (a.isNan = true → b.isNan = false → f.minmax max x y = y) ∧ (a.isNan = false → b.isNan = true → f.minmax max x y = x)) ∧
    (a.isNan = false → b.isNan = false →
      let below (v w : FVal) : Prop := v.lt w = true ∨ (v.isZero = true ∧ w.isZero = true ∧ v.neg = true ∧ w.neg = false)
      (below a b → f.minmax false x y = x ∧ f.minmax true x y = y) ∧ (below b a → f.minmax false x y = y ∧ f.minmax true x y = x) ∧
      (¬ below a b → ¬ below b a → x = y ∧ ∀ max, f.minmax max x y = x)) ∧
    (a.isNan = true → (∀ d, f.integral x d = f.nanBits) ∧ f.classOf x = 2 ^ 8) ∧
    (∀ n, a = .inf n → (∀ d, f.integral x d = x) ∧ f.classOf x = if n then 2 ^ 0 else 2 ^ 7) ∧
    (a.isNan = false → a.isInf = false →
      let v := a.scaled ulp
      let u : Int := (2 ^ (-ulp).toNat : Nat)
      (∀ d, ∃ k : Int, f.integral x d < 2 ^ f.width ∧ (f.decode (f.integral x d)).scaled ulp = k * u ∧
        (f.decode (f.integral x d)).neg = a.neg ∧
        match d with
        | .floor => k * u ≤ v ∧ v < (k + 1) * u
        | .ceil => v ≤ k * u ∧ (k - 1) * u < v
        | .trunc => (if a.neg then v ≤ k * u ∧ (k - 1) * u < v else k * u ≤ v ∧ v < (k + 1) * u)
        | .nearest => 2 * (k * u) ≤ 2 * v + u ∧ 2 * v ≤ 2 * (k * u) + u ∧
            (2 * v = 2 * (k * u) + u ∨ 2 * (k * u) = 2 * v + u → k % 2 = 0)) ∧
      f.classOf x =
        if v = 0 then (if a.neg then 2 ^ 3 else 2 ^ 4)
        else if v.natAbs < 2 ^ (f.prec - 1) then (if a.neg then 2 ^ 2 else 2 ^ 5)
        else (if a.neg then 2 ^ 1 else 2 ^ 6))

/-- What the conversion words compute of one value, one block or one quad (R136, R144, R146 to R152). -/
def QuantisersCompute : Prop :=
  (∀ p ∈ ([(0x38, 6), (0x39, 2), (0x3A, 0), (0x3B, 0)] : List (Nat × Int)), (NFmt.ofCode p.1).map NFmt.emax = some p.2) ∧
  (∀ fmt : NFmt, (∀ k q, fmt ≠ .int k q) → fmt ≠ .e8m0 → 0 < fmt.maxCode →
    let top := fmt.magnitude false fmt.maxCode
    (FVal.fin false 1 (fmt.emax + 1) false).lt top = false ∧ top.lt (.fin false 1 fmt.emax false) = false ∧
      top.eq (.fin false 1 (fmt.emax + 1) false) = false) ∧
  (∀ (fmt : NFmt) (t : ElemType) (ys : List Nat),
    let xs := ys.map (ElemType.ffmt t).decode
    let r := blockScale fmt xs
    let nan := xs.any FVal.isNan
    let inf := xs.any FVal.isInf
    (nan = true → r = (0xFF, some 32)) ∧ (nan = false → inf = true → r = (0xFE, some 16)) ∧
    (nan = false → inf = false → xs.all FVal.isZero = true → r = (0, some 0)) ∧
    (nan = false → inf = false → xs.all FVal.isZero = false →
      ∃ k : Int, (∃ x ∈ xs, x.abs.lt (.fin false 1 k false) = false) ∧ (∀ x ∈ xs, x.abs.lt (.fin false 1 (k + 1) false) = true) ∧
        let c := k - fmt.emax + 127
        r = if 254 < c then (0xFE, some 16) else ((max c 0).toNat, none))) ∧
  (∀ (fmt : NFmt) (y : FVal) (c : Nat) (m : Mode) (sat : Bool),
    (y.isNan = true ∨ c = 0xFF → quantise fmt y c m sat = match fmt with
      | .int .. => (0, fNV)
      | .signed k .. => (2 ^ (k - 1), 0)
      | _ => (255, 0)) ∧
    (y.isNan = false → c ≠ 0xFF → quantise fmt y c m sat = fmt.round (y.scale (127 - c)) m sat)) ∧
  (∀ (fmt : NFmt) (x c : Nat),
    (c = 0xFF → dequantise fmt x c = .nan) ∧
    (c ≠ 0xFF → dequantise fmt x c = (fmt.decode (x % 2 ^ fmt.width)).scale ((c : Int) - 127))) ∧
  (∀ (fmt : NFmt) (a e : FVal) (c : Nat) (m : Mode) (sat : Bool),
    let y := a.add e
    let q := quantise fmt y.1 c m sat
    let r := quantiseError fmt a e c m sat
    r.1 = q.1 ∧
    (y.1.isNan = true ∨ y.1.isInf = true ∨ c = 0xFF ∨ (fmt.decode q.1).isInf = true → r.2 = (0, y.2 ||| q.2)) ∧
    (y.1.isNan = false → y.1.isInf = false → c ≠ 0xFF → (fmt.decode q.1).isInf = false →
      let left := fmt32.round (y.1.add (dequantise fmt q.1 c).negate).1 .rne false
      r.2 = (left.1, q.2 ||| left.2))) ∧
  (∀ (t : ElemType) (m : Mode),
    toInteger t .nan m = (0, fNV) ∧ (∀ n, toInteger t (.inf n) m = (fit t true (if n then -(2 ^ 64 : Nat) else (2 ^ 64 : Nat)), fNV)) ∧
    ∀ n k e, let r := roundAt k e 0 false m
      let i : Int := if n then -(r.1 : Int) else r.1
      let lo : Int := if t.isSigned then -(2 ^ (t.width - 1) : Nat) else 0
      let hi : Int := (if t.isSigned then (2 ^ (t.width - 1) : Nat) else (2 ^ t.width : Nat)) - 1
      toInteger t (.fin n k e false) m =
        if lo ≤ i ∧ i ≤ hi then (fit t false i, if r.2 then fNX else 0)
        else (fit t true (if n then -(2 ^ 64 : Nat) else (2 ^ 64 : Nat)), fNV)) ∧
  (∀ seed : Word, ∃ x : Nat → Word, x 0 = (if seed = 0 then 0x5A17C3E1 else seed) ∧
    (∀ n, x (n + 1) =
      let y := x n ^^^ (x n <<< 13)
      let z := y ^^^ (y >>> 17)
      z ^^^ (z <<< 5)) ∧
    (rotationSigns seed).length = 384 ∧ ∀ n, n < 384 → (rotationSigns seed)[n]? = some ((x (n + 1)).getLsbD 31)) ∧
  (∀ (inv : Bool) (ys : List Nat) (signs : List Bool) (k i : Nat), ys.length = 384 → signs.length = 384 → k < 6 → i < 64 →
    let x (j : Nat) : FVal := fmt32.decode (ys.getD (64 * k + j) 0)
    let s (j : Nat) : Bool := signs.getD (64 * k + j) false
    let r := rotateOne inv (ys.map fmt32.decode) signs k i
    let odd (j : Nat) : Bool := decide (((List.range 6).filter fun b => (i &&& j).testBit b).length % 2 = 1)
    let turned (j : Nat) : Bool := odd j != (!inv && s j)
    let out : Bool := inv && s i
    let js := List.range 64
    ((∃ j ∈ js, (x j).isNan = true) → r = (.nan, 0)) ∧
    ((∀ j ∈ js, (x j).isNan = false) →
      ((∃ j ∈ js, ∃ l ∈ js, ∃ p q, x j = .inf p ∧ x l = .inf q ∧ (p != turned j) ≠ (q != turned l)) → r = (.nan, fNV)) ∧
      (∀ n, (∃ j ∈ js, (x j).isInf = true) → (∀ j ∈ js, ∀ p, x j = .inf p → (p != turned j) = n) → r = (.inf (n != out), 0)) ∧
      ((∀ j ∈ js, (x j).isInf = false) → ∃ n m e, r = (.fin n m e false, 0) ∧
        (FVal.fin n m e false).scaled (-152) = (js.map fun j =>
          (if turned j != out then -1 else 1) * (x j).scaled (-149)).sum))) ∧
  (∀ (xs : List Nat) (θ : FVal), xs.length = 384 → (∀ x ∈ xs, x < 2 ^ 32) →
    let r := splitQuad xs θ
    let S := r.2.1
    let size (n : Nat) : FVal := (fmt32.decode (xs.getD n 0)).abs
    let Q := (List.range 368).filter fun n => θ.lt (size n)
    let half (x : Nat) : Nat := (fmt32.round ((fmt32.decode x).scale (-1)) .rne false).1
    S.Pairwise (· < ·) ∧ (∀ n ∈ S, n ∈ Q) ∧ (r.2.2.1 = true ↔ 16 < Q.length) ∧ (Q.length ≤ 16 → S = Q) ∧
    (16 < Q.length → S.length = 16 ∧ ∀ p ∈ S, ∀ q ∈ Q, q ∉ S →
      (size q).lt (size p) = true ∨ ((size p).lt (size q) = false ∧ p < q)) ∧
    (∀ n, n < 368 → r.1[n]? = some (if n ∈ S then half (xs.getD n 0) else xs.getD n 0)) ∧
    (∀ j, j < 16 → r.1[368 + j]? = some (match S[j]? with
      | some n => half (xs.getD n 0)
      | none => 0)))

end Sys2Proof.Slice0

open Sys2Proof Sys2Proof.Machine Sys2Proof.Slice0

/-! ## Reset, decoding, the step -/

/-- A full reset leaves generations 0 and `st.stale` zero on every die (R356, R380), dies at 350 MHz (R391), the first
launch id 0 and the wall clock 0 (R284, R353), and no launch, team, address space, open class or window (R382). The
model's own choices here: log 4. -/
def Obligations.ResetLeavesNothingRunning : Prop :=
  State.reset.gens = List.replicate 9 0 ∧
  (∀ d, d < 8 → (State.reset.die d).mhz = 350 ∧ (State.reset.die d).stale = 0 ∧ State.reset.clock d = 0) ∧
  State.reset.nextLaunch = 0 ∧ State.reset.wallNs = 0 ∧ State.reset.launches = [] ∧ State.reset.teams = [] ∧
  (∀ a, State.reset.resident a = false) ∧ State.reset.classes = [] ∧
  State.reset.control.calibrated = 0 ∧ State.reset.control.trained = false ∧ State.reset.control.booted = false ∧
  State.reset.control.window = 0 ∧ State.reset.control.udp = 0 ∧ State.reset.control.pin = 0 ∧
  State.reset.control.wdog = 0 ∧ State.reset.control.pool = 0 ∧ State.reset.control.poolsz = 0

/-- Words written out from the encodings of R34, R36, R42 and R55 decode to the instructions they stand for: `add s1,
s2, s3`, `addi s1, s2, -1`, `br.eq s4` 2 words back, `exit`, and the worked lane word of R55. -/
def Obligations.WordsOfTheManualDecode : Prop :=
  decodeTableWord 32 (0x01 * 2 ^ 26 + 1 * 2 ^ 20 + 2 * 2 ^ 14 + 3 * 2 ^ 8) = some (.add 1 2 3) ∧
  decodeTableWord 32 (0x03 * 2 ^ 26 + 1 * 2 ^ 20 + 2 * 2 ^ 14 + 0x3FFF) = some (.addi 1 2 (-1)) ∧
  decodeTableWord 32 (0x10 * 2 ^ 26 + 1 * 2 ^ 22 + 4 * 2 ^ 16 + 0xFFFE) = some (.br .eq 4 (-2)) ∧
  decodeTableWord 32 (0x3E * 2 ^ 26 + 2 * 2 ^ 10) = some .exit ∧
  decodeTableWord 96 0x3032C0200804000001000000 =
    some (.vFadd { ga := .pred 3 false, gb := .pred 5 true, d := .v 2, a := .v 2, b := .v 4, c := .v 0, e := .v 0,
                   wbs := false, lat := 0, type := .f32, func := 0, hint := .none, stall := 0, yld := false, rnd := .ctl,
                   sat := false })

/-- A scalar turn (R19, R32, R79) fetches the word at the group's SPC, past the prefixes it holds, and runs the
instruction its bytes decode to, at the state whose turn it is; a stop that waited for the word takes place after it. A
lane turn runs the instruction that the word at the head of the group's lane queue decodes to, unless it fuses with the
words after it (R111). A step carries out the device row at the head of the agenda. The model's own choices here: log
1, 6. -/
def Obligations.StepRunsTheDecodedInstruction : Prop :=
  (∀ (s : State) (T : Team) (G : Group) (bs : List Byte) (i : Instr) (rest : List Sched),
    s.agenda = .scalar T.uid G.idx :: rest → (popped s rest).find T.uid G.idx = some (T, G) →
    (popped s rest).mayIssue T G = true → G.wait = none →
    (turnOf (popped s rest) T.uid G.idx).fetchScalar T (G.spc + BitVec.ofNat 32 G.pfx.length).toNat = .ok bs →
    decodeScalar G.pfx (BitVec.ofNat 32 (ofBytes bs)) = .ok i →
    step s = andThen (exec i (turnOf (popped s rest) T.uid G.idx)) fun t => .next (t.finishStops T.uid G.idx)) ∧
  (∀ (s : State) (T : Team) (G : Group) (e : QEntry) (q : List QEntry) (w : LaneBits) (i : Instr) (rest : List Sched),
    s.agenda = .lane T.uid G.idx :: rest → (popped s rest).find T.uid G.idx = some (T, G) →
    (popped s rest).mayIssue T G = true → G.mustStop = false → (∀ r ∈ G.reqs, r.entry = true) →
    G.stall = 0 → G.queue = e :: q → e.fetch = .word w → fusible G = none → decodeLane w = .ok i →
    step s = exec i (turnOf (popped s rest) T.uid G.idx)) ∧
  (∀ (s : State) (i : Instr) (rest : List Sched), s.agenda = .instr i :: rest → Instr.inTurn i = false →
    step s = exec i (popped s rest))

/-- Every scalar instruction, with every operand its encoding admits and every 64-bit immediate, is what its own words,
prefixes first, decode to. -/
def Obligations.ScalarWordsDecodeToWhatTheyEncode : Prop :=
  ∀ i : Instr, i.wf = true → encodeScalar i ≠ [] → decodeRun (encodeScalar i) = some i

/-- Every well-formed lane instruction is what its 96-bit word decodes to. -/
def Obligations.LaneWordsDecodeToWhatTheyEncode : Prop :=
  ∀ (i : Instr) (w : LaneBits), i.wf = true → encodeLane i = some w → decodeLane w = .ok i

/-- One prefix supplies the 26 bits above a 14-bit immediate and a 20-bit one, and the value is sign-extended (R39). -/
def Obligations.PrefixSuppliesTheHighBits : Prop :=
  ∀ (p : BitVec 26) (d a : SReg) (k : BitVec 14) (l : BitVec 20),
    decodeScalar [p] ((3 : BitVec 6) ++ d ++ a ++ k : BitVec 32) = .ok (.addi d a ((p ++ k : BitVec 40).signExtend 64)) ∧
    decodeScalar [p] ((0x0D : BitVec 6) ++ d ++ l : BitVec 32) = .ok (.li d ((p ++ l : BitVec 46).signExtend 64))

/-- Every step keeps the three memories in their canonical form: addresses strictly rising, no listed byte equal to
what an unlisted address reads as. The model's own choices here: log 3. -/
def Obligations.StepKeepsTheMemoriesCanonical : Prop :=
  ∀ s t : State, s.memWf = true → step s = .next t → t.memWf = true

/-- The memories are in their canonical form at reset. The model's own choices here: log 3. -/
def Obligations.ResetMemoriesAreCanonical : Prop := State.reset.memWf = true

/-! ## Scalar registers and integer words -/

/-- s0 reads zero, a write of it changes nothing, and a write of any other register is read back from it alone (R26).
-/
def Obligations.RegisterZeroReadsZero : Prop :=
  ∀ (G : Group) (x : DWord), G.sget 0 = 0 ∧ G.sset 0 x = G ∧
    ∀ d r : SReg, d ≠ 0 → (G.sset d x).sget r = if r = d then x else G.sget r

/-- The results of the words of format SR with two sources (R74). The results of the words of format SR with one
source: `clz`, `ctz` and `popc` count zero bits and one bits, 64 leading and trailing zeros for 0 (R74). The words of
R74 by their FN; `clz`, `ctz`, `popc` and `mov` with another SB than 0 are illegal (R38, R74). -/
def Obligations.RegisterOperandResults : Prop :=
  (∀ (s : State) (T : Team) (G : Group) (d a b : SReg), ScalarActs s T G [d, a, b] false →
    let x := G.sget a
    let y := G.sget b
    let sh := y.toNat % 64
    ∀ p ∈ ([(.add d a b, x + y), (.sub d a b, x - y), (.mul d a b, BitVec.ofNat 64 (x.toNat * y.toNat)),
        (.mulh d a b, BitVec.ofInt 64 (x.toInt * y.toInt / 2 ^ 64)),
        (.mulhn d a b, BitVec.ofNat 64 (x.toNat * y.toNat / 2 ^ 64)),
        (.div d a b, if y = 0 then BitVec.allOnes 64 else x.sdiv y), (.rem d a b, if y = 0 then x else x.srem y),
        (.divn d a b, if y = 0 then BitVec.allOnes 64 else x / y), (.remn d a b, if y = 0 then x else x % y),
        (.and d a b, x &&& y), (.or d a b, x ||| y), (.xor d a b, x ^^^ y), (.andn d a b, x &&& ~~~y),
        (.shl d a b, BitVec.ofNat 64 (x.toNat * 2 ^ sh)), (.shr d a b, BitVec.ofNat 64 (x.toNat / 2 ^ sh)),
        (.sar d a b, BitVec.ofInt 64 (x.toInt / 2 ^ sh)),
        (.min d a b, BitVec.ofInt 64 (min x.toInt y.toInt)), (.max d a b, BitVec.ofInt 64 (max x.toInt y.toInt)),
        (.minn d a b, BitVec.ofNat 64 (min x.toNat y.toNat)), (.maxn d a b, BitVec.ofNat 64 (max x.toNat y.toNat)),
        (.seq d a b, if x = y then 1 else 0), (.sne d a b, if x = y then 0 else 1),
        (.slt d a b, if x.toInt < y.toInt then 1 else 0), (.sltn d a b, if x.toNat < y.toNat then 1 else 0)] :
        List (Instr × DWord)),
      exec p.1 s = .next (wrote s T G d p.2)) ∧
  (∀ (s : State) (T : Team) (G : Group) (d a : SReg), ScalarActs s T G [d, a] false →
    let x := G.sget a
    exec (.mov d a) s = .next (wrote s T G d x) ∧
    exec (.popc d a) s = .next (wrote s T G d (BitVec.ofNat 64 ((List.range 64).filter (x.getLsbD ·)).length)) ∧
    (∃ n : Nat, n ≤ 64 ∧ (∀ i, i < 64 → 64 - n ≤ i → x.getLsbD i = false) ∧ (n < 64 → x.getLsbD (63 - n) = true) ∧
      exec (.clz d a) s = .next (wrote s T G d (BitVec.ofNat 64 n))) ∧
    (∃ n : Nat, n ≤ 64 ∧ (∀ i, i < n → x.getLsbD i = false) ∧ (n < 64 → x.getLsbD n = true) ∧
      exec (.ctz d a) s = .next (wrote s T G d (BitVec.ofNat 64 n)))) ∧
  (∀ d a b : SReg,
    let word (fn : BitVec 8) (b : SReg) : Word := (1 : BitVec 6) ++ d ++ a ++ b ++ fn
    (∀ p ∈ ([(0x00, .add d a b), (0x01, .sub d a b), (0x02, .mul d a b), (0x03, .mulh d a b), (0x04, .mulhn d a b),
        (0x05, .div d a b), (0x06, .divn d a b), (0x07, .rem d a b), (0x08, .remn d a b), (0x09, .and d a b),
        (0x0A, .or d a b), (0x0B, .xor d a b), (0x0C, .andn d a b), (0x0D, .shl d a b), (0x0E, .shr d a b),
        (0x0F, .sar d a b), (0x10, .min d a b), (0x11, .max d a b), (0x12, .minn d a b), (0x13, .maxn d a b),
        (0x14, .seq d a b), (0x15, .sne d a b), (0x16, .slt d a b), (0x17, .sltn d a b)] : List (BitVec 8 × Instr)),
      decodeScalar [] (word p.1 b) = .ok p.2) ∧
    (∀ p ∈ ([(0x18, .clz d a), (0x19, .ctz d a), (0x1A, .popc d a), (0x1B, .mov d a)] : List (BitVec 8 × Instr)),
      decodeScalar [] (word p.1 0) = .ok p.2 ∧ (b ≠ 0 → (decodeScalar [] (word p.1 b)).toOption = none)))

/-- The results of the words of format SI, and of the shifts by 0 to 63 (R75). A shift by an immediate outside 0 to 63,
and a `vrun` of none or more than 32 words, raise the illegal-encoding trap in the immediate field, precise at the
word, when no lane word is outstanding (R58, R75, R80). The words of R75 by their OP, the immediate sign-extended; a
shift's immediate beyond 0 to 63 is illegal (R36, R75). -/
def Obligations.ImmediateResultsAndTraps : Prop :=
  (∀ (s : State) (T : Team) (G : Group) (d a : SReg) (k : DWord), ScalarActs s T G [d, a] false →
    let x := G.sget a
    (∀ p ∈ ([(.addi d a k, x + k), (.andi d a k, x &&& k), (.ori d a k, x ||| k), (.xori d a k, x ^^^ k),
        (.slti d a k, if x.toInt < k.toInt then 1 else 0), (.sltni d a k, if x.toNat < k.toNat then 1 else 0),
        (.muli d a k, BitVec.ofNat 64 (x.toNat * k.toNat))] : List (Instr × DWord)),
      exec p.1 s = .next (wrote s T G d p.2)) ∧
    (k.toNat ≤ 63 → ∀ p ∈ ([(.shli d a k, BitVec.ofNat 64 (x.toNat * 2 ^ k.toNat)),
        (.shri d a k, BitVec.ofNat 64 (x.toNat / 2 ^ k.toNat)), (.sari d a k, BitVec.ofInt 64 (x.toInt / 2 ^ k.toNat))] :
        List (Instr × DWord)),
      exec p.1 s = .next (wrote s T G d p.2))) ∧
  (∀ (s : State) (T : Team) (G : Group) (d a : SReg) (k : DWord), ScalarActs s T G [d, a] false → G.queue = [] →
    (∀ i ∈ [Instr.shli d a k, .shri d a k, .sari d a k], 64 ≤ k.toNat →
      exec i s = raise s T G { kind := .illegalEncoding, aux := 256 * G.pfx.length }) ∧
    (k.toNat = 0 ∨ 32 < k.toNat →
      exec (.vrun k) s = raise s T G { kind := .illegalEncoding, aux := 256 * G.pfx.length })) ∧
  (∀ (d a : SReg) (k : BitVec 14),
    let word (op : BitVec 6) : Word := op ++ d ++ a ++ k
    let x := k.signExtend 64
    (∀ p ∈ ([(0x03, .addi d a x), (0x04, .andi d a x), (0x05, .ori d a x), (0x06, .xori d a x), (0x0A, .slti d a x),
        (0x0B, .sltni d a x), (0x0C, .muli d a x)] : List (BitVec 6 × Instr)), decodeScalar [] (word p.1) = .ok p.2) ∧
    (∀ p ∈ ([(0x07, .shli d a x), (0x08, .shri d a x), (0x09, .sari d a x)] : List (BitVec 6 × Instr)),
      (k.toNat ≤ 63 → decodeScalar [] (word p.1) = .ok p.2) ∧
        (63 < k.toNat → (decodeScalar [] (word p.1)).toOption = none)))

/-- The results of `li`, `addpc`, `sel` and the `mcount` words (R69, R76, R77, R84). The counts of an empty mask are 0,
and 96 for the first and the last lane. The `mpred` words set, mask, clear or join the mask with a predicate; bits
[63:32] of s61 to s63 become 0 (R83). -/
def Obligations.MoveSelectAndMaskResults : Prop :=
  (∀ (s : State) (T : Team) (G : Group) (d c a b : SReg) (k : DWord),
    (ScalarActs s T G [d] false → exec (.li d k) s = .next (wrote s T G d k) ∧
      exec (.addpc d k) s = .next (wrote s T G d (BitVec.ofNat 64 (s.header T).scalBase + 4 * G.spc.setWidth 64 + k))) ∧
    (ScalarActs s T G [d, c, a, b] false →
      exec (.sel d c a b) s = .next (wrote s T G d (if G.sget c = 0 then G.sget b else G.sget a))) ∧
    (ScalarActs s T G [d, 61, 62, 63] false →
      let m := (List.range 96).filter fun l => (G.sget (61 + BitVec.ofNat 6 (l / 32))).getLsbD (l % 32)
      exec (.mcount d) s = .next (wrote s T G d (BitVec.ofNat 64 m.length)) ∧
      exec (.mcountFirst d) s = .next (wrote s T G d (BitVec.ofNat 64 (m.headD 96))) ∧
      exec (.mcountLast d) s = .next (wrote s T G d (BitVec.ofNat 64 (m.getLastD 96))))) ∧
  (∀ (s : State) (T : Team) (G : Group) (k : Fin 12), ScalarActs s T G [61, 62, 63] false → G.predBusy k.val = false →
    ∀ p ∈ maskWords k G.mask (G.pget k),
      exec p.1 s = .next (s.retire T (G.tentatively [61, 62, 63] fun G =>
        (((G.sset 61 ((p.2.extractLsb' 0 32).setWidth 64)).sset 62 ((p.2.extractLsb' 32 32).setWidth 64)).sset 63
          ((p.2.extractLsb' 64 32).setWidth 64)).advance)))

/-! ## Control flow and the lane stream -/

/-- Where `br`, `brm`, `jmp`, `call`, `jr` and `jr.call` go, and the link they leave; `brm` waits while a mask register
is pending (R37, R78). The words of R78 by OP, COND and FN, their offsets sign-extended (R36, R37, R78). The model's
own choices here: log 53. -/
def Obligations.BranchesAndTheirTargets : Prop :=
  (∀ (s : State) (T : Team) (G : Group) (a : SReg) (k : DWord),
    let next : BitVec 32 := G.spc + BitVec.ofNat 32 (G.pfx.length + 1)
    (∀ c, ScalarActs s T G [a] false →
      let x := (G.sget a).toInt
      let taken : Prop := match c with
        | .always => True | .eq => x = 0 | .ne => x ≠ 0 | .lt => x < 0 | .ge => 0 ≤ x | .gt => 0 < x | .le => x ≤ 0
      (taken → exec (.br c a k) s = .next (flowed s T G (next + k.setWidth 32))) ∧
        (¬ taken → exec (.br c a k) s = .next (flowed s T G next))) ∧
    (∀ c, ScalarActs s T G [61, 62, 63] false →
      let taken : Prop := match c with
        | .any => G.mask ≠ 0 | .none => G.mask = 0 | .all => G.mask = BitVec.allOnes 96 | .nall => G.mask ≠ BitVec.allOnes 96
      (taken → exec (.brm c k) s = .next (flowed s T G (next + k.setWidth 32))) ∧
        (¬ taken → exec (.brm c k) s = .next (flowed s T G next))) ∧
    (∀ c, s.current = some (T, G) → (G.pending 61 ∨ G.pending 62 ∨ G.pending 63) →
      exec (.brm c k) s = waitFor s T G (.registers ([61, 62, 63].filter G.pending))) ∧
    (ScalarActs s T G [] false → exec (.jmp k) s = .next (flowed s T G (next + k.setWidth 32))) ∧
    (ScalarActs s T G [59] false →
      exec (.call k) s = .next (s.retire T (G.tentatively [59] fun G =>
        (G.sset 59 (next.setWidth 64)).jump (next + k.setWidth 32)))) ∧
    (ScalarActs s T G [a] false → exec (.jr a) s = .next (flowed s T G ((G.sget a).setWidth 32))) ∧
    (ScalarActs s T G [a, 59] false →
      exec (.jrCall a) s = .next (s.retire T (G.tentatively [59] fun G =>
        (G.sset 59 (next.setWidth 64)).jump ((G.sget a).setWidth 32))))) ∧
  (∀ (a : SReg) (k : BitVec 16) (l : BitVec 20),
    let b (op : BitVec 6) (c : BitVec 4) (a : SReg) : Word := op ++ c ++ a ++ k
    let far (op : BitVec 6) : Word := op ++ (0 : BitVec 6) ++ l
    let x := k.signExtend 64
    decodeScalar [] (b 0x10 0 0) = .ok (.br .always 0 x) ∧
    (∀ p ∈ ([(1, .eq), (2, .ne), (3, .lt), (4, .ge), (5, .gt), (6, .le)] : List (BitVec 4 × BrCond)),
      decodeScalar [] (b 0x10 p.1 a) = .ok (.br p.2 a x)) ∧
    (∀ p ∈ ([(0, .any), (1, .none), (2, .all), (3, .nall)] : List (BitVec 4 × MaskCond)),
      decodeScalar [] (b 0x11 p.1 0) = .ok (.brm p.2 x)) ∧
    decodeScalar [] (far 0x12) = .ok (.jmp (l.signExtend 64)) ∧ decodeScalar [] (far 0x13) = .ok (.call (l.signExtend 64)) ∧
    decodeScalar [] ((0x14 : BitVec 6) ++ (0 : BitVec 6) ++ a ++ (0 : BitVec 14)) = .ok (.jr a) ∧
    decodeScalar [] ((0x14 : BitVec 6) ++ (0 : BitVec 6) ++ a ++ (1 : BitVec 14)) = .ok (.jrCall a))

/-- `vjmp` and `vset` move the LPC, `vset` and the register it names taking the old one; `vdrain` goes on once every
lane word has retired, `vdrain.iss` once the queue is empty; a prefix joins the run, the SPC staying at its first (R39,
R40, R81, R82). The model's own choices here: log 6. -/
def Obligations.LaneStreamWordEffects : Prop :=
  ∀ (s : State) (T : Team) (G : Group) (d a : SReg) (k : DWord),
    (ScalarActs s T G [a] false →
      exec (.vjmp a k) s = .next (s.retire T (G.tentatively [] fun G => { G with lpc := (G.sget a + k).setWidth 32 }.advance))) ∧
    (ScalarActs s T G [d, a] false →
      exec (.vset d a) s = .next (s.retire T (G.tentatively [d] fun G =>
        { G.sset d (G.lpc.setWidth 64) with lpc := (G.sget a).setWidth 32 }.advance))) ∧
    (ScalarActs s T G [] true → exec .vdrainIss s = .next (s.retire T G.advance) ∧
      (s.lanesRetired T G = true → exec .vdrain s = .next (s.retire T G.advance))) ∧
    (s.current = some (T, G) → ∀ p, exec (.pfx p) s = .next (s.put T { G with pfx := G.pfx ++ [p] }))

/-- `vrun` releases its lane words with the scalar registers as they stand, in order, and moves the LPC past them
(R80); after a stop inside it, it releases from the saved offset with the saved snapshot (R366). -/
def Obligations.VrunReleasesLaneWords : Prop :=
  ∀ (s : State) (T : Team) (G : Group) (k : DWord) (es : List QEntry),
    ScalarActs s T G [61, 62, 63] false → 1 ≤ k.toNat → k.toNat ≤ 32 →
    let off := (G.rerun.map (·.off)).getD 0
    let snap := (G.rerun.map (·.snap)).getD G.sregs
    G.queue.length + (k.toNat - off) ≤ 32 → releaseWords s T G snap off (k.toNat - off) = .ok es →
    (G.rerun = none → ∀ w ∈ es.filterMap QEntry.bits?, ∀ r ∈ scalarSources w, G.pending r = false) →
    es.length = k.toNat - off ∧
    (∀ (j : Nat) (e : QEntry), es[j]? = some e → e.snap = snap ∧ e.spc = G.spc ∧ e.off = off + j ∧
      e.lpc = G.lpc + BitVec.ofNat 32 j ∧
      (∀ bs, s.fetchLane T (G.lpc + BitVec.ofNat 32 j).toNat = .ok bs → e.fetch = .word (BitVec.ofNat 96 (ofBytes bs)))) ∧
    exec (.vrun k) s = .next (s.retire T (G.tentatively [] fun G =>
      { G with queue := G.queue ++ es, lpc := G.lpc + BitVec.ofNat 32 (k.toNat - off), runs := G.runs + 1,
               rerun := none }.advance))

/-- The frame of the scalar words that write registers or move the SPC or LPC: of the part, only their group changes,
and their team's watchdog starts again; of the group, only the registers they write, SPC, LPC, prefixes, waits and the
record of what is tentative (R86, R378). A `mpred` word whose predicate is still on its way waits, and only its wait
changes (R83). -/
def Obligations.ScalarWordFrame : Prop :=
  ∀ (s t : State) (T : Team) (G : Group) (d a b c : SReg) (k : DWord) (bc : BrCond) (mc : MaskCond) (p : Fin 12),
    ∀ x ∈ plainWords d a b c k bc mc p, ScalarActs s T G x.2.1 false → exec x.1 s = .next t →
      (x.1 = .shli d a k ∨ x.1 = .shri d a k ∨ x.1 = .sari d a k → k.toNat ≤ 63) →
      OnlyTeam s t T ∧ OtherGroups s t T G ∧ KeepsMemory s t ∧
        ∃ T' G', t.current = some (T', G') ∧ KeepsRegisters G G' x.2.2 ∧
          G' = { G with sregs := G'.sregs, spc := G'.spc, lpc := G'.lpc, pfx := G'.pfx, wait := G'.wait,
                        laneWait := G'.laneWait, tent := G'.tent } ∧
          (t = s.retire T G' ∨ (t = s.put T G' ∧ G.predBusy p.val = true ∧ G' = { G with wait := G'.wait }))

/-- A lane word's fault discards the tentative scalar words after it: undoing what such a word wrote gives back the
registers and the LPC that undoing gave before it (R86). -/
def Obligations.TentativeWritesAreUndone : Prop :=
  ∀ (G : Group) (rs : List SReg) (f : Group → Group), G.queue ≠ [] → rs.length ≤ 3 →
    (∀ r, r ∉ rs → (f G).sget r = G.sget r) →
    (∀ r, (G.tentatively rs f).undo.sget r = G.undo.sget r) ∧ (G.tentatively rs f).undo.lpc = G.undo.lpc

/-! ## Scalar memory words -/

/-- A plain scalar load of `ld`, `ldw` or `ldc` that its page and the arrays serve retires with the little-endian value
found, sign-extended for `ldw`, and its registers pending while its requests are in flight (R71, R88 to R90). A `ld` or
`ldw` that reads the flag word of a complete block of its group observes the block (R339, R342). The core's copies of
lines that it has read elsewhere follow what it found (`State.renew`, R188). The model's own choices here: log 15, 43.
-/
def Obligations.ScalarLoadResults : Prop :=
  ∀ (s : State) (T : Team) (G : Group) (d a : SReg) (k : DWord), ScalarActs s T G [d, a] true → G.loads.length < 8 →
    let va := (G.sget a + k).toNat
    let seen (n : Nat) : Group := s.sees T G .scalar [(va, n)]
    (∀ n, Observes G (seen n)) ∧
    (PageServes s T va 8 { r := true } → ArraysServe s T va 8 false → s.loadPoison T G .scalar va 8 = false →
      exec (.ld d a k) s = .next (loaded (s.renew T .scalar [(va, 8)]) T (seen 8) d (BitVec.ofNat 64 (loadValue s T G .scalar va 8))
        (s.loadReqs T .scalar .scalar [(va, 8)] .none (G.words + 1) G.spc 0xFF 0xFFFFFFFF))) ∧
    (PageServes s T va 4 { r := true } → ArraysServe s T va 4 false → s.loadPoison T G .scalar va 4 = false →
      exec (.ldw d a k) s =
        .next (loaded (s.renew T .scalar [(va, 4)]) T (seen 4) d (BitVec.ofInt 64 (BitVec.ofNat 32 (loadValue s T G .scalar va 4)).toInt)
          (s.loadReqs T .scalar .scalar [(va, 4)] .none (G.words + 1) G.spc 0xFF 0xFFFFFFFF))) ∧
    (PageServes s T va 8 { r := true } → s.servedByPad T va = false → s.loadPoison T G .constant va 8 = false →
      exec (.ldc d a k) s = .next (loaded (s.renew T .constant [(va, 8)]) T G d (BitVec.ofNat 64 (loadValue s T G .constant va 8))
        (s.loadReqs T .constant .constant [(va, 8)] .none (G.words + 1) G.spc 0xFF 0xFFFFFFFF)))

/-- Where a byte that a load returns comes from (R162, R164, R170, R188): a written granule of a window on the core; an
unwritten one from memory, no cache of the core holding it; outside the core's windows the group's latest write that is
still on its way, else the scratchpad that has registered it, else the line its cache holds, else memory under the
stores of its core that are on their way. A byte that a load has found at its home is what the core's caches give from
then on, until something changes it: no older copy stays (R188). The model's own choices here: log 7, 13, 16, 43. -/
def Obligations.LoadedByteComesFromTheNearestPlace : Prop :=
  ∀ (s : State) (T : Team) (G : Group) (via : Via) (va : Nat) (l : Loc),
    (∀ W, s.windowTeam T.die T.core T.asid va = some W → W.isWritten (va % 2 ^ 64 - W.window) = true →
      s.team W.uid = some W → s.loadByte T G via va l = W.padByte (va % 2 ^ 64 - W.window)) ∧
    (∀ W, s.windowTeam T.die T.core T.asid va = some W → W.isWritten (va % 2 ^ 64 - W.window) = false →
      s.loadByte T G via va l = (G.postedByte l).getD (s.fillByte T.die T.core l)) ∧
    (s.windowTeam T.die T.core T.asid va = none →
      (∀ b, G.postedByte l = some b → s.loadByte T G via va l = b) ∧
      (G.postedByte l = none → ∀ W o, s.registered l = some (W, o) → ∀ W', s.team W = some W' →
        s.loadByte T G via va l = W'.padByte o)) ∧
    (s.windowTeam T.die T.core T.asid va = none → s.registered l = none →
      (∀ b, G.postedByte l = some b → s.loadByte T G via va l = b) ∧
      (G.postedByte l = none → ∀ b, (s.core T.die T.core).lookup via l = some b → s.loadByte T G via va l = b) ∧
      (G.postedByte l = none → (s.core T.die T.core).lookup via l = none → s.loadByte T G via va l = s.fillByte T.die T.core l)) ∧
    ((∀ W ∈ s.teams, W.die = T.die → W.core = T.core → ∀ H ∈ W.groups, ∀ r ∈ H.reqs, r.kind = .store → r.entry = true →
      r.performed = true) → s.fillByte T.die T.core l = s.byteAt l) ∧
    (∀ n e, s.windowTeam T.die T.core T.asid va = none → s.registered l = none → G.postedByte l = none → 0 < n → va < 2 ^ 64 →
      s.xlate T.die T.core T.asid va = .ok e → l = e.loc va → via ≠ .constant →
      (s.renew T .home [(va, n)]).loadByte T G via va l = s.loadByte T G .home va l)

/-- A plain scalar store that its page and the arrays serve retires: its low 8 or 4 bytes, little-endian, at its
address, are on their way as requests, one for each superblock (R88, R166, R167, R191); a request for the core's own
scratchpads carries no byte for a home, and is performed once it holds its entry (R167, R172); granules that become
written by it are on their way to be registered (R172). No byte of device or host memory changes until a request is
performed, and no register but those of the wait, word count and SPC. The model's own choices here: log 7, 13. -/
def Obligations.ScalarStoreEffects : Prop :=
  ∀ (s : State) (T : Team) (G : Group) (d a : SReg) (k : DWord), ScalarActs s T G [d, a] true →
    let va := (G.sget a + k).toNat
    let bytes (n : Nat) : List (Nat × Byte) := (List.range n).map fun i => (va + i, (G.sget d).extractLsb' (8 * i) 8)
    let r (n : Nat) := s.postStore T G (bytes n) .none (G.words + 1) G.spc 0xFF 0xFFFFFFFF fun _ => 0xFF
    let after (n : Nat) : State := (r n).1.retire T
      { G with words := G.words + 1, reqs := G.reqs ++ (r n).2.1, regs := G.regs ++ (r n).2.2 }.advance
    ∀ p ∈ ([(.st d a k, 8), (.stw d a k, 4)] : List (Instr × Nat)),
      PageServes s T va p.2 { w := true } → ArraysServe s T va p.2 true →
      exec p.1 s = .next (after p.2) ∧ KeepsMemory s (after p.2) ∧
        (∀ q ∈ (r p.2).2.1, q.kind = .store ∧ (q.performed = true → q.data = []) ∧
          (q.pads ≠ [] → q.data = [] ∧ (q.performed = true ↔ q.entry = true)) ∧ ∀ x ∈ q.data, ∃ i, i < p.2 ∧ ∃ e,
          s.xlate T.die T.core T.asid (va + i) = .ok e ∧ e.loc (va + i) = ⟨q.tag.host, x.1⟩ ∧
            x.2 = (G.sget d).extractLsb' (8 * i) 8) ∧
        ∀ x ∈ (r p.2).2.2, ∃ W, (after p.2).team x.1 = some W ∧ x.2 ∈ W.written ∧ x.2 ∈ W.unregistered

/-- A group reads its own store back at once, while it is on its way (R188), where no window of its core serves the
address: also where the scratchpad of another core has registered it: all 8 bytes of an `st`, the low 4 of an `stw`.
The model's own choices here: log 7. -/
def Obligations.StoreIsReadBackByItsGroup : Prop :=
  ∀ (s t : State) (T T' : Team) (G G' : Group) (d a : SReg) (k : DWord), ScalarActs s T G [d, a] true →
    let va := (G.sget a + k).toNat
    ∀ p ∈ ([(.st d a k, 8), (.stw d a k, 4)] : List (Instr × Nat)),
      PageServes s T va p.2 { w := true } → ArraysServe s T va p.2 true →
      (∀ i, i < p.2 → s.windowTeam T.die T.core T.asid (va + i) = none ∧
        ∃ e, s.xlate T.die T.core T.asid (va + i) = .ok e ∧
          ∀ j, j < p.2 → ∀ e', s.xlate T.die T.core T.asid (va + j) = .ok e' → e'.loc (va + j) = e.loc (va + i) → i = j) →
      exec p.1 s = .next t → t.current = some (T', G') →
      loadValue t T' G' .scalar va p.2 = (G.sget d).toNat % 2 ^ (8 * p.2)

/-- What a group has on its way reaches its home in any order that the rules leave open, one at a step: a store that no
earlier store or add holds back, or a granule to be registered (R172, R188, R198). A store performed at its home
changes the bytes of the request and no other byte of memory; a registration changes no byte of memory. The model's own
choices here: log 7, 13. -/
def Obligations.StorePerformedAtItsHome : Prop :=
  ∀ (s : State) (T : Team) (G : Group), s.find T.uid G.idx = some (T, G) →
    let row := exec (.homeSliceRequest T.uid G.idx) s
    let work := s.homeWork T G
    (work = [] → row = .next s) ∧
    (work ≠ [] → ∃ x ∈ work, row = doHomeWork (s.bump (if work.length = 1 then 0 else 1)) T G x) ∧
    (∀ t k, HomeWork.register t k ∈ work ↔ (t, k) ∈ G.regs) ∧
    (∀ i r, HomeWork.store i r ∈ work → G.reqs[i]? = some r ∧ r.kind = .store ∧ r.performed = false ∧ r.entry = true ∧
      (∀ j q, j < i → G.reqs[j]? = some q → q.kind = .store → q.performed = false →
        ¬ (q.home = r.home ∧ s.homed q = true ∧ s.homed r = true) ∧
        ∀ x ∈ q.data, q.tag = r.tag → ∀ y ∈ r.data, x.1 ≠ y.1) ∧
      (∀ a ∈ s.adds, a.tag.team = T.uid → a.tag.group = G.idx → ∀ w, a.word = some w → w < r.word →
        ¬ (s.homed r = true ∧ r.home = some a.home))) ∧
    (∀ i r, G.reqs[i]? = some r → r.kind = .store → r.performed = false → r.entry = true →
      (∀ q ∈ G.reqs.take i, q.kind = .load ∨ q.performed = true) → s.adds = [] →
      (∀ W ∈ s.teams, W.die = T.die → W.core = T.core → ∀ H ∈ W.groups, ∀ q ∈ H.reqs, q.performed = false → q.entry = true →
        r.stamp ≤ q.stamp) → HomeWork.store i r ∈ work) ∧
    (∀ i r t, s.memWf = true →
      (∀ p ∈ r.data, s.registered ⟨r.tag.host, p.1⟩ = none ∧ s.poisoned ⟨r.tag.host, p.1⟩ = false ∧
        NoneParkedAt s ⟨r.tag.host, p.1⟩) → (r.data.map (·.1)).Nodup → doHomeWork s T G (.store i r) = .next t →
      (∀ p ∈ r.data, t.byteAt ⟨r.tag.host, p.1⟩ = p.2) ∧
      (∀ l : Loc, (l.host ≠ r.tag.host ∨ ∀ p ∈ r.data, p.1 ≠ l.addr) → t.byteAt l = s.byteAt l)) ∧
    (∀ u k W, s.team u = some W → ∃ t W', doHomeWork s T G (.register u k) = .next t ∧ t.team u = some W' ∧
      k ∉ W'.unregistered ∧ W'.pad = W.pad ∧ W'.written = W.written ∧ KeepsMemory s t)

/-- What a scalar access traps for, in order: a misaligned address, one that does not translate, a page without the
permission, and, where a value is to return, a poisoned byte (R89, R158, R159, R184), which an `amo` meets once its
request holds its entry (R167). The group stops precise at the word; a poisoned `amo.st` goes on, and its fault is
imprecise. A lane memory word's misaligned address, the lowest lane's, is its fault, taken at the word with that lane
and address (R177, R183). -/
def Obligations.MemoryAccessTraps : Prop :=
  (∀ (s : State) (T : Team) (G : Group) (d a b : SReg) (k : DWord) (o : Bool) (sc : Scope),
    ScalarActs s T G [d, a, b] true → G.loads.length < 8 →
    ∀ x ∈ ([(.ld d a k, (G.sget a + k).toNat, 8, 1, { r := true }), (.ldw d a k, (G.sget a + k).toNat, 4, 1, { r := true }),
        (.ldc d a k, (G.sget a + k).toNat, 8, 1, { r := true }), (.st d a k, (G.sget a + k).toNat, 8, 2, { w := true }),
        (.stw d a k, (G.sget a + k).toNat, 4, 2, { w := true }), (.amoLd d a o sc, (G.sget a).toNat, 8, 1, { r := true }),
        (.amoSt a b o sc, (G.sget a).toNat, 8, 2, { w := true })] ++
        (amoForms d a b o sc).map fun i => (i, (G.sget a).toNat, 8, 3, { r := true, w := true }) :
        List (Instr × Nat × Nat × Nat × Need)),
      let va := x.2.1
      let need := x.2.2.2.2
      let trap (kind : FaultKind) : Out := raise s T G { kind := kind, acc := x.2.2.2.1, addr := va }
      (va % x.2.2.1 ≠ 0 → exec x.1 s = trap .misaligned) ∧
      (va % x.2.2.1 = 0 → ∀ f, s.xlate T.die T.core T.asid va = .bad f → exec x.1 s = trap f) ∧
      (va % x.2.2.1 = 0 → ∀ e, s.xlate T.die T.core T.asid va = .ok e →
        (need.r = true → e.r = false → exec x.1 s = trap .noRead) ∧
        ((need.r = true → e.r = true) → need.w = true → e.w = false → exec x.1 s = trap .noWrite)) ∧
      (PageServes s T va x.2.2.1 need →
        ((x.1 = .ld d a k ∨ x.1 = .ldw d a k) → ArraysServe s T va x.2.2.1 false → s.loadPoison T G .scalar va x.2.2.1 = true →
          exec x.1 s = trap .memory) ∧
        (x.1 = .ldc d a k → s.servedByPad T va = false → s.loadPoison T G .constant va 8 = true → exec x.1 s = trap .memory) ∧
        (x.1 ∈ Instr.amoLd d a o sc :: amoForms d a b o sc → ArraysServe s T va 8 need.w →
          (o = true → need.w = true → PerformedAt T G sc) → s.ordered T G [(va, 8)] need.w = true →
          (∀ r ∈ s.amoReqs T G va, r.entry = true) → s.atomicPoison T va 8 = true → exec x.1 s = trap .memory) ∧
        (x.1 = .amoSt a b o sc → ArraysServe s T va 8 true → (o = true → PerformedAt T G sc) →
          s.ordered T G [(va, 8)] true = true → (∀ r ∈ s.amoReqs T G va, r.entry = true) → s.atomicPoison T va 8 = true →
          exec x.1 s = raiseImprecise (passed s T G.withdraw) (T.tag G G.spc) { kind := .storeFault, acc := 2, addr := va } 0xFF
            0xFFFFFFFF 0))) ∧
  (∀ (s : State) (T : Team) (G : Group) (e : QEntry) (f : LaneFields),
    let E := laneEnv T G e f
    let n := f.type.width / 8
    let cnt := if f.func.toNat / 8 % 2 = 1 then 4 else 1
    let lanes := lanesOf (G.active e f)
    ∀ p ∈ ([(0xA5, .vStfe f, 2, n * cnt, E.plainAddr false), (0xA4, .vLdfe f, 1, n * cnt, E.plainAddr false),
        (0xA6, .vAtom f, 3, n, E.addr true false 0), (0xA7, .vAtomr f, 3, n, E.addr true false 0),
        (0xA8, .vBadd f, 4, 4, E.plainAddr true)] : List (Nat × Instr × Nat × Nat × (Nat → Nat))),
      LaneActs s T G e p.1 f → ∀ l ∈ lanes, p.2.2.2.2 l % p.2.2.2.1 ≠ 0 →
        (∀ m ∈ lanes, m < l → p.2.2.2.2 m % p.2.2.2.1 = 0) →
        exec p.2.1 s = raiseLane s T G e { kind := .misaligned, acc := p.2.2.1, addr := p.2.2.2.2 l, lane := l })

/-- The atomics of R91 make one step at the home, a releasing form once the group's earlier accesses are performed at
its scope (R192), each after the writes that its own must follow, for which it waits (R188, R198), and once its request
holds its entry: while it is rejected the word waits with it, and nothing is written (R167). Then the new value is
written and the old one returned; an acquiring form at cell scope or wider then discards the core's lines. One that
returns the flag word of a complete block of its group observes the block (R339). What an atomic writes (R91, R196):
the place that each of its addresses translates to, in memory or in a scratchpad, holds its byte afterwards, and no
other byte of memory changes. The model's own choices here: log 7, 42. -/
def Obligations.AtomicResultsAndFrame : Prop :=
  (∀ (s : State) (T : Team) (G : Group) (d a b : SReg) (o : Bool) (sc : Scope),
    let va := (G.sget a).toNat
    let y := G.sget b
    let m := BitVec.ofNat 64 (loadValue s T G .home va 8)
    let open_ (need : Need) : Prop := PageServes s T va 8 need ∧ ArraysServe s T va 8 need.w
    let rs : List Req := s.amoReqs T G va
    let H : Group := G.withdraw
    let may (need : Need) : Prop := open_ need ∧ (o = true → need.w = true → PerformedAt T G sc) ∧
      s.ordered T G [(va, 8)] need.w = true
    let serves (need : Need) : Prop := may need ∧ (∀ r ∈ rs, r.entry = true) ∧ s.atomicPoison T va 8 = false
    let stopped (i : Instr) (need : Need) : Prop :=
      (open_ need → o = true → need.w = true → ¬ PerformedAt T G sc → exec i s = waitFor s T G (.performed sc)) ∧
      (open_ need → (o = true → need.w = true → PerformedAt T G sc) → s.ordered T G [(va, 8)] need.w = false →
        exec i s = waitFor s T G (.ordered [(va, 8)] need.w)) ∧
      (may need → (∃ r ∈ rs, r.entry = false) → exec i s = waitFor s T { H with reqs := H.reqs ++ rs } .missEntry)
    let done : List Req := rs.map fun r => if r.entry then { r with performed := true, atom := none } else r
    let renewed (s1 : State) : State := s1.renew T .home [(va, 8)]
    let acq (s1 : State) : State := if o then (renewed s1).acquire T.die T.core sc else renewed s1
    let put (x : DWord) : State := s.atomicWrite T va (leBytes x.toNat 8)
    let seen : Group := s.sees T H .home [(va, 8)]
    Observes H seen ∧
    ((∀ r ∈ G.reqs, r.word ≤ G.words) → H = G ∧
      rs = s.atomicReqs T [(va, 8)] (fun _ => none) (G.words + 1) G.spc 0xFF 0xFFFFFFFF ∧
      (s.seniorWaits T.die T.core = false → s.entriesUsed T.die T.core + rs.length ≤ 64 → ∀ r ∈ rs, r.entry = true)) ∧
    (∀ write, (∀ W ∈ s.teams, W.die = T.die → W.core = T.core → ∀ H ∈ W.groups, ∀ r ∈ H.reqs, r.kind = .store →
      r.performed = true) → s.adds = [] → (∀ r ∈ G.reqs, r.kind = .store → r.performed = true) →
      s.ordered T G [(va, 8)] write = true) ∧
    (ScalarActs s T G [d, a] true → G.loads.length < 8 → stopped (.amoLd d a o sc) { r := true }) ∧
    (ScalarActs s T G [a, b] true → stopped (.amoSt a b o sc) { w := true }) ∧
    (ScalarActs s T G [d, a, b] true → G.loads.length < 8 → ∀ i ∈ amoForms d a b o sc, stopped i { r := true, w := true }) ∧
    (ScalarActs s T G [d, a] true → G.loads.length < 8 → serves { r := true } →
      exec (.amoLd d a o sc) s = .next (loaded (acq s) T seen d m done)) ∧
    (ScalarActs s T G [a, b] true → serves { w := true } →
      exec (.amoSt a b o sc) s =
        .next ((renewed (put y)).retire T { H with words := H.words + 1, reqs := H.reqs ++ done }.advance)) ∧
    (ScalarActs s T G [d, a, b] true → G.loads.length < 8 → serves { r := true, w := true } →
      (∀ x ∈ ([(.amoSwap d a b o sc, y), (.amoAdd d a b o sc, m + y), (.amoAnd d a b o sc, m &&& y),
          (.amoOr d a b o sc, m ||| y), (.amoXor d a b o sc, m ^^^ y),
          (.amoMin d a b o sc, if m.toInt < y.toInt then m else y), (.amoMax d a b o sc, if m.toInt < y.toInt then y else m),
          (.amoMinn d a b o sc, if m.toNat < y.toNat then m else y),
          (.amoMaxn d a b o sc, if m.toNat < y.toNat then y else m)] : List (Instr × DWord)),
        exec x.1 s = .next (loaded (acq (put x.2)) T seen d m done)) ∧
      (m = G.sget d → exec (.amoCas d a b o sc) s = .next (loaded (acq (put y)) T seen d m done)) ∧
      (m ≠ G.sget d → exec (.amoCas d a b o sc) s = .next (loaded (acq s) T seen d m done)))) ∧
  (∀ (s : State) (T : Team) (va : Nat) (bs : List Byte), s.memWf = true →
    let at_ (i : Nat) : Nat := (va + i) % 2 ^ 64
    let place (i : Nat) (e : TlbEntry) : Place := s.writePlace T.die T.core T.asid (at_ i) (e.loc (at_ i))
    (∀ i, i < bs.length → ∀ e, s.xlate T.die T.core T.asid (at_ i) = .ok e → NoneParkedAt s (e.loc (at_ i))) →
    (∀ i b e, bs[i]? = some b → s.xlate T.die T.core T.asid (at_ i) = .ok e →
      (∀ j e', j < bs.length → j ≠ i → s.xlate T.die T.core T.asid (at_ j) = .ok e' → place j e' ≠ place i e) →
      (s.atomicWrite T va bs).takeByte (place i e) = b) ∧
    (∀ l, (∀ i, i < bs.length → ∀ e, s.xlate T.die T.core T.asid (at_ i) = .ok e → place i e ≠ .mem l) →
      (s.atomicWrite T va bs).byteAt l = s.byteAt l))

/-! ## Fences, barriers, waits, cells -/

/-- The fences (R193, R194, R201): a release goes on once the group's accesses before it are performed at its scope,
`fence.q` once they are performed for every agent, an acquire discards the core's lines where its scope is cell or
wider. Behind a rejected lane atomic or store to own scratchpads each waits (the model's choice, log 7). The last live
group to arrive at a team barrier completes it; any other arrival is counted once and waits, and a group that waits
goes on once the phase has changed (R204). The same of the die barrier, which is an acquire at die scope and expects
the groups of the teams assigned to the die, less those that have exited (R205); in a front launch it traps. An `await`
whose condition holds at the home returns the word, as an acquire of its scope, and one whose condition does not hold
waits (R206); one while another group of the core has a store to the word on its way waits for it (R188); one that
returns the flag word of a complete block of its group observes the block (R339); a `yield` of a team that cannot enter
a lull goes on (R207, R210). The model's own choices here: log 7, 28, 42, 43. -/
def Obligations.FenceBarrierAndWaitEffects : Prop :=
  (∀ (s : State) (T : Team) (G : Group) (sc : Scope),
    (s.current = some (T, G) → G.queue = [] →
      (∃ r ∈ G.reqs, r.entry = false ∧ r.performed = false ∧ r.word ≤ G.words ∧ (r.atom ≠ none ∨ r.pads ≠ [])) →
      ∀ i ∈ [Instr.fenceAcq sc, .fenceRel sc, .fenceFull sc, .fenceQ sc], exec i s = waitFor s T G .missEntry) ∧
    (ScalarActs s T G [] true →
    let home : State := match sc with
      | .grp | .team => s
      | _ => s.putCore (s.core T.die T.core).discard
    exec (.fenceAcq sc) s = .next (passed home T G) ∧
    (PerformedAt T G sc → exec (.fenceRel sc) s = .next (passed s T G) ∧
      exec (.fenceFull sc) s = .next (passed home T G)) ∧
    (¬ PerformedAt T G sc → ∀ i ∈ [Instr.fenceRel sc, .fenceFull sc], exec i s = waitFor s T G (.performed sc)) ∧
    (PerformedAt T G .dev → exec (.fenceQ sc) s = .next (passed s T G)) ∧
    (¬ PerformedAt T G .dev → exec (.fenceQ sc) s = waitFor s T G (.performed .dev)))) ∧
  (∀ (s : State) (T : Team) (G : Group) (b : BitVec 2), ScalarActs s T G [] true →
    let B := T.bar b.toNat
    (G.arrived = some (b.toNat, !B.phase) → exec (.bar b) s = .next (passed s T { G with arrived := none })) ∧
    (G.arrived = none → ¬ PerformedAt T G .team → exec (.bar b) s = waitFor s T G (.performed .team)) ∧
    (G.arrived = none → PerformedAt T G .team → b.toNat < T.bars.length → T.liveCount ≤ B.arrivals + 1 →
      ∃ t T' G', exec (.bar b) s = .next t ∧ t.current = some (T', G') ∧ T'.bar b.toNat = ⟨0, !B.phase⟩ ∧
        G'.spc = G.spc + BitVec.ofNat 32 (G.pfx.length + 1) ∧ G'.wait = none ∧ KeepsRegisters G G' [] ∧ KeepsMemory s t) ∧
    (G.arrived = none → PerformedAt T G .team → b.toNat < T.bars.length → B.arrivals + 1 < T.liveCount →
      ∃ t T' G', exec (.bar b) s = .next t ∧ t.current = some (T', G') ∧ T'.bar b.toNat = ⟨B.arrivals + 1, B.phase⟩ ∧
        G' = { G with arrived := some (b.toNat, B.phase), wait := waitOn G.wait (.barrier b.toNat B.phase) } ∧
        KeepsMemory s t) ∧
    (G.arrived = some (b.toNat, B.phase) → exec (.bar b) s = waitFor s T G (.barrier b.toNat B.phase)) ∧
    (∀ L, s.launch T.launch = some L → L.record.front = false → G.arrivedDie = some (!(L.bar T.die).phase) →
      exec .dbar s = .next (passed (discarded s T) T { G with arrivedDie := none })) ∧
    (∀ L, s.launch T.launch = some L → L.record.front = false → G.arrivedDie ≠ some (!(L.bar T.die).phase) →
      let D := L.bar T.die
      let expects : Nat := L.teamsOn T.die * L.header.team - D.exited
      (G.arrivedDie = some D.phase → exec .dbar s = waitFor s T G (.dieBarrier D.phase)) ∧
      (G.arrivedDie = none → ¬ PerformedAt T G .die → exec .dbar s = waitFor s T G (.performed .die)) ∧
      (G.arrivedDie = none → PerformedAt T G .die →
        (expects ≤ D.count + 1 → exec .dbar s =
          .next (passed (discarded (s.putLaunch (L.putBar { D with count := 0, phase := !D.phase })) T) T G)) ∧
        (D.count + 1 < expects → exec .dbar s =
          waitFor (s.putLaunch (L.putBar { D with count := D.count + 1 })) T { G with arrivedDie := some D.phase }
            (.dieBarrier D.phase)))) ∧
    (∀ L, s.launch T.launch = some L → L.record.front = true → exec .dbar s = raise s T G { kind := .dieBarrierInFront })) ∧
  (∀ (s : State) (T : Team) (G : Group) (c : AwaitCond) (d a v : SReg) (sc : Scope),
    (ScalarActs s T G [d, a, v] true →
      let va := (G.sget a).toNat
      let m := BitVec.ofNat 64 (loadValue s T G .home va 8)
      let y := G.sget v
      let holds : Prop := match c with
        | .eq => m = y | .ne => m ≠ y | .lt => m.toInt < y.toInt | .ge => y.toInt ≤ m.toInt | .ltn => m.toNat < y.toNat
        | .gen => y.toNat ≤ m.toNat | .any => m &&& y ≠ 0 | .none => m &&& y = 0
      PageServes s T va 8 { r := true } → ArraysServe s T va 8 false → s.loadPoison T G .home va 8 = false →
      Observes G (s.sees T G .home [(va, 8)]) ∧
      (holds → s.othersPosted T G [(va, 8)] = false → exec (.await c d a v sc) s =
        .next (got ((s.renew T .home [(va, 8)]).acquire T.die T.core sc) T (s.sees T G .home [(va, 8)]) d m)) ∧
      (¬ holds ∨ s.othersPosted T G [(va, 8)] = true → exec (.await c d a v sc) s = waitFor s T G (.memory c (G.sget a) y sc))) ∧
    (ScalarActs s T G [] true → s.lanesRetired T G = true →
      (∀ T1, (passed s T G).team T.uid = some T1 → (passed s T G).enterLull T1 (some G.idx) = none) →
      exec .yield s = .next (passed s T G)))

/-- Joining and leaving a cell (R231 to R233): the lowest free index of the cell, the code of a full cell, the index of
a member that joins again; leaving revokes the mappings, and frees the index once no copy goes through them and no
store made through them, in either direction, is unperformed. The model's own choices here: log 46. -/
def Obligations.CellMembership : Prop :=
  ∀ (s : State) (T : Team) (G : Group) (d a : SReg) (id : BitVec 8),
    let ms := s.cellMembers T.launch T.die id.toNat
    let used := ms.filterMap fun W => W.cell.map (·.2)
    ∀ x ∈ ([(.cjoin d id, [d], True), (.cjoinR d a, [d, a], (G.sget a).toNat = id.toNat)] : List (Instr × List SReg × Prop)),
      let i := x.1
      ScalarActs s T G x.2.1 true → x.2.2 →
      (∀ m, T.cell = some (id.toNat, m) → exec i s = .next (got s T G d (BitVec.ofNat 64 m))) ∧
      (T.cell = none → 16 ≤ ms.length → exec i s = .next (got s T G d (-1))) ∧
      (T.cell = none → ms = [] → 512 ≤ s.cellRecords T.die → exec i s = .next (got s T G d (-2))) ∧
      (∀ n, T.cell = none → ms.length < 16 → (ms ≠ [] ∨ s.cellRecords T.die < 512) → PerformedAt T G .die →
        n < 16 → n ∉ used → (∀ j, j < n → j ∈ used) →
        exec i s = .next (got ((s.modTeam T.uid fun T => { T with cell := some (id.toNat, n) }).acquire T.die T.core .cell)
          T G d (BitVec.ofNat 64 n))) ∧
      (T.cell = none → exec .cleave s = .next (passed s T G)) ∧
      (T.cell ≠ none → PerformedAt T G .cell → (s.cellCopies T = true ∨ ∃ id m, T.cell = some (id, m) ∧
          ∃ W ∈ s.cellMembers T.launch T.die id, W.uid ≠ T.uid ∧
            ((∃ H ∈ W.groups, ∃ p ∈ H.regs, p.1 = T.uid) ∨ ∃ H ∈ T.groups, ∃ p ∈ H.regs, p.1 = W.uid)) →
        exec .cleave s = waitFor (s.modTeam T.uid fun T => { T with leaving := true }) T G .cellQuiet) ∧
      (T.cell ≠ none → PerformedAt T G .cell → s.cellCopies T = false →
        (∀ W ∈ s.teams, ∀ H ∈ W.groups, H.regs = []) → exec .cleave s = .next (passed (s.modTeam T.uid fun T => { T with cell := none, leaving := false }) T G))

/-! ## Copies, batches, arrays, launches, reductions, stack blocks -/

/-- `cpy` that its checks pass appends its descriptor to a queue with room, `qwait` within its bound returns how many
of the group's entries are incomplete, as an acquire at die scope (R217, R225, R229). `qfence` places one fence entry,
the same, at the end of every queue and stream that it names, where the named queues have room, and goes on; fences
that no entry before them holds are done at once (R230). Of its group only SPC, prefixes, waits and matrix stream
change, and no byte of memory. -/
def Obligations.CopyAndQueueWordEffects : Prop :=
  (∀ (s : State) (T : Team) (G : Group) (f a b d : SReg) (dd after sk dk : Bool) (q : BitVec 3) (n : BitVec 6),
    let Q : QueueId := if dd then .dd T.die q.toNat else .core T.die T.core q.toNat
    let x : CopyDesc := { c0 := G.sget a, c1 := G.sget (a + 1), geo := G.sget (a + 2), st := G.sget b,
                          flag := if f = 0 then none else some (G.sget f), skind := sk, dkind := dk, dense := none }
    (ScalarActs s T G [f, a, a + 1, a + 2, b] true → (after = true → PerformedAt T G .dev) → s.checkCopy T x dd = .pass →
      (s.queue Q).length < (if dd then 32 else 16) →
      exec (.cpy f a b dd after sk dk q) s = .next (passed { s.setQueue Q (s.queue Q ++
        [.copy s.nextUid (some (T.uid, G.idx)) T.launch T.asid T.die T.core x G.spc none]) with nextUid := s.nextUid + 1 } T G)) ∧
    (ScalarActs s T G [d] true →
      let k := ((s.queue Q).filter (·.ownedBy T.uid G.idx)).length
      k ≤ n.toNat → exec (.qwait d dd q n) s = .next (got (s.acquire T.die T.core .die) T G d (BitVec.ofNat 64 k)))) ∧
  (∀ (s : State) (T : Team) (G : Group) (q : BitVec 8), ScalarActs s T G [] true →
    (∀ Q ∈ fencedQueues T q.toNat, (s.queue Q).length < roomOf Q) →
    (∃ t T' G', exec (.qfence q) s = .next t ∧ t.current = some (T', G') ∧ KeepsRegisters G G' [] ∧ KeepsMemory s t ∧
      G'.spc = G.spc + BitVec.ofNat 32 (G.pfx.length + 1) ∧ G'.wait = none) ∧
    (T.die < s.dies.length →
      ∃ (t0 : State) (T' : Team), exec (.qfence q) s = .next t0.settleFences ∧
        (∀ Q, t0.queue Q = s.queue Q ++ (if Q ∈ fencedQueues T q.toNat then [.fence s.nextUid] else [])) ∧
        t0.current = some (T', { G with stream := G.stream ++
          (if q.getLsbD 5 then [MatrixEntry.fence s.nextUid G.words] else []) }.advance) ∧
        (∃ b, t0.blocks = s.blocks ++ (if q.getLsbD 6 then [b] else []) ∧ b.fence = true ∧ b.id = s.nextUid ∧
          b.tag = T.tag G G.spc) ∧
        (∃ p, t0.puts = s.puts ++ (if q.getLsbD 7 then [p] else []) ∧ p.fence = true ∧ p.id = s.nextUid ∧
          p.tag = T.tag G G.spc) ∧ t0.nextUid = s.nextUid + 1) ∧
    (∀ Q, Q ∈ fencedQueues T q.toNat ↔
      (∃ i, i < 4 ∧ q.getLsbD i = true ∧ Q = .core T.die T.core i) ∨ (q.getLsbD 4 = true ∧ ∃ i, i < 8 ∧ Q = .dd T.die i)))

/-- `mclose` gives the open batch's number and opens the next; the `mwait` words go on, as acquires at die scope, once
their batches and every earlier one are performed, at once for a number that R280 finds 16 or more closes away, and
`mwait.all` once the whole stream is (R279, R280). -/
def Obligations.BatchWordEffects : Prop :=
  ∀ (s : State) (T : Team) (G : Group) (d a : SReg) (n : BitVec 8),
    let home := s.putCore (s.core T.die T.core).discard
    let ago (x : Nat) : Int := ((G.batch : Int) - 1 - x) % 256
    let entry (e : MatrixEntry) : Prop := ∀ id, e.op ≠ .fence id
    let gone (x : Nat) : Prop := 16 ≤ ago x ∨ ∀ e ∈ G.stream, entry e → e.batch = G.batch ∨ ago e.batch < ago x
    (ScalarActs s T G [d] true → G.openBatches < 16 →
      exec (.mclose d) s = .next (got s T { G with batch := (G.batch + 1) % 256 } d (BitVec.ofNat 64 G.batch))) ∧
    (G.batch < 256 → (∀ e ∈ G.stream, e.batch < 256) →
      (ScalarActs s T G [] true → (gone n.toNat → exec (.mwait n) s = .next (passed home T G)) ∧
        (¬ gone n.toNat → exec (.mwait n) s = waitFor s T G (.batch (some n.toNat)))) ∧
      (ScalarActs s T G [a] true → let x := (G.sget a).toNat % 256
        (gone x → exec (.mwaitR a) s = .next (passed home T G)) ∧
        (¬ gone x → exec (.mwaitR a) s = waitFor s T G (.batch (some x))))) ∧
    (ScalarActs s T G [] true → ((∀ e ∈ G.stream, ¬ entry e) → exec .mwaitAll s = .next (passed home T G)) ∧
      ((∃ e ∈ G.stream, entry e) → exec .mwaitAll s = waitFor s T G (.batch none)))

/-- The `amode` words (R247, R248): arrays all in the wanted mode pass at once; else the first that is in the other
mode begins to switch, its mode moment being now, and the word waits for that switch before it goes on with the next
array; one that another word is switching is waited for. An array the header does not declare and a die that is not
calibrated trap. `tbind` of a good descriptor writes the tile register, a bad one traps (R251); `tmap` installs the map
that its tile's slot holds (R252), what it replaces being kept for the launches whose code it may be (R33). The model's
own choices here: log 45. -/
def Obligations.ArrayAndTileWordEffects : Prop :=
  (∀ (s : State) (T : Team) (G : Group) (j n : BitVec 5), ScalarActs s T G [] true →
    let js := (List.range (n.toNat + 1)).map (j.toNat + ·)
    let inMode (m : ArrayMode) (k : Nat) : Prop := (T.array k).map (·.mode) = some m
    let declared := j.toNat + n.toNat + 1 ≤ (s.header T).arrays
    (¬ declared → ∀ i ∈ [Instr.amodeSt j n, .amodeCmp j n], exec i s = raise s T G { kind := .notDeclared }) ∧
    (declared → s.calibrated T.die = false → exec (.amodeCmp j n) s = raise s T G { kind := .notCalibrated }) ∧
    (declared → ∀ x ∈ ([(.amodeSt j n, false, .storage, .compute, .toStorage),
        (.amodeCmp j n, true, .compute, .storage, .toCompute)] : List (Instr × Bool × ArrayMode × ArrayMode × ArrayMode)),
      (x.2.1 = true → s.calibrated T.die = true) →
      (G.mustStop = false → (∀ k ∈ js, inMode x.2.2.1 k) → exec x.1 s = .next (passed s T G)) ∧
      (∀ done k rest a, js = done ++ k :: rest → (∀ i ∈ done, inMode x.2.2.1 i) → T.array k = some a →
        (a.mode = x.2.2.2.1 →
          let T1 := T.modArray k fun a => { a with mode := x.2.2.2.2, moment := s.nextUid + 1 }
          exec x.1 s = waitFor { s.putTeam T1 with nextUid := s.nextUid + 1 } T1 G (.arrays k (a.switched + 1) rest x.2.1) ∧
            (∀ i b, T1.array i = some b → if i = k then b = { a with mode := x.2.2.2.2, moment := s.nextUid + 1 }
              else T.array i = some b)) ∧
        (a.mode = .toStorage ∨ a.mode = .toCompute →
          exec x.1 s = waitFor s T G (.arrays k (a.switched + 1) (k :: rest) x.2.1))))) ∧
  (∀ (s : State) (T : Team) (G : Group) (t : BitVec 4) (a : SReg), t.toNat < G.bud.t →
    (ScalarActs s T G [a] true →
      ((tileOf (G.sget a)).ok (s.header T).arrays = true → exec (.tbind t a) s = .next (passed s T (G.tset t (G.sget a)))) ∧
      ((tileOf (G.sget a)).ok (s.header T).arrays = false → exec (.tbind t a) s = raise s T G { kind := .tileBounds })) ∧
    (ScalarActs s T G [] true →
      let x := tileOf (G.tget t)
      x.map = true → (∀ b ∈ G.busy, x.mslot ∉ b.maps) → (T.mapSlot x.mslot).bad = false →
      ∀ A, T.arrays[x.array]? = some A → A.mode = .storage →
      ∃ kept, exec (.tmap t) s =
        .next (passed ({ s with overwritten := kept }.modTeam T.uid fun T => T.installMap x.array (T.mapSlot x.mslot)) T G)))

/-- `launch` and `flaunch` return the launch id of an accepted record and count ids up modulo 2^32, or the refusal's
code, 0xFFFF_FFFF_FFFF_0000 plus a number (R284, R305, R306). `fpost` finishes its team's point, once: it returns 1 and
marks the team, or 0 for a point that is complete already; a team without a point traps (R307). The model's own choices
here: log 54. -/
def Obligations.LaunchAndPostWordEffects : Prop :=
  (∀ (s : State) (T : Team) (G : Group) (d a b : SReg),
    let va := (G.sget a).toNat
    let s1 := s.renew T .home [(va, 64)]
    ∀ x ∈ ([(.launch d a, [d, a], false, none),
        (.flaunch d a b, [d, a, b], true, if b = 0 then none else some (G.sget b).toNat)] :
        List (Instr × List SReg × Bool × Option Nat)),
      ScalarActs s T G x.2.1 true → PageServes s T va 64 { r := true } → ArraysServe s T va 64 false →
      s.loadPoison T G .home va 64 = false → PerformedAt T G .dev →
      (∀ r h f, s.vet (.program T.asid x.2.2.1) (s.loadBytes T G .home va 64) x.2.2.2 = .accept r h f →
        exec x.1 s = .next (got { s1 with launches := s.launches ++ [Launch.of s1 s.nextLaunch r h f],
                                          nextLaunch := (s.nextLaunch + 1) % 2 ^ 32, nextUid := s.nextUid + 1 }
          T G d (BitVec.ofNat 64 s.nextLaunch))) ∧
      (∀ c, s.vet (.program T.asid x.2.2.1) (s.loadBytes T G .home va 64) x.2.2.2 = .refuse c →
        exec x.1 s = .next (got s1 T G d (0xFFFFFFFFFFFF0000 + BitVec.ofNat 64 c)))) ∧
  (∀ (s : State) (T : Team) (G : Group) (d : SReg), ScalarActs s T G [d] true →
    (T.point = none → exec (.fpost d) s = raise s T G { kind := .noPoint }) ∧
    (∀ L f p, s.launch T.launch = some L → L.front = some f → T.point = some p → PerformedAt T G .dev →
      (L.complete f p = true → exec (.fpost d) s = .next (got s T G d 0)) ∧
      (L.complete f p = false →
        let L1 := { L with front := some (L.finish f (L.lineOf p).1 (L.lineOf p).2) }
        exec (.fpost d) s = .next (got ((s.putLaunch L1).modTeam T.uid fun T => { T with posted := true }) T G d 1))))

/-- The reduction words (R319 to R324): an open that the root accepts adds an object whose deadline counts from now; a
put appends to the group's stream; a close marks the object and returns its drops; `dred.wait` goes on when the group's
puts are gone; a take whose checks pass is accepted and waits until its result is formed; of a formed one it writes the
elements, those that the memory side refuses apart, and returns the bitmap (R323, R327). The model's own choices here:
log 23. -/
def Obligations.ReductionWordEffects : Prop :=
  ∀ (s : State) (T : Team) (G : Group) (d a b : SReg),
    let t := G.sget a
    let va := (G.sget b).toNat
    let home := s.putCore (s.core T.die T.core).discard
    (ScalarActs s T G [d, a] true → s.checkGlobal T 1 8 { r := true } [⟨0xFF, t.toNat, 32⟩] = .pass →
      s.poisonAt T G .home t.toNat 32 = none → PerformedAt T G .dev →
      let bs := s.loadBytes T G .home t.toNat 32
      let r := (s.renew T .home [(t.toNat, 32)]).openObject T bs
      exec (.dredOpen d a) s = .next (got r.2 T G d r.1) ∧
      (descriptorOk bs = true → bits (le bs 16 1) 0 1 = 0 → s.object T.launch (le bs 0 2) = none → s.objects = [] →
        r.1 = 0 ∧ ∃ o, r.2.objects = [o] ∧ o.launch = T.launch ∧ o.id = le bs 0 2 ∧
          o.op = le bs 2 1 ∧ o.ncon = le bs 3 1 ∧ o.len = le bs 4 4 ∧ o.t0 = s.wallNs ∧ o.dl = le bs 8 4 ∧
          o.corr = le bs 12 4 ∧ o.early = 0 ∧ o.union = 0 ∧ o.closed = false)) ∧
    (ScalarActs s T G [] true → (∀ p ∈ s.putsOf T.uid G.idx, p.fence = true) →
      exec .dredWait s = .next (passed home T G)) ∧
    (∀ o, s.object T.launch (field t 0 12) = some o →
      (ScalarActs s T G [a, b] true → ticketOk t true = true → o.closed = false → o.ended s.wallNs = false →
        field t 16 6 < o.ncon → va % 16 = 0 → s.checkExtent T 1 { r := true } va (o.len * o.elemBytes) = .pass →
        exec (.dredPut a b) s = .next (passed { s with
          puts := s.puts ++ [⟨s.nextUid, T.tag G G.spc, o.id, o.born, field t 16 6, va, false⟩], nextUid := s.nextUid + 1 } T G)) ∧
      (ScalarActs s T G [d, a] true → ticketOk t false = true → o.closed = false →
        exec (.dredClose d a) s =
          .next (got (s.putObject { o with closed := true }).freeObjects T G d (BitVec.ofNat 64 o.drops))) ∧
      (∀ x ∈ ([(.dtake d a b, false), (.dtakeCorr d a b, true)] : List (Instr × Bool)),
        ScalarActs s T G [d, a, b] true → ticketOk t false = true → ((T.uid, G.idx) ∈ o.takers ∨ o.closed = false) → va % 16 = 0 →
        s.checkExtent T 2 { w := true } va (4 * o.len) = .pass → s.checkTarget T va (4 * o.len) = .pass →
        let accepted : State := if (T.uid, G.idx) ∈ o.takers then s
          else s.putObject { o with takers := o.takers ++ [(T.uid, G.idx)] }
        let s1 := (s.putObject { o with takers := o.takers.filter (· ≠ (T.uid, G.idx)) }).freeObjects
        (o.taken x.2 = none ∨ s.ordered T G [(va, 4 * o.len)] true = false →
          exec x.1 s = waitFor accepted T G (.take o.born x.2 va d)) ∧
        (∀ r m, o.taken x.2 = some (r, m) → s.ordered T G [(va, 4 * o.len)] true = true →
          ((s1.writeResult T va r).2 = none →
            exec x.1 s = .next (got ((s1.writeResult T va r).1.acquire T.die T.core .die) T G d m)) ∧
          ∀ y, (s1.writeResult T va r).2 = some y → exec x.1 s = raiseImprecise
            (got ((s1.writeResult T va r).1.acquire T.die T.core .die) T G d m) (T.tag G G.spc)
            { kind := .storeFault, acc := 2, addr := y } 0xFF 0xFFFFFFFF 0))) ∧
    (∀ (x : Nat) (w : Word) (ws : List Word),
      s.writeResult T x [] = (s, none) ∧
      (s.storeRefused T x 4 = false → s.writeResult T x (w :: ws) =
        (s.atomicWrite T x (leBytes w.toNat 4)).writeResult T ((x + 4) % 2 ^ 64) ws) ∧
      (s.storeRefused T x 4 = true → s.writeResult T x (w :: ws) =
        ((s.writeResult T ((x + 4) % 2 ^ 64) ws).1, some x)))

/-- A `cblk` word that its checks pass appends its block, from the command it names on, to the group's stack stream;
the adds of its commands take their sequence numbers then (R331), and a full stream is waited for with the block as it
was read; `cblk.wait` within its bound returns how many blocks are open, as an acquire at die scope, and observes every
complete block (R339 to R341, R344). The model's own choices here: log 47. -/
def Obligations.StackBlockWords : Prop :=
  ∀ (s : State) (T : Team) (G : Group) (d a : SReg) (i : BitVec 4) (n : BitVec 3),
    let va := (G.sget a).toNat
    let hd := s.loadBytes T G .scalar va 16
    let c := le hd 0 1
    let cmds := blockCmds (s.loadBytes T G .scalar (va + 16) (32 * c)) c
    (∀ x ∈ ([(.cblk a i, [a], i.toNat), (.cblkR d a, [d, a], (G.sget d).toNat % 16)] : List (Instr × List SReg × Nat)),
      ScalarActs s T G x.2.1 true → s.addsWait T.uid G.idx = false → va % 64 = 0 → s.checkBlockRead T G va 16 = .pass →
      1 ≤ c → c ≤ 16 → s.checkBlockRead T G (va + 16) (32 * c) = .pass → zeros hd 1 8 = true → cmds.all cmdOk = true →
      x.2.2 < c → blockMisaligned (le hd 8 8) (cmds.drop x.2.2) = none →
      let block (id : Nat) (seqs : List (BitVec 32)) : Block :=
        { id := id, tag := T.tag G G.spc, va := va, flag := le hd 8 8, cmds := cmds, next := x.2.2, started := false, sent := 0,
          adds := 0, ahead := [], pages := [], seqs := seqs, told := false, fell := 0, fence := false }
      let first (j : Nat) : BitVec 32 := s.nextSeq T.uid G.idx + BitVec.ofNat 32 (((cmds.take j).drop x.2.2).map cmdAdds).sum
      let s1 := s.renew T .scalar [(va, 16 + 32 * c)]
      (s.openBlocks T.uid G.idx < 8 → ∃ seqs, exec x.1 s = .next (passed
          { s1.countAdds T.uid G.idx ((cmds.drop x.2.2).map cmdAdds).sum with
            blocks := s.blocks ++ [block s.nextUid seqs], nextUid := s.nextUid + 1 } T G) ∧
        ∀ j, x.2.2 ≤ j → j < c → seqs[j]? = some (first j)) ∧
      (8 ≤ s.openBlocks T.uid G.idx → exec x.1 s = waitFor s1 T G (.blockRoom (block 0 [])))) ∧
    (ScalarActs s T G [d] true → s.openBlocks T.uid G.idx ≤ n.toNat →
      exec (.cblkWait d n) s = .next (got (s.putCore (s.core T.die T.core).discard) T
        { G with fallback := BitVec.ofNat 64 (min (G.fallback.toNat + (G.unseen.map (·.1)).sum) (2 ^ 32 - 1)), unseen := [] } d
        (BitVec.ofNat 64 (s.openBlocks T.uid G.idx))))

/-! ## System words and traps -/

/-- The system words that end (R350 to R354, R364): `brk` where the debug stop is off; `csrr` of every word, once the
lane words have retired for the words that they change; `csrw` under the field rules; `clock`; `noise` and `noise.2`
with the draws of their mode, in live mode words of the noise source, in replay mode after a wait for their loads. What
a read of a control and status word gives, and what a write of one stores (R140, R209, R243, R355, R356). The model's
own choices here: log 2, 9. -/
def Obligations.SystemWordAndStatusEffects : Prop :=
  (∀ (s : State) (T : Team) (G : Group) (d a : SReg) (n : BitVec 10) (c : Csr),
    (ScalarActs s T G [] true → s.brkEnabled T.asid = false → exec (.brk n) s = .next (passed s T G)) ∧
    (ScalarActs s T G [d] true → (c ∈ [.ctlRng, .stFp, .stQ, .stFallback] → s.lanesRetired T G = true) →
      exec (.csrr d c) s = .next (got s T G d (s.csr T G c))) ∧
    (ScalarActs s T G [a] true → s.lanesRetired T G = true → c.writable = true →
      exec (.csrw c a) s = .next (passed s T (G.csrSet c (G.sget a)))) ∧
    (ScalarActs s T G [d] true → exec (.clock d) s = .next (got s T G d (BitVec.ofNat 64 s.wallNs))) ∧
    (ScalarActs s T G [d] true → s.lanesRetired T G = true →
      ∀ x ∈ ([(.noise d, 1, fun ws => (ws.getD 0 0).setWidth 64), (.noise2 d, 2, fun ws => ws.getD 1 0 ++ ws.getD 0 0)] :
          List (Instr × Nat × (List Word → DWord))),
        (∀ s1 G1 ws, s.takeDraws T G x.2.1 G.spc 0xFF 0xFFFFFFFF = .ok s1 G1 ws none →
          exec x.1 s = .next (got s1 T { G1 with words := G1.words + 1 } d (x.2.2 ws))) ∧
        (∀ s1 G1, s.takeDraws T G x.2.1 G.spc 0xFF 0xFFFFFFFF = .load s1 G1 → exec x.1 s = waitFor s1 T G1 .draws) ∧
        (∀ t, s.takeDraws T G x.2.1 G.spc 0xFF 0xFFFFFFFF = .stop (.trap t) → exec x.1 s = raise s T G t)) ∧
    (ScalarActs s T G [d] true → s.lanesRetired T G = true → G.rng.toNat % 4 = 0 →
      exec (.noise d) s = .next (got { s with freeCtr := s.freeCtr + 1 } T { G with words := G.words + 1 } d
        ((Config.noise s.freeCtr).setWidth 64)) ∧
      exec (.noise2 d) s = .next (got { s with freeCtr := s.freeCtr + 2 } T { G with words := G.words + 1 } d
        ((Config.noise (s.freeCtr + 1) ++ Config.noise s.freeCtr : BitVec 64))))) ∧
  (∀ (s : State) (T : Team) (G : Group) (x : DWord),
    (s.csr T G .ctlRound = G.round ∧ s.csr T G .ctlRpt = G.rpt ∧ s.csr T G .ctlRng = G.rng ∧ s.csr T G .ctlLull = G.lull ∧
      s.csr T G .stFp = G.fp ∧ s.csr T G .stQ = G.q ∧ s.csr T G .stFallback = G.fallback ∧
      s.csr T G .clk = BitVec.ofNat 64 ((s.die T.die).clk / 1000)) ∧
    ((s.die T.die).stale < 2 ^ 32 → s.csr T G .stStale =
      (0 : BitVec 28) ++ s.gens.getD T.die 0 ++ BitVec.ofNat 32 (s.die T.die).stale) ∧
    (G.idx < 8 → 1 ≤ T.groups.length → T.groups.length ≤ 8 → G.role < 4 → s.csr T G .idGroup =
      (0 : BitVec 50) ++ BitVec.ofNat 2 G.role ++ (0 : BitVec 1) ++ BitVec.ofNat 3 (T.groups.length - 1) ++ (0 : BitVec 5) ++
        BitVec.ofNat 3 G.idx) ∧
    (T.num < 4096 → (∀ g, T.g = some g → g < 2 ^ 32) → s.csr T G .idTeam =
      BitVec.ofNat 32 (T.g.getD 0xFFFFFFFF) ++ (0 : BitVec 20) ++ BitVec.ofNat 12 T.num) ∧
    (T.die < 8 → T.core < coresOf T.die →
      s.csr T G .idCore = (0 : BitVec 38) ++
        BitVec.ofNat 10 (if T.die < 4 then 96 * T.die + T.core else 384 + 64 * (T.die - 4) + T.core) ++ (0 : BitVec 9) ++
        BitVec.ofNat 7 T.core ∧
      s.csr T G .idDie = (0 : BitVec 59) ++ BitVec.ofNat 1 (if T.die < 4 then 0 else 1) ++ BitVec.ofNat 4 T.die) ∧
    (∀ L, s.launch T.launch = some L → T.launch < 2 ^ 32 → T.asid < 2 ^ 16 → L.record.cls < 16 → s.csr T G .idLaunch =
      (0 : BitVec 12) ++ BitVec.ofNat 4 L.record.cls ++ BitVec.ofNat 16 T.asid ++ BitVec.ofNat 32 T.launch) ∧
    (T.point = none → s.csr T G .idPoint = 0) ∧
    (∀ px py pz, T.point = some (px, py, pz) → s.csr T G .idPoint =
      (0 : BitVec 1) ++ BitVec.ofNat 21 pz ++ BitVec.ofNat 21 py ++ BitVec.ofNat 21 px) ∧
    (let pin := x.extractLsb' 16 3
     let tgt := x.extractLsb' 8 8
     (G.csrSet .ctlRpt x).rpt = (0 : BitVec 45) ++ (if 6 ≤ pin.toNat then 0 else pin) ++
       (if tgt.toNat = 0 then (0 : BitVec 8) else if tgt.toNat < 66 then 66 else if 86 < tgt.toNat then 86 else tgt) ++
       (0 : BitVec 8)) ∧
    (let mode := x.extractLsb' 0 2
     (G.csrSet .ctlRng x).rng = (0 : BitVec 7) ++ x.extractLsb' 2 55 ++ (if mode.toNat = 3 then 0 else mode)) ∧
    (G.csrSet .ctlRound x).round = (if x.toNat % 4 = 3 then 0 else x &&& 3) ∧
    (G.csrSet .stFp x).fp = x &&& 0x1F ∧ (G.csrSet .stQ x).q = x ∧ (G.csrSet .stFallback x).fallback = x &&& 0xFFFFFFFF ∧
    (G.csrSet .ctlLull x).lull = (if x.toNat % 2 ^ 32 = 0 then 0 else BitVec.ofNat 64 (max (x.toNat % 2 ^ 32) 256)))

/-- `exit` ends its group: no longer live, its queue and latches gone; the last live group's exit begins the team's end
(R364, R365). -/
def Obligations.ExitEndsTheGroup : Prop :=
  ∀ (s : State) (T : Team) (G : Group), ScalarActs s T G [] true →
    ∃ t T' G', exec .exit s = .next t ∧ t.find T.uid G.idx = some (T', G') ∧ G'.status = .exited ∧ G'.queue = [] ∧
      G'.latches = [] ∧ (T'.ending = true ↔ ∀ g ∈ T.groups, g.idx ≠ G.idx → g.status = .exited) ∧ KeepsMemory s t

/-- Taking an exception (R357 to R361): a scalar word's fault stops its group at the word with no register changed,
freezes its team, and appends the 64-byte record, which names kind, place and time, to the address space's fault ring,
counts it and signals the host; a full ring counts the dropped record instead. The model's own choices here: log 26,
49. -/
def Obligations.FaultEntry : Prop :=
  ∀ (s : State) (T : Team) (G : Group) (x : Trap) (i : Nat) (e : Slot), s.current = some (T, G) → G.status = .running →
    G.queue = [] → s.asidSlot T.asid = some (i, e) →
    let fqc := field (e.word 3) 32 32
    let fqp := field (e.word 4) 0 32
    let fqn := field (e.word 4) 32 32
    let at_ := (e.word 5).toNat + 64 * (fqp % fqn)
    let record : TrapRecord :=
      { kind := x.kind, die := T.die, flags := 4, acc := x.acc, off := 0xFF, lane := x.lane, group := G.idx,
        core := globalCore T.die T.core, team := T.num, asid := T.asid, launch := T.launch, time := s.clock T.die,
        spc := G.spc.toNat, lpc := 0xFFFFFFFF, point := pointWord T.point, aux := x.aux, addr := x.addr }
    let stopped (t : State) : Prop := ∃ T' G', t.current = some (T', G') ∧ T'.frozen = true ∧ G'.status = .faulted ∧
      G'.spc = G.spc ∧ G'.pfx = [] ∧ KeepsRegisters G G' []
    (fqn ≠ 0 → (fqp + 2 ^ 32 - fqc) % 2 ^ 32 ≠ fqn → at_ + 64 ≤ dramBytes →
      ∃ t, raise s T G x = .next t ∧ stopped t ∧ t.interrupts = s.interrupts + 1 ∧
        t.mem = s.mem.write at_ record.bytes ∧ t.hostMem = s.hostMem ∧
        t.asids = assocSet s.asids i (e.setHalf 4 false (fqp + 1))) ∧
    (fqn = 0 ∨ (fqp + 2 ^ 32 - fqc) % 2 ^ 32 = fqn →
      ∃ t, raise s T G x = .next t ∧ stopped t ∧ t.interrupts = s.interrupts ∧ KeepsMemory s t ∧
        t.asids = assocSet s.asids i (e.setHalf 3 false (min (field (e.word 3) 0 32 + 1) (2 ^ 32 - 1))))

/-- `trap`, and `brk` where the debug stop is on, take their faults at the word, with their number in aux; the group's
stop point is the next word (R349, R350). Illegal words and failing fetches are taken as faults: an illegal scalar word
at itself, with the failing field and the prefix position in aux; an illegal lane word or a lane word that could not be
fetched at its fault point, the stop point being its `vrun` from it on; a failing scalar fetch with the address (R32,
R57, R58, R79, R87, R366). -/
def Obligations.TrapWordsAndIllegalWordsTakeTheirFaults : Prop :=
  (∀ (s : State) (T : Team) (G : Group) (n : BitVec 10), ScalarActs s T G [] true →
    exec (.trap n) s = raiseAt s T G.advance { kind := .softwareTrap, aux := n.toNat } G.spc.toNat 0xFF 0xFFFFFFFF ∧
    (s.brkEnabled T.asid = true →
      exec (.brk n) s = raiseAt s T G.advance { kind := .debugStop, aux := n.toNat } G.spc.toNat 0xFF 0xFFFFFFFF) ∧
    (RecordHasRoom s T.asid → TakesItsFault s (exec (.trap n) s) ∧
      (s.brkEnabled T.asid = true → TakesItsFault s (exec (.brk n) s))) ∧
    (s.asidSlot T.asid = none →
      ∃ t T' G', exec (.trap n) s = .next t ∧ t.current = some (T', G') ∧
        G'.spc = G.spc + BitVec.ofNat 32 (G.pfx.length + 1))) ∧
  (∀ (s : State) (T : Team) (G : Group), s.current = some (T, G) →
    (∀ w, G.queue = [] → ∀ p, scalarIllegal G.bud G.pfx w = some p →
      exec (.illegalEncodingScalarWord w) s = raise s T G { kind := .illegalEncoding, aux := p + 256 * G.pfx.length }) ∧
    (∀ w e q, G.queue = e :: q → ∀ p, laneIllegal G.bud (Raw.ofBits w) = some p →
      exec (.illegalEncodingLaneWord w) s = raiseLane s T G e { kind := .illegalEncoding, aux := p }) ∧
    (∀ f va, G.queue = [] → s.fetchScalar T (G.spc + BitVec.ofNat 32 G.pfx.length).toNat = .bad f va →
      exec (.instructionFetchFault f) s = raise s T G { kind := fetchKind f, acc := 5, addr := va }) ∧
    (∀ f k va e q, G.queue = e :: q → e.fetch = .fault k va →
      exec (.instructionFetchFault f) s = raiseLane s T G e { kind := fetchKind k, acc := 5, addr := va }) ∧
    (RecordHasRoom s T.asid →
      (G.queue = [] → ∀ w f, TakesItsFault s (exec (.illegalEncodingScalarWord w) s) ∧
        TakesItsFault s (exec (.instructionFetchFault f) s)) ∧
      (∀ e q, G.queue = e :: q → (∀ w, TakesItsFault s (exec (.illegalEncodingLaneWord w) s)) ∧
        ∀ f k va, e.fetch = .fault k va → TakesItsFault s (exec (.instructionFetchFault f) s))))

/-! ## Lane words over registers -/

/-- The results of the integer lane words (R99, R100), in the active lanes: the exact result under SAT or modulo 2^w.
The model's own choices here: log 15. -/
def Obligations.LaneIntegerResults : Prop :=
  ∀ (s : State) (T : Team) (G : Group) (e : QEntry) (f : LaneFields),
    let E := laneEnv T G e f
    let t := f.type
    let w := t.width
    let a := E.src t f.a
    let b := E.src t f.b
    let c := E.src t f.c
    let I := readInt t
    let k := predIx (f.func.toNat % 16)
    let len (off wid : Nat) : Nat := min (wid % 64) (32 - off % 64)
    (∀ p ∈ ([(0x01, .vAdd f, fun l => fit t f.sat (I (a l) + I (b l))), (0x02, .vSub f, fun l => fit t f.sat (I (a l) - I (b l))),
        (0x03, .vMul f, fun l => fit t f.sat (I (a l) * I (b l))),
        (0x04, .vMulh f, fun l => fit t f.sat (I (a l) * I (b l) / (2 ^ w : Nat))),
        (0x05, .vMad f, fun l => fit t f.sat (I (a l) * I (b l) + I (c l))),
        (0x08, .vMin f, fun l => fit t f.sat (min (I (a l)) (I (b l)))),
        (0x09, .vMax f, fun l => fit t f.sat (max (I (a l)) (I (b l)))),
        (0x0A, .vAbs f, fun l => fit t f.sat (if I (a l) < 0 then -I (a l) else I (a l))),
        (0x0B, .vNeg f, fun l => fit t f.sat (-I (a l))),
        (0x0C, .vAnd f, fun l => a l &&& b l), (0x0D, .vOr f, fun l => a l ||| b l), (0x0E, .vXor f, fun l => a l ^^^ b l),
        (0x0F, .vNot f, fun l => 2 ^ w - 1 - a l), (0x10, .vAndn f, fun l => a l &&& (2 ^ w - 1 - b l)),
        (0x11, .vShl f, fun l => a l * 2 ^ (b l % w) % 2 ^ w), (0x12, .vShr f, fun l => a l / 2 ^ (b l % w)),
        (0x13, .vSar f, fun l => (BitVec.ofInt w ((BitVec.ofNat w (a l)).toInt / (2 ^ (b l % w) : Nat))).toNat),
        (0x14, .vBfe f, fun l =>
          let n := len (b l) (c l)
          let x := a l / 2 ^ (b l % 64) % 2 ^ n
          if n = 0 then 0 else if t.isSigned then ((BitVec.ofNat n x).signExtend 32).toNat else x),
        (0x15, .vBfi f, fun l =>
          let n := len (c l) (E.src t f.e l)
          if n = 0 then a l
          else a l % 2 ^ (c l % 64) + 2 ^ (c l % 64) * (b l % 2 ^ n) + 2 ^ (c l % 64 + n) * (a l / 2 ^ (c l % 64 + n))),
        (0x16, .vPopc f, fun l => ((List.range w).filter fun i => (a l).testBit i).length),
        (0x18, .vBrev f, fun l => ((List.range w).map fun i => if (a l).testBit i then 2 ^ (w - 1 - i) else 0).sum)] :
        List (Nat × Instr × (Nat → Nat))),
      LaneActs s T G e p.1 f → exec p.2.1 s = .next (issuedAs s T (withD G e f t p.2.2) f)) ∧
    (LaneActs s T G e 0x17 f → ∃ n : Nat → Nat, exec (.vClz f) s = .next (issuedAs s T (withD G e f t n) f) ∧
      ∀ l, a l < 2 ^ w → n l ≤ w ∧ a l < 2 ^ (w - n l) ∧ (n l < w → 2 ^ (w - n l - 1) ≤ a l)) ∧
    (LaneActs s T G e 0x19 f →
      exec (.vSad f) s = .next (issuedAs s T (withD G e f .n32 fun l =>
        let x := I (a l) - I (b l)
        fit .n32 f.sat ((E.src .n32 f.c l : Int) + (if x < 0 then -x else x))) f)) ∧
    (∀ p ∈ ([(0x06, .vAddc f, fun x y z => x + y + z, fun x => 2 ^ 32 ≤ x), (0x07, .vSubb f, fun x y z => x - y - z, fun x => x < 0)] :
        List (Nat × Instr × (Int → Int → Int → Int) × (Int → Prop))),
      LaneActs s T G e p.1 f →
      ∃ G', exec p.2.1 s = .next (issuedAs s T G' f) ∧
        let sum (l : Nat) : Int := p.2.2.1 (a l) (b l) (if (G.pget k).getLsbD l then 1 else 0)
        (∀ i, G'.vget i = (withD G e f t fun l => fit t false (sum l)).vget i) ∧ (∀ j, j ≠ k → G'.pget j = G.pget j) ∧
        ∀ l, l < 96 → (((G.active e f).getLsbD l = true → ((G'.pget k).getLsbD l = true ↔ p.2.2.2 (sum l))) ∧
          ((G.active e f).getLsbD l = false → (G'.pget k).getLsbD l = (G.pget k).getLsbD l)))

/-- How a value is rounded to a multiple of 2^q (R97, R137): to nearest, halves to the even one; toward zero; or up
when the discarded fraction, in 4096ths, and the low 12 bits of the draw word together reach one. -/
def Obligations.RoundingToAMultiple : Prop :=
  ∀ (m : Nat) (e q : Int) (draw : Word), e < q →
    let u := 2 ^ (q - e).toNat
    (∃ k x, roundAt m e q false .rne = (k, x) ∧ 2 * (k * u) ≤ 2 * m + u ∧ 2 * m ≤ 2 * (k * u) + u ∧
      (2 * m = 2 * (k * u) + u ∨ 2 * (k * u) = 2 * m + u → k % 2 = 0) ∧ (x = true ↔ k * u ≠ m)) ∧
    (∃ k x, roundAt m e q false .rtz = (k, x) ∧ k * u ≤ m ∧ m < (k + 1) * u ∧ (x = true ↔ k * u ≠ m)) ∧
    (∃ k x, roundAt m e q false (.sr draw) = (k, x) ∧ (x = true ↔ m % u ≠ 0) ∧
      k = m / u + (if 4096 ≤ m % u * 4096 / u + draw.toNat % 4096 then 1 else 0))

/-- The results of the floating-point lane words (R101 to R105): in ascending active lanes, each the one rounding of
the exact value, in the mode of its RND with its own draw word under stochastic rounding; the flags join `st.fp`.
Minima, maxima, integral values and classes are those of R103 to R105. The model's own choices here: log 14, 15. -/
def Obligations.LaneFloatResults : Prop :=
  ∀ (s s1 : State) (T : Team) (G G1 : Group) (e : QEntry) (f : LaneFields) (ws : List Word),
    let E := { laneEnv T G e f with draws := ws }
    let t := f.type
    let F := ElemType.ffmt t
    let a := E.src t f.a
    let b := E.src t f.b
    let A := fun l => F.decode (a l)
    let B := fun l => F.decode (b l)
    let C := fun l => F.decode (E.src t f.c l)
    let lanes := lanesOf (G.active e f)
    let n := if G.rounding f.rnd = 2 then lanes.length else 0
    (s.takeDraws T G n e.spc e.off e.lpc = .ok s1 G1 ws none →
      ∀ p ∈ ([(0x30, .vFadd f, fun l => (A l).add (B l)), (0x31, .vFsub f, fun l => (A l).add (B l).negate),
          (0x32, .vFmul f, fun l => (A l).mul (B l)), (0x33, .vFma f, fun l => (A l).fma (B l) (C l)),
          (0x34, .vFms f, fun l => (A l).fma (B l) (C l).negate), (0x37, .vFrcp f, fun l => (FVal.ofInt 1).div (A l)),
          (0x38, .vFrsq f, fun l => (A l).rsqrt), (0x39, .vFsqrt f, fun l => (A l).sqrt), (0x3A, .vFexp2 f, fun l => (A l).exp2),
          (0x3B, .vFlog2 f, fun l => (A l).log2), (0x3C, .vFsin f, fun l => (A l).sinPi), (0x3D, .vFcos f, fun l => (A l).cosPi),
          (0x3E, .vFdivs f, fun l => (A l).div (B l)),
          (0x44, .vFscale f, fun l => ((A l).scale (readInt .i32 (E.src .i32 f.b l)), 0)), (0x45, .vFfrac f, fun l => (A l).frac)] :
          List (Nat × Instr × (Nat → FVal × FFlags))),
        LaneActs s T G e p.1 f →
        let rs := lanes.zipIdx.map fun x => (x.1, rounded t f.sat (E.mode x.2) (p.2.2 x.1))
        exec p.2.1 s = .next (issuedAs s1 T ((G1.writeD f t (rs.map fun r => (r.1, r.2.1))).raiseFlags
          (rs.foldl (fun fl r => fl ||| r.2.2) 0)) f)) ∧
    (∀ p ∈ ([(0x35, .vFmin f, fun l => F.minmax false (a l) (b l)), (0x36, .vFmax f, fun l => F.minmax true (a l) (b l)),
        (0x3F, .vFfloor f, fun l => F.integral (a l) .floor), (0x40, .vFceil f, fun l => F.integral (a l) .ceil),
        (0x41, .vFtrunc f, fun l => F.integral (a l) .trunc), (0x42, .vFround f, fun l => F.integral (a l) .nearest)] :
        List (Nat × Instr × (Nat → Nat))),
      LaneActs s T G e p.1 f → exec p.2.1 s = .next (issuedAs s T (withD G e f t p.2.2) f)) ∧
    (LaneActs s T G e 0x43 f → exec (.vFclass f) s = .next (issuedAs s T (withD G e f .n32 fun l => F.classOf (a l)) f)) ∧
    PickedValues

/-- The compares, selects, moves and predicate words (R106 to R108), and the scalar writes, which happen once where
some lane is active (R109, R110); `v.nop` changes nothing but the issue (R55). The model's own choices here: log 15. -/
def Obligations.CompareSelectAndMoveResults : Prop :=
  ∀ (s : State) (T : Team) (G : Group) (e : QEntry) (f : LaneFields),
    let E := laneEnv T G e f
    let t := f.type
    let F := ElemType.ffmt t
    let a := E.src t f.a
    let b := E.src t f.b
    let fn := f.func.toNat
    let pj := G.pget (predIx (fn % 16))
    let pk := G.pget (predIx (fn / 16 % 16))
    let act := G.active e f
    let lanes := lanesOf act
    let I := readInt t
    let icond : Nat → Int → Int → Bool := fun c x y =>
      match c with
      | 0 => x = y | 1 => x ≠ y | 2 => x < y | 3 => x ≤ y | 4 => x > y | _ => x ≥ y
    let fcond : Nat → FVal → FVal → Bool := fun c x y =>
      let un := x.isNan || y.isNan
      match c with
      | 0 => !un && x.eq y | 1 => un || !x.eq y | 2 => !un && x.lt y | 3 => !un && (x.lt y || x.eq y) | 4 => !un && y.lt x
      | 5 => !un && (y.lt x || x.eq y) | 6 => !un | _ => un
    (LaneActs s T G e 0x00 f → exec (.vNop f) s = .next (issuedAs s T G f)) ∧
    (∀ p ∈ ([(0x60, .vCmp f, fun l => icond (fn % 16) (I (a l)) (I (b l))),
        (0x61, .vFcmp f, fun l => fcond (fn % 16) (F.decode (a l)) (F.decode (b l))),
        (0x63, .vPand f, fun l => pj.getLsbD l && pk.getLsbD l), (0x64, .vPor f, fun l => pj.getLsbD l || pk.getLsbD l),
        (0x65, .vPxor f, fun l => pj.getLsbD l != pk.getLsbD l), (0x66, .vPnot f, fun l => !pj.getLsbD l),
        (0x67, .vPmov f, fun l => a l ≠ 0), (0x67, .vPmovPredCopy f, fun l => pk.getLsbD l)] :
        List (Nat × Instr × (Nat → Bool))),
      LaneActs s T G e p.1 f → (∃ k, f.d = .p k) →
      exec p.2.1 s = .next (issuedAs s T (withP G e f p.2.2) f)) ∧
    (∀ p ∈ ([(0x62, .vSel f, fun l => if pj.getLsbD l != (fn / 16 % 2 == 1) then a l else b l),
        (0x67, .vPmovToVector f, fun l => if pk.getLsbD l then 1 else 0), (0x68, .vMov f, fun l => a l)] :
        List (Nat × Instr × (Nat → Nat))),
      LaneActs s T G e p.1 f → exec p.2.1 s = .next (issuedAs s T (withD G e f t p.2.2) f)) ∧
    (∀ d, f.d = .s d →
      ∀ p ∈ ([(0x69, .vMovsFirst f, scalarOf t (a (lanes.headD 0))), (0x69, .vMovsLast f, scalarOf t (a (lanes.getLastD 0))),
          (0x69, .vMovsAt f, scalarOf t (a (E.src .n32 f.b 0 % 96))),
          (0x6A, .vBallot f, ((act &&& pj).extractLsb' (32 * (fn / 16 % 4)) 32).setWidth 64)] : List (Nat × Instr × DWord)),
        LaneActs s T G e p.1 f →
        exec p.2.1 s = .next (issuedLate s T (if act = 0 then G else G.sset d p.2.2) e f p.1 G))

/-- What writing a result to D does: in the lanes written, each element holds its result; every other element, register
and latch is as before; a latch takes the same elements, and D keeps its own where the word says so (R48, R94). The
frame of the issue of a lane word: of the part only its group changes, and of the group nothing but the queue, the word
count, what it holds, the owed turns, YLD, the lane wait, and the record of what is tentative, which keeps the scalar
words behind the `vrun` of the word that heads the queue now (R52, R86, R116). The model's own choices here: log 15. -/
def Obligations.LaneWordResultAndIssueFrame : Prop :=
  (∀ (G : Group) (f : LaneFields) (t : ElemType) (lanes : List Nat) (val : Nat → Nat), lanes.Nodup →
    let G' := G.writeD f t (lanes.map fun l => (l, val l))
    let d := dstIx f.d
    (∀ i, i ≠ d → (t.isPair = true → i ≠ d + 1) → G'.vget i = G.vget i) ∧
    (∀ i l, l ∉ lanes → elem (G'.vget i) l = elem (G.vget i) l) ∧
    (∀ k l, l ∉ lanes ∨ (k : Nat) + 1 ≠ f.lat.toNat → elem (G'.lget k) l = elem (G.lget k) l) ∧
    (∀ l ∈ lanes,
      (t.isPair = false → f.wbs = false → l < (G.vget d).length → elem (G'.vget d) l = extendElem t (val l)) ∧
      (t.isPair = true → l < (G.vget d).length → l < (G.vget (d + 1)).length →
        elem (G'.vget d) l = BitVec.ofNat 32 (val l) ∧ elem (G'.vget (d + 1)) l = BitVec.ofNat 32 (val l / 2 ^ 32)) ∧
      (t.isPair = false → ∀ k, f.lat.toNat = k + 1 → l < (G.lget k).length → elem (G'.lget k) l = extendElem t (val l))) ∧
    (t.isPair = false → f.wbs = true → ∀ i, G'.vget i = G.vget i) ∧
    (∀ r, G'.sget r = G.sget r) ∧ (∀ k, G'.pget k = G.pget k) ∧ (∀ k, G'.tget k = G.tget k) ∧ (∀ i, G'.aget i = G.aget i) ∧
    G'.fp = G.fp ∧ G'.q = G.q ∧ G'.rng = G.rng) ∧
  (∀ (s : State) (T : Team) (G G' : Group) (e : QEntry) (f : LaneFields), s.current = some (T, G) → G'.idx = G.idx →
    let t := issuedAs s T G' f
    (∀ held, G'.issued f held = { G' with
      queue := G'.queue.drop 1,
      tent := (match G'.queue.drop 1 with
        | [] => []
        | h :: _ => G'.tent.filter fun x => decide (h.run ≤ x.run)),
      words := G'.words + 1, stall := G'.stall + f.stall.toNat, yld := f.yld, laneWait := none,
      busy := G'.busy ++ held.toList }) ∧
    t = s.put T (G'.issued f none) ∧
    OnlyTeam s t T ∧ OtherGroups s t T G ∧ KeepsMemory s t ∧
      ∃ T' G'', t.current = some (T', G'') ∧ KeepsRegisters G' G'' [] ∧ G''.queue = G'.queue.drop 1 ∧
        G''.spc = G'.spc ∧ G''.lpc = G'.lpc ∧ G''.stream = G'.stream ∧ G''.reqs = G'.reqs ∧ G''.words = G'.words + 1 ∧
        G''.stall = G'.stall + f.stall.toNat)

/-! ## Cross-lane words, conversion -/

/-- The quad and cross-lane words (R119 to R128): each copy reads A in its source lane, active or not; a push leaves
the highest sender's value; reductions, scans, matches and votes are over the active lanes. A reduction combines over
the fixed tree of lane positions, a scan from the left, a quad as two pairs; an integer sum is exact and reduced once;
the exclusive scan begins with the identity of its operation. The model's own choices here: log 15, 40, 53. -/
def Obligations.CrossLaneResults : Prop :=
  ∀ (s s1 : State) (T : Team) (G G1 : Group) (e : QEntry) (f : LaneFields) (ws : List Word),
    let E := { laneEnv T G e f with draws := ws }
    let t := f.type
    let a := E.src t f.a
    let b := E.src .n32 f.b
    let fn := f.func.toNat
    let act := G.active e f
    let lanes := lanesOf act
    let late (opc : Nat) (G' : Group) : State := issuedLate s T G' e f opc G
    let draws (n : Nat) : Nat := if G.rounding f.rnd = 2 ∧ fn % 16 = 8 then n else 0
    let intOf (x : Nat) : Int := readInt t x
    let op := fn % 16
    let F := ElemType.ffmt t
    let join (m : Mode) (x y : Nat) : Nat := (combine t op x y m).1
    let final (x : Nat) : Nat := if op = 8 then (match F.decode x with
      | .inf n => if f.sat then F.sign n + F.maxBits else x
      | _ => x) else x
    (∀ x y m, (op = 1 → combine t op x y m = (if intOf y < intOf x then y else x, 0)) ∧
      (op = 2 → combine t op x y m = (if intOf x < intOf y then y else x, 0)) ∧ (op = 3 → combine t op x y m = (x &&& y, 0)) ∧
      (op = 4 → combine t op x y m = (x ||| y, 0)) ∧ (op = 5 → combine t op x y m = (x ^^^ y, 0)) ∧
      (op = 8 → combine t op x y m = rounded t false m ((F.decode x).add (F.decode y))) ∧
      (op = 9 → combine t op x y m = (F.minmax false x y, 0)) ∧ (op = 10 → combine t op x y m = (F.minmax true x y, 0))) ∧
    (∀ p ∈ ([(0x90, .vQswap f, fun l => l ^^^ (fn % 4)), (0x91, .vQbcast f, fun l => l / 4 * 4 + fn % 4)] :
        List (Nat × Instr × (Nat → Nat))),
      LaneActs s T G e p.1 f → exec p.2.1 s = .next (issuedAs s T (withD G e f t fun l => a (p.2.2 l)) f)) ∧
    (LaneActs s T G e 0x93 f →
      exec (.vShfl f) s = .next (late 0x93 (withD G e f t fun l =>
        a (match fn % 4 with
          | 0 => b l % 96 | 1 => if l < b l then l else l - b l | 2 => if 95 < l + b l then l else l + b l
          | _ => if 95 < l ^^^ b l then l else l ^^^ b l)))) ∧
    (LaneActs s T G e 0x95 f → exec (.vBcast f) s = .next (late 0x95 (withD G e f t fun _ => a (b 0 % 96)))) ∧
    (LaneActs s T G e 0x94 f → ∃ got : List (Nat × Nat),
      (∀ l x, (l, x) ∈ got ↔ l ∈ lanes ∧ ∃ m ∈ lanes, b m = l ∧ x = a m ∧ ∀ n ∈ lanes, b n = l → n ≤ m) ∧
      (fn / 16 % 2 = 0 → exec (.vPush f) s = .next (late 0x94 (G.writeD f t got))) ∧
      (fn / 16 % 2 = 1 → exec (.vPush f) s = .next (late 0x94
        ((G.writeD f t got).writeP (predIx (fn % 16)) act (maskOfLanes (got.map (·.1))))))) ∧
    (LaneActs s T G e 0x96 f → s.takeDraws T G (draws (lanes.length - 1)) e.spc e.off e.lpc = .ok s1 G1 ws none →
      let r := reduceLanes f E
      (fn % 16 = 0 → r = (fit t f.sat ((lanes.map fun l => intOf (a l)).sum), 0)) ∧
      (op ≠ 0 → (op = 8 → G.rounding f.rnd ≠ 2) →
        let tree := treeOf (join (E.mode 0)) fun l => if l < 96 ∧ act.getLsbD l = true then some (a l) else none
        let two := treeOf (join (E.mode 0)) (fun i => tree 5 (32 * i)) 1 0
        r.1 = final ((treeOf (join (E.mode 0)) (fun i => if i = 0 then two else tree 5 64) 1 0).getD 0) ∧
          (op ≠ 8 → r.2 = 0)) ∧
      (act = 0 → exec (.vRed f) s = .next (issuedLate s1 T G1 e f 0x96 G)) ∧
      (∀ d, act ≠ 0 → f.d = .s d →
        exec (.vRed f) s = .next (issuedLate s1 T ((G1.sset d (scalarOf t r.1)).raiseFlags r.2) e f 0x96 G)) ∧
      (∀ d, act ≠ 0 → f.d = .v d →
        exec (.vRed f) s = .next (issuedLate s1 T
          ((G1.writeD f t (lanes.map fun l => (l, r.1))).raiseFlags r.2) e f 0x96 G))) ∧
    (LaneActs s T G e 0x92 f → s.takeDraws T G (draws (3 * E.quads.length)) e.spc e.off e.lpc = .ok s1 G1 ws none →
      ∃ rs : List (Nat × Nat × FFlags), rs.map (·.1) = E.quads ∧
        (fn % 16 = 0 → ∀ r ∈ rs, r.2 = (fit t f.sat (((List.range 4).map fun i => intOf (a (4 * r.1 + i))).sum), 0)) ∧
        (op ≠ 0 → ∀ j r, rs[j]? = some r →
          let x := combine t op (a (4 * r.1)) (a (4 * r.1 + 1)) (E.mode (3 * j))
          let y := combine t op (a (4 * r.1 + 2)) (a (4 * r.1 + 3)) (E.mode (3 * j + 1))
          let z := combine t op x.1 y.1 (E.mode (3 * j + 2))
          r.2 = (final z.1, x.2 ||| y.2 ||| z.2)) ∧
        exec (.vQred f) s = .next (issuedAs s1 T ((G1.writeD f t (lanes.map fun l =>
          (l, ((rs.find? (·.1 = l / 4)).map (·.2.1)).getD 0))).raiseFlags (rs.foldl (fun fl r => fl ||| r.2.2) 0)) f)) ∧
    (LaneActs s T G e 0x97 f →
      s.takeDraws T G (draws (lanes.length - 1 - fn / 16 % 2)) e.spc e.off e.lpc = .ok s1 G1 ws none →
      let rs := lanes.zip (scanLanes f E.mode (lanes.map a))
      let ex := fn / 16 % 2
      (∃ chain : Nat → Nat × FFlags,
        (op = 0 → ∀ i, chain i = (fit t f.sat (((lanes.take (i + 1)).map fun l => intOf (a l)).sum), 0)) ∧
        (op ≠ 0 → chain 0 = (a (lanes.headD 0), 0) ∧
          ∀ i, chain (i + 1) = combine t op (chain i).1 (a (lanes.getD (i + 1) 0)) (E.mode i)) ∧
        (∀ i r, rs[i]? = some r → lanes[i]? = some r.1 ∧
          (ex ≤ i → r.2 = (final (chain (i - ex)).1, (chain (i - ex)).2)) ∧
          (i < ex → r.2 = (combineIdentity t op, 0)))) ∧
      (op = 0 ∨ 4 ≤ op ∧ op ≤ 8 → combineIdentity t op = 0) ∧ (op = 9 → combineIdentity t op = F.infBits) ∧
      (op = 10 → combineIdentity t op = F.sign true + F.infBits) ∧
      (1 ≤ op → op ≤ 5 → 0 < t.width → ∀ x m, x < 2 ^ t.width → join m (combineIdentity t op) x = x) ∧
      exec (.vScan f) s = .next (issuedLate s1 T (if act = 0 then G1 else
        (G1.writeD f t (rs.map fun r => (r.1, r.2.1))).raiseFlags (rs.foldl (fun fl r => fl ||| r.2.2) 0)) e f 0x97 G)) ∧
    (LaneActs s T G e 0x98 f →
      let same (l : Nat) : List Nat := lanes.filter fun k => k = l || keysMatch t (a k) (a l)
      let val (l : Nat) : Nat := if fn / 32 % 2 = 1 then (same l).length else (same l).headD l
      let G' := withD G e f (if t.isPair then .n64 else .n32) val
      exec (.vMatch f) s = .next (late 0x98 (if fn / 16 % 2 = 1 then
        G'.writeP (predIx (fn % 16)) act (maskOfLanes (lanes.filter fun l => (same l).headD l = l)) else G'))) ∧
    (LaneActs s T G e 0x99 f → act ≠ 0 →
      let p := G.pget (predIx (fn % 16))
      let any : Prop := ∃ l ∈ lanes, p.getLsbD l = true
      let all : Prop := ∀ l ∈ lanes, p.getLsbD l = true
      let holds : Prop := match fn / 16 % 4 with
        | 0 => any | 1 => all | _ => all ∨ ¬ any
      (∀ d, f.d = .s d → (holds → exec (.vVote f) s = .next (late 0x99 (G.sset d 1))) ∧
        (¬ holds → exec (.vVote f) s = .next (late 0x99 (G.sset d 0)))) ∧
      (∀ k, f.d = .p k → (holds → exec (.vVote f) s = .next (late 0x99 (G.pset k ((G.pget k &&& ~~~act) ||| act)))) ∧
        (¬ holds → exec (.vVote f) s = .next (late 0x99 (G.pset k (G.pget k &&& ~~~act))))))

/-- The conversion, packing and quantisation words (R143 to R154), with the events that `v.bscale` and `v.osplit` count
in `st.q` (R141): of each block, of each quad, of each value what the rules compute. The model's own choices here: log
15, 40, 53. -/
def Obligations.ConversionResults : Prop :=
  QuantisersCompute ∧
  ∀ (s s1 : State) (T : Team) (G G1 : Group) (e : QEntry) (f : LaneFields) (ws : List Word),
    let E := { laneEnv T G e f with draws := ws }
    let t := f.type
    let fn := f.func.toNat
    let act := G.active e f
    let lanes := lanesOf act
    let sr := G.rounding f.rnd = 2
    let takes (n : Nat) : Prop := s.takeDraws T G n e.spc e.off e.lpc = .ok s1 G1 ws none
    let written (u : ElemType) (rs : List (Nat × Nat × FFlags)) : Group :=
      (G1.writeD f u (rs.map fun r => (r.1, r.2.1))).raiseFlags (rs.foldl (fun fl r => fl ||| r.2.2) 0)
    let each (u : ElemType) (val : Nat → Mode → Nat × FFlags) : Group :=
      written u (lanes.zipIdx.map fun p => (p.1, val p.1 (E.mode p.2)))
    let n := if sr then lanes.length else 0
    let scale (l : Nat) : Nat := E.src .n32 f.b l % 256
    (LaneActs s T G e 0x70 f → ∀ src, ElemType.ofCode (fn % 16) = some src →
      let x := E.src src f.a
      let v (l : Nat) : FVal := if src.isFloat then (ElemType.ffmt src).decode (x l) else .ofInt (readInt src (x l))
      (t.isFloat = true → takes n →
        exec (.vCvt f) s = .next (issuedAs s1 T (each t fun l m => rounded t f.sat m (v l, 0)) f)) ∧
      (t.isFloat = false → src.isFloat = true → takes n →
        exec (.vCvt f) s = .next (issuedAs s1 T (each t fun l m => toInteger t (v l) m) f)) ∧
      (t.isFloat = false → src.isFloat = false →
        exec (.vCvt f) s = .next (issuedAs s T (withD G e f t fun l => fit t f.sat (readInt src (x l))) f))) ∧
    (LaneActs s T G e 0x71 f → fn % 4 ≤ 2 → ∀ i, f.a = .v i →
      let w := 8 / 2 ^ (fn % 4)
      exec (.vPack f) s = .next (issuedAs s T (withD G e f .b32 fun l =>
        ((List.range 4).map fun r => 2 ^ (w * r) * ((elem (G.vget (i.toNat + r)) l).toNat % 2 ^ w)).sum) f)) ∧
    (LaneActs s T G e 0x72 f → fn % 4 ≤ 2 →
      let w := 8 / 2 ^ (fn % 4)
      let a := E.src .b32 f.a
      let x (l r : Nat) : Word := let y := a l / 2 ^ (w * r) % 2 ^ w
        if fn / 4 % 2 = 1 then (BitVec.ofNat w y).signExtend 32 else BitVec.ofNat 32 y
      ∃ G', exec (.vUnpack f) s = .next (issuedAs s T G' f) ∧ (∀ k, G'.pget k = G.pget k) ∧ (∀ r, G'.sget r = G.sget r) ∧
        (∀ i, i < dstIx f.d ∨ dstIx f.d + 4 ≤ i → G'.vget i = G.vget i) ∧
        ∀ r, r < 4 → G'.vget (dstIx f.d + r) =
          if lanes = [] then G.vget (dstIx f.d + r) else lanes.foldl (fun v l => v.set l (x l r)) (G.vget (dstIx f.d + r))) ∧
    (LaneActs s T G e 0x73 f → ∃ G', exec (.vBscale f) s = .next (issuedLate s T G' e f 0x73 G) ∧
      (∀ i, i ≠ srcIx f.c → G'.vget i = G.vget i) ∧ (∀ r, G'.sget r = G.sget r) ∧
      (∀ l, act.getLsbD l = false → elem (G'.vget (srcIx f.c)) l = elem (G.vget (srcIx f.c)) l) ∧
      (∀ l ∈ lanes,
        let span := if fn / 64 = 0 then 16 else 32
        let regs := if fn / 64 = 2 then [G.vget (srcIx f.a), G.vget (srcIx f.a + 1)] else [G.vget (srcIx f.a)]
        let value (v : LaneVec) (m : Nat) : FVal := (ElemType.ffmt t).decode ((elem v m).toNat % 2 ^ (ElemType.ffmt t).width)
        let r := blockScale (funcFormat f) (regs.flatMap fun v => (lanes.filter fun m => m / span = l / span).map (value v))
        (l < (G.vget (srcIx f.c)).length → elem (G'.vget (srcIx f.c)) l = BitVec.ofNat 32 r.1) ∧
        ∀ k, f.d = .p k → (G'.pget k).getLsbD l = r.2.isSome) ∧
      (∀ k, f.d = .p k → ∀ l, act.getLsbD l = false → (G'.pget k).getLsbD l = (G.pget k).getLsbD l) ∧
      (∀ k, f.d ≠ .p k → G'.pget k = G.pget k) ∧ G'.fp = G.fp ∧
      let span := if fn / 64 = 0 then 16 else 32
      let regs := if fn / 64 = 2 then [G.vget (srcIx f.a), G.vget (srcIx f.a + 1)] else [G.vget (srcIx f.a)]
      let value (v : LaneVec) (m : Nat) : FVal := (ElemType.ffmt t).decode ((elem v m).toNat % 2 ^ (ElemType.ffmt t).width)
      let events (lo : Nat) : Nat := ((List.range (96 / span)).filter fun j =>
        let ls := lanes.filter fun m => m / span = j
        !ls.isEmpty && decide ((blockScale (funcFormat f) (regs.flatMap fun v => ls.map (value v))).2 = some lo)).length
      ∀ lo ∈ [0, 16, 32, 48], G'.q.toNat / 2 ^ lo % 2 ^ 16 = min 0xFFFF (G.q.toNat / 2 ^ lo % 2 ^ 16 + events lo)) ∧
    (takes n →
      (LaneActs s T G e 0x74 f → exec (.vQnt f) s = .next (issuedAs s1 T (each .n32 fun l m =>
        quantise (funcFormat f) (E.fval t f.a l) (scale l) m f.sat) f)) ∧
      (LaneActs s T G e 0x75 f → exec (.vDqnt f) s = .next (issuedAs s1 T (each t fun l m =>
        rounded t f.sat m (dequantise (funcFormat f) (E.src .b32 f.a l) (scale l), 0)) f)) ∧
      (LaneActs s T G e 0x76 f →
        let r (p : Nat × Nat) := quantiseError (funcFormat f) (E.fval .f32 f.a p.1) (E.fval .f32 f.c p.1) (scale p.1) (E.mode p.2) f.sat
        exec (.vQerr f) s = .next (issuedAs s1 T (((G1.writeD f .n32 (lanes.zipIdx.map fun p => (p.1, (r p).1))).vmerge (srcIx f.c)
          (lanes.zipIdx.map fun p => (p.1, BitVec.ofNat 32 (r p).2.1))).raiseFlags
          (lanes.zipIdx.foldl (fun fl p => fl ||| (r p).2.2) 0)) f))) ∧
    (LaneActs s T G e 0x79 f → takes lanes.length →
      exec (.vRand f) s = .next (issuedAs s1 T (G1.writeD f t (lanes.zipIdx.map fun p => (p.1,
        if t.isFloat then (fmt32.round (.fin false ((E.draw p.2).toNat / 256) (-24) false) .rne false).1
        else (E.draw p.2).toNat))) f)) ∧
    (LaneActs s T G e 0x77 f →
      (act ≠ BitVec.allOnes 96 → exec (.vHrot f) s = raiseLane s T G e { kind := .illegalConvergence }) ∧
      (act = BitVec.allOnes 96 → takes (if sr then 384 else 0) →
        let xs := (E.quadBits (srcIx f.a)).map fmt32.decode
        let y (i : Nat) := rounded .f32 f.sat (E.mode i)
          (rotateOne (fn % 2 == 1) xs (rotationSigns (BitVec.ofNat 32 (E.src .i32 f.b 0))) (i / 64) (i % 64))
        exec (.vHrot f) s = .next (issuedLate s1 T ((G1.writeQuad (dstIx f.d) ((List.range 384).map fun i => (y i).1)).raiseFlags
          ((List.range 384).foldl (fun fl i => fl ||| (y i).2) 0)) e f 0x77 G))) ∧
    (LaneActs s T G e 0x78 f →
      (act ≠ BitVec.allOnes 96 → exec (.vOsplit f) s = raiseLane s T G e { kind := .illegalConvergence }) ∧
      (act = BitVec.allOnes 96 →
        let r := splitQuad (E.quadBits (srcIx f.a)) E.theta
        ∃ t' T' G', exec (.vOsplit f) s = .next t' ∧ t'.current = some (T', G') ∧
          T'.mapSlot (fn % 4) = { cnt := r.2.1.length, slots := (List.range 16).map fun j => r.2.1.getD j 0 } ∧
          (∀ m, m ≠ fn % 4 → T'.mapSlot m = T.mapSlot m) ∧
          (∀ i, G'.vget i = (G.writeQuad (dstIx f.d) r.1).vget i) ∧ G'.fp = G.fp ||| r.2.2.2.setWidth 64 ∧
          G'.q.toNat / 2 ^ 48 = min 0xFFFF (G.q.toNat / 2 ^ 48 + (if r.2.2.1 then 1 else 0)) ∧
          G'.q.toNat % 2 ^ 48 = G.q.toNat % 2 ^ 48 ∧
          (∀ k, G'.pget k = if fn / 64 % 2 = 1 ∧ k = predIx (fn / 4 % 16) then (if r.2.2.1 then BitVec.allOnes 96 else 0)
            else G.pget k) ∧
          (r.2.2.1 = true ↔ 16 < ((List.range 368).filter fun n =>
            E.theta.lt (fmt32.decode ((E.quadBits (srcIx f.a)).getD n 0)).abs).length) ∧
          (∀ r', G'.sget r' = G.sget r')))

/-- What draw words are (R139, R140): in live mode fresh words of the noise source; in log mode fresh words that are
also stored, little-endian, from the pointer on, as plain stores of the word; in replay mode the words that its plain
loads find at the pointer, for which it waits where they are not at hand (R156). In the last two the pointer moves on
by 4 bytes a word, modulo 2^57. A word that takes none changes nothing. The model's own choices here: log 2, 9, 41. -/
def Obligations.DrawWordsByMode : Prop :=
  ∀ (s : State) (T : Team) (G : Group) (n off : Nat) (spc lpc : BitVec 32),
    let fresh := (List.range n).map fun i => Config.noise (s.freeCtr + i)
    let va (i : Nat) : Nat := G.drawAddr i
    let accs := (List.range n).map fun i => (⟨0xFF, va i, 4⟩ : Access)
    let moved := G.drawn n
    (∀ i, va i % 2 ^ 57 = (G.rng.toNat % 2 ^ 57 / 4 + i) % 2 ^ 55 * 4) ∧
    (moved.rng.toNat % 4 = G.rng.toNat % 4 ∧ moved.rng.toNat / 4 = (G.rng.toNat % 2 ^ 57 / 4 + n) % 2 ^ 55 ∧
      moved = { G with rng := moved.rng }) ∧
    s.takeDraws T G 0 spc off lpc = .ok s G [] none ∧
    (0 < n → G.rng.toNat % 4 = 0 → s.takeDraws T G n spc off lpc = .ok { s with freeCtr := s.freeCtr + n } G fresh none) ∧
    (0 < n → G.rng.toNat % 4 = 1 → s.checkGlobal T 2 4 { w := true } accs = .pass →
      ∃ (s1 : State) (rs : List Req × List (Nat × Nat)), s.takeDraws T G n spc off lpc =
          .ok { s1 with freeCtr := s.freeCtr + n } { moved with reqs := G.reqs ++ rs.1, regs := G.regs ++ rs.2 } fresh none ∧
        s.postStore T G ((List.range n).flatMap fun i => (List.range 4).map fun k =>
          (va i + k, (Config.noise (s.freeCtr + i)).extractLsb' (8 * k) 8)) .none (G.words + 1) spc off lpc (fun _ => 0xFF) =
          (s1, rs) ∧
        ∀ i k e, i < n → k < 4 → s.windowTeam T.die T.core T.asid (va i + k) = none →
          s.xlate T.die T.core T.asid (va i + k) = .ok e →
          (∀ j m e', j < n → m < 4 → (j, m) ≠ (i, k) → s.xlate T.die T.core T.asid (va j + m) = .ok e' →
            e'.loc (va j + m) ≠ e.loc (va i + k)) →
          ({ moved with reqs := G.reqs ++ rs.1 } : Group).postedByte (e.loc (va i + k)) =
            some ((Config.noise (s.freeCtr + i)).extractLsb' (8 * k) 8)) ∧
    (0 < n → 2 ≤ G.rng.toNat % 4 → s.checkGlobal T 1 4 { r := true } accs = .pass →
      (G.replay = none → (∀ i, i < n → s.loadPoison T G .l1 (va i) 4 = false) →
        let words := (List.range n).map fun i => BitVec.ofNat 32 (loadValue s T G .l1 (va i) 4)
        let vas := (List.range n).map fun i => (va i, 4)
        let rs := s.loadReqs T .l1 .l1 vas .none (G.words + 1) spc off lpc
        (rs = [] → s.takeDraws T G n spc off lpc = .ok ((s.renew T .l1 vas).bump n) moved words none) ∧
        (rs ≠ [] → s.takeDraws T G n spc off lpc =
          .load ((s.renew T .l1 vas).bump n) { G with replay := some ⟨words, none⟩, reqs := G.reqs ++ rs })) ∧
      (∀ R, G.replay = some R →
        ((∃ r ∈ G.reqs, r.kind = .load ∧ r.word = G.words + 1) → s.takeDraws T G n spc off lpc = .load s G) ∧
        ((∀ r ∈ G.reqs, ¬ (r.kind = .load ∧ r.word = G.words + 1)) →
          s.takeDraws T G n spc off lpc = .ok s { moved with replay := none } R.words R.bad))) ∧
    (G.rng.toNat % 4 ≠ 0 → G.replay = none → ∀ s1 G1 ws bad, s.takeDraws T G n spc off lpc = .ok s1 G1 ws bad → 0 < n →
      ws.length = n ∧ (G.rng.toNat % 4 = 1 → ws = fresh) ∧ G1.rng.toNat % 4 = G.rng.toNat % 4 ∧
      G1.rng.toNat % 2 ^ 57 / 4 = (G.rng.toNat % 2 ^ 57 / 4 + n) % 2 ^ 55 ∧ KeepsRegisters { G with rng := G1.rng } G1 [])

/-! ## Lane memory words -/

/-- The lane loads (R177, R179): where their checks pass, each active lane receives the little-endian value of its
address, element k under `.x4` in register D + k, the other lanes and registers keep theirs; an ordered one is an
acquire; `v.ldfe` waits for full granules, whatever the mode of their arrays, and under `.clr` empties them (R176,
R180). A `v.ld` marks the lines that hit as its hint says (R165), and observes a block of its group whose flag word it
reads (R339); where it reads the home it waits while another group of the core has a store to its bytes on its way
(R188). The model's own choices here: log 15, 20, 43. -/
def Obligations.LaneLoadResults : Prop :=
  ∀ (s : State) (T : Team) (G : Group) (e : QEntry) (f : LaneFields),
    let E := laneEnv T G e f
    let fn := f.func.toNat
    let n := f.type.width / 8
    let cnt := if fn / 8 % 2 = 1 then 4 else 1
    let addr (global : Bool) (l : Nat) : Nat :=
      let w := if global then 64 else 32
      let off := E.src .n32 f.b l
      let o : Int := if fn / 4 % 2 = 1 then (off : Int) else (BitVec.ofNat 32 off).toInt
      (((E.src (if global then .n64 else .n32) f.a l : Int) + o * (2 ^ (fn % 4) : Nat)) % (2 ^ w : Nat)).toNat
    let as (global : Bool) : List Access := laneAccesses G e f (addr global) (n * cnt)
    let via : Via := if f.hint = .lc ∨ laneOrder f ≠ none then .home else .l1
    let values (byte : Nat → Byte) (a : Access) : Nat × List Nat :=
      (a.lane, (List.range cnt).map fun k => ofBytes ((List.range n).map fun i => byte (a.addr + n * k + i)))
    let ordered (s : State) : State := s.acquireIf T (if G.active e f = 0 then none else laneOrder f)
    let writes : Bool := G.active e f ≠ 0
    (∀ (H : Group) (ls : List Nat) (val : Nat → List Nat), ls.Nodup →
      let d := dstIx f.d
      let H' := H.writeLoad f (ls.map fun l => (l, val l))
      (cnt = 1 ∨ f.wbs = true → H' = H.writeD f f.type (ls.map fun l => (l, (val l).headD 0))) ∧
      (cnt = 4 → f.wbs = false → f.type.isPair = false →
        (∀ k, k < 4 → ∀ l ∈ ls, l < (H.vget (d + k)).length → elem (H'.vget (d + k)) l = extendElem f.type ((val l).getD k 0)) ∧
        (∀ i, i < d ∨ d + 4 ≤ i → H'.vget i = H.vget i) ∧ (∀ i l, l ∉ ls → elem (H'.vget i) l = elem (H.vget i) l) ∧
        (∀ r, H'.sget r = H.sget r) ∧ (∀ k, H'.pget k = H.pget k))) ∧
    (LaneActs s T G e 0xA0 f → s.checkGlobal T 1 1 { r := true } (as true) = .pass →
      (∀ a ∈ as true, s.loadPoison T G via a.addr a.len = false) →
      let vas := (as true).map fun a => (a.addr, a.len)
      let marked := if via = .l1 then s.markHits T vas f.hint else s
      let seen := s.sees T G via vas
      Observes G seen ∧ KeepsMemory s marked ∧ KeepsMemory s (marked.renew T via vas) ∧
      (via = .home → s.othersPosted T G vas = true → exec (.vLd f) s = .next (s.put T { G with laneWait := none })) ∧
      ((via = .home → s.othersPosted T G vas = false) →
        ∃ rs turns, exec (.vLd f) s = .next (laneMemDone (ordered ((marked.renew T via vas).bump 384)) T
          (seen.writeLoad f ((as true).map fun a => (a.lane, (List.range cnt).map fun k =>
            ofBytes (s.loadBytes T G via (a.addr + n * k) n)))) f 0xA0 writes rs turns))) ∧
    (LaneActs s T G e 0xA2 f → s.checkPads T 1 1 false (as false) = .pass →
      ∃ turns, exec (.vLds f) s = .next (laneMemDone (ordered s) T
        (G.writeLoad f ((as false).map (values (s.padLoad T)))) f 0xA2 writes [] turns)) ∧
    (LaneActs s T G e 0xA4 f → s.checkPadRefs T 1 (n * cnt) (as false) = .pass →
      let gs := s.granules T (as false)
      (s.granulesFull gs = true → s.padArrays T 1 false (as false) = .pass →
        ∃ turns, exec (.vLdfe f) s = .next (laneMemDone
          (if fn / 16 % 2 = 1 then gs.foldl (fun s g => s.modTeam g.1 fun W => W.setFull (16 * g.2) false) s else s) T
          (G.writeLoad f ((as false).map (values (s.padLoad T)))) f 0xA4 writes [] turns)) ∧
      (s.granulesFull gs = false →
        exec (.vLdfe f) s = .next (s.put T { G with laneWait := waitOn G.laneWait (.fullGranules gs) })))

/-- The lane stores (R172, R175, R179, R182): where their checks pass, the elements of C of each active lane,
little-endian, in ascending lanes, are posted to their homes or written to scratchpads; a bank add sends one add for
each active lane to its unit. What `v.sts` or `v.stfe` has written to scratchpad addresses that name different bytes is
what a scratchpad word reads there afterwards, every other byte as before, its granule written, and full after `v.stfe`
(R168, R170, R175); a granule that was unwritten before is still to be registered with its directory (R172). An ordered
store waits until the group's accesses are performed at its scope (R185). The model's own choices here: log 7, 13. -/
def Obligations.LaneStoreEffects : Prop :=
  ∀ (s : State) (T : Team) (G : Group) (e : QEntry) (f : LaneFields),
    let E := laneEnv T G e f
    let fn := f.func.toNat
    let n := f.type.width / 8
    let cnt := if fn / 8 % 2 = 1 then 4 else 1
    let as (global : Bool) : List Access := laneAccesses G e f (E.plainAddr global) (n * cnt)
    let bytes (global : Bool) : List (Nat × Byte) := (lanesOf (G.active e f)).flatMap fun l =>
      (List.range cnt).flatMap fun k =>
        let x := E.src f.type (match f.c with
          | .v i => .v (i + BitVec.ofNat 8 k)
          | c => c) l
        (List.range n).map fun i => (E.plainAddr global l + n * k + i, BitVec.ofNat 8 (x / 2 ^ (8 * i)))
    let may : Prop := ∀ sc, laneOrder f = some sc → PerformedAt T G sc
    let registering (s1 : State) (G' : Group) : Prop := ∃ rs, G' = { G with regs := G.regs ++ rs } ∧
      ∀ x ∈ rs, ∃ W, s1.team x.1 = some W ∧ x.2 ∈ W.written ∧ x.2 ∈ W.unregistered
    (∀ (data : List (Nat × Byte)) (full : Bool),
      let ref (a : Nat) : PadRef := s.padRef T (a % 2 ^ 32)
      let t := data.foldl (fun s b => s.padStore T b.1 b.2 full) s
      (data.map fun b => ref b.1).Nodup → (∀ b ∈ data, ∃ u o, ref b.1 = .at u o ∧ (s.team u).isSome = true) →
      (∀ a, t.padRef T (a % 2 ^ 32) = ref a) ∧ (∀ b ∈ data, t.padLoad T b.1 = b.2) ∧
      (∀ a, (∀ b ∈ data, ref b.1 ≠ ref a) → t.padLoad T a = s.padLoad T a) ∧
      (∀ b ∈ data, ∀ u o, ref b.1 = .at u o → ∃ V W, s.team u = some V ∧ t.team u = some W ∧ W.isWritten o = true ∧
        (o / 16 ∈ W.unregistered ↔ V.isWritten o = false ∨ o / 16 ∈ V.unregistered) ∧
        (full = true → o / 16 ∈ W.full)) ∧ KeepsMemory s t) ∧
    (LaneActs s T G e 0xA1 f → s.checkGlobal T 2 1 { w := true } (as true) = .pass → may →
      let r := s.postStore T G (bytes true) f.hint (G.words + 1) e.spc e.off e.lpc (laneAt (as true))
      let G' := { G with regs := G.regs ++ r.2.2 }
      ∃ turns, exec (.vSt f) s = .next (laneMemDone r.1 T G' f 0xA1 false r.2.1 turns) ∧
        KeepsMemory s (laneMemDone r.1 T G' f 0xA1 false r.2.1 turns) ∧ registering r.1 G') ∧
    (LaneActs s T G e 0xA1 f → s.checkGlobal T 2 1 { w := true } (as true) = .pass → ∀ sc, laneOrder f = some sc →
      ¬ PerformedAt T G sc → exec (.vSt f) s = .next (s.put T { G with laneWait := none })) ∧
    (LaneActs s T G e 0xA3 f → s.checkPads T 2 1 true (as false) = .pass → ∀ sc, laneOrder f = some sc →
      ¬ PerformedAt T G sc → exec (.vSts f) s = .next (s.put T { G with laneWait := none })) ∧
    (∀ p ∈ ([(0xA3, .vSts f, 1, false, may), (0xA5, .vStfe f, n * cnt, true, True)] :
        List (Nat × Instr × Nat × Bool × Prop)),
      LaneActs s T G e p.1 f → s.checkPads T 2 p.2.2.1 true (as false) = .pass → p.2.2.2.2 →
      let s1 := (bytes false).foldl (fun s b => s.padStore T b.1 b.2 p.2.2.2.1) s
      ∃ turns G', exec p.2.1 s = .next (laneMemDone s1 T G' f p.1 false [] turns) ∧ registering s1 G') ∧
    (LaneActs s T G e 0xA8 f →
      let as4 := laneAccesses G e f (E.plainAddr true) 4
      firstCheck [checkAlign 4 4 as4, s.checkPages T 4 as4, s.checkAddable T as4, s.checkArrays T 4 true as4] = .pass →
      ∃ rs turns adds, exec (.vBadd f) s = .next (laneMemDone { s.countAdds T.uid G.idx as4.length with adds := s.adds ++ adds }
          T G f 0xA8 false rs turns) ∧
        adds.map (fun x => (x.va, x.value, x.float)) = as4.map fun a =>
          (a.addr, BitVec.ofNat 32 (E.src f.type f.c a.lane), f.type.isFloat))

/-- The lane atomics (R181) make one step for each active lane whose request holds its entry (R167), ascending, at the
home, an ordered one once the group's earlier accesses are performed at its scope (R185), each after the writes that
its own must follow, for which it waits (R188, R198); `v.atomr` returns the old values, and observes a block of its
group whose flag word it reads (R339). A step of one lane reads the value the lane before it left; one refused for
poison leaves its home as it was (R184). The lanes of a rejected request are left to the turn at which it takes its
entry. The model's own choices here: log 7, 42. -/
def Obligations.LaneAtomicResults : Prop :=
  ∀ (s : State) (T : Team) (G : Group) (e : QEntry) (f : LaneFields),
    let E := laneEnv T G e f
    let t := f.type
    let n := t.width / 8
    let op := f.func.toNat % 16
    let c := E.src t f.c
    let x := E.src t f.e
    let as := laneAccesses G e f (E.addr true false 0) n
    let new (m c x : Nat) : Nat :=
      match op with
      | 0 => (m + c) % 2 ^ t.width | 1 => m &&& c | 2 => m ||| c | 3 => m ^^^ c
      | 4 => if readInt t c < readInt t m then c else m | 5 => if readInt t m < readInt t c then c else m
      | 6 => c | 7 => if m = x then c else m | 8 => addF32 m c | 9 => fmt32.minmax false m c | _ => fmt32.minmax true m c
    let vas := as.map fun a => (a.addr, a.len)
    let reqs (ret : Bool) : List Req := s.atomicReqs T vas
      (fun tag => some ⟨f, ret, (s.accessesIn T as tag).map fun a => ⟨a.lane, a.addr, c a.lane, x a.lane⟩⟩)
      (G.words + 1) e.spc e.off e.lpc
    (s.checkGlobal T 3 n { r := true, w := true } as = .pass → G.active e f ≠ 0 →
      ∀ p ∈ ([(0xA6, .vAtom f), (0xA7, .vAtomr f)] : List (Nat × Instr)), LaneActs s T G e p.1 f →
        (¬ (∀ sc, laneOrder f = some sc → PerformedAt T G sc) ∨ s.ordered T G vas true = false) →
        exec p.2 s = .next (s.put T { G with laneWait := none })) ∧
    (s.checkGlobal T 3 n { r := true, w := true } as = .pass → G.active e f ≠ 0 →
      (∀ sc, laneOrder f = some sc → PerformedAt T G sc) → s.ordered T G vas true = true →
      ∀ p ∈ ([(0xA6, .vAtom f, false), (0xA7, .vAtomr f, true)] : List (Nat × Instr × Bool)), LaneActs s T G e p.1 f →
        let rs := reqs p.2.2
        let now := s.entered T as rs
        (0 < n → (∀ r ∈ rs, r.entry = true) → now = as) ∧
        (s.seniorWaits T.die T.core = false → s.entriesUsed T.die T.core + rs.length ≤ 64 → ∀ r ∈ rs, r.entry = true) ∧
        ∀ s1 old, s.atomSteps T G t op c x now = (s1, old, []) →
          ∃ turns, exec p.2.1 s = .next (laneMemDone
            (((s1.renew T .home (now.map fun a => (a.addr, a.len))).bump 96).acquireIf T (if now = [] then none else laneOrder f)) T
            (if p.2.2 then (s.sees T G .home (now.map fun a => (a.addr, a.len))).writeD f t old else G) f p.1 p.2.2
            (rs.map fun r => if r.entry then { r with performed := true, atom := none } else r) turns)) ∧
    (∀ l, Observes G (s.sees T G .home l)) ∧
    (∀ a l,
      let m := ofBytes (s.loadBytes T G .home a.addr a.len)
      let r := s.atomSteps T G t op c x (a :: l)
      let next := (s.atomicWrite T a.addr (leBytes (new m (c a.lane) (x a.lane)) a.len)).atomSteps T G t op c x l
      let rest := s.atomSteps T G t op c x l
      (s.atomFault T a.addr a.len = none → r.1 = next.1 ∧ r.2.1 = (a.lane, m) :: next.2.1 ∧ r.2.2 = next.2.2) ∧
      ∀ k, s.atomFault T a.addr a.len = some k → r.1 = rest.1 ∧ r.2.2 = (k, a) :: rest.2.2)

/-! ## Matrix words, fusion -/

/-- The matrix words join the group's matrix stream, in the open batch, with the operands as they stand at issue and
the places of their scale bytes, which the entry reads (R257, R270); their D, where the entry writes it, is held until
it is performed (R255, R256, R263, R268, R269, R271). `v.amw` writes the weights of its column at once (R261). Without
all lanes they trap (R259, R263, R271). A `.dup` word waits for the panel registers that its map names (R276). The
model's own choices here: log 45, 49. -/
def Obligations.MatrixWordEffects : Prop :=
  ∀ (s s1 : State) (T : Team) (G G1 : Group) (e : QEntry) (f : LaneFields) (ws : List Word),
    let E := laneEnv T G e f
    let fn := f.func.toNat
    let pair (i : Nat) : List LaneVec := [G.vget i, G.vget (i + 1)]
    let reg : Src → SReg := srcReg
    let fmtw := snapReg e.snap (reg f.e)
    let b := formatOf fmtw
    let sa := (snapReg e.snap (reg f.e + 1)).toNat
    let sb := (snapReg e.snap (reg f.e + 2)).toNat
    let room := G.streamFull = false
    let table (blocks n base : Nat) (row : Nat → Nat) : List Access :=
      (List.range n).flatMap fun i => (List.range blocks).map fun g => ⟨0xFF, (base + row i + g) % 2 ^ 64, 1⟩
    let scales (on : Bool) (blocks n base : Nat) (row : Nat → Nat) : ScaleTable :=
      ⟨if on then (List.range n).map fun i => (List.range blocks).map fun g =>
          ((base + row i + g) % 2 ^ 64, match s.xlate T.die T.core T.asid ((base + row i + g) % 2 ^ 64) with
            | .ok e => e.loc ((base + row i + g) % 2 ^ 64)
            | _ => ⟨false, 0⟩)
        else [], []⟩
    (∀ p ∈ ([(0xC0, .vAmm f), (0xC4, .vAccclr f), (0xC5, .vAccscl f), (0xD0, .vMma f), (0xD1, .vMmac f)] : List (Nat × Instr)),
      LaneActs s T G e p.1 f → ¬ FullMask e → exec p.2 s = raiseLane s T G e { kind := .illegalConvergence }) ∧
    (LaneActs s T G e 0xD1 f → FullMask e → room →
      exec (.vMmac f) s = .next (streamed s T G e f 0xD1 (.mmac f.func (dstIx f.d) (pair (srcIx f.a)) (pair (srcIx f.b))) .none .none)) ∧
    (LaneActs s T G e 0xD0 f → FullMask e → room →
      let narrow : Bool := f.type = .narrow
      let fmt := if narrow then fmtw else 0
      let b := formatOf fmt
      let depth := mmaDepth f.type
      let dup : Bool := fn / 2 % 2 = 1
      let map := T.mapSlot (fn / 4 % 4)
      let nb := if b.len ≤ 32 then 32 / b.len else 1
      let as := if narrow && b.scaled then table nb 24 sa (nb * ·) ++ table nb 24 sb (nb * ·) else []
      let n := if narrow && b.rnd = 2 then 576 * ((depth + 15) / 16) else 0
      let drawAs := if G.rng.toNat % 4 = 0 then [] else (List.range n).map fun i => (⟨0xFF, G.drawAddr i, 4⟩ : Access)
      let log : Bool := G.rng.toNat % 4 = 1
      (narrow = true → b.legal = true ∧ b.rnd < 3 ∧ mmaCodeOk b.afmt = true ∧ mmaCodeOk b.bfmt = true) →
      (dup = true → (∀ x ∈ G.busy, fn / 4 % 4 ∉ x.maps ∧ ∀ v ∈ x.vecs, v ∉ panelReads (srcIx f.b) depth map) ∧
        map.bad = false) →
      firstCheck [s.checkPages T 1 as, s.checkPages T (if log then 2 else 1) drawAs, s.checkRights T 1 { r := true } as,
        s.checkRights T (if log then 2 else 1) { r := !log, w := log } drawAs] = .pass →
      s.takeDraws T G n e.spc e.off e.lpc = .ok s1 G1 ws none →
      exec (.vMma f) s = .next (streamed s1 T G1 e f 0xD0
        (.mma f.type f.func (dstIx f.d) (pair (srcIx f.a))
          (if dup then dupFragment (fun k => G.vget (srcIx f.b + k)) depth map else pair (srcIx f.b)) fmt ws)
        (scales (narrow && b.scaled) nb 24 sa (nb * ·)) (scales (narrow && b.scaled) nb 24 sb (nb * ·)))) ∧
    (LaneActs s T G e 0xC0 f → FullMask e → room → s.calibrated T.die = true → b.legal = true → b.rnd = 0 →
      (arrayFormat b.afmt).isSome = true →
      let tw := G.tget (BitVec.ofNat 4 (srcIx f.b))
      let t := tileOf tw
      let nv := fn % 8 + 1
      let segs := (segments b t).1
      let as := if b.scaled then table segs nv sa (32 * ·) ++ table segs t.cols sb (32 * ·) else []
      t.rows ≠ 0 → b.bfmt = t.wfmt → (arrayFormat t.wfmt).isSome = true → (b.scaled = true → t.rows % b.len = 0) →
      dstIx f.d + accsOf t ≤ min 8 G.bud.a → firstCheck [s.checkPages T 1 as, s.checkRights T 1 { r := true } as] = .pass →
      ((T.array t.array).map (·.mode) = some .compute ∨ (T.array t.array).map (·.mode) = some .toCompute) →
      exec (.vAmm f) s = .next (streamed s T G e f 0xC0
        (.amm (dstIx f.d) ((List.range nv).map fun v => G.vget (srcIx f.a + v)) tw fmtw G.rpt (fn / 8 % 4))
        (scales b.scaled segs nv sa (32 * ·)) (scales b.scaled segs t.cols sb (32 * ·)))) ∧
    (LaneActs s T G e 0xC2 f → room →
      s.takeDraws T G (if f.type ≠ .f32 ∧ G.rounding f.rnd = 2 then (accLanes (G.active e f)).length else 0) e.spc e.off e.lpc =
        .ok s1 G1 ws none →
      exec (.vAccmov f) s = .next (streamed s1 T G1 e f 0xC2
        (.accmov f (G.active e f) (srcIx f.a) (srcIx f.b) (G.rounding f.rnd) ws) .none .none)) ∧
    (LaneActs s T G e 0xC3 f → room →
      exec (.vAccld f) s = .next (streamed s T G e f 0xC3 (.accld (dstIx f.d) (srcIx f.b) (G.vget (srcIx f.a)) (G.active e f)) .none .none)) ∧
    (LaneActs s T G e 0xC4 f → FullMask e → room →
      exec (.vAccclr f) s = .next (streamed s T G e f 0xC4 (.accclr (dstIx f.d) (fn % 8 + 1)) .none .none)) ∧
    (LaneActs s T G e 0xC5 f → FullMask e → room →
      exec (.vAccscl f) s = .next (streamed s T G e f 0xC5
        (.accscl (dstIx f.d) (snapReg e.snap (reg f.a)) (G.vget (srcIx f.b))) .none .none)) ∧
    (LaneActs s T G e 0xC1 f →
      let t := tileOf (G.tget (BitVec.ofNat 4 (srcIx f.b)))
      let c := E.src .n32 f.c 0
      let v := G.vget (srcIx f.a)
      (t.cols ≤ c → exec (.vAmw f) s = raiseLane s T G e { kind := .tileBounds }) ∧
      (∀ pl cols ew A, c < t.cols → arrayFormat t.wfmt = some (pl, cols, ew) → T.array t.array = some A → A.mode = .storage →
        ∃ t' T' G', exec (.vAmw f) s = .next t' ∧ t'.current = some (T', G') ∧ KeepsRegisters G G' [] ∧
          T'.pad = ((lanesOf (G.active e f)).foldl (fun T l => (List.range 4).foldl (fun T j =>
            if 4 * l + j < t.rows then T.setWeight t pl (4 * l + j) c ((elem v l).toNat / 2 ^ (pl * j) % 2 ^ pl) else T) T) T).pad))

/-- A fused run is its words one after another: it ends as they would, each on what the last left, with the draws of
the run in word order (R111, R112); each word's operation is the one it has alone. A check of the run that fails stops
it at its first word, with nothing changed. The model's own choices here: log 41, 53. -/
def Obligations.FusedRunIsItsWordsInOrder : Prop :=
  ∀ (s : State) (T : Team) (G : Group) (n : Nat) (ws : List FuseWord) (h : QEntry) (q : List QEntry), s.current = some (T, G) →
    G.queue = h :: q → fusePlan G n = some ws → (∀ w ∈ ws, G.collectorWaits (w.f.toRaw w.opc) = false) →
    (∀ s1 G1 ds, s.takeDraws T G (fusedDraws T G ws) h.spc h.off h.lpc = .ok s1 G1 ds none →
      exec (.fusedRun n) s = .next (s1.put T (runFused T ws ds G1))) ∧
      (∀ c, s.takeDraws T G (fusedDraws T G ws) h.spc h.off h.lpc = .stop c →
        exec (.fusedRun n) s = laneStop s T G h c ∧ ∀ x, c = .trap x → exec (.fusedRun n) s = raiseLane s T G h x) ∧
      (n = 2 ∨ n = 3) ∧ ws.length = n ∧ (ws.head?.map (·.entry)) = some h ∧
      fusedDraws T G ws = (ws.map fun w => w.op.draws (laneEnv T G w.entry w.f)).sum ∧
      (∀ (ds : List Word) (G1 : Group), runFused T [] ds G1 = G1 ∧ ∀ w l,
        let k := w.op.draws (laneEnv T G1 w.entry w.f)
        runFused T (w :: l) ds G1 = runFused T l (ds.drop k)
          ((w.op.act { laneEnv T G1 w.entry w.f with draws := ds.take k } G1).issued w.f none)) ∧
      (∀ w e b i, fuseWord e = some w → e.fetch = .word b → decodeLane b = .ok i → ∀ t, exec i t = laneWord t w.opc w.f w.op)

/-! ## The device rows -/

/-- The memory system's rows: a long word's result lands (R116); a wait that is over ends, that of an `amode` with its
next array or, after its last, with the word, and that of a `cblk` with its block in the stream (R71, R206, R248,
R341); a response leaves its miss entry and its word's results land (R167); a rejected request is presented again,
senior from 16 rejections on, and acts as it takes its entry: a store writes what it has for the core's own
scratchpads, a lane atomic makes its steps (R167), and the core's lines follow what it found (R188); a store is
performed at its home, one that poison refuses there is a fault (R172, R184); a walk fills the TLBs (R160); a stale
message is counted on its die, to 2^32 - 1 (R356, R381). The model's own choices here: log 1, 7, 13, 20, 23, 31, 43. -/
def Obligations.MemorySystemRows : Prop :=
  ∀ (s : State) (T : Team) (G : Group), s.find T.uid G.idx = some (T, G) →
    let t := T.uid
    let g := G.idx
    (∀ i, G.busy.findIdx? (fun b => !b.memory && !b.matrix) = some i →
      exec (.laneResultWriteback t g) s = .next (s.put T { G with busy := G.busy.eraseIdx i }).noteReady) ∧
    (∀ w, G.wait = some w → s.waitOver T G w.what = true →
      (∀ c a v sc, w.what = .memory c a v sc → exec (.awaitPoll t g) s = .next (s.put T { G with wait := none })) ∧
      (∀ k n c, w.what = .arrays k n [] c → G.mustStop = false → exec (.waitComplete t g) s = .next (s.retire T G.advance)) ∧
      (∀ k n j rest c A, w.what = .arrays k n (j :: rest) c → T.arrays[j]? = some A →
        A.mode = (if c then ArrayMode.storage else .compute) →
        let T1 := T.modArray j fun a => { a with mode := if c then .toCompute else .toStorage, moment := s.nextUid + 1 }
        exec (.waitComplete t g) s =
          waitFor { s.putTeam T1 with nextUid := s.nextUid + 1 } T1 G (.arrays j (A.switched + 1) rest c)) ∧
      (∀ b, w.what = .blockRoom b → ∃ seqs, exec (.waitComplete t g) s = .next ((passed
        { s.countAdds t g ((b.cmds.drop b.next).map cmdAdds).sum with
          blocks := s.blocks ++ [{ b with id := s.nextUid, seqs := seqs }], nextUid := s.nextUid + 1 } T G).finishStops t g)) ∧
      (∀ born corr va d, w.what = .take born corr va d →
        (s.objects.find? (·.born = born) = none → exec (.waitComplete t g) s = .next (s.put T { G with wait := none })) ∧
        ∀ o r m, s.objects.find? (·.born = born) = some o → o.taken corr = some (r, m) →
          let s1 := (s.putObject { o with takers := o.takers.filter (· ≠ (t, g)) }).freeObjects
          (s.ordered T G [(va, 4 * o.len)] true = false → exec (.waitComplete t g) s = .next s) ∧
          (s.ordered T G [(va, 4 * o.len)] true = true → (s1.writeResult T va r).2 = none →
            exec (.waitComplete t g) s = .next (got ((s1.writeResult T va r).1.acquire T.die T.core .die) T G d m)) ∧
          (s.ordered T G [(va, 4 * o.len)] true = true → ∀ y, (s1.writeResult T va r).2 = some y →
            exec (.waitComplete t g) s = raiseImprecise (got ((s1.writeResult T va r).1.acquire T.die T.core .die) T G d m)
              (T.tag G G.spc) { kind := .storeFault, acc := 2, addr := y } 0xFF 0xFFFFFFFF 0)) ∧
      ((∀ c a v sc, w.what ≠ .memory c a v sc) → (∀ k n r c, w.what ≠ .arrays k n r c) → (∀ b, w.what ≠ .blockRoom b) →
        (∀ o c va d, w.what ≠ .take o c va d) → exec (.waitComplete t g) s = .next (s.put T { G with wait := none }))) ∧
    (∀ i r, G.reqs.findIdx? (s.canRespond T G) = some i → G.reqs[i]? = some r → r.bad = none →
      let rs := G.reqs.eraseIdx i
      let left : Bool := rs.any fun q => q.word = r.word
      ∃ slices cores, exec (.memoryResponse t g) s = .next (({ s with slices := slices, cores := cores }).put T { G with
        reqs := rs,
        busy := if left then G.busy else G.busy.filter fun b => !(b.memory && b.word = r.word),
        loads := if left then G.loads else G.loads.filter (·.1 ≠ r.word) }).noteReady ∧
        (r.kind ≠ .load → slices = s.slices ∧ cores = s.cores)) ∧
    (exec (.requestRepresent t g) s =
        (List.range G.reqs.length).foldl (fun o i => andThen o fun s => representOne s t g i) (.next s) ∧
      ∀ i r, G.reqs[i]? = some r →
        let seen (x : Req) : Group := { G with reqs := G.reqs.set i x }
        let may : Prop := s.entriesUsed T.die T.core < 64 ∧ s.elderWaits T.die T.core r.since = false ∧
          (16 ≤ r.age ∨ s.seniorWaits T.die T.core = false) ∧ (r.kind = .load ∨ ∀ x ∈ G.reqs.take i, x.kind = .load ∨ x.entry = true)
        let taken : Req := { r with entry := true, stamp := s.lastStamp T.die T.core + 1 }
        (r.entry = true → representOne s t g i = .next s) ∧
        (r.entry = false → ¬ may → representOne s t g i = .next (s.put T (seen { r with age := r.age + 1 }))) ∧
        (r.entry = false → may → r.atom = none → r.pads = [] → ∃ cores, (r.kind ≠ .store → cores = s.cores) ∧
          representOne s t g i = .next { s.put T (seen taken) with cores := cores }) ∧
        (r.entry = false → may → r.atom = none → r.pads ≠ [] →
          let s1 := r.pads.foldl (fun s p => s.storePad p.1 p.2.1 p.2.2 false) s
          ∃ cores rs, representOne s t g i = .next { s1.put T { seen { taken with performed := true } with regs := G.regs ++ rs } with
            cores := cores }) ∧
        (∀ w, r.entry = false → may → r.atom = some w →
          let as : List Access := w.steps.map fun x => ⟨x.lane, x.va, w.fields.type.width / 8⟩
          let operand (get : AtomStep → Nat) (l : Nat) : Nat := ((w.steps.find? (·.lane = l)).map get).getD 0
          ∀ s1 old, s.atomSteps T G w.fields.type (w.fields.func.toNat % 16) (operand (·.c)) (operand (·.e)) as =
              (s1, old, []) →
            let G1 := if w.returns then (s.sees T G .home (as.map fun a => (a.addr, a.len))).writeD w.fields w.fields.type old else G
            representOne s t g i = .next ((((s1.renew T .home (as.map fun a => (a.addr, a.len))).bump 96).acquireIf T (if as.isEmpty then none else laneOrder w.fields)).put T
              { G1 with reqs := G1.reqs.set i { taken with performed := true, atom := none } }))) ∧
    (∀ i r, s.homeWork T G = [.store i r] →
      let s1 := (s.performStore r).modTeam t fun T => T.putGroup { G with reqs := G.reqs.set i { r with performed := true } }
      (s.refusedMark r = none → exec (.homeSliceRequest t g) s = .next s1) ∧
      (∀ k va lane, s.refusedMark r = some (k, va, lane) → exec (.homeSliceRequest t g) s =
        raiseImprecise s1 (T.tag G r.spc) { kind := k, acc := 2, addr := va, lane := lane } r.off r.lpc.toNat 0)) ∧
    (∀ u k, s.homeWork T G = [.register u k] → exec (.homeSliceRequest t g) s =
      .next ((s.register u k).modTeam t fun T => T.putGroup { G with regs := G.regs.erase (u, k) })) ∧
    (∀ x y l, s.homeWork T G = x :: y :: l → ∃ z ∈ x :: y :: l,
      exec (.homeSliceRequest t g) s = doHomeWork (s.bump 1) T G z) ∧
    (∀ die core asid va e, die < 8 → core < coresOf die → canonical (BitVec.toNat (w := 64) va) = true →
      s.walk (BitVec.toNat (w := 16) asid) va.toNat = some e →
      exec (.pageWalk die core asid va) s = .next ((s.putDie die { s.die die with tlb := tlbAdd 8192 (s.die die).tlb e }).putCore
        { s.core die core with tlb := tlbAdd 64 (s.core die core).tlb e }) ∧ e ∈ tlbAdd 64 (s.core die core).tlb e) ∧
    (∀ receiver sender gen resp, receiver < 8 →
      let now := s.gens.getD (if resp then receiver else sender) 0
      let taken := { s with fabric := s.fabric.erase ⟨receiver, sender, gen, resp⟩ }
      (gen ≠ now → exec (.fabricMessageReceive receiver sender gen resp) s =
        .next (taken.putDie receiver { s.die receiver with stale := min ((s.die receiver).stale + 1) (2 ^ 32 - 1) })) ∧
      (gen = now → exec (.fabricMessageReceive receiver sender gen resp) s = .next taken))

/-- The copy engines' rows: the head of a queue starts (R215); a step moves up to 16 granules in traversal order and
counts them (R216, R222): granule g of row r of plane p goes from its place in the source to its place in every
destination, whose 16 bytes are then the source's, written and full in a scratchpad (R222, R224); the head whose
granules are all moved adds 1 to its flag, modulo 2^64, and leaves its queue (R226). The model's own choices here: log
1, 11, 44. -/
def Obligations.CopyEngineRows : Prop :=
  (∀ (s : State) (Q : QueueId) (id : Nat) (o : Option (Nat × Nat)) (L a d c : Nat) (x : CopyDesc) (spc : BitVec 32)
    (rest : List CopyItem),
    (s.queue Q = .copy id o L a d c x spc none :: rest →
      exec (.copyEntryStart Q) s = .next ((s.bump (2 * x.geometry.count)).setQueue Q
        (.copy id o L a d c x spc (some ⟨0, false, false, s.freeCtr, []⟩) :: rest))) ∧
    (∀ k, s.queue Q = .copy id o L a d c x spc (some k) :: rest →
      let gone (s : State) : State := (s.setQueue Q ((s.queue Q).drop 1)).settleFences
      (∀ s1 k1, CopyRun.moveGranules ⟨o.bind fun p => s.team p.1, a, d, c, id, x⟩ s k 16 = (s1, k1, []) →
        k1.moved ≤ k.moved + 16 ∧
        exec (.copyStep Q) s = .next (s1.setQueue Q (.copy id o L a d c x spc (some k1) :: (s1.queue Q).drop 1))) ∧
      (x.geometry.count ≤ k.moved →
        (x.flag = none → exec (.copyComplete Q) s = .next (gone s)) ∧
        (∀ f, x.flag = some f → s.flagFault d c a f.toNat id = none →
          exec (.copyComplete Q) s = .next (gone (s.addFlag d c a f.toNat)))))) ∧
  (∀ (C : CopyRun) (s : State) (k : CopyStep) (p : Place) (h : Option Nat),
    let y := C.d.geometry
    let dests := C.destPlaces s k.moved
    (∀ g r q, g < y.g → r < y.nr → y.step (g + y.g * (r + y.nr * q)) =
      (q * y.sps + r * y.srs + 16 * g, q * y.dps + r * y.drs + 16 * g)) ∧
    (k.moved < y.count → C.source s k.moved = .ok (p, h) → C.writer s p = none → (∀ w ∈ k.was, w.1 ≠ p) →
      s.placeBusy C.id p = false → s.placePoisoned p = false → s.memWf = true →
      (∀ z ∈ C.dests s k.moved, ∃ q home, z = .ok (q, home)) →
      (∀ q ∈ dests, s.placePoisoned q = false ∧ (∀ t n, q = .pad t n → s.team t ≠ none) ∧
        ∀ l, q = .mem l → ∀ i, i < 16 → NoneParkedAt s (l.plus i)) →
      (dests.flatMap fun q => (List.range 16).map q.plus).Nodup →
      ∃ s1 was, C.moveGranule s k k.moved = .ok s1 was [] ∧
        (∀ q ∈ dests, s1.granuleBytes q = s.granuleBytes p ∧ ∀ t n, q = .pad t n →
          ∃ W, s1.team t = some W ∧ W.isWritten n = true ∧ n / 16 ∈ W.full) ∧
        (∀ l, (∀ q ∈ dests, ∀ i, i < 16 → q.plus i ≠ .mem l) → s1.byteAt l = s.byteAt l) ∧
        ∀ n, C.moveGranules s k (n + 1) =
          let r := C.moveGranules s1 { k with moved := k.moved + 1, was := k.was ++ was } n
          (r.1, r.2.1, r.2.2))) ∧
  (∀ (s : State) (die core asid va : Nat) (e : TlbEntry), s.xlate die core asid va = .ok e → s.memWf = true →
    (∀ i, i < 8 → NoneParkedAt s ((e.loc va).plus i)) →
    let word (s : State) (p : Place) : Nat := ofBytes ((List.range 8).map fun i => s.takeByte (p.plus i))
    word (s.addFlag die core asid va) (s.writePlace die core asid va (e.loc va)) =
      (word s (s.readPlace die core asid va (e.loc va)) + 1) % 2 ^ 64)

/-- The matrix engines' rows: a switch of mode ends once what came before is performed, and an array of a team all of
whose groups have exited goes back to storage once its copies are complete and it has left its cell (R248, R250, R365);
a pass starts on a free array, the entry's scale bytes read before the first, and its sum is added to the accumulator
(R238, R257, R258); a digital entry starts first come first served on its path and lands in its registers (R265, R273,
R275, R278); an accumulator entry takes effect (R263). The model's own choices here: log 1, 10, 45. -/
def Obligations.MatrixEngineRows : Prop :=
  (∀ (s : State) (T : Team) (k : Nat) (A : ArrayState), s.team T.uid = some T → T.arrays[k]? = some A →
    let quiet : Bool := !s.storesInto T k A.moment && !s.entriesInto T k A.moment
    let idle : Prop := A.pass = none ∧ ∀ G ∈ T.groups, ∀ e ∈ G.stream, e.onArray k = false
    let switched (m : ArrayMode) : Out :=
      .next (s.putTeam (T.modArray k fun a => { a with mode := m, switched := a.switched + 1 }))
    (A.mode = .toCompute → quiet = true → exec (.arrayModeSwitchComplete T.uid k) s = switched .compute) ∧
    (A.mode = .toStorage → quiet = true → idle → exec (.arrayModeSwitchComplete T.uid k) s = switched .storage) ∧
    (A.mode = .compute → T.ending = true → s.teamCopies T.uid = false → T.cell = none → idle →
      exec (.arrayModeSwitchComplete T.uid k) s = switched .storage) ∧
    (A.mode = .compute → T.ending = false ∨ s.teamCopies T.uid = true ∨ T.cell ≠ none →
      exec (.arrayModeSwitchComplete T.uid k) s = .next s) ∧
    (A.mode.switching = true → quiet = false → exec (.arrayModeSwitchComplete T.uid k) s = .next s)) ∧
  (∀ (s : State) (T : Team) (G : Group) (e : MatrixEntry), s.find T.uid G.idx = some (T, G) → G.nextDigital = some e →
    ∀ n, e.ready = some n → s.firstReady T.die T.core G.pipe n = true → s.scalesBusy T e = false →
      exec (.digitalMatrixStart T.uid G.idx) s = .next (s.put T { G with
        stream := G.stream.map fun x => if x = e then { s.readEntry T x with started := true } else x }).noteReady) ∧
  (∀ (s : State) (T : Team) (G : Group) (e : MatrixEntry) (q : List MatrixEntry), s.find T.uid G.idx = some (T, G) →
    G.stream = e :: q →
    let restarted (G : Group) (e : MatrixEntry) : Group := { G with stream := e :: q }
    (∀ acc acts tile fmtw rpt rf, e.op = .amm acc acts tile fmtw rpt rf →
      let t := tileOf tile
      let sg := segments (formatOf fmtw) t
      let n := acts.length
      (∀ A, T.arrays[t.array]? = some A → e.started = false → A.pass = none → A.mode ≠ .toCompute → s.scalesBusy T e = false →
        let e1 := if e.passes = 0 then s.readEntry T e else e
        (e1.poisonedScale = none → exec (.arrayPassStart T.uid G.idx) s =
          .next ((s.put T (restarted G { e1 with started := true })).modTeam T.uid fun T =>
            T.modArray t.array fun A => { A with pass := some G.idx }).noteReady) ∧
        (∀ va, e1.poisonedScale = some va → exec (.arrayPassStart T.uid G.idx) s =
          raiseImprecise (streamDone s T G e) (T.tag G e.spc) { kind := .memory, acc := 1, addr := va } e.off e.lpc.toNat 0)) ∧
      (e.started = true →
        let G1 := G.pass T acc (acts.getD (e.passes % n) []) t (formatOf fmtw) (repeatOf rpt rf sg.2) e.ascales.bytes
          e.bscales.bytes (e.passes / n) (e.passes % n) s.freeCtr
        let s1 := (s.bump (passDraws t)).modTeam T.uid fun T => T.modArray t.array fun A => { A with pass := none }
        (e.passes + 1 < sg.1 * n → exec (.arrayPassComplete T.uid G.idx) s =
          .next (s1.put T (restarted G1 { e with started := false, passes := e.passes + 1 }))) ∧
        (sg.1 * n ≤ e.passes + 1 → exec (.arrayPassComplete T.uid G.idx) s = .next (streamDone s1 T G1 e)))) ∧
    (∀ ty fn d a b fmt ws, e.op = .mma ty fn d a b fmt ws → e.started = true →
      (e.poisonedScale = none → exec (.digitalMatrixComplete T.uid G.idx) s =
        .next (streamDone s T (G.mma ty fn d a b fmt e.ascales.bytes e.bscales.bytes ws) e)) ∧
      (∀ va, e.poisonedScale = some va → exec (.digitalMatrixComplete T.uid G.idx) s =
        raiseImprecise (streamDone s T G e) (T.tag G e.spc) { kind := .memory, acc := 1, addr := va } e.off e.lpc.toNat 0)) ∧
    (∀ fn d a b, e.op = .mmac fn d a b → e.started = true →
      exec (.digitalMatrixComplete T.uid G.idx) s = .next (streamDone s T (G.mmac fn d a b) e)) ∧
    (e.op.isAcc = true → ∃ G1, exec (.accEntryPerform T.uid G.idx) s = .next (streamDone s T G1 e) ∧
      (∀ acc n, e.op = .accclr acc n → ∀ i, G1.aget i = if acc ≤ i ∧ i < acc + n then List.replicate 512 0 else G.aget i) ∧
      (∀ acc sa v, e.op = .accscl acc sa v → (∀ i, i ≠ acc → G1.aget i = G.aget i) ∧
        ∀ k, k < 512 → elem (G1.aget acc) k = BitVec.ofNat 32
          (scaledBy (sa.toNat / 2 ^ (8 * (k / 64)) % 256) ((elem v (k % 64)).toNat % 256) (elem (G.aget acc) k).toNat)) ∧
      (∀ acc row v m, e.op = .accld acc row v m → (∀ i, i ≠ acc → G1.aget i = G.aget i) ∧
        ∀ l ∈ accLanes m, 64 * row + l < (G.aget acc).length → elem (G1.aget acc) (64 * row + l) = elem v l) ∧
      (∀ f m acc row rnd ws, e.op = .accmov f m acc row rnd ws → f.type = .f32 →
        G1 = G.writeD f .f32 ((accLanes m).map fun l => (l, (elem (G.aget acc) (64 * row + l)).toNat))))) ∧
  PassAdds ∧ ProductsLand

/-- The stack engines' rows: the oldest block of a stream starts, its commands end one after another, its flag is added
(R335 to R338, R342); an `addv` reads whole 16-byte granules and sends one add after another, each only once the last
is accepted, a poisoned element none (R201, R331, R332, R337, R347); an add is accepted by its unit, those of an `addv`
in element order, none before an earlier store of its group, or an earlier word's add, to its home die and none whose
request is rejected (R167), and applied outside deterministic mode, the adds of a group's words to one home die in
their order (R188, R198, R330, R332, R333); the failure of a command ends its block and cancels the later ones of its
stream, and the group stops, a `cblk.wait` at which it waits not completing (R343, R344). The model's own choices here:
log 1, 13, 17, 47. -/
def Obligations.StackEngineRows : Prop :=
  (∀ (s : State) (b : Block), s.block b.id = some b →
    let ended : State := s.putBlock { b with next := b.next + 1, sent := 0, adds := 0, ahead := [], pages := [], told := false }
    (((s.blocksOf b.tag.team b.tag.group).head?).map (·.id) = some b.id →
      exec (.stackBlockStart b.id) s = .next (s.putBlock { b with started := true })) ∧
    (b.started = true →
      (∀ c, b.cmds[b.next]? = some c →
        let n := le c 12 4
        (cmdOp c = 3 → le c 1 1 % 2 = 1 →
          exec (.mode b.id) s = .next ({ s with detMode := insertNat s.detMode b.tag.asid }.endCmd b false)) ∧
        (cmdOp c = 3 → le c 1 1 % 2 = 0 →
          (s.deterministic b.tag.asid = false →
            exec (.mode b.id) s = .next ({ s with detMode := s.detMode.filter (· ≠ b.tag.asid) }.endCmd b false)) ∧
          (s.deterministic b.tag.asid = true → ∀ s1, flushAdds s b.tag.asid = .next s1 →
            exec (.mode b.id) s = .next ({ s1 with detMode := s1.detMode.filter (· ≠ b.tag.asid) }.endCmd b false))) ∧
        (cmdOp c = 2 → (∀ a ∈ s.adds, a.accepted = false ∨ a.tag.asid ≠ b.tag.asid) → exec (.flush b.id) s = .next ended) ∧
        (cmdOp c = 2 → ∀ s1, flushAdds s b.tag.asid = .next s1 → exec (.flush b.id) s = .next (s1.endCmd b false)) ∧
        (cmdOp c = 1 →
          let src := le c 16 8
          let dst := le c 24 8
          (∀ k x, (∀ a ∈ s.adds, a.accepted = true ∨ a.block ≠ some (b.id, b.va)) → b.sent < n → b.pages = [] →
            (s.stackFail b.tag { r := true } false src (4 * n) = some (k, x) ∨
              s.stackFail b.tag { r := true } false src (4 * n) = none ∧
                s.stackFail b.tag { w := true } true dst (4 * n) = some (k, x)) →
            exec (.addv b.id) s = failBlock s b k 9 x) ∧
          ((∃ a ∈ s.adds, a.accepted = false ∧ a.block = some (b.id, b.va)) → exec (.addv b.id) s = .next s) ∧
          ((∀ a ∈ s.adds, a.accepted = true ∨ a.block ≠ some (b.id, b.va)) →
            (n ≤ b.sent → exec (.addv b.id) s = .next (s.endCmd b (src % 64 ≠ 0 || dst % 64 ≠ 0))) ∧
            (b.sent < n → b.pages = [] → s.stackAbsent b.tag src (4 * n) = none → s.stackAbsent b.tag dst (4 * n) = none →
              s.stackFail b.tag { r := true } false src (4 * n) = none → s.stackFail b.tag { w := true } true dst (4 * n) = none →
              let b1 := { b with pages := s.stackPages b.tag src (4 * n) ++ s.stackPages b.tag dst (4 * n) }
              exec (.addv b.id) s =
                addvElement (((s.fillBase b.tag src (4 * n)).fillBase b.tag dst (4 * n)).putBlock b1) b1 c) ∧
            (b.sent < n → b.pages ≠ [] → exec (.addv b.id) s = addvElement s b c))) ∧
        (cmdOp c = 0 →
          let base := le c 16 8
          let out := le c 24 8
          let cap := le c 2 2
          let room := 16 + 8 * min cap n
          s.stackAbsent b.tag base (4 * n) = none → s.stackAbsent b.tag out room = none →
          s.stackFail b.tag { r := true } true base (4 * n) = none → s.stackFail b.tag { w := true } false out room = none →
          s.engineBusy b.id b.tag base (4 * n) = false → s.stackPoison b.tag base (4 * n) = [] →
          let xs := (List.range n).map fun i => (i, s.stackWord b.tag (base + 4 * i))
          let sel := scanSelect (le c 1 1 / 16 % 4) (le c 1 1 % 16) (le c 4 4) (le c 8 4) cap xs
          let s0 := ((s.fillBase b.tag base (4 * n)).fillBase b.tag out room).writeBackRegion b.tag base (4 * n)
          ∀ s1, s0.stackWrite b.tag b.id out (scanOutput sel cap) = (s1, none) →
            exec (.scan b.id) s = .next (s1.endCmd b (base % 64 ≠ 0)))) ∧
      (b.cmds.length ≤ b.next →
        let gone (s : State) : State :=
          ({ s with blocks := s.blocks.filter fun x => x.fence || x.id ≠ b.id }.owe b.tag b.fell b.flag).settleFences
        let f := s.addFlag b.tag.die (coresOf b.tag.die) b.tag.asid b.flag
        (b.flag = 0 → exec (.stackBlockComplete b.id) s = .next (gone s)) ∧
        (b.flag ≠ 0 → s.flagFault b.tag.die (coresOf b.tag.die) b.tag.asid b.flag b.id = none →
          exec (.stackBlockComplete b.id) s = .next (gone f))))) ∧
  (∀ (s : State) (b : Block) (c : List Byte),
    let x := (le c 16 8 + 4 * b.sent + b.ahead.length) % 2 ^ 64
    let va := (le c 24 8 + 4 * b.sent) % 2 ^ 64
    let seq := b.seqs.getD b.next 0 + BitVec.ofNat 32 b.adds
    let read (bs : List (Option Byte)) (told : Bool) : State := s.putBlock { b with ahead := b.ahead ++ bs, told := told }
    (b.ahead.length < 4 →
      (s.engineBusy b.id b.tag x 1 = true → addvElement s b c = .next s) ∧
      (s.engineBusy b.id b.tag x 1 = false → s.placePoisoned (s.sourcePlace b x) = false →
        addvElement s b c = .next (read
          ((List.range (16 - x % 16)).map fun i => some (s.takeByte (s.sourcePlace b ((x + i) % 2 ^ 64)))) b.told)) ∧
      (s.engineBusy b.id b.tag x 1 = false → s.placePoisoned (s.sourcePlace b x) = true →
        addvElement s b c =
          if b.told then .next (read (List.replicate (16 - x % 16) none) true)
          else raiseImprecise (read (List.replicate (16 - x % 16) none) true) b.tag
            { kind := .memory, acc := 9, addr := x / 16 * 16, aux := b.va } 0xFF 0xFFFFFFFF b.next)) ∧
    (∀ ws : List Byte, ws.length = 4 → ∀ rest, b.ahead = ws.map some ++ rest → ∃ a : BankAdd,
      a.value = BitVec.ofNat 32 (ofBytes ws) ∧ a.va = va ∧ a.seq = seq ∧ a.accepted = false ∧ a.block = some (b.id, b.va) ∧
      a.born = b.id ∧ (a.float = true ↔ le c 1 1 = 2) ∧ (∀ e, b.pages.find? (·.hits b.tag.asid va) = some e → a.pa = (e.loc va).addr) ∧
      let s1 := s.putBlock { b with sent := b.sent + 1, ahead := rest, adds := b.adds + 1 }
      (s.addRefused a = false → addvElement s b c = .next { s1 with adds := s.adds ++ [a] }) ∧
      (s.addRefused a = true → addvElement s b c = raiseImprecise s1 b.tag
        { kind := .arrayBusy, acc := 9, addr := va, aux := b.va } 0xFF 0xFFFFFFFF b.next)) ∧
    (4 ≤ b.ahead.length → none ∈ b.ahead.take 4 →
      addvElement s b c = .next ((s.unsend b.tag.team b.tag.group seq 1).modBlock b.id fun y =>
        { y with sent := b.sent + 1, ahead := b.ahead.drop 4 }))) ∧
  (∀ (s : State) (k : Nat) (a : BankAdd), s.adds[k]? = some a →
    (a.accepted = false → (∀ b ∈ s.adds.take k, b.accepted = true ∨ a.block = none ∨ b.block ≠ a.block) →
      s.storeBefore a = false → s.addsBefore a (s.adds.filter fun b => !b.accepted) = false → s.addUnentered a = false →
      s.buffered (Config.bankOf a.pa) < 2048 → s.addRefusal a = none →
      exec (.bankAddAccept k) s = .next { s.sliceWriteBack a.pa true with
        adds := s.adds.set k { a with accepted := true, held := s.deterministic a.tag.asid } }) ∧
    (∀ w T G r, a.word = some w → s.find a.tag.team a.tag.group = some (T, G) → r ∈ G.reqs → r.kind = .bankAdd → r.word = w →
      r.tag = ⟨false, a.pa / 256 * 256⟩ → r.entry = false → exec (.bankAddAccept k) s = .next s) ∧
    (a.accepted = true → a.held = true ∨ s.addsBefore a s.adds = true → exec (.bankAddApply k) s = .next s) ∧
    (∀ b ∈ s.adds, ∀ v w, b.tag = a.tag → b.word = some v → a.word = some w → v < w → b.home = a.home →
      (∃ l m, s.addPlace a = .mem l ∧ s.addPlace b = .mem m) ∨ b.pa = a.pa →
      s.addsBefore a s.adds = true ∧ (b.accepted = false → s.addsBefore a (s.adds.filter fun b => !b.accepted) = true)) ∧
    (a.accepted = true → a.held = false → s.addsBefore a s.adds = false → s.homeRefusal (s.addPlace a) = none →
      exec (.bankAddApply k) s = .next ({ s with adds := s.adds.eraseIdx k }.applyAdd a) ∧
      (s.memWf = true → s.addWindow a = none → s.registered ⟨false, a.pa⟩ = none → NoneParkedAt s ⟨false, a.pa⟩ → NoneParkedAt s ⟨false, a.pa + 1⟩ →
        NoneParkedAt s ⟨false, a.pa + 2⟩ → NoneParkedAt s ⟨false, a.pa + 3⟩ →
        let word (s : State) : Nat := ofBytes (s.bytesAt ⟨false, a.pa⟩ 4)
        word ({ s with adds := s.adds.eraseIdx k }.applyAdd a) =
          if a.float then addF32 (word s) a.value.toNat else (word s + a.value.toNat) % 2 ^ 32))) ∧
  (∀ (s : State) (b : Block) (k : FaultKind) (acc addr n m : Nat) (T : Team) (G : Group),
    s.find b.tag.team b.tag.group = some (T, G) → G.status = .running → G.queue = [] → G.wait = some ⟨.blocks n, m⟩ →
    RecordHasRoom s b.tag.asid →
    ∃ t T' G', failBlock s b k acc addr = .next t ∧ t.find b.tag.team b.tag.group = some (T', G') ∧ T'.frozen = true ∧
      G'.status = .faulted ∧ G'.wait = none ∧ G'.spc = G.spc ∧ (∀ r, G'.sget r = G.sget r) ∧
      ∀ x ∈ t.blocks, x.fence = true ∨ x.tag.team ≠ b.tag.team ∨ x.tag.group ≠ b.tag.group) ∧
  StackEnginesCompute

/-- The reduction engine's rows: a contribution arrives on time, late, or is dropped, once each (R313, R315, R320); the
deadline forms the early result, the window's end the corrected one (R314), each over the fixed tree of its bitmap
(R316); frames of a peer part about the same opening with an identical descriptor, whose results come each by itself; a
part whose descriptor differs takes no part (R325); a contribution of a peer whose opening is over here, its id opened
again, is counted part-wide (R315); as time passes, what is closed, awaited by no take and past its window is freed
(R315). The model's own choices here: log 1, 23. -/
def Obligations.ReductionEngineRows : Prop :=
  (∀ (s : State) (p : Put) (o : RedObj), s.puts.find? (fun q => q.id = p.id && !q.fence) = some p →
    ((s.putsOf p.tag.team p.tag.group).head?).map (·.id) = some p.id →
    let gone := { s with puts := s.puts.filter fun q => !(q.id = p.id && !q.fence) }
    ((∀ x ∈ s.objects, x.born ≠ p.born) → exec (.contributionArrival p.id) s =
      .next { gone with control := { s.control with drops := s.control.drops + 1 } }.settleFences) ∧
    (s.objects.find? (·.born = p.born) = some o → s.badGranule p.tag p.src (o.len * o.elemBytes) = none →
      s.engineBusy p.id p.tag p.src (o.len * o.elemBytes) = false → s.decides o = true →
      exec (.contributionArrival p.id) s = .next ((gone.putObject (o.arrive s.wallNs p.idx
        (widen o.op (s.engineBytes p.tag p.src (o.len * o.elemBytes)) o.len))).freeObjects).settleFences)) ∧
  (∀ (o : RedObj) (now idx : Nat) (xs : List Word), idx < 64 →
    let o1 := o.arrive now idx xs
    (o.windowOver = true ∨ o.td + o.corr ≤ now ∨ o.union.getLsbD idx = true → o1 = { o with drops := o.drops + 1 }) ∧
    (o.windowOver = false → now < o.td + o.corr → o.union.getLsbD idx = false →
      o1.drops = o.drops ∧ o1.leaves = o.leaves ++ [(idx, xs)] ∧ o1.union.getLsbD idx = true ∧
        (o1.early.getLsbD idx = true ↔ now < o.td ∨ o.early.getLsbD idx = true) ∧
        ((∀ i, i < o.ncon → o1.union.getLsbD i = true) → o1.windowOver = true ∧ o1.corrected ≠ none))) ∧
  (∀ (s : State) (o : RedObj), s.object o.launch o.id = some o →
    (s.decides o = true →
      (o.td ≤ s.wallNs → exec (.deadlineExpiry o.launch o.id) s =
        .next (s.putObject (if o.corr = 0 then o.endWindow else o.formEarly)).freeObjects) ∧
      (o.td + o.corr ≤ s.wallNs → exec (.correctionWindowEnd o.launch o.id) s = .next (s.putObject o.endWindow).freeObjects) ∧
      (∀ idx h data, o.peer = true → h.turn = o.turn → h.desc = o.desc → idx < o.ncon → data.length = o.len →
        exec (.peerContribution o.launch o.id idx ⟨h, data⟩) s =
          .next ((s.hearPeer o.launch o.id h).putObject (o.arrive s.wallNs idx data)).freeObjects)) ∧
    (∀ corr h r m, o.peer = true → h.turn = o.turn → h.desc = o.desc → s.decides o = false →
      exec (.peerResult o.launch o.id corr h r m) s = .next ((s.hearPeer o.launch o.id h).putObject
        (if corr then { o with corrected := some r, union := m, windowOver := true }
         else { o with earlyResult := some r, early := m })).freeObjects) ∧
    (∀ h, o.peer = false ∨ h.turn ≠ o.turn ∨ h.desc ≠ o.desc →
      (∀ idx data, exec (.peerContribution o.launch o.id idx ⟨h, data⟩) s = .next (
        let s1 := s.hearPeer o.launch o.id h
        if h.turn < o.turn then { s1 with control := { s1.control with drops := s1.control.drops + 1 } } else s1)) ∧
      ∀ corr r m, exec (.peerResult o.launch o.id corr h r m) s = .next (s.hearPeer o.launch o.id h))) ∧
  (∀ (s : State) (ns : Nat) (o : RedObj), o ∈ (s.pass ns).objects ↔ o ∈ s.objects ∧
    ¬ (o.closed = true ∧ o.takers = [] ∧ (o.windowOver = true ∨ o.td + o.corr ≤ s.wallNs + ns))) ∧
  ReductionResults

/-- Records from the host and the network: an accepted record becomes a launch with the next id, a refused one is
counted and reported, a datagram with a wrong tag is counted (R284 to R286); at completion a launch's handoff and
successor follow (R290 to R292). The model's own choices here: log 1, 24, 27, 54, 55. -/
def Obligations.RecordAndCompletionRows : Prop :=
  (∀ (s : State) (bs : List Byte), bs.length = 64 →
    let taken (r : Record) (h : Header) (f : Option Front) : State :=
      { s with launches := s.launches ++ [Launch.of s s.nextLaunch r h f], nextLaunch := (s.nextLaunch + 1) % 2 ^ 32,
               nextUid := s.nextUid + 1 }
    (∀ off, s.control.window.getLsbD 0 = true → off % 64 = 0 → off < 4096 →
      (∀ r h f, s.vet .host bs none = .accept r h f → exec (.hostRecordSubmit off bs) s = .next (taken r h f)) ∧
      (∀ c, s.vet .host bs none = .refuse c →
        exec (.hostRecordSubmit off bs) s = .next (s.refuseRecord .host (recordOf bs).cls c))) ∧
    (∀ port udp tag, port < 8 → s.control.udp.getLsbD (16 + port) = true → List.length tag = 8 →
      let base := s.control.udp.toNat % 2 ^ 16
      let c := udp - base
      base ≤ udp → udp < base + 16 →
      (BitVec.ofNat 64 (ofBytes tag) ≠ s.tagOf c → exec (.recordDatagram port udp (tag ++ bs)) s = .next (s.countRefusal c .tag)) ∧
      (BitVec.ofNat 64 (ofBytes tag) = s.tagOf c → (recordOf bs).cls = c →
        (∀ r h f, s.vet .network bs none = .accept r h f → exec (.recordDatagram port udp (tag ++ bs)) s = .next (taken r h f)) ∧
        (∀ x, s.vet .network bs none = .refuse x →
          exec (.recordDatagram port udp (tag ++ bs)) s = .next (s.refuseRecord .network c x))))) ∧
  (∀ (s : State) (L : Launch), s.launch L.id = some L →
    (L.stage = .active → s.completes L = true →
      let s1 := (s.putLaunch { L with stage := .completed, front := none }).dropObjects L.id
      (L.record.done = 0 → exec (.launchCompletion L.id) s = .next s1) ∧
      (L.record.done ≠ 0 → s1.flagRefused 8 0 L.asid L.record.done = false →
        exec (.launchCompletion L.id) s = .next (s1.addFlag 8 0 L.asid L.record.done))) ∧
    (L.stage = .completed → L.record.hand = 0 → exec (.handoff L.id) s = .next (s.putLaunch { L with stage := .releasing })) ∧
    (∀ hd bs e, L.stage = .completed → L.record.hand ≠ 0 → s.dieRead L.asid L.record.hand 8 = .ok hd → le hd 0 4 = 1 →
      le hd 4 4 = 0 → s.dieRead L.asid (L.record.hand + 8) 24 = .ok bs → handoffEntries bs 1 = [e] → e.ok = true →
      let Q : QueueId := .dd (s.handoffDie L e) 7
      (s.queue Q).length < 32 → s.checkCopy L.issuer e.desc true = .pass →
      exec (.handoff L.id) s = .next ({ s.setQueue Q (s.queue Q ++
          [CopyItem.copy s.nextUid none L.id L.asid (s.handoffDie L e) (coresOf (s.handoffDie L e)) e.desc 0xFFFFFFFF none]) with
        nextUid := s.nextUid + 1 }.putLaunch { L with stage := .handing [s.nextUid] })) ∧
    (∀ ids, L.stage = .handing ids → s.copiesLeft ids = false →
      exec (.handoff L.id) s = .next (s.putLaunch { L with stage := .releasing })) ∧
    (L.stage = .releasing →
      let s1 := { s with launches := s.launches.filter (·.id ≠ L.id) }
      (L.record.succ = 0 → exec (.successorRelease L.id) s = .next s1) ∧
      (∀ bs, L.record.succ ≠ 0 → s1.dieRead L.asid L.record.succ 64 = .ok bs →
        (∀ r h f, s1.vet (.successor L.asid) bs none = .accept r h f →
          exec (.successorRelease L.id) s = .next { s1 with
            launches := s1.launches ++ [Launch.of s1 s1.nextLaunch r h f], nextLaunch := (s1.nextLaunch + 1) % 2 ^ 32,
            nextUid := s1.nextUid + 1 }) ∧
        (∀ x, s1.vet (.successor L.asid) bs none = .refuse x →
          exec (.successorRelease L.id) s = .next (s1.refuseRecord .host (recordOf bs).cls x)))))

/-- The dispatcher's rows: a placed team starts with every group at its role's SPC and LPC, all lanes active, the
registers of R68 and R288 (R294); fronts reserve entries and fire points, of those that can fire the first in ascending
order, and no fired point is placed before one that can still fire before it (R299, R301); a team that is quiet writes
its written granules back to their places and ends (R173, R365), not before it has left its cell (R234, R365) and its
arrays are back in storage mode (R250); an energy window renews a die's budget, less the charges of the teams on the
die, each also its class's (R295; log 37). The model's own choices here: log 1, 37, 45, 48. -/
def Obligations.DispatcherRows : Prop :=
  (∀ (s : State) (L : Launch) (d c num page : Nat) (fits : Bool) (o : Offer) (slots : List Nat),
    s.choose d = some (L, fits) → s.heldBack d = false → s.offer L d = some (o, num) → s.newRoom L d c = some (slots, page) →
    (∀ i, i < L.header.pages → ∃ e,
      s.xlate d c L.asid ((if L.header.scratch = 0 then 0 else windowOf L d num) + 16384 * i) = .ok e ∧ e.r = true ∧ e.w = true) →
    ∃ t T, exec (.teamPlacement L.id d c) s = .next t ∧ t.teams = s.teams ++ [T] ∧ T.uid = s.nextUid ∧ T.launch = L.id ∧
      T.asid = L.asid ∧ T.die = d ∧ T.core = c ∧ T.num = num ∧ T.page = page ∧ T.place = .resident ∧ T.frozen = false ∧
      T.written = [] ∧ T.full = [] ∧ T.cell = none ∧ KeepsMemory s t ∧ (t.core d c).l1 = [] ∧ (t.core d c).scalar = [] ∧
      (fits = true → d < s.dies.length → (t.die d).left = (s.die d).left - (2 ^ (L.header.energy + 4) : Nat)) ∧
      let at_ : Nat × Nat × Nat := match o with
        | .plain g => (g % L.record.x, g / L.record.x % L.record.y, g / (L.record.x * L.record.y))
        | .point l i => L.point l i
      ∀ G ∈ T.groups, G.mask = BitVec.allOnes 96 ∧ G.status = .running ∧ G.queue = [] ∧ (∀ k, G.pget k = 0) ∧
        (G.bud.sOk 1 = true → G.sget 1 = L.record.args) ∧ (G.bud.sOk 2 = true → G.sget 2 = BitVec.ofNat 64 at_.1) ∧
        (G.bud.sOk 3 = true → G.sget 3 = BitVec.ofNat 64 at_.2.1) ∧ (G.bud.sOk 4 = true → G.sget 4 = BitVec.ofNat 64 at_.2.2) ∧
        ∃ r, roleAt L.header.roles G.idx = some (G.role, r) ∧ G.spc = r.spc ∧ G.lpc = r.lpc ∧ G.bud = r.bud) ∧
  (∀ (s : State) (L : Launch) (f : Front), s.launch L.id = some L → L.front = some f → L.stage = .active →
    (∀ d, f.reserved = false → s.frontDie L = some d → L.reserve ≤ s.frontFree d →
      exec (.frontStoreReserve L.id) s = .next (s.putLaunch { L with
        front := some (L.openFront { f with die := some d, entries := L.reserve, reserved := true }) })) ∧
    (∀ line inner, f.reserved = true → L.canFire f line inner = true → L.firesBefore f line inner = true →
      exec (.frontPointFire L.id line inner) s = .next s) ∧
    (∀ l i line inner, L.canFire f l i = true → l < line ∨ (l = line ∧ i < inner) → L.firesBefore f line inner = true) ∧
    (∀ d p ps, f.offered = p :: ps → L.firesBefore f p.1 p.2 = true → s.offer L d = none) ∧
    (∀ line inner, f.reserved = true → L.canFire f line inner = true → L.firesBefore f line inner = false →
      exec (.frontPointFire L.id line inner) s = .next (s.putLaunch { L with front := some { f with
        lines := f.lines.map fun l => if l.line = line then { l with flight := l.flight ||| windowBit (inner - l.w) } else l,
        offered := insertPoint (line, inner) f.offered } }))) ∧
  (∀ (s : State) (T : Team), s.team T.uid = some T → s.quiet T = true →
    (T.place = .resident → T.groups ≠ [] → T.cell = none → (∀ i ∈ T.written, ∃ l, s.backTo T i = some l ∧ s.poisoned l = false) →
      s.memWf = true → (∀ L, s.launch T.launch = some L → L.stage = .active) → (∀ A ∈ T.arrays, A.mode = .storage) →
      ∃ t, exec (.teamEnd T.uid) s = .next t ∧ t.team T.uid = none ∧
        (∀ i ∈ T.written, ∀ l, s.backTo T i = some l →
          (∀ j ∈ T.written, j ≠ i → ∀ m, s.backTo T j = some m →
            m.host ≠ l.host ∨ m.addr + 16 ≤ l.addr ∨ l.addr + 16 ≤ m.addr) →
          t.bytesAt l 16 = (List.range 16).map fun k => T.padByte (16 * i + k)) ∧
        ∀ l, (∀ i ∈ T.written, ∀ m, s.backTo T i = some m → m.host ≠ l.host ∨ l.addr < m.addr ∨ m.addr + 16 ≤ l.addr) →
          t.byteAt l = s.byteAt l) ∧
    (T.place = .resident → T.cell = none → (∃ A ∈ T.arrays, A.mode ≠ .storage) → exec (.teamEnd T.uid) s = .next s) ∧
    (T.place = .ending false → ∃ t, exec (.teamEnd T.uid) s = .next t ∧ t.team T.uid = none ∧
      ((∀ L, s.launch T.launch = some L → L.stage = .active) → KeepsMemory s t))) ∧
  (∀ (s : State) (T : Team), s.team T.uid = some T → T.place = .resident → T.groups ≠ [] → T.liveCount = 0 →
    s.teamCopies T.uid = false → T.cell ≠ none →
    ((∃ G ∈ T.groups, G.performedAt T .cell = false) → exec (.teamEnd T.uid) s = .next s) ∧
    ((∀ G ∈ T.groups, G.performedAt T .cell = true) →
      (s.cellWork T = true → exec (.teamEnd T.uid) s = .next (s.modTeam T.uid fun T => { T with leaving := true })) ∧
      (s.cellWork T = false → exec (.teamEnd T.uid) s = .next (s.modTeam T.uid fun T => { T with cell := none, leaving := false })))) ∧
  (∀ (s : State) (d budget : Nat), d < 8 →
    let here := (s.teams.filter fun T => T.present && T.die = d).filterMap fun T =>
      (s.launch T.launch).map fun L => (L.record.cls, 2 ^ (L.header.energy + 4))
    (∃ D, exec (.energyWindow d budget) s = .next (s.putDie d D) ∧ D.budget = budget ∧ D.mhz = s.windowClock d ∧
      (d < s.dies.length → D.left = (budget : Int) - ((here.map (·.2)).sum : Nat) ∧
        ∀ c, (assoc D.spent c).getD 0 = ((here.filter (·.1 = c)).map (·.2)).sum)) ∧
    (s.control.pin.toNat / 2 ^ (8 * d) % 256 = 0 ∨ Config.pinsExceed s.control.pin.toNat = false → s.windowClock d = s.nominal d))

/-- Lulls, pre-emption, saves and restores: a save writes its area in blocks of 256 bytes, first the header (R367), a
drain ends after 200 us (R368), with the members of its cell (R234), a team in a lull thaws from the moment a condition
holds (R212), a restored team takes its area's place on a core (R377), its hang period going on; the watchdog reports a
team that has retired nothing for its period, or whose save runs for as long (R378), and stops a save at the 256-byte
boundary it has reached, its header then in state 1 with that count (R379); a write-back store refused at the end of a
save freezes the team (R173, R361); the dispatcher pre-empts for a launch that has waited with a new team or with one
to be restored, and for a team that thaws (R212, R297). The model's own choices here: log 1, 26, 28, 29, 48. -/
def Obligations.SaveAndRestoreRows : Prop :=
  (∀ (s : State) (T : Team), s.team T.uid = some T →
    (∀ a, T.place = .stopping a → s.drained T = true →
      exec (.teamSave T.uid) s = .next ((s.writeBlock T a 0).putTeam
        { T with place := .saving { a with count := 256 }, saveSince := s.wallNs })) ∧
    (∀ a, T.place = .saving a → a.stopped = false → a.count < a.length →
      exec (.teamSave T.uid) s = .next ((s.writeBlock T a (a.count / 256)).putTeam
        { T with place := .saving { a with count := a.count + 256 } }) ∧
      ∀ l : Loc, (l.host = true ∨ l.addr < a.pa + 256 * (a.count / 256) ∨ a.pa + 256 * (a.count / 256) + 256 ≤ l.addr) →
        (s.writeBlock T a (a.count / 256)).byteAt l = s.byteAt l) ∧
    (∀ a, T.place = .saving a → a.stopped = false → a.length ≤ a.count →
      (∀ i ∈ T.written, s.poisoned (T.backingOf i) = false) →
      ∃ t, exec (.teamSave T.uid) s = .next t ∧ ∀ T', t.team T.uid = some T' → T'.place = .saved { a with count := a.length } ∧
        T'.pad = [] ∧ T'.present = false) ∧
    (∀ a, T.place = .saving a → a.stopped = false → a.length ≤ a.count → (s.writeBack T).2 ≠ [] → RecordHasRoom s T.asid →
      ∃ t, exec (.teamSave T.uid) s = .next t ∧ ∀ T', t.team T.uid = some T' → T'.frozen = true ∧ T'.restoring = false ∧
        T'.thawing = none ∧ T'.lull = false) ∧
    (T.place = .resident → T.cell = none → s.preemptSet T = [T]) ∧
    (∀ since s1, T.drain = some since → since + 200000 ≤ s.wallNs → T.place = .resident → T.ending = false →
      s.mayPreempt T = true → State.stopAll .preempt (s.preemptSet T) s = some s1 → exec (.drainTimeout T.uid) s = .next s1) ∧
    (∀ s1, s.enterLull T none = some s1 → exec (.lullEntry T.uid) s = .next s1 ∧
      ∀ G w, T.group G.idx = some G → G.lullWait = some w → exec (.lullThresholdExpiry T.uid G.idx) s = .next s1) ∧
    (∀ a L, T.lull = true → T.place = .saved a → T.thawing = none → s.launch T.launch = some L → L.stage = .active →
      (T.metAt ≠ none ∨ ∃ g w G, (g, w) ∈ T.lullWaits ∧ T.group g = some G ∧ s.waitOver T G w = true) →
      exec (.thaw T.uid) s = .next (s.putTeam { T with thawing := some (T.metAt.getD s.wallNs), metAt := none })) ∧
    (∀ a L c slots page T1 seqs backing, T.savedArea = some a → s.launch T.launch = some L → s.restoreTurn T = true →
      s.letsReturn T = true → s.oldRoom T c = some (slots, page) →
      s.backingFrom T.asid T.die c T.window T.pages = .ok backing → s.loadTeam T a slots s.nextUid = some (T1, seqs) →
      let T2 := s.returned T T1 c page backing
      (s.arraysAwaited T2 = true → exec (.teamRestore T.uid c) s = .next s) ∧
      (s.arraysAwaited T2 = false → ∃ t T', exec (.teamRestore T.uid c) s = .next t ∧ KeepsMemory s t ∧ (t.core T.die c).l1 = [] ∧ T1.uid = T.uid ∧
        t.team T.uid = some T' ∧ T'.core = c ∧ T'.page = page ∧ T'.backing = backing ∧ T'.place = .resident ∧
        T'.restoring = false ∧ T'.thawing = none ∧ T'.lull = false ∧ T'.frozen = T.frozen ∧
        T'.watch = T.watch ∧ T'.watchReported = T.watchReported)) ∧
    (let ended (since : Nat) : Bool := s.control.wdog ≠ 0 && decide (since + 1000 * s.control.wdog.toNat ≤ s.wallNs)
     let runs : Bool := match T.place with
       | .saving a => !a.stopped
       | _ => false
     let long : Bool := runs && ended T.saveSince
     let due : Prop := long = true ∨ ended T.watch = true
     let T1 : Team := if long then { T with saveSince := s.wallNs, watchReported := true }
       else { T with watch := s.wallNs, watchReported := true }
     let reported (s1 : State) (aux flags : Nat) : Out := report s1
       { kind := .watchdog, die := T.die, flags := flags, acc := 0, off := 0xFF, lane := 0xFF, group := 0xFF, core := 0xFFFF,
         team := T.num, asid := T.asid, launch := T.launch, time := s.wallNs, spc := 0xFFFFFFFF, lpc := 0xFFFFFFFF,
         point := pointWord T.point, aux := aux, addr := 0 }
     (¬ due → exec (.watchdogExpiry T.uid) s = .next s) ∧
     (due → T.place = .resident → T.frozen = false ∨ T.watchReported = false →
       exec (.watchdogExpiry T.uid) s = reported (s.putTeam T1) 0 (if T.frozen then 13 else 9) ∧
       (RecordHasRoom s T.asid → ∃ t, exec (.watchdogExpiry T.uid) s = .next t)) ∧
     (∀ a, due → T.place = .saving a → a.stopped = false → a.count < a.length →
       let T2 := { T1 with place := .saving { a with stopped := true }, frozen := true }
       let s1 := (s.writeHeader T2 a 1 a.count false).putTeam T2
       exec (.watchdogExpiry T.uid) s = reported s1 a.pa 13 ∧
       (RecordHasRoom s T.asid → ∃ t, exec (.watchdogExpiry T.uid) s = .next t) ∧
       (s.memWf = true → le (s1.bytesAt ⟨false, a.pa⟩ 256) 3 1 = 1 ∧
         le (s1.bytesAt ⟨false, a.pa⟩ 256) 12 4 = a.count % 2 ^ 32)) ∧
     (∀ a, T.place = .saving a → a.stopped = true → exec (.teamSave T.uid) s = .next s))) ∧
  (∀ (s : State) (L : Launch) (d : Nat) (T : Team) (s1 : State), s.launch L.id = some L → s.thawNeeds d = none →
    s.dispatches L = true → s.waited L d = true → s.firstThaw d = none →
    (((s.offer L d).isSome = true ∧
        (s.afterPreemptions d).dieRoom d L.header.budgets L.header.pages (decide (0 < L.header.arrays)) = false) ∨
      ∃ W ∈ s.teams, W.launch = L.id ∧ W.die = d ∧ W.restoring = true ∧ s.letsReturn W = true ∧
        (s.afterPreemptions d).dieRoom d W.budgets W.pages (!W.arrays.isEmpty) = false) →
    (s.teams.filter fun W => W.die = d && W.preemptable && s.mayPreempt W &&
      decide (s.teamPriority W < s.priority L.record.cls)) = [T] →
    s.preemptSet T = [T] → s.preemptOne T (preemptMode (s.header T) T) = some s1 →
    exec (.preemptionWaitExpiry L.id d) s = .next s1) ∧
  (∀ (s : State) (L : Launch) (d : Nat) (W T : Team) (s1 : State), s.launch L.id = some L → s.thawNeeds d = some W →
    W.launch = L.id →
    (s.teams.filter fun V => V.die = d && V.preemptable && s.mayPreempt V &&
      (decide (s.teamPriority V ≤ s.priority L.record.cls) && decide (W.lullAt < V.placedAt))) = [T] →
    s.preemptSet T = [T] → s.preemptOne T (preemptMode (s.header T) T) = some s1 →
    exec (.preemptionWaitExpiry L.id d) s = .next s1)

/-- The host's actions on one team that they name (R362, R369, R379, R388): each has its effect where the team meets
its condition, and is refused, with no other effect, where some team that it names does not; an action taken is being
carried out until its teams have come to rest (R388, log 33); cancelling discards a launch's teams. The model's own
choices here: log 29, 33, 34. -/
def Obligations.HostActionRows : Prop :=
  ∀ (s : State) (L : Launch) (T : Team), s.launch L.id = some L → s.team T.uid = some T →
    let name : TeamName := .one T.die T.num
    let takenAs (n : TeamName) (t : State) : Out := takenOn s t L.id n
    let acted := takenAs name
    let refused : Out := .next { s with control := { s.control with actRefused := true } }
    (s.teams.filter fun W => W.launch = L.id && W.die = T.die && W.num = T.num) = [T] →
    (L.stage = .active → T.frozen = true →
      (T.place = .resident →
        exec (.hostResume L.id name) s = acted { s.putTeam { T with
          frozen := false, watch := s.wallNs, saveSince := s.wallNs, watchReported := false,
          groups := T.groups.map (Group.goOn s.nextUid (s.header T).vol) } with nextUid := s.nextUid + 8 } ∧
        (∀ s1, s.stopFor T .host = some s1 → exec (.hostSave L.id name) s = acted s1) ∧
        (s.stopFor T .host = none → exec (.hostSave L.id name) s = refused) ∧
        exec (.hostDiscard L.id name) s = acted (s.discard T)) ∧
      (∀ a, T.place = .saved a →
        exec (.hostResume L.id name) s =
          acted (s.putTeam { T with
            frozen := false, restoring := true, watch := s.wallNs, saveSince := s.wallNs, watchReported := false }) ∧
        (a.reason = .host → a.pool = true → exec (.hostRestore L.id name) s = acted (s.putTeam { T with
          restoring := true, watch := s.wallNs, saveSince := s.wallNs, watchReported := false })))) ∧
    (∀ a, T.place = .saving a → a.stopped = true →
      exec (.hostRetry L.id name) s = acted (s.putTeam { T with
        place := .saving { a with stopped := false }, frozen := T.wasFrozen a, watch := s.wallNs, saveSince := s.wallNs,
        watchReported := false }) ∧
      (T.wasFrozen a = true ↔ a.reason = .host ∨ a.reason = .dump ∨ ∃ G ∈ T.groups, G.status = .faulted) ∧
      (let pa := s.control.act16.toNat
       pa % 256 = 0 → pa + a.length ≤ dramBytes →
       let kept := if a.pool then some (a.pa, up256 a.length) else a.kept
       exec (.hostDump L.id name) s = acted (s.putTeam { T with
         place := .saving { a with pa := pa, reason := .dump, count := 0, stopped := false, pool := false, kept := kept }, frozen := true,
         restoring := false, thawing := none, metAt := none, lull := false, lullWaits := [],
         watch := s.wallNs, saveSince := s.wallNs, watchReported := false }))) ∧
    (T.frozen = false → (∀ a, T.place ≠ .saving a) →
      ∀ i ∈ [Instr.hostResume L.id name, .hostSave L.id name, .hostRestore L.id name, .hostDiscard L.id name,
        .hostRetry L.id name, .hostDump L.id name], L.stage = .active → exec i s = refused) ∧
    (L.stage = .active → T.place = .resident → T.frozen = false → T.drain = none → T.ending = false → T.groups ≠ [] →
      T.cell = none → ∀ s1, s.preemptOne T (preemptMode (s.header T) T) = some s1 →
      exec (.hostPreempt L.id name false 0) s = acted s1) ∧
    (∀ n W, L.stage = .active → W ∈ s.named L.id n → W.frozen = false → (∀ a, W.place ≠ .saving a) →
      ∀ i ∈ [Instr.hostResume L.id n, .hostSave L.id n, .hostRestore L.id n, .hostDiscard L.id n, .hostRetry L.id n,
        .hostDump L.id n], exec i s = refused) ∧
    (L.stage = .active → exec (.hostCancelLaunch L.id) s = takenAs .all (s.cancel L)) ∧
    (L.stage = .completed → exec (.hostCancelLaunch L.id) s = refused) ∧
    (∀ (t : State) (n : TeamName), ∃ us, takenAs n t = .next { t with control :=
        { t.control with actRefused := false, acting := us } } ∧
      ∀ u, u ∈ us ↔ t.isMoving u = true ∧ (u ∈ t.control.acting ∨ (∃ W ∈ t.named L.id n, W.uid = u) ∨
        (s.isMoving u = false ∧ ∃ W ∈ t.teams, W.uid = u)))

/-- Writes of the control page: a legal value is stored, one that breaks its field's limits changes nothing, a commit
puts an entry in force or drops what it held, and a newly configured address space is out of deterministic mode (R332);
a read gives the fields of status, act, counts and the busy bits, of the tables the entries in force, and zero
elsewhere (R385, R417); the host's reads and writes of device memory meet the record window as R286 and poison as R418
say (R160, R293, R385 to R387, R417, R418). Core gating and channel requests (R345, R385, R392): granted when nothing
is pending there; a channel request is granted once no accepted add and no scan needs the channel, or refused and
counted after 1 ms. The model's own choices here: log 18, 19, 24, 30, 38, 50, 56. -/
def Obligations.HostControlRows : Prop :=
  ((∀ (s : State) (w : DWord),
    let set (f : Control → Control) : Out := .next { s with control := f s.control }
    (exec (.controlPageWrite 0x20 w) s = set fun c => { c with wdog := w }) ∧
    (exec (.controlPageWrite 0x30 w) s = set fun c => { c with poolsz := w }) ∧
    (exec (.controlPageWrite 0x28 w) s = if w.toNat % 256 = 0 then set fun c => { c with pool := w } else .next s) ∧
    (exec (.controlPageWrite 0x10 w) s =
      if w.toNat % 2 ^ 16 ≤ 65520 ∧ w.toNat / 2 ^ 24 = 0 then set fun c => { c with udp := w } else .next s) ∧
    (exec (.controlPageWrite 0x40 w) s = set fun c => { c with act := w, actRefused := false }) ∧
    (exec (.controlPageWrite 0 w) s = .next s) ∧ (∀ off, off % 8 ≠ 0 ∨ 0x1300 ≤ off → exec (.controlPageWrite off w) s = .next s) ∧
    (exec (.controlPageWrite 0x18 w) s = exec (.clockPinWrite w) s) ∧ (exec (.controlPageWrite 0x38 w) s = exec (.inval w) s) ∧
    (exec (.controlPageWrite 0x58 8) s = exec .pDieReset s) ∧
    (w.toNat < 8 → exec (.controlPageWrite 0x58 w) s = exec (.dieReset w.toNat) s) ∧
    ((∀ i, i < 8 → let p := w.toNat / 2 ^ (8 * i) % 256; p = 0 ∨ (7 ≤ p ∧ p ≤ 14)) → Config.pinsExceed w.toNat = false →
      exec (.clockPinWrite w) s = .next (s.repin w) ∧ (s.repin w).control = { s.control with pin := w }) ∧
    ((∃ i, i < 8 ∧ let p := w.toNat / 2 ^ (8 * i) % 256; p ≠ 0 ∧ (p < 7 ∨ 14 < p)) → exec (.clockPinWrite w) s = .next s) ∧
    (s.control.inval = none → exec (.inval w) s = .next { s.forget w with control := { s.control with inval := some w } }) ∧
    (s.control.inval = some w → s.underWay (w.toNat % 2 ^ 16) = false →
      exec (.inval w) s = .next (((s.forget w).remap (w.toNat % 2 ^ 16)).setInval none)) ∧
    (s.control.inval = some w → s.underWay (w.toNat % 2 ^ 16) = true → exec (.inval w) s = .next (s.forget w)) ∧
    (∀ i, i < 64 →
      let e := s.slot i
      let asid := w.toNat / 2 ^ 16 % 2 ^ 16
      let anew : Bool := w.getLsbD 11 && (!(e.word 0).getLsbD 11 || decide ((e.word 0).toNat / 2 ^ 16 % 2 ^ 16 ≠ asid))
      (asidEntryOk (e.merged w) = true → s.asidTaken i w = false →
        exec (.asidEntryCommit i w) s = .next ((if anew then { s with detMode := s.detMode.filter (· ≠ asid) } else s).putSlot i
          (e.commitAsid w))) ∧
      (asidEntryOk (e.merged w) = false ∨ s.asidTaken i w = true →
        exec (.asidEntryCommit i w) s = .next (s.putSlot i { e with held := e.held.map fun _ => none })) ∧
      (let fqc := field (e.word 3) 32 32
       let x := w.toNat / 2 ^ 32
       let e1 := e.setHalf 3 true (if (x + 2 ^ 32 - fqc) % 2 ^ 32 ≤ (field (e.word 4) 0 32 + 2 ^ 32 - fqc) % 2 ^ 32 then x else fqc)
       (w.toNat % 2 ^ 32 ≠ 0 → exec (.faultQueueConsumerWrite i w) s = .next (s.putSlot i e1)) ∧
       (w.toNat % 2 ^ 32 = 0 → exec (.faultQueueConsumerWrite i w) s = .next (s.putSlot i (e1.setHalf 3 false 0))))) ∧
    (∀ i, i < 16 →
      let e := s.classSlot i
      let ok := classEntryOk (e.merged w) && s.minimumsOk i (e.merged w)
      (ok = true → exec (.classEntryCommit i w) s =
        .next { s with classes := assocSet s.classes i ⟨e.merged w, e.held.map fun _ => none⟩ }) ∧
      (ok = false → exec (.classEntryCommit i w) s =
        .next { s with classes := assocSet s.classes i { e with held := e.held.map fun _ => none },
                       reports := s.reports ++ [.refusedWrite (0x1100 + 32 * i)] }))) ∧
  (∀ s : State,
    (∀ i, (s.controlRead 0 8).testBit i = if i < 8 then s.control.calibrated.getLsbD i
      else (i = 8 && s.control.trained) || (i = 9 && s.control.booted) || (i = 10 && s.control.noiseFailed)) ∧
    (∀ p ∈ [(8, s.control.window), (0x10, s.control.udp), (0x18, s.control.pin), (0x20, s.control.wdog), (0x28, s.control.pool),
      (0x30, s.control.poolsz)], s.controlRead p.1 8 = p.2.toNat) ∧
    (s.controlRead 0x38 8 = 1 ↔ s.control.inval ≠ none) ∧ (s.controlRead 0x60 8 = 1 ↔ ∃ c ∈ s.channels, c.pending ≠ none) ∧
    ((s.controlRead 0x40 8).testBit 0 = s.actBusy ∧ (s.controlRead 0x40 8).testBit 1 = s.control.actRefused) ∧
    s.controlRead 0x68 8 = s.control.drops.toNat + 2 ^ 32 * s.control.refusedPower.toNat ∧
    (∀ i k, i < 64 → k < 8 → s.controlRead (0x100 + 64 * i + 8 * k) 8 = ((s.slot i).word k).toNat ∧
      ∀ w, k ≠ 0 → k ≠ 3 → ∃ t, exec (.controlPageWrite (0x100 + 64 * i + 8 * k) w) s = .next t ∧
        ∀ off n, 0x100 ≤ off → t.controlRead off n = s.controlRead off n) ∧
    (∀ i k, i < 16 → k < 4 → s.controlRead (0x1100 + 32 * i + 8 * k) 8 = ((s.classSlot i).word k).toNat ∧
      ∀ w, k ≠ 0 → ∃ t, exec (.controlPageWrite (0x1100 + 32 * i + 8 * k) w) s = .next t ∧
        ∀ off n, 0x100 ≤ off → t.controlRead off n = s.controlRead off n) ∧
    ∀ off n, n ≠ 8 ∨ off % 8 ≠ 0 ∨ 0x1300 ≤ off ∨ off ∈ [0x48, 0x50, 0x58] → s.controlRead off n = 0) ∧
  (∀ (s : State) (off : Nat) (bs : List Byte),
    let x := s.control.window.toNat / 4096 * 4096
    s.control.window.getLsbD 0 = true →
    (bs.length = 64 → off % 64 = 0 → off < 4096 → exec (.hostMemWrite (x + off) bs) s = exec (.hostRecordSubmit off bs) s) ∧
    (bs ≠ [] → (off % 64 ≠ 0 ∨ bs.length ≠ 64) → off + bs.length ≤ 4096 →
      exec (.hostMemWrite (x + off) bs) s = .next (s.countRefusal 16 .malformed)) ∧
    (0 < off → off ≤ x → off < bs.length → bs.length ≤ off + 4096 →
      exec (.hostMemWrite (x - off) bs) s = .next ((s.hostWrite (x - off) (bs.take off)).countRefusal 16 .malformed)) ∧
    (∀ n, off + n ≤ 4096 → x + off + n ≤ dramBytes →
      exec (.hostMemRead (x + off) n) s = .next { s with hostRead := some (List.replicate n 0) })) ∧
  (∀ (s : State) (k : Nat) (bs : List Byte), s.control.window.getLsbD 0 = false → 64 * k + 64 ≤ dramBytes →
    (bs.length = 64 → exec (.hostMemWrite (64 * k) bs) s =
      .next { s with mem := s.mem.write (64 * k) bs, poison := s.poison.filter (· ≠ k) }) ∧
    (0 < bs.length → bs.length < 64 → (k ∈ s.poison → exec (.hostMemWrite (64 * k) bs) s = .next s) ∧
      (k ∉ s.poison → exec (.hostMemWrite (64 * k) bs) s = .next { s with mem := s.mem.write (64 * k) bs })) ∧
    (exec (.hostMemRead (64 * k) 64) s =
      .next { s with hostRead := if k ∈ s.poison then none else some (s.mem.read (64 * k) 64) }))) ∧
  (∀ (s : State) (n : Nat),
    (n < 640 → (s.idleCore n = true → exec (.gateCore n) s = .next { s with gated := insertNat s.gated n }) ∧
      (s.idleCore n = false → exec (.gateCore n) s = .next { s with
        reports := s.reports ++ [.power (BitVec.ofNat 64 (1 + 256 * n))],
        control := { s.control with refusedPower := s.control.refusedPower + 1 } })) ∧
    (exec (.ungateCore n) s = .next { s with gated := s.gated.filter (· ≠ n) }) ∧
    (n < 1024 →
      (exec (.channelDown n) s = .next (s.putChannel { s.channel n with pending := some (.down, s.wallNs) })) ∧
      (exec (.selfRefresh n) s = .next (s.putChannel { s.channel n with pending := some (.selfRefresh, s.wallNs) })) ∧
      (exec (.channelUp n) s = .next (s.putChannel ⟨n, .up, none⟩))) ∧
    (∀ x since, (s.channel n).pending = some (x, since) →
      (s.channelBusy n = false → s.wallNs < since + 1000000 → exec (.channelRequestGrant n) s =
        .next (s.putChannel { s.channel n with state := x, pending := none })) ∧
      (s.channelBusy n = true ∨ since + 1000000 ≤ s.wallNs → exec (.channelRequestGrant n) s = .next s) ∧
      (s.wallNs < since + 1000000 → exec (.channelRequestRefuse n) s = .next s) ∧
      (since + 1000000 ≤ s.wallNs → ∃ t, exec (.channelRequestRefuse n) s = .next t ∧
        t.control = { s.control with refusedPower := s.control.refusedPower + 1 } ∧ (t.channel n).state = (s.channel n).state ∧
        (t.channel n).pending = none ∧ t.reports.length = s.reports.length + 2)))

/-- Resets and bring-up: a die reset raises the die's generation, starts its cycles at 0, keeps its count of stale
messages and leaves no team of it; its messages on the fabric stay there (R356, R380, R381, log 31); a reset of die 8
ends every launch, clears the control page and starts launch ids at 0 (R382); a full reset leaves device memory as
after power-on (R391, log 3); training, calibration, boot, attestation, failures and checkpoints (R13, R30, R390 to
R394). The model's own choices here: log 3, 12, 18, 31, 32, 35, 36, 50. -/
def Obligations.ResetAndBringUpRows : Prop :=
  ∀ s : State,
    (∀ d, d < 8 → ∃ t, exec (.dieReset d) s = .next t ∧ (∀ T ∈ t.teams, T.die ≠ d) ∧
      t.gens = s.gens.set d (s.gens.getD d 0 + 1) ∧ (d < s.dies.length → (t.die d).clk = 0 ∧ (t.die d).stale = (s.die d).stale) ∧
      t.fabric = s.fabric ++ s.messagesOf d ∧
      (∀ C ∈ t.cores, C.die ≠ d) ∧ (∀ p ∈ t.puts, p.tag.die ≠ d) ∧ (∀ b ∈ t.blocks, b.tag.die ≠ d)) ∧
    (∃ t, exec .pDieReset s = .next t ∧ t.launches = [] ∧ t.teams = [] ∧ t.objects = [] ∧ t.puts = [] ∧ t.asids = [] ∧
      t.classes = [] ∧ t.peerOpens = [] ∧ t.opens = [] ∧ t.nextLaunch = 0 ∧ t.gens = s.gens.set 8 (s.gens.getD 8 0 + 1) ∧ t.mem = s.mem ∧
      t.control = { Control.reset with calibrated := s.control.calibrated, failed := s.control.failed,
                                       trained := s.control.trained, noiseFailed := s.control.noiseFailed }) ∧
    (∃ t, exec .fullReset s = .next t ∧ t.launches = [] ∧ t.teams = [] ∧ t.gens = List.replicate 9 0 ∧ t.nextLaunch = 0 ∧
      t.wallNs = 0 ∧ t.control = Control.reset ∧ (∀ d, d < 8 → (t.die d).mhz = 350 ∧ (t.die d).stale = 0) ∧
      t.mem = State.reset.mem ∧ t.poison = State.reset.poison ∧ t.slices = [] ∧ t.hostMem = s.hostMem) ∧
    (s.control.trained = false → ∃ t, exec .memoryTrained s = .next t ∧ t.control = { s.control with trained := true } ∧
      t.poison = [] ∧ t.hostMem = s.hostMem) ∧
    (∀ d, d < 8 → (exec (.dieCalibrated d false) s = .next { s with
        control := { s.control with failed := s.control.failed ||| BitVec.ofNat 8 (2 ^ d) },
        reports := s.reports ++ [.calibration d] }) ∧
      (s.control.failed.getLsbD d = true → exec (.dieCalibrated d true) s = .next s) ∧
      (s.control.failed.getLsbD d = false → ∃ t, exec (.dieCalibrated d true) s = .next t ∧ t.control.calibrated.getLsbD d = true ∧
        (∀ e, e ≠ d → t.control.calibrated.getLsbD e = s.control.calibrated.getLsbD e) ∧
        (d < s.dies.length →
          let p := s.control.pin.toNat / 2 ^ (8 * d) % 256
          (p = 0 → (t.die d).mhz = 700 ∧ t.reports = s.reports) ∧
          (p ≠ 0 → Config.pinsExceed s.control.pin.toNat = false → (t.die d).mhz = 50 * p ∧ t.reports = s.reports) ∧
          (p ≠ 0 → Config.pinsExceed s.control.pin.toNat = true → 350 ≤ (t.die d).mhz ∧ (t.die d).mhz ≤ max 350 (50 * p) ∧
            t.reports = s.reports ++ [.brokenPin d])))) ∧
    (∀ images : List FwImage,
      let good (i : FwImage) : Bool := Config.mldsaVerify i.image i.signature
      exec (.securityBoot images) s = .next { s with
        measurements := (images.takeWhile good).map fun i => Config.shake256 i.image,
        control := { s.control with booted := images.all good } }) ∧
    (∀ request, exec (.attestationRequest request) s = .next { s with
      attestation := s.measurements.flatten ++ Config.mldsaSign (request ++ s.measurements.flatten) }) ∧
    (∀ n, (exec (.noiseHealthFailure n) s =
        .next { s with control := { s.control with noiseFailed := true }, reports := s.reports ++ [.noise n] }) ∧
      (exec (.unitTestFailure n) s = .next { s with reports := s.reports ++ [.unit n] }) ∧
      (exec (.uncorrectableMemoryError n true) s = .next s) ∧
      (n < dramBytes → exec (.uncorrectableMemoryError n false) s =
        .next { s with poison := insertNat s.poison (n / 64), reports := s.reports ++ [.memory n] })) ∧
    (∀ p, (∀ last, s.checkpoint = some last → last ≤ s.wallNs) → exec (.checkpoint p) s =
      .next { s with safeTier := s.mem, checkpoint := some (s.wallNs + (if p then 1 else 7) * 1000000000) }) ∧
    (∀ p last, s.checkpoint = some last → s.wallNs < last → ∃ tier n, exec (.checkpoint p) s =
        .next { s with safeTier := tier, freeCtr := n } ∧
      (s.memWf = true → ∀ g, Memory.read tier (16 * g) 16 = s.safeTier.read (16 * g) 16 ∨
        Memory.read tier (16 * g) 16 = s.mem.read (16 * g) 16))
end

