-- ==== Sys2Proof/Laws/Exec.lean ====
section
/-! SUPPORT. Each arm of `exec`, as an equation: proofs unfold an instruction by these and never open the dispatch. -/
namespace Sys2Proof.Machine

@[simp] theorem exec_add d a b (s : State) : exec (.add d a b) s = execAdd d a b s := rfl
@[simp] theorem exec_sub d a b (s : State) : exec (.sub d a b) s = execSub d a b s := rfl
@[simp] theorem exec_mul d a b (s : State) : exec (.mul d a b) s = execMul d a b s := rfl
@[simp] theorem exec_mulh d a b (s : State) : exec (.mulh d a b) s = execMulh d a b s := rfl
@[simp] theorem exec_mulhn d a b (s : State) : exec (.mulhn d a b) s = execMulhn d a b s := rfl
@[simp] theorem exec_div d a b (s : State) : exec (.div d a b) s = execDiv d a b s := rfl
@[simp] theorem exec_divn d a b (s : State) : exec (.divn d a b) s = execDivn d a b s := rfl
@[simp] theorem exec_rem d a b (s : State) : exec (.rem d a b) s = execRem d a b s := rfl
@[simp] theorem exec_remn d a b (s : State) : exec (.remn d a b) s = execRemn d a b s := rfl
@[simp] theorem exec_and d a b (s : State) : exec (.and d a b) s = execAnd d a b s := rfl
@[simp] theorem exec_or d a b (s : State) : exec (.or d a b) s = execOr d a b s := rfl
@[simp] theorem exec_xor d a b (s : State) : exec (.xor d a b) s = execXor d a b s := rfl
@[simp] theorem exec_andn d a b (s : State) : exec (.andn d a b) s = execAndn d a b s := rfl
@[simp] theorem exec_shl d a b (s : State) : exec (.shl d a b) s = execShl d a b s := rfl
@[simp] theorem exec_shr d a b (s : State) : exec (.shr d a b) s = execShr d a b s := rfl
@[simp] theorem exec_sar d a b (s : State) : exec (.sar d a b) s = execSar d a b s := rfl
@[simp] theorem exec_min d a b (s : State) : exec (.min d a b) s = execMin d a b s := rfl
@[simp] theorem exec_max d a b (s : State) : exec (.max d a b) s = execMax d a b s := rfl
@[simp] theorem exec_minn d a b (s : State) : exec (.minn d a b) s = execMinn d a b s := rfl
@[simp] theorem exec_maxn d a b (s : State) : exec (.maxn d a b) s = execMaxn d a b s := rfl
@[simp] theorem exec_seq d a b (s : State) : exec (.seq d a b) s = execSeq d a b s := rfl
@[simp] theorem exec_sne d a b (s : State) : exec (.sne d a b) s = execSne d a b s := rfl
@[simp] theorem exec_slt d a b (s : State) : exec (.slt d a b) s = execSlt d a b s := rfl
@[simp] theorem exec_sltn d a b (s : State) : exec (.sltn d a b) s = execSltn d a b s := rfl
@[simp] theorem exec_clz d a (s : State) : exec (.clz d a) s = execClz d a s := rfl
@[simp] theorem exec_ctz d a (s : State) : exec (.ctz d a) s = execCtz d a s := rfl
@[simp] theorem exec_popc d a (s : State) : exec (.popc d a) s = execPopc d a s := rfl
@[simp] theorem exec_mov d a (s : State) : exec (.mov d a) s = execMov d a s := rfl
@[simp] theorem exec_sel d c a b (s : State) : exec (.sel d c a b) s = execSel d c a b s := rfl
@[simp] theorem exec_addi d a k (s : State) : exec (.addi d a k) s = execAddi d a k s := rfl
@[simp] theorem exec_andi d a k (s : State) : exec (.andi d a k) s = execAndi d a k s := rfl
@[simp] theorem exec_ori d a k (s : State) : exec (.ori d a k) s = execOri d a k s := rfl
@[simp] theorem exec_xori d a k (s : State) : exec (.xori d a k) s = execXori d a k s := rfl
@[simp] theorem exec_shli d a k (s : State) : exec (.shli d a k) s = execShli d a k s := rfl
@[simp] theorem exec_shri d a k (s : State) : exec (.shri d a k) s = execShri d a k s := rfl
@[simp] theorem exec_sari d a k (s : State) : exec (.sari d a k) s = execSari d a k s := rfl
@[simp] theorem exec_slti d a k (s : State) : exec (.slti d a k) s = execSlti d a k s := rfl
@[simp] theorem exec_sltni d a k (s : State) : exec (.sltni d a k) s = execSltni d a k s := rfl
@[simp] theorem exec_muli d a k (s : State) : exec (.muli d a k) s = execMuli d a k s := rfl
@[simp] theorem exec_li d k (s : State) : exec (.li d k) s = execLi d k s := rfl
@[simp] theorem exec_addpc d k (s : State) : exec (.addpc d k) s = execAddpc d k s := rfl
@[simp] theorem exec_br c a k (s : State) : exec (.br c a k) s = execBr c a k s := rfl
@[simp] theorem exec_brm c k (s : State) : exec (.brm c k) s = execBrm c k s := rfl
@[simp] theorem exec_jmp k (s : State) : exec (.jmp k) s = execJmp k s := rfl
@[simp] theorem exec_call k (s : State) : exec (.call k) s = execCall k s := rfl
@[simp] theorem exec_jr a (s : State) : exec (.jr a) s = execJr a s := rfl
@[simp] theorem exec_jrCall a (s : State) : exec (.jrCall a) s = execJrCall a s := rfl
@[simp] theorem exec_vrun k (s : State) : exec (.vrun k) s = execVrun k s := rfl
@[simp] theorem exec_vjmp a k (s : State) : exec (.vjmp a k) s = execVjmp a k s := rfl
@[simp] theorem exec_vset d a (s : State) : exec (.vset d a) s = execVset d a s := rfl
@[simp] theorem exec_vdrain (s : State) : exec (.vdrain) s = execVdrain s := rfl
@[simp] theorem exec_vdrainIss (s : State) : exec (.vdrainIss) s = execVdrainIss s := rfl
@[simp] theorem exec_mpredSet k (s : State) : exec (.mpredSet k) s = execMpredSet k s := rfl
@[simp] theorem exec_mpredAnd k (s : State) : exec (.mpredAnd k) s = execMpredAnd k s := rfl
@[simp] theorem exec_mpredAndn k (s : State) : exec (.mpredAndn k) s = execMpredAndn k s := rfl
@[simp] theorem exec_mpredOr k (s : State) : exec (.mpredOr k) s = execMpredOr k s := rfl
@[simp] theorem exec_mcount d (s : State) : exec (.mcount d) s = execMcount d s := rfl
@[simp] theorem exec_mcountFirst d (s : State) : exec (.mcountFirst d) s = execMcountFirst d s := rfl
@[simp] theorem exec_mcountLast d (s : State) : exec (.mcountLast d) s = execMcountLast d s := rfl
@[simp] theorem exec_ld d a k (s : State) : exec (.ld d a k) s = execLd d a k s := rfl
@[simp] theorem exec_ldw d a k (s : State) : exec (.ldw d a k) s = execLdw d a k s := rfl
@[simp] theorem exec_st d a k (s : State) : exec (.st d a k) s = execSt d a k s := rfl
@[simp] theorem exec_stw d a k (s : State) : exec (.stw d a k) s = execStw d a k s := rfl
@[simp] theorem exec_ldc d a k (s : State) : exec (.ldc d a k) s = execLdc d a k s := rfl
@[simp] theorem exec_amoLd d a ord sc (s : State) : exec (.amoLd d a ord sc) s = execAmoLd d a ord sc s := rfl
@[simp] theorem exec_amoSt a b ord sc (s : State) : exec (.amoSt a b ord sc) s = execAmoSt a b ord sc s := rfl
@[simp] theorem exec_amoSwap d a b ord sc (s : State) : exec (.amoSwap d a b ord sc) s = execAmoSwap d a b ord sc s := rfl
@[simp] theorem exec_amoCas d a b ord sc (s : State) : exec (.amoCas d a b ord sc) s = execAmoCas d a b ord sc s := rfl
@[simp] theorem exec_amoAdd d a b ord sc (s : State) : exec (.amoAdd d a b ord sc) s = execAmoAdd d a b ord sc s := rfl
@[simp] theorem exec_amoAnd d a b ord sc (s : State) : exec (.amoAnd d a b ord sc) s = execAmoAnd d a b ord sc s := rfl
@[simp] theorem exec_amoOr d a b ord sc (s : State) : exec (.amoOr d a b ord sc) s = execAmoOr d a b ord sc s := rfl
@[simp] theorem exec_amoXor d a b ord sc (s : State) : exec (.amoXor d a b ord sc) s = execAmoXor d a b ord sc s := rfl
@[simp] theorem exec_amoMin d a b ord sc (s : State) : exec (.amoMin d a b ord sc) s = execAmoMin d a b ord sc s := rfl
@[simp] theorem exec_amoMax d a b ord sc (s : State) : exec (.amoMax d a b ord sc) s = execAmoMax d a b ord sc s := rfl
@[simp] theorem exec_amoMinn d a b ord sc (s : State) : exec (.amoMinn d a b ord sc) s = execAmoMinn d a b ord sc s := rfl
@[simp] theorem exec_amoMaxn d a b ord sc (s : State) : exec (.amoMaxn d a b ord sc) s = execAmoMaxn d a b ord sc s := rfl
@[simp] theorem exec_fenceAcq sc (s : State) : exec (.fenceAcq sc) s = execFenceAcq sc s := rfl
@[simp] theorem exec_fenceRel sc (s : State) : exec (.fenceRel sc) s = execFenceRel sc s := rfl
@[simp] theorem exec_fenceFull sc (s : State) : exec (.fenceFull sc) s = execFenceFull sc s := rfl
@[simp] theorem exec_fenceQ sc (s : State) : exec (.fenceQ sc) s = execFenceQ sc s := rfl
@[simp] theorem exec_bar b (s : State) : exec (.bar b) s = execBar b s := rfl
@[simp] theorem exec_dbar (s : State) : exec (.dbar) s = execDbar s := rfl
@[simp] theorem exec_await c d a v sc (s : State) : exec (.await c d a v sc) s = execAwait c d a v sc s := rfl
@[simp] theorem exec_cjoin d id (s : State) : exec (.cjoin d id) s = execCjoin d id s := rfl
@[simp] theorem exec_cjoinR d a (s : State) : exec (.cjoinR d a) s = execCjoinR d a s := rfl
@[simp] theorem exec_cleave (s : State) : exec (.cleave) s = execCleave s := rfl
@[simp] theorem exec_yield (s : State) : exec (.yield) s = execYield s := rfl
@[simp] theorem exec_cpy f a b dd after skind dkind q (s : State) : exec (.cpy f a b dd after skind dkind q) s = execCpy f a b dd after skind dkind q s := rfl
@[simp] theorem exec_qfence q (s : State) : exec (.qfence q) s = execQfence q s := rfl
@[simp] theorem exec_qwait d dd q n (s : State) : exec (.qwait d dd q n) s = execQwait d dd q n s := rfl
@[simp] theorem exec_mclose d (s : State) : exec (.mclose d) s = execMclose d s := rfl
@[simp] theorem exec_mwait n (s : State) : exec (.mwait n) s = execMwait n s := rfl
@[simp] theorem exec_mwaitR a (s : State) : exec (.mwaitR a) s = execMwaitR a s := rfl
@[simp] theorem exec_mwaitAll (s : State) : exec (.mwaitAll) s = execMwaitAll s := rfl
@[simp] theorem exec_amodeSt j n (s : State) : exec (.amodeSt j n) s = execAmodeSt j n s := rfl
@[simp] theorem exec_amodeCmp j n (s : State) : exec (.amodeCmp j n) s = execAmodeCmp j n s := rfl
@[simp] theorem exec_tbind d a (s : State) : exec (.tbind d a) s = execTbind d a s := rfl
@[simp] theorem exec_tmap k (s : State) : exec (.tmap k) s = execTmap k s := rfl
@[simp] theorem exec_launch d a (s : State) : exec (.launch d a) s = execLaunch d a s := rfl
@[simp] theorem exec_flaunch d a b (s : State) : exec (.flaunch d a b) s = execFlaunch d a b s := rfl
@[simp] theorem exec_fpost d (s : State) : exec (.fpost d) s = execFpost d s := rfl
@[simp] theorem exec_dredOpen d a (s : State) : exec (.dredOpen d a) s = execDredOpen d a s := rfl
@[simp] theorem exec_dredPut a b (s : State) : exec (.dredPut a b) s = execDredPut a b s := rfl
@[simp] theorem exec_dredClose d a (s : State) : exec (.dredClose d a) s = execDredClose d a s := rfl
@[simp] theorem exec_dredWait (s : State) : exec (.dredWait) s = execDredWait s := rfl
@[simp] theorem exec_dtake d a b (s : State) : exec (.dtake d a b) s = execDtake d a b s := rfl
@[simp] theorem exec_dtakeCorr d a b (s : State) : exec (.dtakeCorr d a b) s = execDtakeCorr d a b s := rfl
@[simp] theorem exec_cblk a n (s : State) : exec (.cblk a n) s = execCblk a n s := rfl
@[simp] theorem exec_cblkR d a (s : State) : exec (.cblkR d a) s = execCblkR d a s := rfl
@[simp] theorem exec_cblkWait d n (s : State) : exec (.cblkWait d n) s = execCblkWait d n s := rfl
@[simp] theorem exec_trap n (s : State) : exec (.trap n) s = execTrap n s := rfl
@[simp] theorem exec_brk n (s : State) : exec (.brk n) s = execBrk n s := rfl
@[simp] theorem exec_exit (s : State) : exec (.exit) s = execExit s := rfl
@[simp] theorem exec_csrr d c (s : State) : exec (.csrr d c) s = execCsrr d c s := rfl
@[simp] theorem exec_csrw c a (s : State) : exec (.csrw c a) s = execCsrw c a s := rfl
@[simp] theorem exec_clock d (s : State) : exec (.clock d) s = execClock d s := rfl
@[simp] theorem exec_noise d (s : State) : exec (.noise d) s = execNoise d s := rfl
@[simp] theorem exec_noise2 d (s : State) : exec (.noise2 d) s = execNoise2 d s := rfl
@[simp] theorem exec_pfx p (s : State) : exec (.pfx p) s = execPfx p s := rfl
@[simp] theorem exec_vNop f (s : State) : exec (.vNop f) s = execVNop f s := rfl
@[simp] theorem exec_vAdd f (s : State) : exec (.vAdd f) s = execVAdd f s := rfl
@[simp] theorem exec_vSub f (s : State) : exec (.vSub f) s = execVSub f s := rfl
@[simp] theorem exec_vMul f (s : State) : exec (.vMul f) s = execVMul f s := rfl
@[simp] theorem exec_vMulh f (s : State) : exec (.vMulh f) s = execVMulh f s := rfl
@[simp] theorem exec_vMad f (s : State) : exec (.vMad f) s = execVMad f s := rfl
@[simp] theorem exec_vAddc f (s : State) : exec (.vAddc f) s = execVAddc f s := rfl
@[simp] theorem exec_vSubb f (s : State) : exec (.vSubb f) s = execVSubb f s := rfl
@[simp] theorem exec_vMin f (s : State) : exec (.vMin f) s = execVMin f s := rfl
@[simp] theorem exec_vMax f (s : State) : exec (.vMax f) s = execVMax f s := rfl
@[simp] theorem exec_vAbs f (s : State) : exec (.vAbs f) s = execVAbs f s := rfl
@[simp] theorem exec_vNeg f (s : State) : exec (.vNeg f) s = execVNeg f s := rfl
@[simp] theorem exec_vAnd f (s : State) : exec (.vAnd f) s = execVAnd f s := rfl
@[simp] theorem exec_vOr f (s : State) : exec (.vOr f) s = execVOr f s := rfl
@[simp] theorem exec_vXor f (s : State) : exec (.vXor f) s = execVXor f s := rfl
@[simp] theorem exec_vNot f (s : State) : exec (.vNot f) s = execVNot f s := rfl
@[simp] theorem exec_vAndn f (s : State) : exec (.vAndn f) s = execVAndn f s := rfl
@[simp] theorem exec_vShl f (s : State) : exec (.vShl f) s = execVShl f s := rfl
@[simp] theorem exec_vShr f (s : State) : exec (.vShr f) s = execVShr f s := rfl
@[simp] theorem exec_vSar f (s : State) : exec (.vSar f) s = execVSar f s := rfl
@[simp] theorem exec_vBfe f (s : State) : exec (.vBfe f) s = execVBfe f s := rfl
@[simp] theorem exec_vBfi f (s : State) : exec (.vBfi f) s = execVBfi f s := rfl
@[simp] theorem exec_vPopc f (s : State) : exec (.vPopc f) s = execVPopc f s := rfl
@[simp] theorem exec_vClz f (s : State) : exec (.vClz f) s = execVClz f s := rfl
@[simp] theorem exec_vBrev f (s : State) : exec (.vBrev f) s = execVBrev f s := rfl
@[simp] theorem exec_vSad f (s : State) : exec (.vSad f) s = execVSad f s := rfl
@[simp] theorem exec_vFadd f (s : State) : exec (.vFadd f) s = execVFadd f s := rfl
@[simp] theorem exec_vFsub f (s : State) : exec (.vFsub f) s = execVFsub f s := rfl
@[simp] theorem exec_vFmul f (s : State) : exec (.vFmul f) s = execVFmul f s := rfl
@[simp] theorem exec_vFma f (s : State) : exec (.vFma f) s = execVFma f s := rfl
@[simp] theorem exec_vFms f (s : State) : exec (.vFms f) s = execVFms f s := rfl
@[simp] theorem exec_vFmin f (s : State) : exec (.vFmin f) s = execVFmin f s := rfl
@[simp] theorem exec_vFmax f (s : State) : exec (.vFmax f) s = execVFmax f s := rfl
@[simp] theorem exec_vFrcp f (s : State) : exec (.vFrcp f) s = execVFrcp f s := rfl
@[simp] theorem exec_vFrsq f (s : State) : exec (.vFrsq f) s = execVFrsq f s := rfl
@[simp] theorem exec_vFsqrt f (s : State) : exec (.vFsqrt f) s = execVFsqrt f s := rfl
@[simp] theorem exec_vFexp2 f (s : State) : exec (.vFexp2 f) s = execVFexp2 f s := rfl
@[simp] theorem exec_vFlog2 f (s : State) : exec (.vFlog2 f) s = execVFlog2 f s := rfl
@[simp] theorem exec_vFsin f (s : State) : exec (.vFsin f) s = execVFsin f s := rfl
@[simp] theorem exec_vFcos f (s : State) : exec (.vFcos f) s = execVFcos f s := rfl
@[simp] theorem exec_vFdivs f (s : State) : exec (.vFdivs f) s = execVFdivs f s := rfl
@[simp] theorem exec_vFfloor f (s : State) : exec (.vFfloor f) s = execVFfloor f s := rfl
@[simp] theorem exec_vFceil f (s : State) : exec (.vFceil f) s = execVFceil f s := rfl
@[simp] theorem exec_vFtrunc f (s : State) : exec (.vFtrunc f) s = execVFtrunc f s := rfl
@[simp] theorem exec_vFround f (s : State) : exec (.vFround f) s = execVFround f s := rfl
@[simp] theorem exec_vFclass f (s : State) : exec (.vFclass f) s = execVFclass f s := rfl
@[simp] theorem exec_vFscale f (s : State) : exec (.vFscale f) s = execVFscale f s := rfl
@[simp] theorem exec_vFfrac f (s : State) : exec (.vFfrac f) s = execVFfrac f s := rfl
@[simp] theorem exec_vCmp f (s : State) : exec (.vCmp f) s = execVCmp f s := rfl
@[simp] theorem exec_vFcmp f (s : State) : exec (.vFcmp f) s = execVFcmp f s := rfl
@[simp] theorem exec_vSel f (s : State) : exec (.vSel f) s = execVSel f s := rfl
@[simp] theorem exec_vPand f (s : State) : exec (.vPand f) s = execVPand f s := rfl
@[simp] theorem exec_vPor f (s : State) : exec (.vPor f) s = execVPor f s := rfl
@[simp] theorem exec_vPxor f (s : State) : exec (.vPxor f) s = execVPxor f s := rfl
@[simp] theorem exec_vPnot f (s : State) : exec (.vPnot f) s = execVPnot f s := rfl
@[simp] theorem exec_vPmov f (s : State) : exec (.vPmov f) s = execVPmov f s := rfl
@[simp] theorem exec_vPmovToVector f (s : State) : exec (.vPmovToVector f) s = execVPmovToVector f s := rfl
@[simp] theorem exec_vPmovPredCopy f (s : State) : exec (.vPmovPredCopy f) s = execVPmovPredCopy f s := rfl
@[simp] theorem exec_vMov f (s : State) : exec (.vMov f) s = execVMov f s := rfl
@[simp] theorem exec_vMovsFirst f (s : State) : exec (.vMovsFirst f) s = execVMovsFirst f s := rfl
@[simp] theorem exec_vMovsLast f (s : State) : exec (.vMovsLast f) s = execVMovsLast f s := rfl
@[simp] theorem exec_vMovsAt f (s : State) : exec (.vMovsAt f) s = execVMovsAt f s := rfl
@[simp] theorem exec_vBallot f (s : State) : exec (.vBallot f) s = execVBallot f s := rfl
@[simp] theorem exec_vCvt f (s : State) : exec (.vCvt f) s = execVCvt f s := rfl
@[simp] theorem exec_vPack f (s : State) : exec (.vPack f) s = execVPack f s := rfl
@[simp] theorem exec_vUnpack f (s : State) : exec (.vUnpack f) s = execVUnpack f s := rfl
@[simp] theorem exec_vBscale f (s : State) : exec (.vBscale f) s = execVBscale f s := rfl
@[simp] theorem exec_vQnt f (s : State) : exec (.vQnt f) s = execVQnt f s := rfl
@[simp] theorem exec_vDqnt f (s : State) : exec (.vDqnt f) s = execVDqnt f s := rfl
@[simp] theorem exec_vQerr f (s : State) : exec (.vQerr f) s = execVQerr f s := rfl
@[simp] theorem exec_vHrot f (s : State) : exec (.vHrot f) s = execVHrot f s := rfl
@[simp] theorem exec_vOsplit f (s : State) : exec (.vOsplit f) s = execVOsplit f s := rfl
@[simp] theorem exec_vRand f (s : State) : exec (.vRand f) s = execVRand f s := rfl
@[simp] theorem exec_vQswap f (s : State) : exec (.vQswap f) s = execVQswap f s := rfl
@[simp] theorem exec_vQbcast f (s : State) : exec (.vQbcast f) s = execVQbcast f s := rfl
@[simp] theorem exec_vQred f (s : State) : exec (.vQred f) s = execVQred f s := rfl
@[simp] theorem exec_vShfl f (s : State) : exec (.vShfl f) s = execVShfl f s := rfl
@[simp] theorem exec_vPush f (s : State) : exec (.vPush f) s = execVPush f s := rfl
@[simp] theorem exec_vBcast f (s : State) : exec (.vBcast f) s = execVBcast f s := rfl
@[simp] theorem exec_vRed f (s : State) : exec (.vRed f) s = execVRed f s := rfl
@[simp] theorem exec_vScan f (s : State) : exec (.vScan f) s = execVScan f s := rfl
@[simp] theorem exec_vMatch f (s : State) : exec (.vMatch f) s = execVMatch f s := rfl
@[simp] theorem exec_vVote f (s : State) : exec (.vVote f) s = execVVote f s := rfl
@[simp] theorem exec_vLd f (s : State) : exec (.vLd f) s = execVLd f s := rfl
@[simp] theorem exec_vSt f (s : State) : exec (.vSt f) s = execVSt f s := rfl
@[simp] theorem exec_vLds f (s : State) : exec (.vLds f) s = execVLds f s := rfl
@[simp] theorem exec_vSts f (s : State) : exec (.vSts f) s = execVSts f s := rfl
@[simp] theorem exec_vLdfe f (s : State) : exec (.vLdfe f) s = execVLdfe f s := rfl
@[simp] theorem exec_vStfe f (s : State) : exec (.vStfe f) s = execVStfe f s := rfl
@[simp] theorem exec_vAtom f (s : State) : exec (.vAtom f) s = execVAtom f s := rfl
@[simp] theorem exec_vAtomr f (s : State) : exec (.vAtomr f) s = execVAtomr f s := rfl
@[simp] theorem exec_vBadd f (s : State) : exec (.vBadd f) s = execVBadd f s := rfl
@[simp] theorem exec_vAmm f (s : State) : exec (.vAmm f) s = execVAmm f s := rfl
@[simp] theorem exec_vAmw f (s : State) : exec (.vAmw f) s = execVAmw f s := rfl
@[simp] theorem exec_vAccmov f (s : State) : exec (.vAccmov f) s = execVAccmov f s := rfl
@[simp] theorem exec_vAccld f (s : State) : exec (.vAccld f) s = execVAccld f s := rfl
@[simp] theorem exec_vAccclr f (s : State) : exec (.vAccclr f) s = execVAccclr f s := rfl
@[simp] theorem exec_vAccscl f (s : State) : exec (.vAccscl f) s = execVAccscl f s := rfl
@[simp] theorem exec_vMma f (s : State) : exec (.vMma f) s = execVMma f s := rfl
@[simp] theorem exec_vMmac f (s : State) : exec (.vMmac f) s = execVMmac f s := rfl
@[simp] theorem exec_fusedRun n (s : State) : exec (.fusedRun n) s = execFusedRun n s := rfl
@[simp] theorem exec_laneResultWriteback t g (s : State) : exec (.laneResultWriteback t g) s = execLaneResultWriteback t g s := rfl
@[simp] theorem exec_waitComplete t g (s : State) : exec (.waitComplete t g) s = execWaitComplete t g s := rfl
@[simp] theorem exec_awaitPoll t g (s : State) : exec (.awaitPoll t g) s = execAwaitPoll t g s := rfl
@[simp] theorem exec_memoryResponse t g (s : State) : exec (.memoryResponse t g) s = execMemoryResponse t g s := rfl
@[simp] theorem exec_requestRepresent t g (s : State) : exec (.requestRepresent t g) s = execRequestRepresent t g s := rfl
@[simp] theorem exec_pageWalk die core asid va (s : State) : exec (.pageWalk die core asid va) s = execPageWalk die core asid va s := rfl
@[simp] theorem exec_homeSliceRequest t g (s : State) : exec (.homeSliceRequest t g) s = execHomeSliceRequest t g s := rfl
@[simp] theorem exec_fabricMessageReceive receiver sender gen response (s : State) : exec (.fabricMessageReceive receiver sender gen response) s = execFabricMessageReceive receiver sender gen response s := rfl
@[simp] theorem exec_copyEntryStart q (s : State) : exec (.copyEntryStart q) s = execCopyEntryStart q s := rfl
@[simp] theorem exec_copyStep q (s : State) : exec (.copyStep q) s = execCopyStep q s := rfl
@[simp] theorem exec_copyComplete q (s : State) : exec (.copyComplete q) s = execCopyComplete q s := rfl
@[simp] theorem exec_arrayModeSwitchComplete t arr (s : State) : exec (.arrayModeSwitchComplete t arr) s = execArrayModeSwitchComplete t arr s := rfl
@[simp] theorem exec_arrayPassStart t g (s : State) : exec (.arrayPassStart t g) s = execArrayPassStart t g s := rfl
@[simp] theorem exec_arrayPassComplete t g (s : State) : exec (.arrayPassComplete t g) s = execArrayPassComplete t g s := rfl
@[simp] theorem exec_digitalMatrixStart t g (s : State) : exec (.digitalMatrixStart t g) s = execDigitalMatrixStart t g s := rfl
@[simp] theorem exec_digitalMatrixComplete t g (s : State) : exec (.digitalMatrixComplete t g) s = execDigitalMatrixComplete t g s := rfl
@[simp] theorem exec_accEntryPerform t g (s : State) : exec (.accEntryPerform t g) s = execAccEntryPerform t g s := rfl
@[simp] theorem exec_stackBlockStart id (s : State) : exec (.stackBlockStart id) s = execStackBlockStart id s := rfl
@[simp] theorem exec_scan id (s : State) : exec (.scan id) s = execScan id s := rfl
@[simp] theorem exec_addv id (s : State) : exec (.addv id) s = execAddv id s := rfl
@[simp] theorem exec_flush id (s : State) : exec (.flush id) s = execFlush id s := rfl
@[simp] theorem exec_mode id (s : State) : exec (.mode id) s = execMode id s := rfl
@[simp] theorem exec_stackBlockComplete id (s : State) : exec (.stackBlockComplete id) s = execStackBlockComplete id s := rfl
@[simp] theorem exec_bankAddAccept k (s : State) : exec (.bankAddAccept k) s = execBankAddAccept k s := rfl
@[simp] theorem exec_bankAddApply k (s : State) : exec (.bankAddApply k) s = execBankAddApply k s := rfl
@[simp] theorem exec_contributionArrival id (s : State) : exec (.contributionArrival id) s = execContributionArrival id s := rfl
@[simp] theorem exec_deadlineExpiry launch obj (s : State) : exec (.deadlineExpiry launch obj) s = execDeadlineExpiry launch obj s := rfl
@[simp] theorem exec_correctionWindowEnd launch obj (s : State) : exec (.correctionWindowEnd launch obj) s = execCorrectionWindowEnd launch obj s := rfl
@[simp] theorem exec_peerContribution launch obj idx frame (s : State) : exec (.peerContribution launch obj idx frame) s = execPeerContribution launch obj idx frame s := rfl
@[simp] theorem exec_peerResult launch obj corr desc r m (s : State) : exec (.peerResult launch obj corr desc r m) s = execPeerResult launch obj corr desc r m s := rfl
@[simp] theorem exec_hostRecordSubmit offset bytes (s : State) : exec (.hostRecordSubmit offset bytes) s = execHostRecordSubmit offset bytes s := rfl
@[simp] theorem exec_recordDatagram port udpPort payload (s : State) : exec (.recordDatagram port udpPort payload) s = execRecordDatagram port udpPort payload s := rfl
@[simp] theorem exec_frontStoreReserve launch (s : State) : exec (.frontStoreReserve launch) s = execFrontStoreReserve launch s := rfl
@[simp] theorem exec_teamPlacement launch die core (s : State) : exec (.teamPlacement launch die core) s = execTeamPlacement launch die core s := rfl
@[simp] theorem exec_frontPointFire launch line inner (s : State) : exec (.frontPointFire launch line inner) s = execFrontPointFire launch line inner s := rfl
@[simp] theorem exec_teamEnd t (s : State) : exec (.teamEnd t) s = execTeamEnd t s := rfl
@[simp] theorem exec_launchCompletion launch (s : State) : exec (.launchCompletion launch) s = execLaunchCompletion launch s := rfl
@[simp] theorem exec_handoff launch (s : State) : exec (.handoff launch) s = execHandoff launch s := rfl
@[simp] theorem exec_successorRelease launch (s : State) : exec (.successorRelease launch) s = execSuccessorRelease launch s := rfl
@[simp] theorem exec_energyWindow die budget (s : State) : exec (.energyWindow die budget) s = execEnergyWindow die budget s := rfl
@[simp] theorem exec_preemptionWaitExpiry launch die (s : State) : exec (.preemptionWaitExpiry launch die) s = execPreemptionWaitExpiry launch die s := rfl
@[simp] theorem exec_teamSave t (s : State) : exec (.teamSave t) s = execTeamSave t s := rfl
@[simp] theorem exec_drainTimeout t (s : State) : exec (.drainTimeout t) s = execDrainTimeout t s := rfl
@[simp] theorem exec_lullThresholdExpiry t g (s : State) : exec (.lullThresholdExpiry t g) s = execLullThresholdExpiry t g s := rfl
@[simp] theorem exec_lullEntry t (s : State) : exec (.lullEntry t) s = execLullEntry t s := rfl
@[simp] theorem exec_thaw t (s : State) : exec (.thaw t) s = execThaw t s := rfl
@[simp] theorem exec_teamRestore t core (s : State) : exec (.teamRestore t core) s = execTeamRestore t core s := rfl
@[simp] theorem exec_watchdogExpiry t (s : State) : exec (.watchdogExpiry t) s = execWatchdogExpiry t s := rfl
@[simp] theorem exec_hostResume launch team (s : State) : exec (.hostResume launch team) s = execHostResume launch team s := rfl
@[simp] theorem exec_hostSave launch team (s : State) : exec (.hostSave launch team) s = execHostSave launch team s := rfl
@[simp] theorem exec_hostDiscard launch team (s : State) : exec (.hostDiscard launch team) s = execHostDiscard launch team s := rfl
@[simp] theorem exec_hostCancelLaunch launch (s : State) : exec (.hostCancelLaunch launch) s = execHostCancelLaunch launch s := rfl
@[simp] theorem exec_hostRetry launch team (s : State) : exec (.hostRetry launch team) s = execHostRetry launch team s := rfl
@[simp] theorem exec_hostDump launch team (s : State) : exec (.hostDump launch team) s = execHostDump launch team s := rfl
@[simp] theorem exec_hostPreempt launch team expert mode (s : State) : exec (.hostPreempt launch team expert mode) s = execHostPreempt launch team expert mode s := rfl
@[simp] theorem exec_hostRestore launch team (s : State) : exec (.hostRestore launch team) s = execHostRestore launch team s := rfl
@[simp] theorem exec_inval w (s : State) : exec (.inval w) s = execInval w s := rfl
@[simp] theorem exec_clockPinWrite w (s : State) : exec (.clockPinWrite w) s = execClockPinWrite w s := rfl
@[simp] theorem exec_asidEntryCommit slot w (s : State) : exec (.asidEntryCommit slot w) s = execAsidEntryCommit slot w s := rfl
@[simp] theorem exec_classEntryCommit slot w (s : State) : exec (.classEntryCommit slot w) s = execClassEntryCommit slot w s := rfl
@[simp] theorem exec_faultQueueConsumerWrite slot w (s : State) : exec (.faultQueueConsumerWrite slot w) s = execFaultQueueConsumerWrite slot w s := rfl
@[simp] theorem exec_controlPageWrite off w (s : State) : exec (.controlPageWrite off w) s = execControlPageWrite off w s := rfl
@[simp] theorem exec_dieReset die (s : State) : exec (.dieReset die) s = execDieReset die s := rfl
@[simp] theorem exec_pDieReset (s : State) : exec (.pDieReset) s = execPDieReset s := rfl
@[simp] theorem exec_gateCore core (s : State) : exec (.gateCore core) s = execGateCore core s := rfl
@[simp] theorem exec_ungateCore core (s : State) : exec (.ungateCore core) s = execUngateCore core s := rfl
@[simp] theorem exec_channelDown ch (s : State) : exec (.channelDown ch) s = execChannelDown ch s := rfl
@[simp] theorem exec_selfRefresh ch (s : State) : exec (.selfRefresh ch) s = execSelfRefresh ch s := rfl
@[simp] theorem exec_channelUp ch (s : State) : exec (.channelUp ch) s = execChannelUp ch s := rfl
@[simp] theorem exec_channelRequestGrant ch (s : State) : exec (.channelRequestGrant ch) s = execChannelRequestGrant ch s := rfl
@[simp] theorem exec_channelRequestRefuse ch (s : State) : exec (.channelRequestRefuse ch) s = execChannelRequestRefuse ch s := rfl
@[simp] theorem exec_hostMemWrite pa bytes (s : State) : exec (.hostMemWrite pa bytes) s = execHostMemWrite pa bytes s := rfl
@[simp] theorem exec_hostMemRead pa n (s : State) : exec (.hostMemRead pa n) s = execHostMemRead pa n s := rfl
@[simp] theorem exec_fullReset (s : State) : exec (.fullReset) s = execFullReset s := rfl
@[simp] theorem exec_memoryTrained (s : State) : exec (.memoryTrained) s = execMemoryTrained s := rfl
@[simp] theorem exec_dieCalibrated die passed (s : State) : exec (.dieCalibrated die passed) s = execDieCalibrated die passed s := rfl
@[simp] theorem exec_securityBoot images (s : State) : exec (.securityBoot images) s = execSecurityBoot images s := rfl
@[simp] theorem exec_attestationRequest request (s : State) : exec (.attestationRequest request) s = execAttestationRequest request s := rfl
@[simp] theorem exec_noiseHealthFailure core (s : State) : exec (.noiseHealthFailure core) s = execNoiseHealthFailure core s := rfl
@[simp] theorem exec_unitTestFailure unit (s : State) : exec (.unitTestFailure unit) s = execUnitTestFailure unit s := rfl
@[simp] theorem exec_illegalEncodingScalarWord w (s : State) : exec (.illegalEncodingScalarWord w) s = execIllegalEncodingScalarWord w s := rfl
@[simp] theorem exec_illegalEncodingLaneWord w (s : State) : exec (.illegalEncodingLaneWord w) s = execIllegalEncodingLaneWord w s := rfl
@[simp] theorem exec_instructionFetchFault f (s : State) : exec (.instructionFetchFault f) s = execInstructionFetchFault f s := rfl
@[simp] theorem exec_uncorrectableMemoryError pa correctable (s : State) : exec (.uncorrectableMemoryError pa correctable) s = execUncorrectableMemoryError pa correctable s := rfl
@[simp] theorem exec_checkpoint ports (s : State) : exec (.checkpoint ports) s = execCheckpoint ports s := rfl

end Sys2Proof.Machine
end

