-- ==== Sys2Proof/Laws/State.lean ====
section
/-! SUPPORT. What each named update of the state, of a team and of a group leaves alone: one lemma a field an update. -/
namespace Sys2Proof.Machine

/-! ## Updates of the state -/

@[simp] theorem State.putTeam_agenda (s : State) (T : Team) : (s.putTeam T).agenda = s.agenda := rfl
@[simp] theorem State.putTeam_cur (s : State) (T : Team) : (s.putTeam T).cur = s.cur := rfl
@[simp] theorem State.putTeam_beat (s : State) (T : Team) : (s.putTeam T).beat = s.beat := rfl
@[simp] theorem State.putTeam_freeCtr (s : State) (T : Team) : (s.putTeam T).freeCtr = s.freeCtr := rfl
@[simp] theorem State.putTeam_nextUid (s : State) (T : Team) : (s.putTeam T).nextUid = s.nextUid := rfl
@[simp] theorem State.putTeam_wallNs (s : State) (T : Team) : (s.putTeam T).wallNs = s.wallNs := rfl
@[simp] theorem State.putTeam_mem (s : State) (T : Team) : (s.putTeam T).mem = s.mem := rfl
@[simp] theorem State.putTeam_hostMem (s : State) (T : Team) : (s.putTeam T).hostMem = s.hostMem := rfl
@[simp] theorem State.putTeam_safeTier (s : State) (T : Team) : (s.putTeam T).safeTier = s.safeTier := rfl
@[simp] theorem State.putTeam_checkpoint (s : State) (T : Team) : (s.putTeam T).checkpoint = s.checkpoint := rfl
@[simp] theorem State.putTeam_overwritten (s : State) (T : Team) : (s.putTeam T).overwritten = s.overwritten := rfl
@[simp] theorem State.putTeam_poison (s : State) (T : Team) : (s.putTeam T).poison = s.poison := rfl
@[simp] theorem State.putTeam_hostPoison (s : State) (T : Team) : (s.putTeam T).hostPoison = s.hostPoison := rfl
@[simp] theorem State.putTeam_control (s : State) (T : Team) : (s.putTeam T).control = s.control := rfl
@[simp] theorem State.putTeam_asids (s : State) (T : Team) : (s.putTeam T).asids = s.asids := rfl
@[simp] theorem State.putTeam_classes (s : State) (T : Team) : (s.putTeam T).classes = s.classes := rfl
@[simp] theorem State.putTeam_nextLaunch (s : State) (T : Team) : (s.putTeam T).nextLaunch = s.nextLaunch := rfl
@[simp] theorem State.putTeam_refusals (s : State) (T : Team) : (s.putTeam T).refusals = s.refusals := rfl
@[simp] theorem State.putTeam_launches (s : State) (T : Team) : (s.putTeam T).launches = s.launches := rfl
@[simp] theorem State.putTeam_blocks (s : State) (T : Team) : (s.putTeam T).blocks = s.blocks := rfl
@[simp] theorem State.putTeam_puts (s : State) (T : Team) : (s.putTeam T).puts = s.puts := rfl
@[simp] theorem State.putTeam_objects (s : State) (T : Team) : (s.putTeam T).objects = s.objects := rfl
@[simp] theorem State.putTeam_peerOpens (s : State) (T : Team) : (s.putTeam T).peerOpens = s.peerOpens := rfl
@[simp] theorem State.putTeam_opens (s : State) (T : Team) : (s.putTeam T).opens = s.opens := rfl
@[simp] theorem State.putTeam_adds (s : State) (T : Team) : (s.putTeam T).adds = s.adds := rfl
@[simp] theorem State.putTeam_slices (s : State) (T : Team) : (s.putTeam T).slices = s.slices := rfl
@[simp] theorem State.putTeam_seqs (s : State) (T : Team) : (s.putTeam T).seqs = s.seqs := rfl
@[simp] theorem State.putTeam_detMode (s : State) (T : Team) : (s.putTeam T).detMode = s.detMode := rfl
@[simp] theorem State.putTeam_channels (s : State) (T : Team) : (s.putTeam T).channels = s.channels := rfl
@[simp] theorem State.putTeam_gated (s : State) (T : Team) : (s.putTeam T).gated = s.gated := rfl
@[simp] theorem State.putTeam_cores (s : State) (T : Team) : (s.putTeam T).cores = s.cores := rfl
@[simp] theorem State.putTeam_dies (s : State) (T : Team) : (s.putTeam T).dies = s.dies := rfl
@[simp] theorem State.putTeam_gens (s : State) (T : Team) : (s.putTeam T).gens = s.gens := rfl
@[simp] theorem State.putTeam_fabric (s : State) (T : Team) : (s.putTeam T).fabric = s.fabric := rfl
@[simp] theorem State.putTeam_reports (s : State) (T : Team) : (s.putTeam T).reports = s.reports := rfl
@[simp] theorem State.putTeam_interrupts (s : State) (T : Team) : (s.putTeam T).interrupts = s.interrupts := rfl
@[simp] theorem State.putTeam_measurements (s : State) (T : Team) : (s.putTeam T).measurements = s.measurements := rfl
@[simp] theorem State.putTeam_attestation (s : State) (T : Team) : (s.putTeam T).attestation = s.attestation := rfl
@[simp] theorem State.putTeam_hostRead (s : State) (T : Team) : (s.putTeam T).hostRead = s.hostRead := rfl

@[simp] theorem State.modTeam_agenda (s : State) (u : Nat) (f : Team → Team) : (s.modTeam u f).agenda = s.agenda := rfl
@[simp] theorem State.modTeam_cur (s : State) (u : Nat) (f : Team → Team) : (s.modTeam u f).cur = s.cur := rfl
@[simp] theorem State.modTeam_beat (s : State) (u : Nat) (f : Team → Team) : (s.modTeam u f).beat = s.beat := rfl
@[simp] theorem State.modTeam_freeCtr (s : State) (u : Nat) (f : Team → Team) : (s.modTeam u f).freeCtr = s.freeCtr := rfl
@[simp] theorem State.modTeam_nextUid (s : State) (u : Nat) (f : Team → Team) : (s.modTeam u f).nextUid = s.nextUid := rfl
@[simp] theorem State.modTeam_wallNs (s : State) (u : Nat) (f : Team → Team) : (s.modTeam u f).wallNs = s.wallNs := rfl
@[simp] theorem State.modTeam_mem (s : State) (u : Nat) (f : Team → Team) : (s.modTeam u f).mem = s.mem := rfl
@[simp] theorem State.modTeam_hostMem (s : State) (u : Nat) (f : Team → Team) : (s.modTeam u f).hostMem = s.hostMem := rfl
@[simp] theorem State.modTeam_safeTier (s : State) (u : Nat) (f : Team → Team) : (s.modTeam u f).safeTier = s.safeTier := rfl
@[simp] theorem State.modTeam_checkpoint (s : State) (u : Nat) (f : Team → Team) : (s.modTeam u f).checkpoint = s.checkpoint := rfl
@[simp] theorem State.modTeam_overwritten (s : State) (u : Nat) (f : Team → Team) : (s.modTeam u f).overwritten = s.overwritten := rfl
@[simp] theorem State.modTeam_poison (s : State) (u : Nat) (f : Team → Team) : (s.modTeam u f).poison = s.poison := rfl
@[simp] theorem State.modTeam_hostPoison (s : State) (u : Nat) (f : Team → Team) : (s.modTeam u f).hostPoison = s.hostPoison := rfl
@[simp] theorem State.modTeam_control (s : State) (u : Nat) (f : Team → Team) : (s.modTeam u f).control = s.control := rfl
@[simp] theorem State.modTeam_asids (s : State) (u : Nat) (f : Team → Team) : (s.modTeam u f).asids = s.asids := rfl
@[simp] theorem State.modTeam_classes (s : State) (u : Nat) (f : Team → Team) : (s.modTeam u f).classes = s.classes := rfl
@[simp] theorem State.modTeam_nextLaunch (s : State) (u : Nat) (f : Team → Team) : (s.modTeam u f).nextLaunch = s.nextLaunch := rfl
@[simp] theorem State.modTeam_refusals (s : State) (u : Nat) (f : Team → Team) : (s.modTeam u f).refusals = s.refusals := rfl
@[simp] theorem State.modTeam_launches (s : State) (u : Nat) (f : Team → Team) : (s.modTeam u f).launches = s.launches := rfl
@[simp] theorem State.modTeam_blocks (s : State) (u : Nat) (f : Team → Team) : (s.modTeam u f).blocks = s.blocks := rfl
@[simp] theorem State.modTeam_puts (s : State) (u : Nat) (f : Team → Team) : (s.modTeam u f).puts = s.puts := rfl
@[simp] theorem State.modTeam_objects (s : State) (u : Nat) (f : Team → Team) : (s.modTeam u f).objects = s.objects := rfl
@[simp] theorem State.modTeam_peerOpens (s : State) (u : Nat) (f : Team → Team) : (s.modTeam u f).peerOpens = s.peerOpens := rfl
@[simp] theorem State.modTeam_opens (s : State) (u : Nat) (f : Team → Team) : (s.modTeam u f).opens = s.opens := rfl
@[simp] theorem State.modTeam_adds (s : State) (u : Nat) (f : Team → Team) : (s.modTeam u f).adds = s.adds := rfl
@[simp] theorem State.modTeam_slices (s : State) (u : Nat) (f : Team → Team) : (s.modTeam u f).slices = s.slices := rfl
@[simp] theorem State.modTeam_seqs (s : State) (u : Nat) (f : Team → Team) : (s.modTeam u f).seqs = s.seqs := rfl
@[simp] theorem State.modTeam_detMode (s : State) (u : Nat) (f : Team → Team) : (s.modTeam u f).detMode = s.detMode := rfl
@[simp] theorem State.modTeam_channels (s : State) (u : Nat) (f : Team → Team) : (s.modTeam u f).channels = s.channels := rfl
@[simp] theorem State.modTeam_gated (s : State) (u : Nat) (f : Team → Team) : (s.modTeam u f).gated = s.gated := rfl
@[simp] theorem State.modTeam_cores (s : State) (u : Nat) (f : Team → Team) : (s.modTeam u f).cores = s.cores := rfl
@[simp] theorem State.modTeam_dies (s : State) (u : Nat) (f : Team → Team) : (s.modTeam u f).dies = s.dies := rfl
@[simp] theorem State.modTeam_gens (s : State) (u : Nat) (f : Team → Team) : (s.modTeam u f).gens = s.gens := rfl
@[simp] theorem State.modTeam_fabric (s : State) (u : Nat) (f : Team → Team) : (s.modTeam u f).fabric = s.fabric := rfl
@[simp] theorem State.modTeam_reports (s : State) (u : Nat) (f : Team → Team) : (s.modTeam u f).reports = s.reports := rfl
@[simp] theorem State.modTeam_interrupts (s : State) (u : Nat) (f : Team → Team) : (s.modTeam u f).interrupts = s.interrupts := rfl
@[simp] theorem State.modTeam_measurements (s : State) (u : Nat) (f : Team → Team) : (s.modTeam u f).measurements = s.measurements := rfl
@[simp] theorem State.modTeam_attestation (s : State) (u : Nat) (f : Team → Team) : (s.modTeam u f).attestation = s.attestation := rfl
@[simp] theorem State.modTeam_hostRead (s : State) (u : Nat) (f : Team → Team) : (s.modTeam u f).hostRead = s.hostRead := rfl

@[simp] theorem State.put_agenda (s : State) (T : Team) (G : Group) : (s.put T G).agenda = s.agenda := rfl
@[simp] theorem State.put_cur (s : State) (T : Team) (G : Group) : (s.put T G).cur = s.cur := rfl
@[simp] theorem State.put_beat (s : State) (T : Team) (G : Group) : (s.put T G).beat = s.beat := rfl
@[simp] theorem State.put_freeCtr (s : State) (T : Team) (G : Group) : (s.put T G).freeCtr = s.freeCtr := rfl
@[simp] theorem State.put_nextUid (s : State) (T : Team) (G : Group) : (s.put T G).nextUid = s.nextUid := rfl
@[simp] theorem State.put_wallNs (s : State) (T : Team) (G : Group) : (s.put T G).wallNs = s.wallNs := rfl
@[simp] theorem State.put_mem (s : State) (T : Team) (G : Group) : (s.put T G).mem = s.mem := rfl
@[simp] theorem State.put_hostMem (s : State) (T : Team) (G : Group) : (s.put T G).hostMem = s.hostMem := rfl
@[simp] theorem State.put_safeTier (s : State) (T : Team) (G : Group) : (s.put T G).safeTier = s.safeTier := rfl
@[simp] theorem State.put_checkpoint (s : State) (T : Team) (G : Group) : (s.put T G).checkpoint = s.checkpoint := rfl
@[simp] theorem State.put_overwritten (s : State) (T : Team) (G : Group) : (s.put T G).overwritten = s.overwritten := rfl
@[simp] theorem State.put_poison (s : State) (T : Team) (G : Group) : (s.put T G).poison = s.poison := rfl
@[simp] theorem State.put_hostPoison (s : State) (T : Team) (G : Group) : (s.put T G).hostPoison = s.hostPoison := rfl
@[simp] theorem State.put_control (s : State) (T : Team) (G : Group) : (s.put T G).control = s.control := rfl
@[simp] theorem State.put_asids (s : State) (T : Team) (G : Group) : (s.put T G).asids = s.asids := rfl
@[simp] theorem State.put_classes (s : State) (T : Team) (G : Group) : (s.put T G).classes = s.classes := rfl
@[simp] theorem State.put_nextLaunch (s : State) (T : Team) (G : Group) : (s.put T G).nextLaunch = s.nextLaunch := rfl
@[simp] theorem State.put_refusals (s : State) (T : Team) (G : Group) : (s.put T G).refusals = s.refusals := rfl
@[simp] theorem State.put_launches (s : State) (T : Team) (G : Group) : (s.put T G).launches = s.launches := rfl
@[simp] theorem State.put_blocks (s : State) (T : Team) (G : Group) : (s.put T G).blocks = s.blocks := rfl
@[simp] theorem State.put_puts (s : State) (T : Team) (G : Group) : (s.put T G).puts = s.puts := rfl
@[simp] theorem State.put_objects (s : State) (T : Team) (G : Group) : (s.put T G).objects = s.objects := rfl
@[simp] theorem State.put_peerOpens (s : State) (T : Team) (G : Group) : (s.put T G).peerOpens = s.peerOpens := rfl
@[simp] theorem State.put_opens (s : State) (T : Team) (G : Group) : (s.put T G).opens = s.opens := rfl
@[simp] theorem State.put_adds (s : State) (T : Team) (G : Group) : (s.put T G).adds = s.adds := rfl
@[simp] theorem State.put_slices (s : State) (T : Team) (G : Group) : (s.put T G).slices = s.slices := rfl
@[simp] theorem State.put_seqs (s : State) (T : Team) (G : Group) : (s.put T G).seqs = s.seqs := rfl
@[simp] theorem State.put_detMode (s : State) (T : Team) (G : Group) : (s.put T G).detMode = s.detMode := rfl
@[simp] theorem State.put_channels (s : State) (T : Team) (G : Group) : (s.put T G).channels = s.channels := rfl
@[simp] theorem State.put_gated (s : State) (T : Team) (G : Group) : (s.put T G).gated = s.gated := rfl
@[simp] theorem State.put_cores (s : State) (T : Team) (G : Group) : (s.put T G).cores = s.cores := rfl
@[simp] theorem State.put_dies (s : State) (T : Team) (G : Group) : (s.put T G).dies = s.dies := rfl
@[simp] theorem State.put_gens (s : State) (T : Team) (G : Group) : (s.put T G).gens = s.gens := rfl
@[simp] theorem State.put_fabric (s : State) (T : Team) (G : Group) : (s.put T G).fabric = s.fabric := rfl
@[simp] theorem State.put_reports (s : State) (T : Team) (G : Group) : (s.put T G).reports = s.reports := rfl
@[simp] theorem State.put_interrupts (s : State) (T : Team) (G : Group) : (s.put T G).interrupts = s.interrupts := rfl
@[simp] theorem State.put_measurements (s : State) (T : Team) (G : Group) : (s.put T G).measurements = s.measurements := rfl
@[simp] theorem State.put_attestation (s : State) (T : Team) (G : Group) : (s.put T G).attestation = s.attestation := rfl
@[simp] theorem State.put_hostRead (s : State) (T : Team) (G : Group) : (s.put T G).hostRead = s.hostRead := rfl

@[simp] theorem State.retire_agenda (s : State) (T : Team) (G : Group) : (s.retire T G).agenda = s.agenda := rfl
@[simp] theorem State.retire_cur (s : State) (T : Team) (G : Group) : (s.retire T G).cur = s.cur := rfl
@[simp] theorem State.retire_beat (s : State) (T : Team) (G : Group) : (s.retire T G).beat = s.beat := rfl
@[simp] theorem State.retire_freeCtr (s : State) (T : Team) (G : Group) : (s.retire T G).freeCtr = s.freeCtr := rfl
@[simp] theorem State.retire_nextUid (s : State) (T : Team) (G : Group) : (s.retire T G).nextUid = s.nextUid := rfl
@[simp] theorem State.retire_wallNs (s : State) (T : Team) (G : Group) : (s.retire T G).wallNs = s.wallNs := rfl
@[simp] theorem State.retire_mem (s : State) (T : Team) (G : Group) : (s.retire T G).mem = s.mem := rfl
@[simp] theorem State.retire_hostMem (s : State) (T : Team) (G : Group) : (s.retire T G).hostMem = s.hostMem := rfl
@[simp] theorem State.retire_safeTier (s : State) (T : Team) (G : Group) : (s.retire T G).safeTier = s.safeTier := rfl
@[simp] theorem State.retire_checkpoint (s : State) (T : Team) (G : Group) : (s.retire T G).checkpoint = s.checkpoint := rfl
@[simp] theorem State.retire_overwritten (s : State) (T : Team) (G : Group) : (s.retire T G).overwritten = s.overwritten := rfl
@[simp] theorem State.retire_poison (s : State) (T : Team) (G : Group) : (s.retire T G).poison = s.poison := rfl
@[simp] theorem State.retire_hostPoison (s : State) (T : Team) (G : Group) : (s.retire T G).hostPoison = s.hostPoison := rfl
@[simp] theorem State.retire_control (s : State) (T : Team) (G : Group) : (s.retire T G).control = s.control := rfl
@[simp] theorem State.retire_asids (s : State) (T : Team) (G : Group) : (s.retire T G).asids = s.asids := rfl
@[simp] theorem State.retire_classes (s : State) (T : Team) (G : Group) : (s.retire T G).classes = s.classes := rfl
@[simp] theorem State.retire_nextLaunch (s : State) (T : Team) (G : Group) : (s.retire T G).nextLaunch = s.nextLaunch := rfl
@[simp] theorem State.retire_refusals (s : State) (T : Team) (G : Group) : (s.retire T G).refusals = s.refusals := rfl
@[simp] theorem State.retire_launches (s : State) (T : Team) (G : Group) : (s.retire T G).launches = s.launches := rfl
@[simp] theorem State.retire_blocks (s : State) (T : Team) (G : Group) : (s.retire T G).blocks = s.blocks := rfl
@[simp] theorem State.retire_puts (s : State) (T : Team) (G : Group) : (s.retire T G).puts = s.puts := rfl
@[simp] theorem State.retire_objects (s : State) (T : Team) (G : Group) : (s.retire T G).objects = s.objects := rfl
@[simp] theorem State.retire_peerOpens (s : State) (T : Team) (G : Group) : (s.retire T G).peerOpens = s.peerOpens := rfl
@[simp] theorem State.retire_opens (s : State) (T : Team) (G : Group) : (s.retire T G).opens = s.opens := rfl
@[simp] theorem State.retire_adds (s : State) (T : Team) (G : Group) : (s.retire T G).adds = s.adds := rfl
@[simp] theorem State.retire_slices (s : State) (T : Team) (G : Group) : (s.retire T G).slices = s.slices := rfl
@[simp] theorem State.retire_seqs (s : State) (T : Team) (G : Group) : (s.retire T G).seqs = s.seqs := rfl
@[simp] theorem State.retire_detMode (s : State) (T : Team) (G : Group) : (s.retire T G).detMode = s.detMode := rfl
@[simp] theorem State.retire_channels (s : State) (T : Team) (G : Group) : (s.retire T G).channels = s.channels := rfl
@[simp] theorem State.retire_gated (s : State) (T : Team) (G : Group) : (s.retire T G).gated = s.gated := rfl
@[simp] theorem State.retire_cores (s : State) (T : Team) (G : Group) : (s.retire T G).cores = s.cores := rfl
@[simp] theorem State.retire_dies (s : State) (T : Team) (G : Group) : (s.retire T G).dies = s.dies := rfl
@[simp] theorem State.retire_gens (s : State) (T : Team) (G : Group) : (s.retire T G).gens = s.gens := rfl
@[simp] theorem State.retire_fabric (s : State) (T : Team) (G : Group) : (s.retire T G).fabric = s.fabric := rfl
@[simp] theorem State.retire_reports (s : State) (T : Team) (G : Group) : (s.retire T G).reports = s.reports := rfl
@[simp] theorem State.retire_interrupts (s : State) (T : Team) (G : Group) : (s.retire T G).interrupts = s.interrupts := rfl
@[simp] theorem State.retire_measurements (s : State) (T : Team) (G : Group) : (s.retire T G).measurements = s.measurements := rfl
@[simp] theorem State.retire_attestation (s : State) (T : Team) (G : Group) : (s.retire T G).attestation = s.attestation := rfl
@[simp] theorem State.retire_hostRead (s : State) (T : Team) (G : Group) : (s.retire T G).hostRead = s.hostRead := rfl

@[simp] theorem State.putLaunch_agenda (s : State) (L : Launch) : (s.putLaunch L).agenda = s.agenda := rfl
@[simp] theorem State.putLaunch_cur (s : State) (L : Launch) : (s.putLaunch L).cur = s.cur := rfl
@[simp] theorem State.putLaunch_beat (s : State) (L : Launch) : (s.putLaunch L).beat = s.beat := rfl
@[simp] theorem State.putLaunch_freeCtr (s : State) (L : Launch) : (s.putLaunch L).freeCtr = s.freeCtr := rfl
@[simp] theorem State.putLaunch_nextUid (s : State) (L : Launch) : (s.putLaunch L).nextUid = s.nextUid := rfl
@[simp] theorem State.putLaunch_wallNs (s : State) (L : Launch) : (s.putLaunch L).wallNs = s.wallNs := rfl
@[simp] theorem State.putLaunch_mem (s : State) (L : Launch) : (s.putLaunch L).mem = s.mem := rfl
@[simp] theorem State.putLaunch_hostMem (s : State) (L : Launch) : (s.putLaunch L).hostMem = s.hostMem := rfl
@[simp] theorem State.putLaunch_safeTier (s : State) (L : Launch) : (s.putLaunch L).safeTier = s.safeTier := rfl
@[simp] theorem State.putLaunch_checkpoint (s : State) (L : Launch) : (s.putLaunch L).checkpoint = s.checkpoint := rfl
@[simp] theorem State.putLaunch_overwritten (s : State) (L : Launch) : (s.putLaunch L).overwritten = s.overwritten := rfl
@[simp] theorem State.putLaunch_poison (s : State) (L : Launch) : (s.putLaunch L).poison = s.poison := rfl
@[simp] theorem State.putLaunch_hostPoison (s : State) (L : Launch) : (s.putLaunch L).hostPoison = s.hostPoison := rfl
@[simp] theorem State.putLaunch_control (s : State) (L : Launch) : (s.putLaunch L).control = s.control := rfl
@[simp] theorem State.putLaunch_asids (s : State) (L : Launch) : (s.putLaunch L).asids = s.asids := rfl
@[simp] theorem State.putLaunch_classes (s : State) (L : Launch) : (s.putLaunch L).classes = s.classes := rfl
@[simp] theorem State.putLaunch_nextLaunch (s : State) (L : Launch) : (s.putLaunch L).nextLaunch = s.nextLaunch := rfl
@[simp] theorem State.putLaunch_refusals (s : State) (L : Launch) : (s.putLaunch L).refusals = s.refusals := rfl
@[simp] theorem State.putLaunch_teams (s : State) (L : Launch) : (s.putLaunch L).teams = s.teams := rfl
@[simp] theorem State.putLaunch_blocks (s : State) (L : Launch) : (s.putLaunch L).blocks = s.blocks := rfl
@[simp] theorem State.putLaunch_puts (s : State) (L : Launch) : (s.putLaunch L).puts = s.puts := rfl
@[simp] theorem State.putLaunch_objects (s : State) (L : Launch) : (s.putLaunch L).objects = s.objects := rfl
@[simp] theorem State.putLaunch_peerOpens (s : State) (L : Launch) : (s.putLaunch L).peerOpens = s.peerOpens := rfl
@[simp] theorem State.putLaunch_opens (s : State) (L : Launch) : (s.putLaunch L).opens = s.opens := rfl
@[simp] theorem State.putLaunch_adds (s : State) (L : Launch) : (s.putLaunch L).adds = s.adds := rfl
@[simp] theorem State.putLaunch_slices (s : State) (L : Launch) : (s.putLaunch L).slices = s.slices := rfl
@[simp] theorem State.putLaunch_seqs (s : State) (L : Launch) : (s.putLaunch L).seqs = s.seqs := rfl
@[simp] theorem State.putLaunch_detMode (s : State) (L : Launch) : (s.putLaunch L).detMode = s.detMode := rfl
@[simp] theorem State.putLaunch_channels (s : State) (L : Launch) : (s.putLaunch L).channels = s.channels := rfl
@[simp] theorem State.putLaunch_gated (s : State) (L : Launch) : (s.putLaunch L).gated = s.gated := rfl
@[simp] theorem State.putLaunch_cores (s : State) (L : Launch) : (s.putLaunch L).cores = s.cores := rfl
@[simp] theorem State.putLaunch_dies (s : State) (L : Launch) : (s.putLaunch L).dies = s.dies := rfl
@[simp] theorem State.putLaunch_gens (s : State) (L : Launch) : (s.putLaunch L).gens = s.gens := rfl
@[simp] theorem State.putLaunch_fabric (s : State) (L : Launch) : (s.putLaunch L).fabric = s.fabric := rfl
@[simp] theorem State.putLaunch_reports (s : State) (L : Launch) : (s.putLaunch L).reports = s.reports := rfl
@[simp] theorem State.putLaunch_interrupts (s : State) (L : Launch) : (s.putLaunch L).interrupts = s.interrupts := rfl
@[simp] theorem State.putLaunch_measurements (s : State) (L : Launch) : (s.putLaunch L).measurements = s.measurements := rfl
@[simp] theorem State.putLaunch_attestation (s : State) (L : Launch) : (s.putLaunch L).attestation = s.attestation := rfl
@[simp] theorem State.putLaunch_hostRead (s : State) (L : Launch) : (s.putLaunch L).hostRead = s.hostRead := rfl

@[simp] theorem State.putDie_agenda (s : State) (d : Nat) (D : Die) : (s.putDie d D).agenda = s.agenda := rfl
@[simp] theorem State.putDie_cur (s : State) (d : Nat) (D : Die) : (s.putDie d D).cur = s.cur := rfl
@[simp] theorem State.putDie_beat (s : State) (d : Nat) (D : Die) : (s.putDie d D).beat = s.beat := rfl
@[simp] theorem State.putDie_freeCtr (s : State) (d : Nat) (D : Die) : (s.putDie d D).freeCtr = s.freeCtr := rfl
@[simp] theorem State.putDie_nextUid (s : State) (d : Nat) (D : Die) : (s.putDie d D).nextUid = s.nextUid := rfl
@[simp] theorem State.putDie_wallNs (s : State) (d : Nat) (D : Die) : (s.putDie d D).wallNs = s.wallNs := rfl
@[simp] theorem State.putDie_mem (s : State) (d : Nat) (D : Die) : (s.putDie d D).mem = s.mem := rfl
@[simp] theorem State.putDie_hostMem (s : State) (d : Nat) (D : Die) : (s.putDie d D).hostMem = s.hostMem := rfl
@[simp] theorem State.putDie_safeTier (s : State) (d : Nat) (D : Die) : (s.putDie d D).safeTier = s.safeTier := rfl
@[simp] theorem State.putDie_checkpoint (s : State) (d : Nat) (D : Die) : (s.putDie d D).checkpoint = s.checkpoint := rfl
@[simp] theorem State.putDie_overwritten (s : State) (d : Nat) (D : Die) : (s.putDie d D).overwritten = s.overwritten := rfl
@[simp] theorem State.putDie_poison (s : State) (d : Nat) (D : Die) : (s.putDie d D).poison = s.poison := rfl
@[simp] theorem State.putDie_hostPoison (s : State) (d : Nat) (D : Die) : (s.putDie d D).hostPoison = s.hostPoison := rfl
@[simp] theorem State.putDie_control (s : State) (d : Nat) (D : Die) : (s.putDie d D).control = s.control := rfl
@[simp] theorem State.putDie_asids (s : State) (d : Nat) (D : Die) : (s.putDie d D).asids = s.asids := rfl
@[simp] theorem State.putDie_classes (s : State) (d : Nat) (D : Die) : (s.putDie d D).classes = s.classes := rfl
@[simp] theorem State.putDie_nextLaunch (s : State) (d : Nat) (D : Die) : (s.putDie d D).nextLaunch = s.nextLaunch := rfl
@[simp] theorem State.putDie_refusals (s : State) (d : Nat) (D : Die) : (s.putDie d D).refusals = s.refusals := rfl
@[simp] theorem State.putDie_launches (s : State) (d : Nat) (D : Die) : (s.putDie d D).launches = s.launches := rfl
@[simp] theorem State.putDie_teams (s : State) (d : Nat) (D : Die) : (s.putDie d D).teams = s.teams := rfl
@[simp] theorem State.putDie_blocks (s : State) (d : Nat) (D : Die) : (s.putDie d D).blocks = s.blocks := rfl
@[simp] theorem State.putDie_puts (s : State) (d : Nat) (D : Die) : (s.putDie d D).puts = s.puts := rfl
@[simp] theorem State.putDie_objects (s : State) (d : Nat) (D : Die) : (s.putDie d D).objects = s.objects := rfl
@[simp] theorem State.putDie_peerOpens (s : State) (d : Nat) (D : Die) : (s.putDie d D).peerOpens = s.peerOpens := rfl
@[simp] theorem State.putDie_opens (s : State) (d : Nat) (D : Die) : (s.putDie d D).opens = s.opens := rfl
@[simp] theorem State.putDie_adds (s : State) (d : Nat) (D : Die) : (s.putDie d D).adds = s.adds := rfl
@[simp] theorem State.putDie_slices (s : State) (d : Nat) (D : Die) : (s.putDie d D).slices = s.slices := rfl
@[simp] theorem State.putDie_seqs (s : State) (d : Nat) (D : Die) : (s.putDie d D).seqs = s.seqs := rfl
@[simp] theorem State.putDie_detMode (s : State) (d : Nat) (D : Die) : (s.putDie d D).detMode = s.detMode := rfl
@[simp] theorem State.putDie_channels (s : State) (d : Nat) (D : Die) : (s.putDie d D).channels = s.channels := rfl
@[simp] theorem State.putDie_gated (s : State) (d : Nat) (D : Die) : (s.putDie d D).gated = s.gated := rfl
@[simp] theorem State.putDie_cores (s : State) (d : Nat) (D : Die) : (s.putDie d D).cores = s.cores := rfl
@[simp] theorem State.putDie_gens (s : State) (d : Nat) (D : Die) : (s.putDie d D).gens = s.gens := rfl
@[simp] theorem State.putDie_fabric (s : State) (d : Nat) (D : Die) : (s.putDie d D).fabric = s.fabric := rfl
@[simp] theorem State.putDie_reports (s : State) (d : Nat) (D : Die) : (s.putDie d D).reports = s.reports := rfl
@[simp] theorem State.putDie_interrupts (s : State) (d : Nat) (D : Die) : (s.putDie d D).interrupts = s.interrupts := rfl
@[simp] theorem State.putDie_measurements (s : State) (d : Nat) (D : Die) : (s.putDie d D).measurements = s.measurements := rfl
@[simp] theorem State.putDie_attestation (s : State) (d : Nat) (D : Die) : (s.putDie d D).attestation = s.attestation := rfl
@[simp] theorem State.putDie_hostRead (s : State) (d : Nat) (D : Die) : (s.putDie d D).hostRead = s.hostRead := rfl

@[simp] theorem State.putCore_agenda (s : State) (C : Core) : (s.putCore C).agenda = s.agenda := rfl
@[simp] theorem State.putCore_cur (s : State) (C : Core) : (s.putCore C).cur = s.cur := rfl
@[simp] theorem State.putCore_beat (s : State) (C : Core) : (s.putCore C).beat = s.beat := rfl
@[simp] theorem State.putCore_freeCtr (s : State) (C : Core) : (s.putCore C).freeCtr = s.freeCtr := rfl
@[simp] theorem State.putCore_nextUid (s : State) (C : Core) : (s.putCore C).nextUid = s.nextUid := rfl
@[simp] theorem State.putCore_wallNs (s : State) (C : Core) : (s.putCore C).wallNs = s.wallNs := rfl
@[simp] theorem State.putCore_mem (s : State) (C : Core) : (s.putCore C).mem = s.mem := rfl
@[simp] theorem State.putCore_hostMem (s : State) (C : Core) : (s.putCore C).hostMem = s.hostMem := rfl
@[simp] theorem State.putCore_safeTier (s : State) (C : Core) : (s.putCore C).safeTier = s.safeTier := rfl
@[simp] theorem State.putCore_checkpoint (s : State) (C : Core) : (s.putCore C).checkpoint = s.checkpoint := rfl
@[simp] theorem State.putCore_overwritten (s : State) (C : Core) : (s.putCore C).overwritten = s.overwritten := rfl
@[simp] theorem State.putCore_poison (s : State) (C : Core) : (s.putCore C).poison = s.poison := rfl
@[simp] theorem State.putCore_hostPoison (s : State) (C : Core) : (s.putCore C).hostPoison = s.hostPoison := rfl
@[simp] theorem State.putCore_control (s : State) (C : Core) : (s.putCore C).control = s.control := rfl
@[simp] theorem State.putCore_asids (s : State) (C : Core) : (s.putCore C).asids = s.asids := rfl
@[simp] theorem State.putCore_classes (s : State) (C : Core) : (s.putCore C).classes = s.classes := rfl
@[simp] theorem State.putCore_nextLaunch (s : State) (C : Core) : (s.putCore C).nextLaunch = s.nextLaunch := rfl
@[simp] theorem State.putCore_refusals (s : State) (C : Core) : (s.putCore C).refusals = s.refusals := rfl
@[simp] theorem State.putCore_launches (s : State) (C : Core) : (s.putCore C).launches = s.launches := rfl
@[simp] theorem State.putCore_teams (s : State) (C : Core) : (s.putCore C).teams = s.teams := rfl
@[simp] theorem State.putCore_blocks (s : State) (C : Core) : (s.putCore C).blocks = s.blocks := rfl
@[simp] theorem State.putCore_puts (s : State) (C : Core) : (s.putCore C).puts = s.puts := rfl
@[simp] theorem State.putCore_objects (s : State) (C : Core) : (s.putCore C).objects = s.objects := rfl
@[simp] theorem State.putCore_peerOpens (s : State) (C : Core) : (s.putCore C).peerOpens = s.peerOpens := rfl
@[simp] theorem State.putCore_opens (s : State) (C : Core) : (s.putCore C).opens = s.opens := rfl
@[simp] theorem State.putCore_adds (s : State) (C : Core) : (s.putCore C).adds = s.adds := rfl
@[simp] theorem State.putCore_slices (s : State) (C : Core) : (s.putCore C).slices = s.slices := rfl
@[simp] theorem State.putCore_seqs (s : State) (C : Core) : (s.putCore C).seqs = s.seqs := rfl
@[simp] theorem State.putCore_detMode (s : State) (C : Core) : (s.putCore C).detMode = s.detMode := rfl
@[simp] theorem State.putCore_channels (s : State) (C : Core) : (s.putCore C).channels = s.channels := rfl
@[simp] theorem State.putCore_gated (s : State) (C : Core) : (s.putCore C).gated = s.gated := rfl
@[simp] theorem State.putCore_dies (s : State) (C : Core) : (s.putCore C).dies = s.dies := rfl
@[simp] theorem State.putCore_gens (s : State) (C : Core) : (s.putCore C).gens = s.gens := rfl
@[simp] theorem State.putCore_fabric (s : State) (C : Core) : (s.putCore C).fabric = s.fabric := rfl
@[simp] theorem State.putCore_reports (s : State) (C : Core) : (s.putCore C).reports = s.reports := rfl
@[simp] theorem State.putCore_interrupts (s : State) (C : Core) : (s.putCore C).interrupts = s.interrupts := rfl
@[simp] theorem State.putCore_measurements (s : State) (C : Core) : (s.putCore C).measurements = s.measurements := rfl
@[simp] theorem State.putCore_attestation (s : State) (C : Core) : (s.putCore C).attestation = s.attestation := rfl
@[simp] theorem State.putCore_hostRead (s : State) (C : Core) : (s.putCore C).hostRead = s.hostRead := rfl

@[simp] theorem State.putSlot_agenda (s : State) (i : Nat) (e : Slot) : (s.putSlot i e).agenda = s.agenda := rfl
@[simp] theorem State.putSlot_cur (s : State) (i : Nat) (e : Slot) : (s.putSlot i e).cur = s.cur := rfl
@[simp] theorem State.putSlot_beat (s : State) (i : Nat) (e : Slot) : (s.putSlot i e).beat = s.beat := rfl
@[simp] theorem State.putSlot_freeCtr (s : State) (i : Nat) (e : Slot) : (s.putSlot i e).freeCtr = s.freeCtr := rfl
@[simp] theorem State.putSlot_nextUid (s : State) (i : Nat) (e : Slot) : (s.putSlot i e).nextUid = s.nextUid := rfl
@[simp] theorem State.putSlot_wallNs (s : State) (i : Nat) (e : Slot) : (s.putSlot i e).wallNs = s.wallNs := rfl
@[simp] theorem State.putSlot_mem (s : State) (i : Nat) (e : Slot) : (s.putSlot i e).mem = s.mem := rfl
@[simp] theorem State.putSlot_hostMem (s : State) (i : Nat) (e : Slot) : (s.putSlot i e).hostMem = s.hostMem := rfl
@[simp] theorem State.putSlot_safeTier (s : State) (i : Nat) (e : Slot) : (s.putSlot i e).safeTier = s.safeTier := rfl
@[simp] theorem State.putSlot_checkpoint (s : State) (i : Nat) (e : Slot) : (s.putSlot i e).checkpoint = s.checkpoint := rfl
@[simp] theorem State.putSlot_overwritten (s : State) (i : Nat) (e : Slot) : (s.putSlot i e).overwritten = s.overwritten := rfl
@[simp] theorem State.putSlot_poison (s : State) (i : Nat) (e : Slot) : (s.putSlot i e).poison = s.poison := rfl
@[simp] theorem State.putSlot_hostPoison (s : State) (i : Nat) (e : Slot) : (s.putSlot i e).hostPoison = s.hostPoison := rfl
@[simp] theorem State.putSlot_control (s : State) (i : Nat) (e : Slot) : (s.putSlot i e).control = s.control := rfl
@[simp] theorem State.putSlot_classes (s : State) (i : Nat) (e : Slot) : (s.putSlot i e).classes = s.classes := rfl
@[simp] theorem State.putSlot_nextLaunch (s : State) (i : Nat) (e : Slot) : (s.putSlot i e).nextLaunch = s.nextLaunch := rfl
@[simp] theorem State.putSlot_refusals (s : State) (i : Nat) (e : Slot) : (s.putSlot i e).refusals = s.refusals := rfl
@[simp] theorem State.putSlot_launches (s : State) (i : Nat) (e : Slot) : (s.putSlot i e).launches = s.launches := rfl
@[simp] theorem State.putSlot_teams (s : State) (i : Nat) (e : Slot) : (s.putSlot i e).teams = s.teams := rfl
@[simp] theorem State.putSlot_blocks (s : State) (i : Nat) (e : Slot) : (s.putSlot i e).blocks = s.blocks := rfl
@[simp] theorem State.putSlot_puts (s : State) (i : Nat) (e : Slot) : (s.putSlot i e).puts = s.puts := rfl
@[simp] theorem State.putSlot_objects (s : State) (i : Nat) (e : Slot) : (s.putSlot i e).objects = s.objects := rfl
@[simp] theorem State.putSlot_peerOpens (s : State) (i : Nat) (e : Slot) : (s.putSlot i e).peerOpens = s.peerOpens := rfl
@[simp] theorem State.putSlot_opens (s : State) (i : Nat) (e : Slot) : (s.putSlot i e).opens = s.opens := rfl
@[simp] theorem State.putSlot_adds (s : State) (i : Nat) (e : Slot) : (s.putSlot i e).adds = s.adds := rfl
@[simp] theorem State.putSlot_slices (s : State) (i : Nat) (e : Slot) : (s.putSlot i e).slices = s.slices := rfl
@[simp] theorem State.putSlot_seqs (s : State) (i : Nat) (e : Slot) : (s.putSlot i e).seqs = s.seqs := rfl
@[simp] theorem State.putSlot_detMode (s : State) (i : Nat) (e : Slot) : (s.putSlot i e).detMode = s.detMode := rfl
@[simp] theorem State.putSlot_channels (s : State) (i : Nat) (e : Slot) : (s.putSlot i e).channels = s.channels := rfl
@[simp] theorem State.putSlot_gated (s : State) (i : Nat) (e : Slot) : (s.putSlot i e).gated = s.gated := rfl
@[simp] theorem State.putSlot_cores (s : State) (i : Nat) (e : Slot) : (s.putSlot i e).cores = s.cores := rfl
@[simp] theorem State.putSlot_dies (s : State) (i : Nat) (e : Slot) : (s.putSlot i e).dies = s.dies := rfl
@[simp] theorem State.putSlot_gens (s : State) (i : Nat) (e : Slot) : (s.putSlot i e).gens = s.gens := rfl
@[simp] theorem State.putSlot_fabric (s : State) (i : Nat) (e : Slot) : (s.putSlot i e).fabric = s.fabric := rfl
@[simp] theorem State.putSlot_reports (s : State) (i : Nat) (e : Slot) : (s.putSlot i e).reports = s.reports := rfl
@[simp] theorem State.putSlot_interrupts (s : State) (i : Nat) (e : Slot) : (s.putSlot i e).interrupts = s.interrupts := rfl
@[simp] theorem State.putSlot_measurements (s : State) (i : Nat) (e : Slot) : (s.putSlot i e).measurements = s.measurements := rfl
@[simp] theorem State.putSlot_attestation (s : State) (i : Nat) (e : Slot) : (s.putSlot i e).attestation = s.attestation := rfl
@[simp] theorem State.putSlot_hostRead (s : State) (i : Nat) (e : Slot) : (s.putSlot i e).hostRead = s.hostRead := rfl

@[simp] theorem State.putClass_agenda (s : State) (c : Nat) (e : Slot) : (s.putClass c e).agenda = s.agenda := rfl
@[simp] theorem State.putClass_cur (s : State) (c : Nat) (e : Slot) : (s.putClass c e).cur = s.cur := rfl
@[simp] theorem State.putClass_beat (s : State) (c : Nat) (e : Slot) : (s.putClass c e).beat = s.beat := rfl
@[simp] theorem State.putClass_freeCtr (s : State) (c : Nat) (e : Slot) : (s.putClass c e).freeCtr = s.freeCtr := rfl
@[simp] theorem State.putClass_nextUid (s : State) (c : Nat) (e : Slot) : (s.putClass c e).nextUid = s.nextUid := rfl
@[simp] theorem State.putClass_wallNs (s : State) (c : Nat) (e : Slot) : (s.putClass c e).wallNs = s.wallNs := rfl
@[simp] theorem State.putClass_mem (s : State) (c : Nat) (e : Slot) : (s.putClass c e).mem = s.mem := rfl
@[simp] theorem State.putClass_hostMem (s : State) (c : Nat) (e : Slot) : (s.putClass c e).hostMem = s.hostMem := rfl
@[simp] theorem State.putClass_safeTier (s : State) (c : Nat) (e : Slot) : (s.putClass c e).safeTier = s.safeTier := rfl
@[simp] theorem State.putClass_checkpoint (s : State) (c : Nat) (e : Slot) : (s.putClass c e).checkpoint = s.checkpoint := rfl
@[simp] theorem State.putClass_overwritten (s : State) (c : Nat) (e : Slot) : (s.putClass c e).overwritten = s.overwritten := rfl
@[simp] theorem State.putClass_poison (s : State) (c : Nat) (e : Slot) : (s.putClass c e).poison = s.poison := rfl
@[simp] theorem State.putClass_hostPoison (s : State) (c : Nat) (e : Slot) : (s.putClass c e).hostPoison = s.hostPoison := rfl
@[simp] theorem State.putClass_control (s : State) (c : Nat) (e : Slot) : (s.putClass c e).control = s.control := rfl
@[simp] theorem State.putClass_asids (s : State) (c : Nat) (e : Slot) : (s.putClass c e).asids = s.asids := rfl
@[simp] theorem State.putClass_nextLaunch (s : State) (c : Nat) (e : Slot) : (s.putClass c e).nextLaunch = s.nextLaunch := rfl
@[simp] theorem State.putClass_refusals (s : State) (c : Nat) (e : Slot) : (s.putClass c e).refusals = s.refusals := rfl
@[simp] theorem State.putClass_launches (s : State) (c : Nat) (e : Slot) : (s.putClass c e).launches = s.launches := rfl
@[simp] theorem State.putClass_teams (s : State) (c : Nat) (e : Slot) : (s.putClass c e).teams = s.teams := rfl
@[simp] theorem State.putClass_blocks (s : State) (c : Nat) (e : Slot) : (s.putClass c e).blocks = s.blocks := rfl
@[simp] theorem State.putClass_puts (s : State) (c : Nat) (e : Slot) : (s.putClass c e).puts = s.puts := rfl
@[simp] theorem State.putClass_objects (s : State) (c : Nat) (e : Slot) : (s.putClass c e).objects = s.objects := rfl
@[simp] theorem State.putClass_peerOpens (s : State) (c : Nat) (e : Slot) : (s.putClass c e).peerOpens = s.peerOpens := rfl
@[simp] theorem State.putClass_opens (s : State) (c : Nat) (e : Slot) : (s.putClass c e).opens = s.opens := rfl
@[simp] theorem State.putClass_adds (s : State) (c : Nat) (e : Slot) : (s.putClass c e).adds = s.adds := rfl
@[simp] theorem State.putClass_slices (s : State) (c : Nat) (e : Slot) : (s.putClass c e).slices = s.slices := rfl
@[simp] theorem State.putClass_seqs (s : State) (c : Nat) (e : Slot) : (s.putClass c e).seqs = s.seqs := rfl
@[simp] theorem State.putClass_detMode (s : State) (c : Nat) (e : Slot) : (s.putClass c e).detMode = s.detMode := rfl
@[simp] theorem State.putClass_channels (s : State) (c : Nat) (e : Slot) : (s.putClass c e).channels = s.channels := rfl
@[simp] theorem State.putClass_gated (s : State) (c : Nat) (e : Slot) : (s.putClass c e).gated = s.gated := rfl
@[simp] theorem State.putClass_cores (s : State) (c : Nat) (e : Slot) : (s.putClass c e).cores = s.cores := rfl
@[simp] theorem State.putClass_dies (s : State) (c : Nat) (e : Slot) : (s.putClass c e).dies = s.dies := rfl
@[simp] theorem State.putClass_gens (s : State) (c : Nat) (e : Slot) : (s.putClass c e).gens = s.gens := rfl
@[simp] theorem State.putClass_fabric (s : State) (c : Nat) (e : Slot) : (s.putClass c e).fabric = s.fabric := rfl
@[simp] theorem State.putClass_reports (s : State) (c : Nat) (e : Slot) : (s.putClass c e).reports = s.reports := rfl
@[simp] theorem State.putClass_interrupts (s : State) (c : Nat) (e : Slot) : (s.putClass c e).interrupts = s.interrupts := rfl
@[simp] theorem State.putClass_measurements (s : State) (c : Nat) (e : Slot) : (s.putClass c e).measurements = s.measurements := rfl
@[simp] theorem State.putClass_attestation (s : State) (c : Nat) (e : Slot) : (s.putClass c e).attestation = s.attestation := rfl
@[simp] theorem State.putClass_hostRead (s : State) (c : Nat) (e : Slot) : (s.putClass c e).hostRead = s.hostRead := rfl

@[simp] theorem State.putBlock_agenda (s : State) (b : Block) : (s.putBlock b).agenda = s.agenda := rfl
@[simp] theorem State.putBlock_cur (s : State) (b : Block) : (s.putBlock b).cur = s.cur := rfl
@[simp] theorem State.putBlock_beat (s : State) (b : Block) : (s.putBlock b).beat = s.beat := rfl
@[simp] theorem State.putBlock_freeCtr (s : State) (b : Block) : (s.putBlock b).freeCtr = s.freeCtr := rfl
@[simp] theorem State.putBlock_nextUid (s : State) (b : Block) : (s.putBlock b).nextUid = s.nextUid := rfl
@[simp] theorem State.putBlock_wallNs (s : State) (b : Block) : (s.putBlock b).wallNs = s.wallNs := rfl
@[simp] theorem State.putBlock_mem (s : State) (b : Block) : (s.putBlock b).mem = s.mem := rfl
@[simp] theorem State.putBlock_hostMem (s : State) (b : Block) : (s.putBlock b).hostMem = s.hostMem := rfl
@[simp] theorem State.putBlock_safeTier (s : State) (b : Block) : (s.putBlock b).safeTier = s.safeTier := rfl
@[simp] theorem State.putBlock_checkpoint (s : State) (b : Block) : (s.putBlock b).checkpoint = s.checkpoint := rfl
@[simp] theorem State.putBlock_overwritten (s : State) (b : Block) : (s.putBlock b).overwritten = s.overwritten := rfl
@[simp] theorem State.putBlock_poison (s : State) (b : Block) : (s.putBlock b).poison = s.poison := rfl
@[simp] theorem State.putBlock_hostPoison (s : State) (b : Block) : (s.putBlock b).hostPoison = s.hostPoison := rfl
@[simp] theorem State.putBlock_control (s : State) (b : Block) : (s.putBlock b).control = s.control := rfl
@[simp] theorem State.putBlock_asids (s : State) (b : Block) : (s.putBlock b).asids = s.asids := rfl
@[simp] theorem State.putBlock_classes (s : State) (b : Block) : (s.putBlock b).classes = s.classes := rfl
@[simp] theorem State.putBlock_nextLaunch (s : State) (b : Block) : (s.putBlock b).nextLaunch = s.nextLaunch := rfl
@[simp] theorem State.putBlock_refusals (s : State) (b : Block) : (s.putBlock b).refusals = s.refusals := rfl
@[simp] theorem State.putBlock_launches (s : State) (b : Block) : (s.putBlock b).launches = s.launches := rfl
@[simp] theorem State.putBlock_teams (s : State) (b : Block) : (s.putBlock b).teams = s.teams := rfl
@[simp] theorem State.putBlock_puts (s : State) (b : Block) : (s.putBlock b).puts = s.puts := rfl
@[simp] theorem State.putBlock_objects (s : State) (b : Block) : (s.putBlock b).objects = s.objects := rfl
@[simp] theorem State.putBlock_peerOpens (s : State) (b : Block) : (s.putBlock b).peerOpens = s.peerOpens := rfl
@[simp] theorem State.putBlock_opens (s : State) (b : Block) : (s.putBlock b).opens = s.opens := rfl
@[simp] theorem State.putBlock_adds (s : State) (b : Block) : (s.putBlock b).adds = s.adds := rfl
@[simp] theorem State.putBlock_slices (s : State) (b : Block) : (s.putBlock b).slices = s.slices := rfl
@[simp] theorem State.putBlock_seqs (s : State) (b : Block) : (s.putBlock b).seqs = s.seqs := rfl
@[simp] theorem State.putBlock_detMode (s : State) (b : Block) : (s.putBlock b).detMode = s.detMode := rfl
@[simp] theorem State.putBlock_channels (s : State) (b : Block) : (s.putBlock b).channels = s.channels := rfl
@[simp] theorem State.putBlock_gated (s : State) (b : Block) : (s.putBlock b).gated = s.gated := rfl
@[simp] theorem State.putBlock_cores (s : State) (b : Block) : (s.putBlock b).cores = s.cores := rfl
@[simp] theorem State.putBlock_dies (s : State) (b : Block) : (s.putBlock b).dies = s.dies := rfl
@[simp] theorem State.putBlock_gens (s : State) (b : Block) : (s.putBlock b).gens = s.gens := rfl
@[simp] theorem State.putBlock_fabric (s : State) (b : Block) : (s.putBlock b).fabric = s.fabric := rfl
@[simp] theorem State.putBlock_reports (s : State) (b : Block) : (s.putBlock b).reports = s.reports := rfl
@[simp] theorem State.putBlock_interrupts (s : State) (b : Block) : (s.putBlock b).interrupts = s.interrupts := rfl
@[simp] theorem State.putBlock_measurements (s : State) (b : Block) : (s.putBlock b).measurements = s.measurements := rfl
@[simp] theorem State.putBlock_attestation (s : State) (b : Block) : (s.putBlock b).attestation = s.attestation := rfl
@[simp] theorem State.putBlock_hostRead (s : State) (b : Block) : (s.putBlock b).hostRead = s.hostRead := rfl

@[simp] theorem State.putObject_agenda (s : State) (o : RedObj) : (s.putObject o).agenda = s.agenda := rfl
@[simp] theorem State.putObject_cur (s : State) (o : RedObj) : (s.putObject o).cur = s.cur := rfl
@[simp] theorem State.putObject_beat (s : State) (o : RedObj) : (s.putObject o).beat = s.beat := rfl
@[simp] theorem State.putObject_freeCtr (s : State) (o : RedObj) : (s.putObject o).freeCtr = s.freeCtr := rfl
@[simp] theorem State.putObject_nextUid (s : State) (o : RedObj) : (s.putObject o).nextUid = s.nextUid := rfl
@[simp] theorem State.putObject_wallNs (s : State) (o : RedObj) : (s.putObject o).wallNs = s.wallNs := rfl
@[simp] theorem State.putObject_mem (s : State) (o : RedObj) : (s.putObject o).mem = s.mem := rfl
@[simp] theorem State.putObject_hostMem (s : State) (o : RedObj) : (s.putObject o).hostMem = s.hostMem := rfl
@[simp] theorem State.putObject_safeTier (s : State) (o : RedObj) : (s.putObject o).safeTier = s.safeTier := rfl
@[simp] theorem State.putObject_checkpoint (s : State) (o : RedObj) : (s.putObject o).checkpoint = s.checkpoint := rfl
@[simp] theorem State.putObject_overwritten (s : State) (o : RedObj) : (s.putObject o).overwritten = s.overwritten := rfl
@[simp] theorem State.putObject_poison (s : State) (o : RedObj) : (s.putObject o).poison = s.poison := rfl
@[simp] theorem State.putObject_hostPoison (s : State) (o : RedObj) : (s.putObject o).hostPoison = s.hostPoison := rfl
@[simp] theorem State.putObject_control (s : State) (o : RedObj) : (s.putObject o).control = s.control := rfl
@[simp] theorem State.putObject_asids (s : State) (o : RedObj) : (s.putObject o).asids = s.asids := rfl
@[simp] theorem State.putObject_classes (s : State) (o : RedObj) : (s.putObject o).classes = s.classes := rfl
@[simp] theorem State.putObject_nextLaunch (s : State) (o : RedObj) : (s.putObject o).nextLaunch = s.nextLaunch := rfl
@[simp] theorem State.putObject_refusals (s : State) (o : RedObj) : (s.putObject o).refusals = s.refusals := rfl
@[simp] theorem State.putObject_launches (s : State) (o : RedObj) : (s.putObject o).launches = s.launches := rfl
@[simp] theorem State.putObject_teams (s : State) (o : RedObj) : (s.putObject o).teams = s.teams := rfl
@[simp] theorem State.putObject_blocks (s : State) (o : RedObj) : (s.putObject o).blocks = s.blocks := rfl
@[simp] theorem State.putObject_puts (s : State) (o : RedObj) : (s.putObject o).puts = s.puts := rfl
@[simp] theorem State.putObject_peerOpens (s : State) (o : RedObj) : (s.putObject o).peerOpens = s.peerOpens := rfl
@[simp] theorem State.putObject_opens (s : State) (o : RedObj) : (s.putObject o).opens = s.opens := rfl
@[simp] theorem State.putObject_adds (s : State) (o : RedObj) : (s.putObject o).adds = s.adds := rfl
@[simp] theorem State.putObject_slices (s : State) (o : RedObj) : (s.putObject o).slices = s.slices := rfl
@[simp] theorem State.putObject_seqs (s : State) (o : RedObj) : (s.putObject o).seqs = s.seqs := rfl
@[simp] theorem State.putObject_detMode (s : State) (o : RedObj) : (s.putObject o).detMode = s.detMode := rfl
@[simp] theorem State.putObject_channels (s : State) (o : RedObj) : (s.putObject o).channels = s.channels := rfl
@[simp] theorem State.putObject_gated (s : State) (o : RedObj) : (s.putObject o).gated = s.gated := rfl
@[simp] theorem State.putObject_cores (s : State) (o : RedObj) : (s.putObject o).cores = s.cores := rfl
@[simp] theorem State.putObject_dies (s : State) (o : RedObj) : (s.putObject o).dies = s.dies := rfl
@[simp] theorem State.putObject_gens (s : State) (o : RedObj) : (s.putObject o).gens = s.gens := rfl
@[simp] theorem State.putObject_fabric (s : State) (o : RedObj) : (s.putObject o).fabric = s.fabric := rfl
@[simp] theorem State.putObject_reports (s : State) (o : RedObj) : (s.putObject o).reports = s.reports := rfl
@[simp] theorem State.putObject_interrupts (s : State) (o : RedObj) : (s.putObject o).interrupts = s.interrupts := rfl
@[simp] theorem State.putObject_measurements (s : State) (o : RedObj) : (s.putObject o).measurements = s.measurements := rfl
@[simp] theorem State.putObject_attestation (s : State) (o : RedObj) : (s.putObject o).attestation = s.attestation := rfl
@[simp] theorem State.putObject_hostRead (s : State) (o : RedObj) : (s.putObject o).hostRead = s.hostRead := rfl

@[simp] theorem State.putChannel_agenda (s : State) (c : Channel) : (s.putChannel c).agenda = s.agenda := rfl
@[simp] theorem State.putChannel_cur (s : State) (c : Channel) : (s.putChannel c).cur = s.cur := rfl
@[simp] theorem State.putChannel_beat (s : State) (c : Channel) : (s.putChannel c).beat = s.beat := rfl
@[simp] theorem State.putChannel_freeCtr (s : State) (c : Channel) : (s.putChannel c).freeCtr = s.freeCtr := rfl
@[simp] theorem State.putChannel_nextUid (s : State) (c : Channel) : (s.putChannel c).nextUid = s.nextUid := rfl
@[simp] theorem State.putChannel_wallNs (s : State) (c : Channel) : (s.putChannel c).wallNs = s.wallNs := rfl
@[simp] theorem State.putChannel_mem (s : State) (c : Channel) : (s.putChannel c).mem = s.mem := rfl
@[simp] theorem State.putChannel_hostMem (s : State) (c : Channel) : (s.putChannel c).hostMem = s.hostMem := rfl
@[simp] theorem State.putChannel_safeTier (s : State) (c : Channel) : (s.putChannel c).safeTier = s.safeTier := rfl
@[simp] theorem State.putChannel_checkpoint (s : State) (c : Channel) : (s.putChannel c).checkpoint = s.checkpoint := rfl
@[simp] theorem State.putChannel_overwritten (s : State) (c : Channel) : (s.putChannel c).overwritten = s.overwritten := rfl
@[simp] theorem State.putChannel_poison (s : State) (c : Channel) : (s.putChannel c).poison = s.poison := rfl
@[simp] theorem State.putChannel_hostPoison (s : State) (c : Channel) : (s.putChannel c).hostPoison = s.hostPoison := rfl
@[simp] theorem State.putChannel_control (s : State) (c : Channel) : (s.putChannel c).control = s.control := rfl
@[simp] theorem State.putChannel_asids (s : State) (c : Channel) : (s.putChannel c).asids = s.asids := rfl
@[simp] theorem State.putChannel_classes (s : State) (c : Channel) : (s.putChannel c).classes = s.classes := rfl
@[simp] theorem State.putChannel_nextLaunch (s : State) (c : Channel) : (s.putChannel c).nextLaunch = s.nextLaunch := rfl
@[simp] theorem State.putChannel_refusals (s : State) (c : Channel) : (s.putChannel c).refusals = s.refusals := rfl
@[simp] theorem State.putChannel_launches (s : State) (c : Channel) : (s.putChannel c).launches = s.launches := rfl
@[simp] theorem State.putChannel_teams (s : State) (c : Channel) : (s.putChannel c).teams = s.teams := rfl
@[simp] theorem State.putChannel_blocks (s : State) (c : Channel) : (s.putChannel c).blocks = s.blocks := rfl
@[simp] theorem State.putChannel_puts (s : State) (c : Channel) : (s.putChannel c).puts = s.puts := rfl
@[simp] theorem State.putChannel_objects (s : State) (c : Channel) : (s.putChannel c).objects = s.objects := rfl
@[simp] theorem State.putChannel_peerOpens (s : State) (c : Channel) : (s.putChannel c).peerOpens = s.peerOpens := rfl
@[simp] theorem State.putChannel_opens (s : State) (c : Channel) : (s.putChannel c).opens = s.opens := rfl
@[simp] theorem State.putChannel_adds (s : State) (c : Channel) : (s.putChannel c).adds = s.adds := rfl
@[simp] theorem State.putChannel_slices (s : State) (c : Channel) : (s.putChannel c).slices = s.slices := rfl
@[simp] theorem State.putChannel_seqs (s : State) (c : Channel) : (s.putChannel c).seqs = s.seqs := rfl
@[simp] theorem State.putChannel_detMode (s : State) (c : Channel) : (s.putChannel c).detMode = s.detMode := rfl
@[simp] theorem State.putChannel_gated (s : State) (c : Channel) : (s.putChannel c).gated = s.gated := rfl
@[simp] theorem State.putChannel_cores (s : State) (c : Channel) : (s.putChannel c).cores = s.cores := rfl
@[simp] theorem State.putChannel_dies (s : State) (c : Channel) : (s.putChannel c).dies = s.dies := rfl
@[simp] theorem State.putChannel_gens (s : State) (c : Channel) : (s.putChannel c).gens = s.gens := rfl
@[simp] theorem State.putChannel_fabric (s : State) (c : Channel) : (s.putChannel c).fabric = s.fabric := rfl
@[simp] theorem State.putChannel_reports (s : State) (c : Channel) : (s.putChannel c).reports = s.reports := rfl
@[simp] theorem State.putChannel_interrupts (s : State) (c : Channel) : (s.putChannel c).interrupts = s.interrupts := rfl
@[simp] theorem State.putChannel_measurements (s : State) (c : Channel) : (s.putChannel c).measurements = s.measurements := rfl
@[simp] theorem State.putChannel_attestation (s : State) (c : Channel) : (s.putChannel c).attestation = s.attestation := rfl
@[simp] theorem State.putChannel_hostRead (s : State) (c : Channel) : (s.putChannel c).hostRead = s.hostRead := rfl

@[simp] theorem State.setSeq_agenda (s : State) (t g : Nat) (n : BitVec 32) : (s.setSeq t g n).agenda = s.agenda := rfl
@[simp] theorem State.setSeq_cur (s : State) (t g : Nat) (n : BitVec 32) : (s.setSeq t g n).cur = s.cur := rfl
@[simp] theorem State.setSeq_beat (s : State) (t g : Nat) (n : BitVec 32) : (s.setSeq t g n).beat = s.beat := rfl
@[simp] theorem State.setSeq_freeCtr (s : State) (t g : Nat) (n : BitVec 32) : (s.setSeq t g n).freeCtr = s.freeCtr := rfl
@[simp] theorem State.setSeq_nextUid (s : State) (t g : Nat) (n : BitVec 32) : (s.setSeq t g n).nextUid = s.nextUid := rfl
@[simp] theorem State.setSeq_wallNs (s : State) (t g : Nat) (n : BitVec 32) : (s.setSeq t g n).wallNs = s.wallNs := rfl
@[simp] theorem State.setSeq_mem (s : State) (t g : Nat) (n : BitVec 32) : (s.setSeq t g n).mem = s.mem := rfl
@[simp] theorem State.setSeq_hostMem (s : State) (t g : Nat) (n : BitVec 32) : (s.setSeq t g n).hostMem = s.hostMem := rfl
@[simp] theorem State.setSeq_safeTier (s : State) (t g : Nat) (n : BitVec 32) : (s.setSeq t g n).safeTier = s.safeTier := rfl
@[simp] theorem State.setSeq_checkpoint (s : State) (t g : Nat) (n : BitVec 32) : (s.setSeq t g n).checkpoint = s.checkpoint := rfl
@[simp] theorem State.setSeq_overwritten (s : State) (t g : Nat) (n : BitVec 32) : (s.setSeq t g n).overwritten = s.overwritten := rfl
@[simp] theorem State.setSeq_poison (s : State) (t g : Nat) (n : BitVec 32) : (s.setSeq t g n).poison = s.poison := rfl
@[simp] theorem State.setSeq_hostPoison (s : State) (t g : Nat) (n : BitVec 32) : (s.setSeq t g n).hostPoison = s.hostPoison := rfl
@[simp] theorem State.setSeq_control (s : State) (t g : Nat) (n : BitVec 32) : (s.setSeq t g n).control = s.control := rfl
@[simp] theorem State.setSeq_asids (s : State) (t g : Nat) (n : BitVec 32) : (s.setSeq t g n).asids = s.asids := rfl
@[simp] theorem State.setSeq_classes (s : State) (t g : Nat) (n : BitVec 32) : (s.setSeq t g n).classes = s.classes := rfl
@[simp] theorem State.setSeq_nextLaunch (s : State) (t g : Nat) (n : BitVec 32) : (s.setSeq t g n).nextLaunch = s.nextLaunch := rfl
@[simp] theorem State.setSeq_refusals (s : State) (t g : Nat) (n : BitVec 32) : (s.setSeq t g n).refusals = s.refusals := rfl
@[simp] theorem State.setSeq_launches (s : State) (t g : Nat) (n : BitVec 32) : (s.setSeq t g n).launches = s.launches := rfl
@[simp] theorem State.setSeq_teams (s : State) (t g : Nat) (n : BitVec 32) : (s.setSeq t g n).teams = s.teams := rfl
@[simp] theorem State.setSeq_blocks (s : State) (t g : Nat) (n : BitVec 32) : (s.setSeq t g n).blocks = s.blocks := rfl
@[simp] theorem State.setSeq_puts (s : State) (t g : Nat) (n : BitVec 32) : (s.setSeq t g n).puts = s.puts := rfl
@[simp] theorem State.setSeq_objects (s : State) (t g : Nat) (n : BitVec 32) : (s.setSeq t g n).objects = s.objects := rfl
@[simp] theorem State.setSeq_peerOpens (s : State) (t g : Nat) (n : BitVec 32) : (s.setSeq t g n).peerOpens = s.peerOpens := rfl
@[simp] theorem State.setSeq_opens (s : State) (t g : Nat) (n : BitVec 32) : (s.setSeq t g n).opens = s.opens := rfl
@[simp] theorem State.setSeq_adds (s : State) (t g : Nat) (n : BitVec 32) : (s.setSeq t g n).adds = s.adds := rfl
@[simp] theorem State.setSeq_slices (s : State) (t g : Nat) (n : BitVec 32) : (s.setSeq t g n).slices = s.slices := rfl
@[simp] theorem State.setSeq_detMode (s : State) (t g : Nat) (n : BitVec 32) : (s.setSeq t g n).detMode = s.detMode := rfl
@[simp] theorem State.setSeq_channels (s : State) (t g : Nat) (n : BitVec 32) : (s.setSeq t g n).channels = s.channels := rfl
@[simp] theorem State.setSeq_gated (s : State) (t g : Nat) (n : BitVec 32) : (s.setSeq t g n).gated = s.gated := rfl
@[simp] theorem State.setSeq_cores (s : State) (t g : Nat) (n : BitVec 32) : (s.setSeq t g n).cores = s.cores := rfl
@[simp] theorem State.setSeq_dies (s : State) (t g : Nat) (n : BitVec 32) : (s.setSeq t g n).dies = s.dies := rfl
@[simp] theorem State.setSeq_gens (s : State) (t g : Nat) (n : BitVec 32) : (s.setSeq t g n).gens = s.gens := rfl
@[simp] theorem State.setSeq_fabric (s : State) (t g : Nat) (n : BitVec 32) : (s.setSeq t g n).fabric = s.fabric := rfl
@[simp] theorem State.setSeq_reports (s : State) (t g : Nat) (n : BitVec 32) : (s.setSeq t g n).reports = s.reports := rfl
@[simp] theorem State.setSeq_interrupts (s : State) (t g : Nat) (n : BitVec 32) : (s.setSeq t g n).interrupts = s.interrupts := rfl
@[simp] theorem State.setSeq_measurements (s : State) (t g : Nat) (n : BitVec 32) : (s.setSeq t g n).measurements = s.measurements := rfl
@[simp] theorem State.setSeq_attestation (s : State) (t g : Nat) (n : BitVec 32) : (s.setSeq t g n).attestation = s.attestation := rfl
@[simp] theorem State.setSeq_hostRead (s : State) (t g : Nat) (n : BitVec 32) : (s.setSeq t g n).hostRead = s.hostRead := rfl

@[simp] theorem State.setInval_agenda (s : State) (w : Option DWord) : (s.setInval w).agenda = s.agenda := rfl
@[simp] theorem State.setInval_cur (s : State) (w : Option DWord) : (s.setInval w).cur = s.cur := rfl
@[simp] theorem State.setInval_beat (s : State) (w : Option DWord) : (s.setInval w).beat = s.beat := rfl
@[simp] theorem State.setInval_freeCtr (s : State) (w : Option DWord) : (s.setInval w).freeCtr = s.freeCtr := rfl
@[simp] theorem State.setInval_nextUid (s : State) (w : Option DWord) : (s.setInval w).nextUid = s.nextUid := rfl
@[simp] theorem State.setInval_wallNs (s : State) (w : Option DWord) : (s.setInval w).wallNs = s.wallNs := rfl
@[simp] theorem State.setInval_mem (s : State) (w : Option DWord) : (s.setInval w).mem = s.mem := rfl
@[simp] theorem State.setInval_hostMem (s : State) (w : Option DWord) : (s.setInval w).hostMem = s.hostMem := rfl
@[simp] theorem State.setInval_safeTier (s : State) (w : Option DWord) : (s.setInval w).safeTier = s.safeTier := rfl
@[simp] theorem State.setInval_checkpoint (s : State) (w : Option DWord) : (s.setInval w).checkpoint = s.checkpoint := rfl
@[simp] theorem State.setInval_overwritten (s : State) (w : Option DWord) : (s.setInval w).overwritten = s.overwritten := rfl
@[simp] theorem State.setInval_poison (s : State) (w : Option DWord) : (s.setInval w).poison = s.poison := rfl
@[simp] theorem State.setInval_hostPoison (s : State) (w : Option DWord) : (s.setInval w).hostPoison = s.hostPoison := rfl
@[simp] theorem State.setInval_asids (s : State) (w : Option DWord) : (s.setInval w).asids = s.asids := rfl
@[simp] theorem State.setInval_classes (s : State) (w : Option DWord) : (s.setInval w).classes = s.classes := rfl
@[simp] theorem State.setInval_nextLaunch (s : State) (w : Option DWord) : (s.setInval w).nextLaunch = s.nextLaunch := rfl
@[simp] theorem State.setInval_refusals (s : State) (w : Option DWord) : (s.setInval w).refusals = s.refusals := rfl
@[simp] theorem State.setInval_launches (s : State) (w : Option DWord) : (s.setInval w).launches = s.launches := rfl
@[simp] theorem State.setInval_teams (s : State) (w : Option DWord) : (s.setInval w).teams = s.teams := rfl
@[simp] theorem State.setInval_blocks (s : State) (w : Option DWord) : (s.setInval w).blocks = s.blocks := rfl
@[simp] theorem State.setInval_puts (s : State) (w : Option DWord) : (s.setInval w).puts = s.puts := rfl
@[simp] theorem State.setInval_objects (s : State) (w : Option DWord) : (s.setInval w).objects = s.objects := rfl
@[simp] theorem State.setInval_peerOpens (s : State) (w : Option DWord) : (s.setInval w).peerOpens = s.peerOpens := rfl
@[simp] theorem State.setInval_opens (s : State) (w : Option DWord) : (s.setInval w).opens = s.opens := rfl
@[simp] theorem State.setInval_adds (s : State) (w : Option DWord) : (s.setInval w).adds = s.adds := rfl
@[simp] theorem State.setInval_slices (s : State) (w : Option DWord) : (s.setInval w).slices = s.slices := rfl
@[simp] theorem State.setInval_seqs (s : State) (w : Option DWord) : (s.setInval w).seqs = s.seqs := rfl
@[simp] theorem State.setInval_detMode (s : State) (w : Option DWord) : (s.setInval w).detMode = s.detMode := rfl
@[simp] theorem State.setInval_channels (s : State) (w : Option DWord) : (s.setInval w).channels = s.channels := rfl
@[simp] theorem State.setInval_gated (s : State) (w : Option DWord) : (s.setInval w).gated = s.gated := rfl
@[simp] theorem State.setInval_cores (s : State) (w : Option DWord) : (s.setInval w).cores = s.cores := rfl
@[simp] theorem State.setInval_dies (s : State) (w : Option DWord) : (s.setInval w).dies = s.dies := rfl
@[simp] theorem State.setInval_gens (s : State) (w : Option DWord) : (s.setInval w).gens = s.gens := rfl
@[simp] theorem State.setInval_fabric (s : State) (w : Option DWord) : (s.setInval w).fabric = s.fabric := rfl
@[simp] theorem State.setInval_reports (s : State) (w : Option DWord) : (s.setInval w).reports = s.reports := rfl
@[simp] theorem State.setInval_interrupts (s : State) (w : Option DWord) : (s.setInval w).interrupts = s.interrupts := rfl
@[simp] theorem State.setInval_measurements (s : State) (w : Option DWord) : (s.setInval w).measurements = s.measurements := rfl
@[simp] theorem State.setInval_attestation (s : State) (w : Option DWord) : (s.setInval w).attestation = s.attestation := rfl
@[simp] theorem State.setInval_hostRead (s : State) (w : Option DWord) : (s.setInval w).hostRead = s.hostRead := rfl

@[simp] theorem State.bump_agenda (s : State) (n : Nat) : (s.bump n).agenda = s.agenda := rfl
@[simp] theorem State.bump_cur (s : State) (n : Nat) : (s.bump n).cur = s.cur := rfl
@[simp] theorem State.bump_beat (s : State) (n : Nat) : (s.bump n).beat = s.beat := rfl
@[simp] theorem State.bump_nextUid (s : State) (n : Nat) : (s.bump n).nextUid = s.nextUid := rfl
@[simp] theorem State.bump_wallNs (s : State) (n : Nat) : (s.bump n).wallNs = s.wallNs := rfl
@[simp] theorem State.bump_mem (s : State) (n : Nat) : (s.bump n).mem = s.mem := rfl
@[simp] theorem State.bump_hostMem (s : State) (n : Nat) : (s.bump n).hostMem = s.hostMem := rfl
@[simp] theorem State.bump_safeTier (s : State) (n : Nat) : (s.bump n).safeTier = s.safeTier := rfl
@[simp] theorem State.bump_checkpoint (s : State) (n : Nat) : (s.bump n).checkpoint = s.checkpoint := rfl
@[simp] theorem State.bump_overwritten (s : State) (n : Nat) : (s.bump n).overwritten = s.overwritten := rfl
@[simp] theorem State.bump_poison (s : State) (n : Nat) : (s.bump n).poison = s.poison := rfl
@[simp] theorem State.bump_hostPoison (s : State) (n : Nat) : (s.bump n).hostPoison = s.hostPoison := rfl
@[simp] theorem State.bump_control (s : State) (n : Nat) : (s.bump n).control = s.control := rfl
@[simp] theorem State.bump_asids (s : State) (n : Nat) : (s.bump n).asids = s.asids := rfl
@[simp] theorem State.bump_classes (s : State) (n : Nat) : (s.bump n).classes = s.classes := rfl
@[simp] theorem State.bump_nextLaunch (s : State) (n : Nat) : (s.bump n).nextLaunch = s.nextLaunch := rfl
@[simp] theorem State.bump_refusals (s : State) (n : Nat) : (s.bump n).refusals = s.refusals := rfl
@[simp] theorem State.bump_launches (s : State) (n : Nat) : (s.bump n).launches = s.launches := rfl
@[simp] theorem State.bump_teams (s : State) (n : Nat) : (s.bump n).teams = s.teams := rfl
@[simp] theorem State.bump_blocks (s : State) (n : Nat) : (s.bump n).blocks = s.blocks := rfl
@[simp] theorem State.bump_puts (s : State) (n : Nat) : (s.bump n).puts = s.puts := rfl
@[simp] theorem State.bump_objects (s : State) (n : Nat) : (s.bump n).objects = s.objects := rfl
@[simp] theorem State.bump_peerOpens (s : State) (n : Nat) : (s.bump n).peerOpens = s.peerOpens := rfl
@[simp] theorem State.bump_opens (s : State) (n : Nat) : (s.bump n).opens = s.opens := rfl
@[simp] theorem State.bump_adds (s : State) (n : Nat) : (s.bump n).adds = s.adds := rfl
@[simp] theorem State.bump_slices (s : State) (n : Nat) : (s.bump n).slices = s.slices := rfl
@[simp] theorem State.bump_seqs (s : State) (n : Nat) : (s.bump n).seqs = s.seqs := rfl
@[simp] theorem State.bump_detMode (s : State) (n : Nat) : (s.bump n).detMode = s.detMode := rfl
@[simp] theorem State.bump_channels (s : State) (n : Nat) : (s.bump n).channels = s.channels := rfl
@[simp] theorem State.bump_gated (s : State) (n : Nat) : (s.bump n).gated = s.gated := rfl
@[simp] theorem State.bump_cores (s : State) (n : Nat) : (s.bump n).cores = s.cores := rfl
@[simp] theorem State.bump_dies (s : State) (n : Nat) : (s.bump n).dies = s.dies := rfl
@[simp] theorem State.bump_gens (s : State) (n : Nat) : (s.bump n).gens = s.gens := rfl
@[simp] theorem State.bump_fabric (s : State) (n : Nat) : (s.bump n).fabric = s.fabric := rfl
@[simp] theorem State.bump_reports (s : State) (n : Nat) : (s.bump n).reports = s.reports := rfl
@[simp] theorem State.bump_interrupts (s : State) (n : Nat) : (s.bump n).interrupts = s.interrupts := rfl
@[simp] theorem State.bump_measurements (s : State) (n : Nat) : (s.bump n).measurements = s.measurements := rfl
@[simp] theorem State.bump_attestation (s : State) (n : Nat) : (s.bump n).attestation = s.attestation := rfl
@[simp] theorem State.bump_hostRead (s : State) (n : Nat) : (s.bump n).hostRead = s.hostRead := rfl

@[simp] theorem State.setBytes_agenda (s : State) (l : Loc) (bs : List Byte) : (s.setBytes l bs).agenda = s.agenda := by
  unfold State.setBytes; split <;> rfl
@[simp] theorem State.setBytes_cur (s : State) (l : Loc) (bs : List Byte) : (s.setBytes l bs).cur = s.cur := by
  unfold State.setBytes; split <;> rfl
@[simp] theorem State.setBytes_beat (s : State) (l : Loc) (bs : List Byte) : (s.setBytes l bs).beat = s.beat := by
  unfold State.setBytes; split <;> rfl
@[simp] theorem State.setBytes_freeCtr (s : State) (l : Loc) (bs : List Byte) : (s.setBytes l bs).freeCtr = s.freeCtr := by
  unfold State.setBytes; split <;> rfl
@[simp] theorem State.setBytes_nextUid (s : State) (l : Loc) (bs : List Byte) : (s.setBytes l bs).nextUid = s.nextUid := by
  unfold State.setBytes; split <;> rfl
@[simp] theorem State.setBytes_wallNs (s : State) (l : Loc) (bs : List Byte) : (s.setBytes l bs).wallNs = s.wallNs := by
  unfold State.setBytes; split <;> rfl
@[simp] theorem State.setBytes_safeTier (s : State) (l : Loc) (bs : List Byte) : (s.setBytes l bs).safeTier = s.safeTier := by
  unfold State.setBytes; split <;> rfl
@[simp] theorem State.setBytes_checkpoint (s : State) (l : Loc) (bs : List Byte) : (s.setBytes l bs).checkpoint = s.checkpoint := by
  unfold State.setBytes; split <;> rfl
@[simp] theorem State.setBytes_overwritten (s : State) (l : Loc) (bs : List Byte) : (s.setBytes l bs).overwritten = s.overwritten := by
  unfold State.setBytes; split <;> rfl
@[simp] theorem State.setBytes_poison (s : State) (l : Loc) (bs : List Byte) : (s.setBytes l bs).poison = s.poison := by
  unfold State.setBytes; split <;> rfl
@[simp] theorem State.setBytes_hostPoison (s : State) (l : Loc) (bs : List Byte) : (s.setBytes l bs).hostPoison = s.hostPoison := by
  unfold State.setBytes; split <;> rfl
@[simp] theorem State.setBytes_control (s : State) (l : Loc) (bs : List Byte) : (s.setBytes l bs).control = s.control := by
  unfold State.setBytes; split <;> rfl
@[simp] theorem State.setBytes_asids (s : State) (l : Loc) (bs : List Byte) : (s.setBytes l bs).asids = s.asids := by
  unfold State.setBytes; split <;> rfl
@[simp] theorem State.setBytes_classes (s : State) (l : Loc) (bs : List Byte) : (s.setBytes l bs).classes = s.classes := by
  unfold State.setBytes; split <;> rfl
@[simp] theorem State.setBytes_nextLaunch (s : State) (l : Loc) (bs : List Byte) : (s.setBytes l bs).nextLaunch = s.nextLaunch := by
  unfold State.setBytes; split <;> rfl
@[simp] theorem State.setBytes_refusals (s : State) (l : Loc) (bs : List Byte) : (s.setBytes l bs).refusals = s.refusals := by
  unfold State.setBytes; split <;> rfl
@[simp] theorem State.setBytes_launches (s : State) (l : Loc) (bs : List Byte) : (s.setBytes l bs).launches = s.launches := by
  unfold State.setBytes; split <;> rfl
@[simp] theorem State.setBytes_teams (s : State) (l : Loc) (bs : List Byte) : (s.setBytes l bs).teams = s.teams := by
  unfold State.setBytes; split <;> rfl
@[simp] theorem State.setBytes_blocks (s : State) (l : Loc) (bs : List Byte) : (s.setBytes l bs).blocks = s.blocks := by
  unfold State.setBytes; split <;> rfl
@[simp] theorem State.setBytes_puts (s : State) (l : Loc) (bs : List Byte) : (s.setBytes l bs).puts = s.puts := by
  unfold State.setBytes; split <;> rfl
@[simp] theorem State.setBytes_objects (s : State) (l : Loc) (bs : List Byte) : (s.setBytes l bs).objects = s.objects := by
  unfold State.setBytes; split <;> rfl
@[simp] theorem State.setBytes_peerOpens (s : State) (l : Loc) (bs : List Byte) : (s.setBytes l bs).peerOpens = s.peerOpens := by
  unfold State.setBytes; split <;> rfl
@[simp] theorem State.setBytes_opens (s : State) (l : Loc) (bs : List Byte) : (s.setBytes l bs).opens = s.opens := by
  unfold State.setBytes; split <;> rfl
@[simp] theorem State.setBytes_adds (s : State) (l : Loc) (bs : List Byte) : (s.setBytes l bs).adds = s.adds := by
  unfold State.setBytes; split <;> rfl
@[simp] theorem State.setBytes_slices (s : State) (l : Loc) (bs : List Byte) : (s.setBytes l bs).slices = s.slices := by
  unfold State.setBytes; split <;> rfl
@[simp] theorem State.setBytes_seqs (s : State) (l : Loc) (bs : List Byte) : (s.setBytes l bs).seqs = s.seqs := by
  unfold State.setBytes; split <;> rfl
@[simp] theorem State.setBytes_detMode (s : State) (l : Loc) (bs : List Byte) : (s.setBytes l bs).detMode = s.detMode := by
  unfold State.setBytes; split <;> rfl
@[simp] theorem State.setBytes_channels (s : State) (l : Loc) (bs : List Byte) : (s.setBytes l bs).channels = s.channels := by
  unfold State.setBytes; split <;> rfl
@[simp] theorem State.setBytes_gated (s : State) (l : Loc) (bs : List Byte) : (s.setBytes l bs).gated = s.gated := by
  unfold State.setBytes; split <;> rfl
@[simp] theorem State.setBytes_cores (s : State) (l : Loc) (bs : List Byte) : (s.setBytes l bs).cores = s.cores := by
  unfold State.setBytes; split <;> rfl
@[simp] theorem State.setBytes_dies (s : State) (l : Loc) (bs : List Byte) : (s.setBytes l bs).dies = s.dies := by
  unfold State.setBytes; split <;> rfl
@[simp] theorem State.setBytes_gens (s : State) (l : Loc) (bs : List Byte) : (s.setBytes l bs).gens = s.gens := by
  unfold State.setBytes; split <;> rfl
@[simp] theorem State.setBytes_fabric (s : State) (l : Loc) (bs : List Byte) : (s.setBytes l bs).fabric = s.fabric := by
  unfold State.setBytes; split <;> rfl
@[simp] theorem State.setBytes_reports (s : State) (l : Loc) (bs : List Byte) : (s.setBytes l bs).reports = s.reports := by
  unfold State.setBytes; split <;> rfl
@[simp] theorem State.setBytes_interrupts (s : State) (l : Loc) (bs : List Byte) : (s.setBytes l bs).interrupts = s.interrupts := by
  unfold State.setBytes; split <;> rfl
@[simp] theorem State.setBytes_measurements (s : State) (l : Loc) (bs : List Byte) : (s.setBytes l bs).measurements = s.measurements := by
  unfold State.setBytes; split <;> rfl
@[simp] theorem State.setBytes_attestation (s : State) (l : Loc) (bs : List Byte) : (s.setBytes l bs).attestation = s.attestation := by
  unfold State.setBytes; split <;> rfl
@[simp] theorem State.setBytes_hostRead (s : State) (l : Loc) (bs : List Byte) : (s.setBytes l bs).hostRead = s.hostRead := by
  unfold State.setBytes; split <;> rfl

@[simp] theorem State.setByte_agenda (s : State) (l : Loc) (b : Byte) : (s.setByte l b).agenda = s.agenda := by
  unfold State.setByte; split <;> rfl
@[simp] theorem State.setByte_cur (s : State) (l : Loc) (b : Byte) : (s.setByte l b).cur = s.cur := by
  unfold State.setByte; split <;> rfl
@[simp] theorem State.setByte_beat (s : State) (l : Loc) (b : Byte) : (s.setByte l b).beat = s.beat := by
  unfold State.setByte; split <;> rfl
@[simp] theorem State.setByte_freeCtr (s : State) (l : Loc) (b : Byte) : (s.setByte l b).freeCtr = s.freeCtr := by
  unfold State.setByte; split <;> rfl
@[simp] theorem State.setByte_nextUid (s : State) (l : Loc) (b : Byte) : (s.setByte l b).nextUid = s.nextUid := by
  unfold State.setByte; split <;> rfl
@[simp] theorem State.setByte_wallNs (s : State) (l : Loc) (b : Byte) : (s.setByte l b).wallNs = s.wallNs := by
  unfold State.setByte; split <;> rfl
@[simp] theorem State.setByte_safeTier (s : State) (l : Loc) (b : Byte) : (s.setByte l b).safeTier = s.safeTier := by
  unfold State.setByte; split <;> rfl
@[simp] theorem State.setByte_checkpoint (s : State) (l : Loc) (b : Byte) : (s.setByte l b).checkpoint = s.checkpoint := by
  unfold State.setByte; split <;> rfl
@[simp] theorem State.setByte_overwritten (s : State) (l : Loc) (b : Byte) : (s.setByte l b).overwritten = s.overwritten := by
  unfold State.setByte; split <;> rfl
@[simp] theorem State.setByte_poison (s : State) (l : Loc) (b : Byte) : (s.setByte l b).poison = s.poison := by
  unfold State.setByte; split <;> rfl
@[simp] theorem State.setByte_hostPoison (s : State) (l : Loc) (b : Byte) : (s.setByte l b).hostPoison = s.hostPoison := by
  unfold State.setByte; split <;> rfl
@[simp] theorem State.setByte_control (s : State) (l : Loc) (b : Byte) : (s.setByte l b).control = s.control := by
  unfold State.setByte; split <;> rfl
@[simp] theorem State.setByte_asids (s : State) (l : Loc) (b : Byte) : (s.setByte l b).asids = s.asids := by
  unfold State.setByte; split <;> rfl
@[simp] theorem State.setByte_classes (s : State) (l : Loc) (b : Byte) : (s.setByte l b).classes = s.classes := by
  unfold State.setByte; split <;> rfl
@[simp] theorem State.setByte_nextLaunch (s : State) (l : Loc) (b : Byte) : (s.setByte l b).nextLaunch = s.nextLaunch := by
  unfold State.setByte; split <;> rfl
@[simp] theorem State.setByte_refusals (s : State) (l : Loc) (b : Byte) : (s.setByte l b).refusals = s.refusals := by
  unfold State.setByte; split <;> rfl
@[simp] theorem State.setByte_launches (s : State) (l : Loc) (b : Byte) : (s.setByte l b).launches = s.launches := by
  unfold State.setByte; split <;> rfl
@[simp] theorem State.setByte_teams (s : State) (l : Loc) (b : Byte) : (s.setByte l b).teams = s.teams := by
  unfold State.setByte; split <;> rfl
@[simp] theorem State.setByte_blocks (s : State) (l : Loc) (b : Byte) : (s.setByte l b).blocks = s.blocks := by
  unfold State.setByte; split <;> rfl
@[simp] theorem State.setByte_puts (s : State) (l : Loc) (b : Byte) : (s.setByte l b).puts = s.puts := by
  unfold State.setByte; split <;> rfl
@[simp] theorem State.setByte_objects (s : State) (l : Loc) (b : Byte) : (s.setByte l b).objects = s.objects := by
  unfold State.setByte; split <;> rfl
@[simp] theorem State.setByte_peerOpens (s : State) (l : Loc) (b : Byte) : (s.setByte l b).peerOpens = s.peerOpens := by
  unfold State.setByte; split <;> rfl
@[simp] theorem State.setByte_opens (s : State) (l : Loc) (b : Byte) : (s.setByte l b).opens = s.opens := by
  unfold State.setByte; split <;> rfl
@[simp] theorem State.setByte_adds (s : State) (l : Loc) (b : Byte) : (s.setByte l b).adds = s.adds := by
  unfold State.setByte; split <;> rfl
@[simp] theorem State.setByte_slices (s : State) (l : Loc) (b : Byte) : (s.setByte l b).slices = s.slices := by
  unfold State.setByte; split <;> rfl
@[simp] theorem State.setByte_seqs (s : State) (l : Loc) (b : Byte) : (s.setByte l b).seqs = s.seqs := by
  unfold State.setByte; split <;> rfl
@[simp] theorem State.setByte_detMode (s : State) (l : Loc) (b : Byte) : (s.setByte l b).detMode = s.detMode := by
  unfold State.setByte; split <;> rfl
@[simp] theorem State.setByte_channels (s : State) (l : Loc) (b : Byte) : (s.setByte l b).channels = s.channels := by
  unfold State.setByte; split <;> rfl
@[simp] theorem State.setByte_gated (s : State) (l : Loc) (b : Byte) : (s.setByte l b).gated = s.gated := by
  unfold State.setByte; split <;> rfl
@[simp] theorem State.setByte_cores (s : State) (l : Loc) (b : Byte) : (s.setByte l b).cores = s.cores := by
  unfold State.setByte; split <;> rfl
@[simp] theorem State.setByte_dies (s : State) (l : Loc) (b : Byte) : (s.setByte l b).dies = s.dies := by
  unfold State.setByte; split <;> rfl
@[simp] theorem State.setByte_gens (s : State) (l : Loc) (b : Byte) : (s.setByte l b).gens = s.gens := by
  unfold State.setByte; split <;> rfl
@[simp] theorem State.setByte_fabric (s : State) (l : Loc) (b : Byte) : (s.setByte l b).fabric = s.fabric := by
  unfold State.setByte; split <;> rfl
@[simp] theorem State.setByte_reports (s : State) (l : Loc) (b : Byte) : (s.setByte l b).reports = s.reports := by
  unfold State.setByte; split <;> rfl
@[simp] theorem State.setByte_interrupts (s : State) (l : Loc) (b : Byte) : (s.setByte l b).interrupts = s.interrupts := by
  unfold State.setByte; split <;> rfl
@[simp] theorem State.setByte_measurements (s : State) (l : Loc) (b : Byte) : (s.setByte l b).measurements = s.measurements := by
  unfold State.setByte; split <;> rfl
@[simp] theorem State.setByte_attestation (s : State) (l : Loc) (b : Byte) : (s.setByte l b).attestation = s.attestation := by
  unfold State.setByte; split <;> rfl
@[simp] theorem State.setByte_hostRead (s : State) (l : Loc) (b : Byte) : (s.setByte l b).hostRead = s.hostRead := by
  unfold State.setByte; split <;> rfl

@[simp] theorem State.putBlock_blocks (s : State) (b : Block) :
    (s.putBlock b).blocks = s.blocks.map fun x => if x.id = b.id && !x.fence then b else x := rfl
@[simp] theorem State.putObject_objects (s : State) (o : RedObj) :
    (s.putObject o).objects = s.objects.map fun x => if x.born = o.born then o else x := rfl
@[simp] theorem State.putChannel_channels (s : State) (c : Channel) :
    (s.putChannel c).channels = c :: s.channels.filter (·.ch ≠ c.ch) := rfl
@[simp] theorem State.setInval_control (s : State) (w : Option DWord) :
    (s.setInval w).control = { s.control with inval := w } := rfl
@[simp] theorem State.putDie_dies (s : State) (d : Nat) (D : Die) : (s.putDie d D).dies = s.dies.set d D := rfl
@[simp] theorem State.bump_freeCtr (s : State) (n : Nat) : (s.bump n).freeCtr = s.freeCtr + n := rfl

/-! ## Updates of a team -/

@[simp] theorem Team.putGroup_uid (T : Team) (G : Group) : (T.putGroup G).uid = T.uid := rfl
@[simp] theorem Team.putGroup_launch (T : Team) (G : Group) : (T.putGroup G).launch = T.launch := rfl
@[simp] theorem Team.putGroup_asid (T : Team) (G : Group) : (T.putGroup G).asid = T.asid := rfl
@[simp] theorem Team.putGroup_die (T : Team) (G : Group) : (T.putGroup G).die = T.die := rfl
@[simp] theorem Team.putGroup_core (T : Team) (G : Group) : (T.putGroup G).core = T.core := rfl
@[simp] theorem Team.putGroup_num (T : Team) (G : Group) : (T.putGroup G).num = T.num := rfl
@[simp] theorem Team.putGroup_g (T : Team) (G : Group) : (T.putGroup G).g = T.g := rfl
@[simp] theorem Team.putGroup_point (T : Team) (G : Group) : (T.putGroup G).point = T.point := rfl
@[simp] theorem Team.putGroup_page (T : Team) (G : Group) : (T.putGroup G).page = T.page := rfl
@[simp] theorem Team.putGroup_pages (T : Team) (G : Group) : (T.putGroup G).pages = T.pages := rfl
@[simp] theorem Team.putGroup_window (T : Team) (G : Group) : (T.putGroup G).window = T.window := rfl
@[simp] theorem Team.putGroup_backing (T : Team) (G : Group) : (T.putGroup G).backing = T.backing := rfl
@[simp] theorem Team.putGroup_pad (T : Team) (G : Group) : (T.putGroup G).pad = T.pad := rfl
@[simp] theorem Team.putGroup_written (T : Team) (G : Group) : (T.putGroup G).written = T.written := rfl
@[simp] theorem Team.putGroup_unregistered (T : Team) (G : Group) : (T.putGroup G).unregistered = T.unregistered := rfl
@[simp] theorem Team.putGroup_full (T : Team) (G : Group) : (T.putGroup G).full = T.full := rfl
@[simp] theorem Team.putGroup_arrays (T : Team) (G : Group) : (T.putGroup G).arrays = T.arrays := rfl
@[simp] theorem Team.putGroup_maps (T : Team) (G : Group) : (T.putGroup G).maps = T.maps := rfl
@[simp] theorem Team.putGroup_bars (T : Team) (G : Group) : (T.putGroup G).bars = T.bars := rfl
@[simp] theorem Team.putGroup_cell (T : Team) (G : Group) : (T.putGroup G).cell = T.cell := rfl
@[simp] theorem Team.putGroup_leaving (T : Team) (G : Group) : (T.putGroup G).leaving = T.leaving := rfl
@[simp] theorem Team.putGroup_place (T : Team) (G : Group) : (T.putGroup G).place = T.place := rfl
@[simp] theorem Team.putGroup_frozen (T : Team) (G : Group) : (T.putGroup G).frozen = T.frozen := rfl
@[simp] theorem Team.putGroup_posted (T : Team) (G : Group) : (T.putGroup G).posted = T.posted := rfl
@[simp] theorem Team.putGroup_drain (T : Team) (G : Group) : (T.putGroup G).drain = T.drain := rfl
@[simp] theorem Team.putGroup_ending (T : Team) (G : Group) : (T.putGroup G).ending = T.ending := rfl
@[simp] theorem Team.putGroup_lull (T : Team) (G : Group) : (T.putGroup G).lull = T.lull := rfl
@[simp] theorem Team.putGroup_lullAt (T : Team) (G : Group) : (T.putGroup G).lullAt = T.lullAt := rfl
@[simp] theorem Team.putGroup_lullWaits (T : Team) (G : Group) : (T.putGroup G).lullWaits = T.lullWaits := rfl
@[simp] theorem Team.putGroup_metAt (T : Team) (G : Group) : (T.putGroup G).metAt = T.metAt := rfl
@[simp] theorem Team.putGroup_thawing (T : Team) (G : Group) : (T.putGroup G).thawing = T.thawing := rfl
@[simp] theorem Team.putGroup_restoring (T : Team) (G : Group) : (T.putGroup G).restoring = T.restoring := rfl
@[simp] theorem Team.putGroup_placedAt (T : Team) (G : Group) : (T.putGroup G).placedAt = T.placedAt := rfl
@[simp] theorem Team.putGroup_watch (T : Team) (G : Group) : (T.putGroup G).watch = T.watch := rfl
@[simp] theorem Team.putGroup_saveSince (T : Team) (G : Group) : (T.putGroup G).saveSince = T.saveSince := rfl
@[simp] theorem Team.putGroup_watchReported (T : Team) (G : Group) : (T.putGroup G).watchReported = T.watchReported := rfl

@[simp] theorem Team.setPad_uid (T : Team) (off : Nat) (b : Byte) : (T.setPad off b).uid = T.uid := rfl
@[simp] theorem Team.setPad_launch (T : Team) (off : Nat) (b : Byte) : (T.setPad off b).launch = T.launch := rfl
@[simp] theorem Team.setPad_asid (T : Team) (off : Nat) (b : Byte) : (T.setPad off b).asid = T.asid := rfl
@[simp] theorem Team.setPad_die (T : Team) (off : Nat) (b : Byte) : (T.setPad off b).die = T.die := rfl
@[simp] theorem Team.setPad_core (T : Team) (off : Nat) (b : Byte) : (T.setPad off b).core = T.core := rfl
@[simp] theorem Team.setPad_num (T : Team) (off : Nat) (b : Byte) : (T.setPad off b).num = T.num := rfl
@[simp] theorem Team.setPad_g (T : Team) (off : Nat) (b : Byte) : (T.setPad off b).g = T.g := rfl
@[simp] theorem Team.setPad_point (T : Team) (off : Nat) (b : Byte) : (T.setPad off b).point = T.point := rfl
@[simp] theorem Team.setPad_groups (T : Team) (off : Nat) (b : Byte) : (T.setPad off b).groups = T.groups := rfl
@[simp] theorem Team.setPad_page (T : Team) (off : Nat) (b : Byte) : (T.setPad off b).page = T.page := rfl
@[simp] theorem Team.setPad_pages (T : Team) (off : Nat) (b : Byte) : (T.setPad off b).pages = T.pages := rfl
@[simp] theorem Team.setPad_window (T : Team) (off : Nat) (b : Byte) : (T.setPad off b).window = T.window := rfl
@[simp] theorem Team.setPad_backing (T : Team) (off : Nat) (b : Byte) : (T.setPad off b).backing = T.backing := rfl
@[simp] theorem Team.setPad_full (T : Team) (off : Nat) (b : Byte) : (T.setPad off b).full = T.full := rfl
@[simp] theorem Team.setPad_arrays (T : Team) (off : Nat) (b : Byte) : (T.setPad off b).arrays = T.arrays := rfl
@[simp] theorem Team.setPad_maps (T : Team) (off : Nat) (b : Byte) : (T.setPad off b).maps = T.maps := rfl
@[simp] theorem Team.setPad_bars (T : Team) (off : Nat) (b : Byte) : (T.setPad off b).bars = T.bars := rfl
@[simp] theorem Team.setPad_cell (T : Team) (off : Nat) (b : Byte) : (T.setPad off b).cell = T.cell := rfl
@[simp] theorem Team.setPad_leaving (T : Team) (off : Nat) (b : Byte) : (T.setPad off b).leaving = T.leaving := rfl
@[simp] theorem Team.setPad_place (T : Team) (off : Nat) (b : Byte) : (T.setPad off b).place = T.place := rfl
@[simp] theorem Team.setPad_frozen (T : Team) (off : Nat) (b : Byte) : (T.setPad off b).frozen = T.frozen := rfl
@[simp] theorem Team.setPad_posted (T : Team) (off : Nat) (b : Byte) : (T.setPad off b).posted = T.posted := rfl
@[simp] theorem Team.setPad_drain (T : Team) (off : Nat) (b : Byte) : (T.setPad off b).drain = T.drain := rfl
@[simp] theorem Team.setPad_ending (T : Team) (off : Nat) (b : Byte) : (T.setPad off b).ending = T.ending := rfl
@[simp] theorem Team.setPad_lull (T : Team) (off : Nat) (b : Byte) : (T.setPad off b).lull = T.lull := rfl
@[simp] theorem Team.setPad_lullAt (T : Team) (off : Nat) (b : Byte) : (T.setPad off b).lullAt = T.lullAt := rfl
@[simp] theorem Team.setPad_lullWaits (T : Team) (off : Nat) (b : Byte) : (T.setPad off b).lullWaits = T.lullWaits := rfl
@[simp] theorem Team.setPad_metAt (T : Team) (off : Nat) (b : Byte) : (T.setPad off b).metAt = T.metAt := rfl
@[simp] theorem Team.setPad_thawing (T : Team) (off : Nat) (b : Byte) : (T.setPad off b).thawing = T.thawing := rfl
@[simp] theorem Team.setPad_restoring (T : Team) (off : Nat) (b : Byte) : (T.setPad off b).restoring = T.restoring := rfl
@[simp] theorem Team.setPad_placedAt (T : Team) (off : Nat) (b : Byte) : (T.setPad off b).placedAt = T.placedAt := rfl
@[simp] theorem Team.setPad_watch (T : Team) (off : Nat) (b : Byte) : (T.setPad off b).watch = T.watch := rfl
@[simp] theorem Team.setPad_saveSince (T : Team) (off : Nat) (b : Byte) : (T.setPad off b).saveSince = T.saveSince := rfl
@[simp] theorem Team.setPad_watchReported (T : Team) (off : Nat) (b : Byte) : (T.setPad off b).watchReported = T.watchReported := rfl

@[simp] theorem Team.storePad_uid (T : Team) (off : Nat) (b : Byte) : (T.storePad off b).uid = T.uid := rfl
@[simp] theorem Team.storePad_launch (T : Team) (off : Nat) (b : Byte) : (T.storePad off b).launch = T.launch := rfl
@[simp] theorem Team.storePad_asid (T : Team) (off : Nat) (b : Byte) : (T.storePad off b).asid = T.asid := rfl
@[simp] theorem Team.storePad_die (T : Team) (off : Nat) (b : Byte) : (T.storePad off b).die = T.die := rfl
@[simp] theorem Team.storePad_core (T : Team) (off : Nat) (b : Byte) : (T.storePad off b).core = T.core := rfl
@[simp] theorem Team.storePad_num (T : Team) (off : Nat) (b : Byte) : (T.storePad off b).num = T.num := rfl
@[simp] theorem Team.storePad_g (T : Team) (off : Nat) (b : Byte) : (T.storePad off b).g = T.g := rfl
@[simp] theorem Team.storePad_point (T : Team) (off : Nat) (b : Byte) : (T.storePad off b).point = T.point := rfl
@[simp] theorem Team.storePad_groups (T : Team) (off : Nat) (b : Byte) : (T.storePad off b).groups = T.groups := rfl
@[simp] theorem Team.storePad_page (T : Team) (off : Nat) (b : Byte) : (T.storePad off b).page = T.page := rfl
@[simp] theorem Team.storePad_pages (T : Team) (off : Nat) (b : Byte) : (T.storePad off b).pages = T.pages := rfl
@[simp] theorem Team.storePad_window (T : Team) (off : Nat) (b : Byte) : (T.storePad off b).window = T.window := rfl
@[simp] theorem Team.storePad_backing (T : Team) (off : Nat) (b : Byte) : (T.storePad off b).backing = T.backing := rfl
@[simp] theorem Team.storePad_full (T : Team) (off : Nat) (b : Byte) : (T.storePad off b).full = T.full := rfl
@[simp] theorem Team.storePad_arrays (T : Team) (off : Nat) (b : Byte) : (T.storePad off b).arrays = T.arrays := rfl
@[simp] theorem Team.storePad_maps (T : Team) (off : Nat) (b : Byte) : (T.storePad off b).maps = T.maps := rfl
@[simp] theorem Team.storePad_bars (T : Team) (off : Nat) (b : Byte) : (T.storePad off b).bars = T.bars := rfl
@[simp] theorem Team.storePad_cell (T : Team) (off : Nat) (b : Byte) : (T.storePad off b).cell = T.cell := rfl
@[simp] theorem Team.storePad_leaving (T : Team) (off : Nat) (b : Byte) : (T.storePad off b).leaving = T.leaving := rfl
@[simp] theorem Team.storePad_place (T : Team) (off : Nat) (b : Byte) : (T.storePad off b).place = T.place := rfl
@[simp] theorem Team.storePad_frozen (T : Team) (off : Nat) (b : Byte) : (T.storePad off b).frozen = T.frozen := rfl
@[simp] theorem Team.storePad_posted (T : Team) (off : Nat) (b : Byte) : (T.storePad off b).posted = T.posted := rfl
@[simp] theorem Team.storePad_drain (T : Team) (off : Nat) (b : Byte) : (T.storePad off b).drain = T.drain := rfl
@[simp] theorem Team.storePad_ending (T : Team) (off : Nat) (b : Byte) : (T.storePad off b).ending = T.ending := rfl
@[simp] theorem Team.storePad_lull (T : Team) (off : Nat) (b : Byte) : (T.storePad off b).lull = T.lull := rfl
@[simp] theorem Team.storePad_lullAt (T : Team) (off : Nat) (b : Byte) : (T.storePad off b).lullAt = T.lullAt := rfl
@[simp] theorem Team.storePad_lullWaits (T : Team) (off : Nat) (b : Byte) : (T.storePad off b).lullWaits = T.lullWaits := rfl
@[simp] theorem Team.storePad_metAt (T : Team) (off : Nat) (b : Byte) : (T.storePad off b).metAt = T.metAt := rfl
@[simp] theorem Team.storePad_thawing (T : Team) (off : Nat) (b : Byte) : (T.storePad off b).thawing = T.thawing := rfl
@[simp] theorem Team.storePad_restoring (T : Team) (off : Nat) (b : Byte) : (T.storePad off b).restoring = T.restoring := rfl
@[simp] theorem Team.storePad_placedAt (T : Team) (off : Nat) (b : Byte) : (T.storePad off b).placedAt = T.placedAt := rfl
@[simp] theorem Team.storePad_watch (T : Team) (off : Nat) (b : Byte) : (T.storePad off b).watch = T.watch := rfl
@[simp] theorem Team.storePad_saveSince (T : Team) (off : Nat) (b : Byte) : (T.storePad off b).saveSince = T.saveSince := rfl
@[simp] theorem Team.storePad_watchReported (T : Team) (off : Nat) (b : Byte) : (T.storePad off b).watchReported = T.watchReported := rfl

@[simp] theorem Team.setFull_uid (T : Team) (off : Nat) (b : Bool) : (T.setFull off b).uid = T.uid := rfl
@[simp] theorem Team.setFull_launch (T : Team) (off : Nat) (b : Bool) : (T.setFull off b).launch = T.launch := rfl
@[simp] theorem Team.setFull_asid (T : Team) (off : Nat) (b : Bool) : (T.setFull off b).asid = T.asid := rfl
@[simp] theorem Team.setFull_die (T : Team) (off : Nat) (b : Bool) : (T.setFull off b).die = T.die := rfl
@[simp] theorem Team.setFull_core (T : Team) (off : Nat) (b : Bool) : (T.setFull off b).core = T.core := rfl
@[simp] theorem Team.setFull_num (T : Team) (off : Nat) (b : Bool) : (T.setFull off b).num = T.num := rfl
@[simp] theorem Team.setFull_g (T : Team) (off : Nat) (b : Bool) : (T.setFull off b).g = T.g := rfl
@[simp] theorem Team.setFull_point (T : Team) (off : Nat) (b : Bool) : (T.setFull off b).point = T.point := rfl
@[simp] theorem Team.setFull_groups (T : Team) (off : Nat) (b : Bool) : (T.setFull off b).groups = T.groups := rfl
@[simp] theorem Team.setFull_page (T : Team) (off : Nat) (b : Bool) : (T.setFull off b).page = T.page := rfl
@[simp] theorem Team.setFull_pages (T : Team) (off : Nat) (b : Bool) : (T.setFull off b).pages = T.pages := rfl
@[simp] theorem Team.setFull_window (T : Team) (off : Nat) (b : Bool) : (T.setFull off b).window = T.window := rfl
@[simp] theorem Team.setFull_backing (T : Team) (off : Nat) (b : Bool) : (T.setFull off b).backing = T.backing := rfl
@[simp] theorem Team.setFull_pad (T : Team) (off : Nat) (b : Bool) : (T.setFull off b).pad = T.pad := rfl
@[simp] theorem Team.setFull_written (T : Team) (off : Nat) (b : Bool) : (T.setFull off b).written = T.written := rfl
@[simp] theorem Team.setFull_unregistered (T : Team) (off : Nat) (b : Bool) : (T.setFull off b).unregistered = T.unregistered := rfl
@[simp] theorem Team.setFull_arrays (T : Team) (off : Nat) (b : Bool) : (T.setFull off b).arrays = T.arrays := rfl
@[simp] theorem Team.setFull_maps (T : Team) (off : Nat) (b : Bool) : (T.setFull off b).maps = T.maps := rfl
@[simp] theorem Team.setFull_bars (T : Team) (off : Nat) (b : Bool) : (T.setFull off b).bars = T.bars := rfl
@[simp] theorem Team.setFull_cell (T : Team) (off : Nat) (b : Bool) : (T.setFull off b).cell = T.cell := rfl
@[simp] theorem Team.setFull_leaving (T : Team) (off : Nat) (b : Bool) : (T.setFull off b).leaving = T.leaving := rfl
@[simp] theorem Team.setFull_place (T : Team) (off : Nat) (b : Bool) : (T.setFull off b).place = T.place := rfl
@[simp] theorem Team.setFull_frozen (T : Team) (off : Nat) (b : Bool) : (T.setFull off b).frozen = T.frozen := rfl
@[simp] theorem Team.setFull_posted (T : Team) (off : Nat) (b : Bool) : (T.setFull off b).posted = T.posted := rfl
@[simp] theorem Team.setFull_drain (T : Team) (off : Nat) (b : Bool) : (T.setFull off b).drain = T.drain := rfl
@[simp] theorem Team.setFull_ending (T : Team) (off : Nat) (b : Bool) : (T.setFull off b).ending = T.ending := rfl
@[simp] theorem Team.setFull_lull (T : Team) (off : Nat) (b : Bool) : (T.setFull off b).lull = T.lull := rfl
@[simp] theorem Team.setFull_lullAt (T : Team) (off : Nat) (b : Bool) : (T.setFull off b).lullAt = T.lullAt := rfl
@[simp] theorem Team.setFull_lullWaits (T : Team) (off : Nat) (b : Bool) : (T.setFull off b).lullWaits = T.lullWaits := rfl
@[simp] theorem Team.setFull_metAt (T : Team) (off : Nat) (b : Bool) : (T.setFull off b).metAt = T.metAt := rfl
@[simp] theorem Team.setFull_thawing (T : Team) (off : Nat) (b : Bool) : (T.setFull off b).thawing = T.thawing := rfl
@[simp] theorem Team.setFull_restoring (T : Team) (off : Nat) (b : Bool) : (T.setFull off b).restoring = T.restoring := rfl
@[simp] theorem Team.setFull_placedAt (T : Team) (off : Nat) (b : Bool) : (T.setFull off b).placedAt = T.placedAt := rfl
@[simp] theorem Team.setFull_watch (T : Team) (off : Nat) (b : Bool) : (T.setFull off b).watch = T.watch := rfl
@[simp] theorem Team.setFull_saveSince (T : Team) (off : Nat) (b : Bool) : (T.setFull off b).saveSince = T.saveSince := rfl
@[simp] theorem Team.setFull_watchReported (T : Team) (off : Nat) (b : Bool) : (T.setFull off b).watchReported = T.watchReported := rfl

/-! ## Updates of a group -/

@[simp] theorem Group.vset_idx (G : Group) (i : Nat) (v : LaneVec) : (G.vset i v).idx = G.idx := rfl
@[simp] theorem Group.vset_slot (G : Group) (i : Nat) (v : LaneVec) : (G.vset i v).slot = G.slot := rfl
@[simp] theorem Group.vset_role (G : Group) (i : Nat) (v : LaneVec) : (G.vset i v).role = G.role := rfl
@[simp] theorem Group.vset_bud (G : Group) (i : Nat) (v : LaneVec) : (G.vset i v).bud = G.bud := rfl
@[simp] theorem Group.vset_spc (G : Group) (i : Nat) (v : LaneVec) : (G.vset i v).spc = G.spc := rfl
@[simp] theorem Group.vset_lpc (G : Group) (i : Nat) (v : LaneVec) : (G.vset i v).lpc = G.lpc := rfl
@[simp] theorem Group.vset_pfx (G : Group) (i : Nat) (v : LaneVec) : (G.vset i v).pfx = G.pfx := rfl
@[simp] theorem Group.vset_sregs (G : Group) (i : Nat) (v : LaneVec) : (G.vset i v).sregs = G.sregs := rfl
@[simp] theorem Group.vset_preds (G : Group) (i : Nat) (v : LaneVec) : (G.vset i v).preds = G.preds := rfl
@[simp] theorem Group.vset_tiles (G : Group) (i : Nat) (v : LaneVec) : (G.vset i v).tiles = G.tiles := rfl
@[simp] theorem Group.vset_accs (G : Group) (i : Nat) (v : LaneVec) : (G.vset i v).accs = G.accs := rfl
@[simp] theorem Group.vset_latches (G : Group) (i : Nat) (v : LaneVec) : (G.vset i v).latches = G.latches := rfl
@[simp] theorem Group.vset_seed (G : Group) (i : Nat) (v : LaneVec) : (G.vset i v).seed = G.seed := rfl
@[simp] theorem Group.vset_queue (G : Group) (i : Nat) (v : LaneVec) : (G.vset i v).queue = G.queue := rfl
@[simp] theorem Group.vset_tent (G : Group) (i : Nat) (v : LaneVec) : (G.vset i v).tent = G.tent := rfl
@[simp] theorem Group.vset_rerun (G : Group) (i : Nat) (v : LaneVec) : (G.vset i v).rerun = G.rerun := rfl
@[simp] theorem Group.vset_runs (G : Group) (i : Nat) (v : LaneVec) : (G.vset i v).runs = G.runs := rfl
@[simp] theorem Group.vset_words (G : Group) (i : Nat) (v : LaneVec) : (G.vset i v).words = G.words := rfl
@[simp] theorem Group.vset_round (G : Group) (i : Nat) (v : LaneVec) : (G.vset i v).round = G.round := rfl
@[simp] theorem Group.vset_rpt (G : Group) (i : Nat) (v : LaneVec) : (G.vset i v).rpt = G.rpt := rfl
@[simp] theorem Group.vset_rng (G : Group) (i : Nat) (v : LaneVec) : (G.vset i v).rng = G.rng := rfl
@[simp] theorem Group.vset_lull (G : Group) (i : Nat) (v : LaneVec) : (G.vset i v).lull = G.lull := rfl
@[simp] theorem Group.vset_fp (G : Group) (i : Nat) (v : LaneVec) : (G.vset i v).fp = G.fp := rfl
@[simp] theorem Group.vset_q (G : Group) (i : Nat) (v : LaneVec) : (G.vset i v).q = G.q := rfl
@[simp] theorem Group.vset_fallback (G : Group) (i : Nat) (v : LaneVec) : (G.vset i v).fallback = G.fallback := rfl
@[simp] theorem Group.vset_unseen (G : Group) (i : Nat) (v : LaneVec) : (G.vset i v).unseen = G.unseen := rfl
@[simp] theorem Group.vset_batch (G : Group) (i : Nat) (v : LaneVec) : (G.vset i v).batch = G.batch := rfl
@[simp] theorem Group.vset_stream (G : Group) (i : Nat) (v : LaneVec) : (G.vset i v).stream = G.stream := rfl
@[simp] theorem Group.vset_busy (G : Group) (i : Nat) (v : LaneVec) : (G.vset i v).busy = G.busy := rfl
@[simp] theorem Group.vset_loads (G : Group) (i : Nat) (v : LaneVec) : (G.vset i v).loads = G.loads := rfl
@[simp] theorem Group.vset_reqs (G : Group) (i : Nat) (v : LaneVec) : (G.vset i v).reqs = G.reqs := rfl
@[simp] theorem Group.vset_regs (G : Group) (i : Nat) (v : LaneVec) : (G.vset i v).regs = G.regs := rfl
@[simp] theorem Group.vset_replay (G : Group) (i : Nat) (v : LaneVec) : (G.vset i v).replay = G.replay := rfl
@[simp] theorem Group.vset_wait (G : Group) (i : Nat) (v : LaneVec) : (G.vset i v).wait = G.wait := rfl
@[simp] theorem Group.vset_laneWait (G : Group) (i : Nat) (v : LaneVec) : (G.vset i v).laneWait = G.laneWait := rfl
@[simp] theorem Group.vset_stall (G : Group) (i : Nat) (v : LaneVec) : (G.vset i v).stall = G.stall := rfl
@[simp] theorem Group.vset_yld (G : Group) (i : Nat) (v : LaneVec) : (G.vset i v).yld = G.yld := rfl
@[simp] theorem Group.vset_arrived (G : Group) (i : Nat) (v : LaneVec) : (G.vset i v).arrived = G.arrived := rfl
@[simp] theorem Group.vset_arrivedDie (G : Group) (i : Nat) (v : LaneVec) : (G.vset i v).arrivedDie = G.arrivedDie := rfl
@[simp] theorem Group.vset_status (G : Group) (i : Nat) (v : LaneVec) : (G.vset i v).status = G.status := rfl
@[simp] theorem Group.vset_mustStop (G : Group) (i : Nat) (v : LaneVec) : (G.vset i v).mustStop = G.mustStop := rfl
@[simp] theorem Group.vset_stopFault (G : Group) (i : Nat) (v : LaneVec) : (G.vset i v).stopFault = G.stopFault := rfl

@[simp] theorem Group.aset_idx (G : Group) (i : Nat) (v : LaneVec) : (G.aset i v).idx = G.idx := rfl
@[simp] theorem Group.aset_slot (G : Group) (i : Nat) (v : LaneVec) : (G.aset i v).slot = G.slot := rfl
@[simp] theorem Group.aset_role (G : Group) (i : Nat) (v : LaneVec) : (G.aset i v).role = G.role := rfl
@[simp] theorem Group.aset_bud (G : Group) (i : Nat) (v : LaneVec) : (G.aset i v).bud = G.bud := rfl
@[simp] theorem Group.aset_spc (G : Group) (i : Nat) (v : LaneVec) : (G.aset i v).spc = G.spc := rfl
@[simp] theorem Group.aset_lpc (G : Group) (i : Nat) (v : LaneVec) : (G.aset i v).lpc = G.lpc := rfl
@[simp] theorem Group.aset_pfx (G : Group) (i : Nat) (v : LaneVec) : (G.aset i v).pfx = G.pfx := rfl
@[simp] theorem Group.aset_sregs (G : Group) (i : Nat) (v : LaneVec) : (G.aset i v).sregs = G.sregs := rfl
@[simp] theorem Group.aset_preds (G : Group) (i : Nat) (v : LaneVec) : (G.aset i v).preds = G.preds := rfl
@[simp] theorem Group.aset_tiles (G : Group) (i : Nat) (v : LaneVec) : (G.aset i v).tiles = G.tiles := rfl
@[simp] theorem Group.aset_vregs (G : Group) (i : Nat) (v : LaneVec) : (G.aset i v).vregs = G.vregs := rfl
@[simp] theorem Group.aset_latches (G : Group) (i : Nat) (v : LaneVec) : (G.aset i v).latches = G.latches := rfl
@[simp] theorem Group.aset_seed (G : Group) (i : Nat) (v : LaneVec) : (G.aset i v).seed = G.seed := rfl
@[simp] theorem Group.aset_queue (G : Group) (i : Nat) (v : LaneVec) : (G.aset i v).queue = G.queue := rfl
@[simp] theorem Group.aset_tent (G : Group) (i : Nat) (v : LaneVec) : (G.aset i v).tent = G.tent := rfl
@[simp] theorem Group.aset_rerun (G : Group) (i : Nat) (v : LaneVec) : (G.aset i v).rerun = G.rerun := rfl
@[simp] theorem Group.aset_runs (G : Group) (i : Nat) (v : LaneVec) : (G.aset i v).runs = G.runs := rfl
@[simp] theorem Group.aset_words (G : Group) (i : Nat) (v : LaneVec) : (G.aset i v).words = G.words := rfl
@[simp] theorem Group.aset_round (G : Group) (i : Nat) (v : LaneVec) : (G.aset i v).round = G.round := rfl
@[simp] theorem Group.aset_rpt (G : Group) (i : Nat) (v : LaneVec) : (G.aset i v).rpt = G.rpt := rfl
@[simp] theorem Group.aset_rng (G : Group) (i : Nat) (v : LaneVec) : (G.aset i v).rng = G.rng := rfl
@[simp] theorem Group.aset_lull (G : Group) (i : Nat) (v : LaneVec) : (G.aset i v).lull = G.lull := rfl
@[simp] theorem Group.aset_fp (G : Group) (i : Nat) (v : LaneVec) : (G.aset i v).fp = G.fp := rfl
@[simp] theorem Group.aset_q (G : Group) (i : Nat) (v : LaneVec) : (G.aset i v).q = G.q := rfl
@[simp] theorem Group.aset_fallback (G : Group) (i : Nat) (v : LaneVec) : (G.aset i v).fallback = G.fallback := rfl
@[simp] theorem Group.aset_unseen (G : Group) (i : Nat) (v : LaneVec) : (G.aset i v).unseen = G.unseen := rfl
@[simp] theorem Group.aset_batch (G : Group) (i : Nat) (v : LaneVec) : (G.aset i v).batch = G.batch := rfl
@[simp] theorem Group.aset_stream (G : Group) (i : Nat) (v : LaneVec) : (G.aset i v).stream = G.stream := rfl
@[simp] theorem Group.aset_busy (G : Group) (i : Nat) (v : LaneVec) : (G.aset i v).busy = G.busy := rfl
@[simp] theorem Group.aset_loads (G : Group) (i : Nat) (v : LaneVec) : (G.aset i v).loads = G.loads := rfl
@[simp] theorem Group.aset_reqs (G : Group) (i : Nat) (v : LaneVec) : (G.aset i v).reqs = G.reqs := rfl
@[simp] theorem Group.aset_regs (G : Group) (i : Nat) (v : LaneVec) : (G.aset i v).regs = G.regs := rfl
@[simp] theorem Group.aset_replay (G : Group) (i : Nat) (v : LaneVec) : (G.aset i v).replay = G.replay := rfl
@[simp] theorem Group.aset_wait (G : Group) (i : Nat) (v : LaneVec) : (G.aset i v).wait = G.wait := rfl
@[simp] theorem Group.aset_laneWait (G : Group) (i : Nat) (v : LaneVec) : (G.aset i v).laneWait = G.laneWait := rfl
@[simp] theorem Group.aset_stall (G : Group) (i : Nat) (v : LaneVec) : (G.aset i v).stall = G.stall := rfl
@[simp] theorem Group.aset_yld (G : Group) (i : Nat) (v : LaneVec) : (G.aset i v).yld = G.yld := rfl
@[simp] theorem Group.aset_arrived (G : Group) (i : Nat) (v : LaneVec) : (G.aset i v).arrived = G.arrived := rfl
@[simp] theorem Group.aset_arrivedDie (G : Group) (i : Nat) (v : LaneVec) : (G.aset i v).arrivedDie = G.arrivedDie := rfl
@[simp] theorem Group.aset_status (G : Group) (i : Nat) (v : LaneVec) : (G.aset i v).status = G.status := rfl
@[simp] theorem Group.aset_mustStop (G : Group) (i : Nat) (v : LaneVec) : (G.aset i v).mustStop = G.mustStop := rfl
@[simp] theorem Group.aset_stopFault (G : Group) (i : Nat) (v : LaneVec) : (G.aset i v).stopFault = G.stopFault := rfl

@[simp] theorem Group.lset_idx (G : Group) (k : Nat) (v : LaneVec) : (G.lset k v).idx = G.idx := rfl
@[simp] theorem Group.lset_slot (G : Group) (k : Nat) (v : LaneVec) : (G.lset k v).slot = G.slot := rfl
@[simp] theorem Group.lset_role (G : Group) (k : Nat) (v : LaneVec) : (G.lset k v).role = G.role := rfl
@[simp] theorem Group.lset_bud (G : Group) (k : Nat) (v : LaneVec) : (G.lset k v).bud = G.bud := rfl
@[simp] theorem Group.lset_spc (G : Group) (k : Nat) (v : LaneVec) : (G.lset k v).spc = G.spc := rfl
@[simp] theorem Group.lset_lpc (G : Group) (k : Nat) (v : LaneVec) : (G.lset k v).lpc = G.lpc := rfl
@[simp] theorem Group.lset_pfx (G : Group) (k : Nat) (v : LaneVec) : (G.lset k v).pfx = G.pfx := rfl
@[simp] theorem Group.lset_sregs (G : Group) (k : Nat) (v : LaneVec) : (G.lset k v).sregs = G.sregs := rfl
@[simp] theorem Group.lset_preds (G : Group) (k : Nat) (v : LaneVec) : (G.lset k v).preds = G.preds := rfl
@[simp] theorem Group.lset_tiles (G : Group) (k : Nat) (v : LaneVec) : (G.lset k v).tiles = G.tiles := rfl
@[simp] theorem Group.lset_vregs (G : Group) (k : Nat) (v : LaneVec) : (G.lset k v).vregs = G.vregs := rfl
@[simp] theorem Group.lset_accs (G : Group) (k : Nat) (v : LaneVec) : (G.lset k v).accs = G.accs := rfl
@[simp] theorem Group.lset_seed (G : Group) (k : Nat) (v : LaneVec) : (G.lset k v).seed = G.seed := rfl
@[simp] theorem Group.lset_queue (G : Group) (k : Nat) (v : LaneVec) : (G.lset k v).queue = G.queue := rfl
@[simp] theorem Group.lset_tent (G : Group) (k : Nat) (v : LaneVec) : (G.lset k v).tent = G.tent := rfl
@[simp] theorem Group.lset_rerun (G : Group) (k : Nat) (v : LaneVec) : (G.lset k v).rerun = G.rerun := rfl
@[simp] theorem Group.lset_runs (G : Group) (k : Nat) (v : LaneVec) : (G.lset k v).runs = G.runs := rfl
@[simp] theorem Group.lset_words (G : Group) (k : Nat) (v : LaneVec) : (G.lset k v).words = G.words := rfl
@[simp] theorem Group.lset_round (G : Group) (k : Nat) (v : LaneVec) : (G.lset k v).round = G.round := rfl
@[simp] theorem Group.lset_rpt (G : Group) (k : Nat) (v : LaneVec) : (G.lset k v).rpt = G.rpt := rfl
@[simp] theorem Group.lset_rng (G : Group) (k : Nat) (v : LaneVec) : (G.lset k v).rng = G.rng := rfl
@[simp] theorem Group.lset_lull (G : Group) (k : Nat) (v : LaneVec) : (G.lset k v).lull = G.lull := rfl
@[simp] theorem Group.lset_fp (G : Group) (k : Nat) (v : LaneVec) : (G.lset k v).fp = G.fp := rfl
@[simp] theorem Group.lset_q (G : Group) (k : Nat) (v : LaneVec) : (G.lset k v).q = G.q := rfl
@[simp] theorem Group.lset_fallback (G : Group) (k : Nat) (v : LaneVec) : (G.lset k v).fallback = G.fallback := rfl
@[simp] theorem Group.lset_unseen (G : Group) (k : Nat) (v : LaneVec) : (G.lset k v).unseen = G.unseen := rfl
@[simp] theorem Group.lset_batch (G : Group) (k : Nat) (v : LaneVec) : (G.lset k v).batch = G.batch := rfl
@[simp] theorem Group.lset_stream (G : Group) (k : Nat) (v : LaneVec) : (G.lset k v).stream = G.stream := rfl
@[simp] theorem Group.lset_busy (G : Group) (k : Nat) (v : LaneVec) : (G.lset k v).busy = G.busy := rfl
@[simp] theorem Group.lset_loads (G : Group) (k : Nat) (v : LaneVec) : (G.lset k v).loads = G.loads := rfl
@[simp] theorem Group.lset_reqs (G : Group) (k : Nat) (v : LaneVec) : (G.lset k v).reqs = G.reqs := rfl
@[simp] theorem Group.lset_regs (G : Group) (k : Nat) (v : LaneVec) : (G.lset k v).regs = G.regs := rfl
@[simp] theorem Group.lset_replay (G : Group) (k : Nat) (v : LaneVec) : (G.lset k v).replay = G.replay := rfl
@[simp] theorem Group.lset_wait (G : Group) (k : Nat) (v : LaneVec) : (G.lset k v).wait = G.wait := rfl
@[simp] theorem Group.lset_laneWait (G : Group) (k : Nat) (v : LaneVec) : (G.lset k v).laneWait = G.laneWait := rfl
@[simp] theorem Group.lset_stall (G : Group) (k : Nat) (v : LaneVec) : (G.lset k v).stall = G.stall := rfl
@[simp] theorem Group.lset_yld (G : Group) (k : Nat) (v : LaneVec) : (G.lset k v).yld = G.yld := rfl
@[simp] theorem Group.lset_arrived (G : Group) (k : Nat) (v : LaneVec) : (G.lset k v).arrived = G.arrived := rfl
@[simp] theorem Group.lset_arrivedDie (G : Group) (k : Nat) (v : LaneVec) : (G.lset k v).arrivedDie = G.arrivedDie := rfl
@[simp] theorem Group.lset_status (G : Group) (k : Nat) (v : LaneVec) : (G.lset k v).status = G.status := rfl
@[simp] theorem Group.lset_mustStop (G : Group) (k : Nat) (v : LaneVec) : (G.lset k v).mustStop = G.mustStop := rfl
@[simp] theorem Group.lset_stopFault (G : Group) (k : Nat) (v : LaneVec) : (G.lset k v).stopFault = G.stopFault := rfl

@[simp] theorem Group.pset_idx (G : Group) (k : Fin 12) (m : LaneMask) : (G.pset k m).idx = G.idx := rfl
@[simp] theorem Group.pset_slot (G : Group) (k : Fin 12) (m : LaneMask) : (G.pset k m).slot = G.slot := rfl
@[simp] theorem Group.pset_role (G : Group) (k : Fin 12) (m : LaneMask) : (G.pset k m).role = G.role := rfl
@[simp] theorem Group.pset_bud (G : Group) (k : Fin 12) (m : LaneMask) : (G.pset k m).bud = G.bud := rfl
@[simp] theorem Group.pset_spc (G : Group) (k : Fin 12) (m : LaneMask) : (G.pset k m).spc = G.spc := rfl
@[simp] theorem Group.pset_lpc (G : Group) (k : Fin 12) (m : LaneMask) : (G.pset k m).lpc = G.lpc := rfl
@[simp] theorem Group.pset_pfx (G : Group) (k : Fin 12) (m : LaneMask) : (G.pset k m).pfx = G.pfx := rfl
@[simp] theorem Group.pset_sregs (G : Group) (k : Fin 12) (m : LaneMask) : (G.pset k m).sregs = G.sregs := rfl
@[simp] theorem Group.pset_tiles (G : Group) (k : Fin 12) (m : LaneMask) : (G.pset k m).tiles = G.tiles := rfl
@[simp] theorem Group.pset_vregs (G : Group) (k : Fin 12) (m : LaneMask) : (G.pset k m).vregs = G.vregs := rfl
@[simp] theorem Group.pset_accs (G : Group) (k : Fin 12) (m : LaneMask) : (G.pset k m).accs = G.accs := rfl
@[simp] theorem Group.pset_latches (G : Group) (k : Fin 12) (m : LaneMask) : (G.pset k m).latches = G.latches := rfl
@[simp] theorem Group.pset_seed (G : Group) (k : Fin 12) (m : LaneMask) : (G.pset k m).seed = G.seed := rfl
@[simp] theorem Group.pset_queue (G : Group) (k : Fin 12) (m : LaneMask) : (G.pset k m).queue = G.queue := rfl
@[simp] theorem Group.pset_tent (G : Group) (k : Fin 12) (m : LaneMask) : (G.pset k m).tent = G.tent := rfl
@[simp] theorem Group.pset_rerun (G : Group) (k : Fin 12) (m : LaneMask) : (G.pset k m).rerun = G.rerun := rfl
@[simp] theorem Group.pset_runs (G : Group) (k : Fin 12) (m : LaneMask) : (G.pset k m).runs = G.runs := rfl
@[simp] theorem Group.pset_words (G : Group) (k : Fin 12) (m : LaneMask) : (G.pset k m).words = G.words := rfl
@[simp] theorem Group.pset_round (G : Group) (k : Fin 12) (m : LaneMask) : (G.pset k m).round = G.round := rfl
@[simp] theorem Group.pset_rpt (G : Group) (k : Fin 12) (m : LaneMask) : (G.pset k m).rpt = G.rpt := rfl
@[simp] theorem Group.pset_rng (G : Group) (k : Fin 12) (m : LaneMask) : (G.pset k m).rng = G.rng := rfl
@[simp] theorem Group.pset_lull (G : Group) (k : Fin 12) (m : LaneMask) : (G.pset k m).lull = G.lull := rfl
@[simp] theorem Group.pset_fp (G : Group) (k : Fin 12) (m : LaneMask) : (G.pset k m).fp = G.fp := rfl
@[simp] theorem Group.pset_q (G : Group) (k : Fin 12) (m : LaneMask) : (G.pset k m).q = G.q := rfl
@[simp] theorem Group.pset_fallback (G : Group) (k : Fin 12) (m : LaneMask) : (G.pset k m).fallback = G.fallback := rfl
@[simp] theorem Group.pset_unseen (G : Group) (k : Fin 12) (m : LaneMask) : (G.pset k m).unseen = G.unseen := rfl
@[simp] theorem Group.pset_batch (G : Group) (k : Fin 12) (m : LaneMask) : (G.pset k m).batch = G.batch := rfl
@[simp] theorem Group.pset_stream (G : Group) (k : Fin 12) (m : LaneMask) : (G.pset k m).stream = G.stream := rfl
@[simp] theorem Group.pset_busy (G : Group) (k : Fin 12) (m : LaneMask) : (G.pset k m).busy = G.busy := rfl
@[simp] theorem Group.pset_loads (G : Group) (k : Fin 12) (m : LaneMask) : (G.pset k m).loads = G.loads := rfl
@[simp] theorem Group.pset_reqs (G : Group) (k : Fin 12) (m : LaneMask) : (G.pset k m).reqs = G.reqs := rfl
@[simp] theorem Group.pset_regs (G : Group) (k : Fin 12) (m : LaneMask) : (G.pset k m).regs = G.regs := rfl
@[simp] theorem Group.pset_replay (G : Group) (k : Fin 12) (m : LaneMask) : (G.pset k m).replay = G.replay := rfl
@[simp] theorem Group.pset_wait (G : Group) (k : Fin 12) (m : LaneMask) : (G.pset k m).wait = G.wait := rfl
@[simp] theorem Group.pset_laneWait (G : Group) (k : Fin 12) (m : LaneMask) : (G.pset k m).laneWait = G.laneWait := rfl
@[simp] theorem Group.pset_stall (G : Group) (k : Fin 12) (m : LaneMask) : (G.pset k m).stall = G.stall := rfl
@[simp] theorem Group.pset_yld (G : Group) (k : Fin 12) (m : LaneMask) : (G.pset k m).yld = G.yld := rfl
@[simp] theorem Group.pset_arrived (G : Group) (k : Fin 12) (m : LaneMask) : (G.pset k m).arrived = G.arrived := rfl
@[simp] theorem Group.pset_arrivedDie (G : Group) (k : Fin 12) (m : LaneMask) : (G.pset k m).arrivedDie = G.arrivedDie := rfl
@[simp] theorem Group.pset_status (G : Group) (k : Fin 12) (m : LaneMask) : (G.pset k m).status = G.status := rfl
@[simp] theorem Group.pset_mustStop (G : Group) (k : Fin 12) (m : LaneMask) : (G.pset k m).mustStop = G.mustStop := rfl
@[simp] theorem Group.pset_stopFault (G : Group) (k : Fin 12) (m : LaneMask) : (G.pset k m).stopFault = G.stopFault := rfl

@[simp] theorem Group.tset_idx (G : Group) (k : BitVec 4) (x : DWord) : (G.tset k x).idx = G.idx := rfl
@[simp] theorem Group.tset_slot (G : Group) (k : BitVec 4) (x : DWord) : (G.tset k x).slot = G.slot := rfl
@[simp] theorem Group.tset_role (G : Group) (k : BitVec 4) (x : DWord) : (G.tset k x).role = G.role := rfl
@[simp] theorem Group.tset_bud (G : Group) (k : BitVec 4) (x : DWord) : (G.tset k x).bud = G.bud := rfl
@[simp] theorem Group.tset_spc (G : Group) (k : BitVec 4) (x : DWord) : (G.tset k x).spc = G.spc := rfl
@[simp] theorem Group.tset_lpc (G : Group) (k : BitVec 4) (x : DWord) : (G.tset k x).lpc = G.lpc := rfl
@[simp] theorem Group.tset_pfx (G : Group) (k : BitVec 4) (x : DWord) : (G.tset k x).pfx = G.pfx := rfl
@[simp] theorem Group.tset_sregs (G : Group) (k : BitVec 4) (x : DWord) : (G.tset k x).sregs = G.sregs := rfl
@[simp] theorem Group.tset_preds (G : Group) (k : BitVec 4) (x : DWord) : (G.tset k x).preds = G.preds := rfl
@[simp] theorem Group.tset_vregs (G : Group) (k : BitVec 4) (x : DWord) : (G.tset k x).vregs = G.vregs := rfl
@[simp] theorem Group.tset_accs (G : Group) (k : BitVec 4) (x : DWord) : (G.tset k x).accs = G.accs := rfl
@[simp] theorem Group.tset_latches (G : Group) (k : BitVec 4) (x : DWord) : (G.tset k x).latches = G.latches := rfl
@[simp] theorem Group.tset_seed (G : Group) (k : BitVec 4) (x : DWord) : (G.tset k x).seed = G.seed := rfl
@[simp] theorem Group.tset_queue (G : Group) (k : BitVec 4) (x : DWord) : (G.tset k x).queue = G.queue := rfl
@[simp] theorem Group.tset_tent (G : Group) (k : BitVec 4) (x : DWord) : (G.tset k x).tent = G.tent := rfl
@[simp] theorem Group.tset_rerun (G : Group) (k : BitVec 4) (x : DWord) : (G.tset k x).rerun = G.rerun := rfl
@[simp] theorem Group.tset_runs (G : Group) (k : BitVec 4) (x : DWord) : (G.tset k x).runs = G.runs := rfl
@[simp] theorem Group.tset_words (G : Group) (k : BitVec 4) (x : DWord) : (G.tset k x).words = G.words := rfl
@[simp] theorem Group.tset_round (G : Group) (k : BitVec 4) (x : DWord) : (G.tset k x).round = G.round := rfl
@[simp] theorem Group.tset_rpt (G : Group) (k : BitVec 4) (x : DWord) : (G.tset k x).rpt = G.rpt := rfl
@[simp] theorem Group.tset_rng (G : Group) (k : BitVec 4) (x : DWord) : (G.tset k x).rng = G.rng := rfl
@[simp] theorem Group.tset_lull (G : Group) (k : BitVec 4) (x : DWord) : (G.tset k x).lull = G.lull := rfl
@[simp] theorem Group.tset_fp (G : Group) (k : BitVec 4) (x : DWord) : (G.tset k x).fp = G.fp := rfl
@[simp] theorem Group.tset_q (G : Group) (k : BitVec 4) (x : DWord) : (G.tset k x).q = G.q := rfl
@[simp] theorem Group.tset_fallback (G : Group) (k : BitVec 4) (x : DWord) : (G.tset k x).fallback = G.fallback := rfl
@[simp] theorem Group.tset_unseen (G : Group) (k : BitVec 4) (x : DWord) : (G.tset k x).unseen = G.unseen := rfl
@[simp] theorem Group.tset_batch (G : Group) (k : BitVec 4) (x : DWord) : (G.tset k x).batch = G.batch := rfl
@[simp] theorem Group.tset_stream (G : Group) (k : BitVec 4) (x : DWord) : (G.tset k x).stream = G.stream := rfl
@[simp] theorem Group.tset_busy (G : Group) (k : BitVec 4) (x : DWord) : (G.tset k x).busy = G.busy := rfl
@[simp] theorem Group.tset_loads (G : Group) (k : BitVec 4) (x : DWord) : (G.tset k x).loads = G.loads := rfl
@[simp] theorem Group.tset_reqs (G : Group) (k : BitVec 4) (x : DWord) : (G.tset k x).reqs = G.reqs := rfl
@[simp] theorem Group.tset_regs (G : Group) (k : BitVec 4) (x : DWord) : (G.tset k x).regs = G.regs := rfl
@[simp] theorem Group.tset_replay (G : Group) (k : BitVec 4) (x : DWord) : (G.tset k x).replay = G.replay := rfl
@[simp] theorem Group.tset_wait (G : Group) (k : BitVec 4) (x : DWord) : (G.tset k x).wait = G.wait := rfl
@[simp] theorem Group.tset_laneWait (G : Group) (k : BitVec 4) (x : DWord) : (G.tset k x).laneWait = G.laneWait := rfl
@[simp] theorem Group.tset_stall (G : Group) (k : BitVec 4) (x : DWord) : (G.tset k x).stall = G.stall := rfl
@[simp] theorem Group.tset_yld (G : Group) (k : BitVec 4) (x : DWord) : (G.tset k x).yld = G.yld := rfl
@[simp] theorem Group.tset_arrived (G : Group) (k : BitVec 4) (x : DWord) : (G.tset k x).arrived = G.arrived := rfl
@[simp] theorem Group.tset_arrivedDie (G : Group) (k : BitVec 4) (x : DWord) : (G.tset k x).arrivedDie = G.arrivedDie := rfl
@[simp] theorem Group.tset_status (G : Group) (k : BitVec 4) (x : DWord) : (G.tset k x).status = G.status := rfl
@[simp] theorem Group.tset_mustStop (G : Group) (k : BitVec 4) (x : DWord) : (G.tset k x).mustStop = G.mustStop := rfl
@[simp] theorem Group.tset_stopFault (G : Group) (k : BitVec 4) (x : DWord) : (G.tset k x).stopFault = G.stopFault := rfl

@[simp] theorem Group.jump_idx (G : Group) (x : BitVec 32) : (G.jump x).idx = G.idx := rfl
@[simp] theorem Group.jump_slot (G : Group) (x : BitVec 32) : (G.jump x).slot = G.slot := rfl
@[simp] theorem Group.jump_role (G : Group) (x : BitVec 32) : (G.jump x).role = G.role := rfl
@[simp] theorem Group.jump_bud (G : Group) (x : BitVec 32) : (G.jump x).bud = G.bud := rfl
@[simp] theorem Group.jump_lpc (G : Group) (x : BitVec 32) : (G.jump x).lpc = G.lpc := rfl
@[simp] theorem Group.jump_sregs (G : Group) (x : BitVec 32) : (G.jump x).sregs = G.sregs := rfl
@[simp] theorem Group.jump_preds (G : Group) (x : BitVec 32) : (G.jump x).preds = G.preds := rfl
@[simp] theorem Group.jump_tiles (G : Group) (x : BitVec 32) : (G.jump x).tiles = G.tiles := rfl
@[simp] theorem Group.jump_vregs (G : Group) (x : BitVec 32) : (G.jump x).vregs = G.vregs := rfl
@[simp] theorem Group.jump_accs (G : Group) (x : BitVec 32) : (G.jump x).accs = G.accs := rfl
@[simp] theorem Group.jump_latches (G : Group) (x : BitVec 32) : (G.jump x).latches = G.latches := rfl
@[simp] theorem Group.jump_seed (G : Group) (x : BitVec 32) : (G.jump x).seed = G.seed := rfl
@[simp] theorem Group.jump_queue (G : Group) (x : BitVec 32) : (G.jump x).queue = G.queue := rfl
@[simp] theorem Group.jump_tent (G : Group) (x : BitVec 32) : (G.jump x).tent = G.tent := rfl
@[simp] theorem Group.jump_rerun (G : Group) (x : BitVec 32) : (G.jump x).rerun = G.rerun := rfl
@[simp] theorem Group.jump_runs (G : Group) (x : BitVec 32) : (G.jump x).runs = G.runs := rfl
@[simp] theorem Group.jump_words (G : Group) (x : BitVec 32) : (G.jump x).words = G.words := rfl
@[simp] theorem Group.jump_round (G : Group) (x : BitVec 32) : (G.jump x).round = G.round := rfl
@[simp] theorem Group.jump_rpt (G : Group) (x : BitVec 32) : (G.jump x).rpt = G.rpt := rfl
@[simp] theorem Group.jump_rng (G : Group) (x : BitVec 32) : (G.jump x).rng = G.rng := rfl
@[simp] theorem Group.jump_lull (G : Group) (x : BitVec 32) : (G.jump x).lull = G.lull := rfl
@[simp] theorem Group.jump_fp (G : Group) (x : BitVec 32) : (G.jump x).fp = G.fp := rfl
@[simp] theorem Group.jump_q (G : Group) (x : BitVec 32) : (G.jump x).q = G.q := rfl
@[simp] theorem Group.jump_fallback (G : Group) (x : BitVec 32) : (G.jump x).fallback = G.fallback := rfl
@[simp] theorem Group.jump_unseen (G : Group) (x : BitVec 32) : (G.jump x).unseen = G.unseen := rfl
@[simp] theorem Group.jump_batch (G : Group) (x : BitVec 32) : (G.jump x).batch = G.batch := rfl
@[simp] theorem Group.jump_stream (G : Group) (x : BitVec 32) : (G.jump x).stream = G.stream := rfl
@[simp] theorem Group.jump_busy (G : Group) (x : BitVec 32) : (G.jump x).busy = G.busy := rfl
@[simp] theorem Group.jump_loads (G : Group) (x : BitVec 32) : (G.jump x).loads = G.loads := rfl
@[simp] theorem Group.jump_reqs (G : Group) (x : BitVec 32) : (G.jump x).reqs = G.reqs := rfl
@[simp] theorem Group.jump_regs (G : Group) (x : BitVec 32) : (G.jump x).regs = G.regs := rfl
@[simp] theorem Group.jump_replay (G : Group) (x : BitVec 32) : (G.jump x).replay = G.replay := rfl
@[simp] theorem Group.jump_stall (G : Group) (x : BitVec 32) : (G.jump x).stall = G.stall := rfl
@[simp] theorem Group.jump_yld (G : Group) (x : BitVec 32) : (G.jump x).yld = G.yld := rfl
@[simp] theorem Group.jump_arrived (G : Group) (x : BitVec 32) : (G.jump x).arrived = G.arrived := rfl
@[simp] theorem Group.jump_arrivedDie (G : Group) (x : BitVec 32) : (G.jump x).arrivedDie = G.arrivedDie := rfl
@[simp] theorem Group.jump_status (G : Group) (x : BitVec 32) : (G.jump x).status = G.status := rfl
@[simp] theorem Group.jump_mustStop (G : Group) (x : BitVec 32) : (G.jump x).mustStop = G.mustStop := rfl
@[simp] theorem Group.jump_stopFault (G : Group) (x : BitVec 32) : (G.jump x).stopFault = G.stopFault := rfl

@[simp] theorem Group.issued_idx (G : Group) (f : LaneFields) (b : Option Busy) : (G.issued f b).idx = G.idx := rfl
@[simp] theorem Group.issued_slot (G : Group) (f : LaneFields) (b : Option Busy) : (G.issued f b).slot = G.slot := rfl
@[simp] theorem Group.issued_role (G : Group) (f : LaneFields) (b : Option Busy) : (G.issued f b).role = G.role := rfl
@[simp] theorem Group.issued_bud (G : Group) (f : LaneFields) (b : Option Busy) : (G.issued f b).bud = G.bud := rfl
@[simp] theorem Group.issued_spc (G : Group) (f : LaneFields) (b : Option Busy) : (G.issued f b).spc = G.spc := rfl
@[simp] theorem Group.issued_lpc (G : Group) (f : LaneFields) (b : Option Busy) : (G.issued f b).lpc = G.lpc := rfl
@[simp] theorem Group.issued_pfx (G : Group) (f : LaneFields) (b : Option Busy) : (G.issued f b).pfx = G.pfx := rfl
@[simp] theorem Group.issued_sregs (G : Group) (f : LaneFields) (b : Option Busy) : (G.issued f b).sregs = G.sregs := rfl
@[simp] theorem Group.issued_preds (G : Group) (f : LaneFields) (b : Option Busy) : (G.issued f b).preds = G.preds := rfl
@[simp] theorem Group.issued_tiles (G : Group) (f : LaneFields) (b : Option Busy) : (G.issued f b).tiles = G.tiles := rfl
@[simp] theorem Group.issued_vregs (G : Group) (f : LaneFields) (b : Option Busy) : (G.issued f b).vregs = G.vregs := rfl
@[simp] theorem Group.issued_accs (G : Group) (f : LaneFields) (b : Option Busy) : (G.issued f b).accs = G.accs := rfl
@[simp] theorem Group.issued_latches (G : Group) (f : LaneFields) (b : Option Busy) : (G.issued f b).latches = G.latches := rfl
@[simp] theorem Group.issued_seed (G : Group) (f : LaneFields) (b : Option Busy) : (G.issued f b).seed = G.seed := rfl
@[simp] theorem Group.issued_rerun (G : Group) (f : LaneFields) (b : Option Busy) : (G.issued f b).rerun = G.rerun := rfl
@[simp] theorem Group.issued_runs (G : Group) (f : LaneFields) (b : Option Busy) : (G.issued f b).runs = G.runs := rfl
@[simp] theorem Group.issued_round (G : Group) (f : LaneFields) (b : Option Busy) : (G.issued f b).round = G.round := rfl
@[simp] theorem Group.issued_rpt (G : Group) (f : LaneFields) (b : Option Busy) : (G.issued f b).rpt = G.rpt := rfl
@[simp] theorem Group.issued_rng (G : Group) (f : LaneFields) (b : Option Busy) : (G.issued f b).rng = G.rng := rfl
@[simp] theorem Group.issued_lull (G : Group) (f : LaneFields) (b : Option Busy) : (G.issued f b).lull = G.lull := rfl
@[simp] theorem Group.issued_fp (G : Group) (f : LaneFields) (b : Option Busy) : (G.issued f b).fp = G.fp := rfl
@[simp] theorem Group.issued_q (G : Group) (f : LaneFields) (b : Option Busy) : (G.issued f b).q = G.q := rfl
@[simp] theorem Group.issued_fallback (G : Group) (f : LaneFields) (b : Option Busy) : (G.issued f b).fallback = G.fallback := rfl
@[simp] theorem Group.issued_unseen (G : Group) (f : LaneFields) (b : Option Busy) : (G.issued f b).unseen = G.unseen := rfl
@[simp] theorem Group.issued_batch (G : Group) (f : LaneFields) (b : Option Busy) : (G.issued f b).batch = G.batch := rfl
@[simp] theorem Group.issued_stream (G : Group) (f : LaneFields) (b : Option Busy) : (G.issued f b).stream = G.stream := rfl
@[simp] theorem Group.issued_loads (G : Group) (f : LaneFields) (b : Option Busy) : (G.issued f b).loads = G.loads := rfl
@[simp] theorem Group.issued_reqs (G : Group) (f : LaneFields) (b : Option Busy) : (G.issued f b).reqs = G.reqs := rfl
@[simp] theorem Group.issued_regs (G : Group) (f : LaneFields) (b : Option Busy) : (G.issued f b).regs = G.regs := rfl
@[simp] theorem Group.issued_replay (G : Group) (f : LaneFields) (b : Option Busy) : (G.issued f b).replay = G.replay := rfl
@[simp] theorem Group.issued_wait (G : Group) (f : LaneFields) (b : Option Busy) : (G.issued f b).wait = G.wait := rfl
@[simp] theorem Group.issued_arrived (G : Group) (f : LaneFields) (b : Option Busy) : (G.issued f b).arrived = G.arrived := rfl
@[simp] theorem Group.issued_arrivedDie (G : Group) (f : LaneFields) (b : Option Busy) : (G.issued f b).arrivedDie = G.arrivedDie := rfl
@[simp] theorem Group.issued_status (G : Group) (f : LaneFields) (b : Option Busy) : (G.issued f b).status = G.status := rfl
@[simp] theorem Group.issued_mustStop (G : Group) (f : LaneFields) (b : Option Busy) : (G.issued f b).mustStop = G.mustStop := rfl
@[simp] theorem Group.issued_stopFault (G : Group) (f : LaneFields) (b : Option Busy) : (G.issued f b).stopFault = G.stopFault := rfl

@[simp] theorem Group.sset_idx (G : Group) (r : SReg) (x : DWord) : (G.sset r x).idx = G.idx := by
  unfold Group.sset; split <;> rfl
@[simp] theorem Group.sset_slot (G : Group) (r : SReg) (x : DWord) : (G.sset r x).slot = G.slot := by
  unfold Group.sset; split <;> rfl
@[simp] theorem Group.sset_role (G : Group) (r : SReg) (x : DWord) : (G.sset r x).role = G.role := by
  unfold Group.sset; split <;> rfl
@[simp] theorem Group.sset_bud (G : Group) (r : SReg) (x : DWord) : (G.sset r x).bud = G.bud := by
  unfold Group.sset; split <;> rfl
@[simp] theorem Group.sset_spc (G : Group) (r : SReg) (x : DWord) : (G.sset r x).spc = G.spc := by
  unfold Group.sset; split <;> rfl
@[simp] theorem Group.sset_lpc (G : Group) (r : SReg) (x : DWord) : (G.sset r x).lpc = G.lpc := by
  unfold Group.sset; split <;> rfl
@[simp] theorem Group.sset_pfx (G : Group) (r : SReg) (x : DWord) : (G.sset r x).pfx = G.pfx := by
  unfold Group.sset; split <;> rfl
@[simp] theorem Group.sset_preds (G : Group) (r : SReg) (x : DWord) : (G.sset r x).preds = G.preds := by
  unfold Group.sset; split <;> rfl
@[simp] theorem Group.sset_tiles (G : Group) (r : SReg) (x : DWord) : (G.sset r x).tiles = G.tiles := by
  unfold Group.sset; split <;> rfl
@[simp] theorem Group.sset_vregs (G : Group) (r : SReg) (x : DWord) : (G.sset r x).vregs = G.vregs := by
  unfold Group.sset; split <;> rfl
@[simp] theorem Group.sset_accs (G : Group) (r : SReg) (x : DWord) : (G.sset r x).accs = G.accs := by
  unfold Group.sset; split <;> rfl
@[simp] theorem Group.sset_latches (G : Group) (r : SReg) (x : DWord) : (G.sset r x).latches = G.latches := by
  unfold Group.sset; split <;> rfl
@[simp] theorem Group.sset_seed (G : Group) (r : SReg) (x : DWord) : (G.sset r x).seed = G.seed := by
  unfold Group.sset; split <;> rfl
@[simp] theorem Group.sset_queue (G : Group) (r : SReg) (x : DWord) : (G.sset r x).queue = G.queue := by
  unfold Group.sset; split <;> rfl
@[simp] theorem Group.sset_tent (G : Group) (r : SReg) (x : DWord) : (G.sset r x).tent = G.tent := by
  unfold Group.sset; split <;> rfl
@[simp] theorem Group.sset_rerun (G : Group) (r : SReg) (x : DWord) : (G.sset r x).rerun = G.rerun := by
  unfold Group.sset; split <;> rfl
@[simp] theorem Group.sset_runs (G : Group) (r : SReg) (x : DWord) : (G.sset r x).runs = G.runs := by
  unfold Group.sset; split <;> rfl
@[simp] theorem Group.sset_words (G : Group) (r : SReg) (x : DWord) : (G.sset r x).words = G.words := by
  unfold Group.sset; split <;> rfl
@[simp] theorem Group.sset_round (G : Group) (r : SReg) (x : DWord) : (G.sset r x).round = G.round := by
  unfold Group.sset; split <;> rfl
@[simp] theorem Group.sset_rpt (G : Group) (r : SReg) (x : DWord) : (G.sset r x).rpt = G.rpt := by
  unfold Group.sset; split <;> rfl
@[simp] theorem Group.sset_rng (G : Group) (r : SReg) (x : DWord) : (G.sset r x).rng = G.rng := by
  unfold Group.sset; split <;> rfl
@[simp] theorem Group.sset_lull (G : Group) (r : SReg) (x : DWord) : (G.sset r x).lull = G.lull := by
  unfold Group.sset; split <;> rfl
@[simp] theorem Group.sset_fp (G : Group) (r : SReg) (x : DWord) : (G.sset r x).fp = G.fp := by
  unfold Group.sset; split <;> rfl
@[simp] theorem Group.sset_q (G : Group) (r : SReg) (x : DWord) : (G.sset r x).q = G.q := by
  unfold Group.sset; split <;> rfl
@[simp] theorem Group.sset_fallback (G : Group) (r : SReg) (x : DWord) : (G.sset r x).fallback = G.fallback := by
  unfold Group.sset; split <;> rfl
@[simp] theorem Group.sset_unseen (G : Group) (r : SReg) (x : DWord) : (G.sset r x).unseen = G.unseen := by
  unfold Group.sset; split <;> rfl
@[simp] theorem Group.sset_batch (G : Group) (r : SReg) (x : DWord) : (G.sset r x).batch = G.batch := by
  unfold Group.sset; split <;> rfl
@[simp] theorem Group.sset_stream (G : Group) (r : SReg) (x : DWord) : (G.sset r x).stream = G.stream := by
  unfold Group.sset; split <;> rfl
@[simp] theorem Group.sset_busy (G : Group) (r : SReg) (x : DWord) : (G.sset r x).busy = G.busy := by
  unfold Group.sset; split <;> rfl
@[simp] theorem Group.sset_loads (G : Group) (r : SReg) (x : DWord) : (G.sset r x).loads = G.loads := by
  unfold Group.sset; split <;> rfl
@[simp] theorem Group.sset_reqs (G : Group) (r : SReg) (x : DWord) : (G.sset r x).reqs = G.reqs := by
  unfold Group.sset; split <;> rfl
@[simp] theorem Group.sset_regs (G : Group) (r : SReg) (x : DWord) : (G.sset r x).regs = G.regs := by
  unfold Group.sset; split <;> rfl
@[simp] theorem Group.sset_replay (G : Group) (r : SReg) (x : DWord) : (G.sset r x).replay = G.replay := by
  unfold Group.sset; split <;> rfl
@[simp] theorem Group.sset_wait (G : Group) (r : SReg) (x : DWord) : (G.sset r x).wait = G.wait := by
  unfold Group.sset; split <;> rfl
@[simp] theorem Group.sset_laneWait (G : Group) (r : SReg) (x : DWord) : (G.sset r x).laneWait = G.laneWait := by
  unfold Group.sset; split <;> rfl
@[simp] theorem Group.sset_stall (G : Group) (r : SReg) (x : DWord) : (G.sset r x).stall = G.stall := by
  unfold Group.sset; split <;> rfl
@[simp] theorem Group.sset_yld (G : Group) (r : SReg) (x : DWord) : (G.sset r x).yld = G.yld := by
  unfold Group.sset; split <;> rfl
@[simp] theorem Group.sset_arrived (G : Group) (r : SReg) (x : DWord) : (G.sset r x).arrived = G.arrived := by
  unfold Group.sset; split <;> rfl
@[simp] theorem Group.sset_arrivedDie (G : Group) (r : SReg) (x : DWord) : (G.sset r x).arrivedDie = G.arrivedDie := by
  unfold Group.sset; split <;> rfl
@[simp] theorem Group.sset_status (G : Group) (r : SReg) (x : DWord) : (G.sset r x).status = G.status := by
  unfold Group.sset; split <;> rfl
@[simp] theorem Group.sset_mustStop (G : Group) (r : SReg) (x : DWord) : (G.sset r x).mustStop = G.mustStop := by
  unfold Group.sset; split <;> rfl
@[simp] theorem Group.sset_stopFault (G : Group) (r : SReg) (x : DWord) : (G.sset r x).stopFault = G.stopFault := by
  unfold Group.sset; split <;> rfl

@[simp] theorem Group.jump_spc (G : Group) (x : BitVec 32) : (G.jump x).spc = x := rfl
@[simp] theorem Group.jump_pfx (G : Group) (x : BitVec 32) : (G.jump x).pfx = [] := rfl
@[simp] theorem Group.jump_wait (G : Group) (x : BitVec 32) : (G.jump x).wait = none := rfl
@[simp] theorem Group.issued_queue (G : Group) (f : LaneFields) (b : Option Busy) : (G.issued f b).queue = G.queue.drop 1 := rfl
@[simp] theorem Group.issued_words (G : Group) (f : LaneFields) (b : Option Busy) : (G.issued f b).words = G.words + 1 := rfl
@[simp] theorem Group.issued_stall (G : Group) (f : LaneFields) (b : Option Busy) :
    (G.issued f b).stall = G.stall + f.stall.toNat := rfl
@[simp] theorem Group.issued_yld (G : Group) (f : LaneFields) (b : Option Busy) : (G.issued f b).yld = f.yld := rfl
@[simp] theorem Group.issued_laneWait (G : Group) (f : LaneFields) (b : Option Busy) : (G.issued f b).laneWait = none := rfl

end Sys2Proof.Machine
end

