-- ==== Sys2Proof/Laws/Registers.lean ====
section
/-! SUPPORT. Reading back what was written: scalar registers, predicates, tiles, association lists, groups of the state. -/
namespace Sys2Proof.Machine

/-! ## Scalar registers (R26) -/

@[simp] theorem Group.sget_zero (G : Group) : G.sget 0 = 0 := rfl

@[simp] theorem Group.sset_zero (G : Group) (x : DWord) : G.sset 0 x = G := rfl

/-- A written register is read back; every other register is as before. -/
theorem Group.sget_sset (G : Group) (d r : SReg) (x : DWord) (h : d ≠ 0) :
    (G.sset d x).sget r = if r = d then x else G.sget r := by
  have hs : (G.sset d x).sregs = G.sregs.set d.toNat x d.isLt := by rw [Group.sset, if_neg h]
  unfold Group.sget
  by_cases hr : r = d
  · subst hr; rw [if_neg h, if_pos rfl]; simp [hs]
  · have : d.toNat ≠ r.toNat := fun e => hr (BitVec.eq_of_toNat_eq e.symm)
    rw [if_neg hr]
    split
    · rfl
    · simp [hs, Vector.getElem_set, this]

/-- A register that was not written is as before. -/
theorem Group.sget_sset_ne (G : Group) (d r : SReg) (x : DWord) (h : r ≠ d) : (G.sset d x).sget r = G.sget r := by
  by_cases hd : d = 0
  · subst hd; rfl
  · simp [Group.sget_sset G d r x hd, h]

/-- Reading a register depends on the registers alone. -/
theorem Group.sget_congr {G G' : Group} (h : G'.sregs = G.sregs) (r : SReg) : G'.sget r = G.sget r := by
  simp [Group.sget, h]

@[simp] theorem Group.sget_jump (G : Group) (x : BitVec 32) (r : SReg) : (G.jump x).sget r = G.sget r := rfl

@[simp] theorem Group.sget_advance (G : Group) (r : SReg) : G.advance.sget r = G.sget r := rfl

/-! ## Predicates and tiles -/

/-- A written predicate is read back; every other is as before. -/
theorem Group.pget_pset (G : Group) (k j : Fin 12) (m : LaneMask) :
    (G.pset k m).pget j = if j = k then m else G.pget j := by
  unfold Group.pset Group.pget
  by_cases h : j = k
  · subst h; simp
  · have : k.val ≠ j.val := fun e => h (Fin.ext e.symm)
    simp [h, this, Vector.getElem_set]

/-- A written tile register is read back; every other is as before. -/
theorem Group.tget_tset (G : Group) (k j : BitVec 4) (x : DWord) :
    (G.tset k x).tget j = if j = k then x else G.tget j := by
  unfold Group.tset Group.tget
  by_cases h : j = k
  · subst h; simp
  · have : k.toNat ≠ j.toNat := fun e => h (BitVec.eq_of_toNat_eq e.symm)
    simp [h, this, Vector.getElem_set]

/-! ## Association lists -/

theorem assoc_cons (x : Nat) (y : α) (l : List (Nat × α)) (k : Nat) :
    assoc ((x, y) :: l) k = if x = k then some y else assoc l k := by
  unfold assoc
  by_cases h : x = k <;> simp [h]

/-- What was set is found; every other key is as before, in a list in rising key order. -/
theorem assoc_assocSet (l : List (Nat × α)) (k j : Nat) (v : α) :
    assoc (assocSet l k v) j = if j = k then some v else assoc l j := by
  induction l with
  | nil => simp [assocSet, assoc_cons, assoc, eq_comm]
  | cons p l ih =>
    obtain ⟨x, y⟩ := p
    simp only [assocSet]
    split
    · simp only [assoc_cons]
      by_cases h : j = k
      · simp [h]
      · simp [h, Ne.symm h]
    · split
      · rename_i h2
        subst h2
        simp only [assoc_cons]
        by_cases h : j = k
        · simp [h]
        · simp [h, Ne.symm h]
      · simp only [assoc_cons, ih]
        rename_i h1 h2
        by_cases h : x = j
        · have hj : ¬ j = k := fun e => h2 (e ▸ h.symm)
          simp [h, hj]
        · simp [h]

/-- A written vector register is read back; every other is as before. -/
theorem Group.vget_vset (G : Group) (i j : Nat) (v : LaneVec) :
    (G.vset i v).vget j = if j = i then v else G.vget j := by
  simp only [Group.vget, Group.vset, assoc_assocSet]
  split <;> rfl

/-- A written accumulator is read back; every other is as before. -/
theorem Group.aget_aset (G : Group) (i j : Nat) (v : LaneVec) :
    (G.aset i v).aget j = if j = i then v else G.aget j := by
  simp only [Group.aget, Group.aset, assoc_assocSet]
  split <;> rfl

/-- A written latch is read back; every other is as before. -/
theorem Group.lget_lset (G : Group) (k j : Nat) (v : LaneVec) :
    (G.lset k v).lget j = if j = k then v else G.lget j := by
  simp only [Group.lget, Group.lset, assoc_assocSet]
  split <;> rfl

/-! ## Teams and groups -/

/-- The team a number names has that number. -/
theorem State.team_uid {s : State} {u : Nat} {T : Team} (h : s.team u = some T) : T.uid = u := by
  have := List.find?_some h
  simpa using this

/-- The group an index names has that index. -/
theorem Team.group_idx {T : Team} {g : Nat} {G : Group} (h : T.group g = some G) : G.idx = g := by
  have := List.find?_some h
  simpa using this

theorem find?_map_of_iff {p : α → Bool} {f : α → α} (h : ∀ x, p (f x) = p x) (l : List α) :
    (l.map f).find? p = (l.find? p).map f := by
  induction l with
  | nil => rfl
  | cons x l ih => by_cases hx : p x <;> simp [h, hx, ih]

/-- Changing a team changes the team that its number names, and no other. -/
theorem State.team_modTeam (s : State) (u v : Nat) (f : Team → Team) (hf : ∀ T, (f T).uid = T.uid) :
    (s.modTeam u f).team v = if v = u then (s.team v).map f else s.team v := by
  unfold State.team State.modTeam
  simp only
  rw [find?_map_of_iff (p := fun x : Team => decide (x.uid = v)) (f := fun x => if x.uid = u then f x else x)]
  · by_cases h : v = u
    · simp only [h, if_true]
      cases e : s.teams.find? (fun x => decide (x.uid = u)) with
      | none => rfl
      | some T => have := List.find?_some e; simp at this; simp [this]
    · simp only [h, if_false]
      cases e : s.teams.find? (fun x => decide (x.uid = v)) with
      | none => rfl
      | some T => have := List.find?_some e; simp at this; simp [this, h]
  · intro x
    by_cases h : x.uid = u <;> simp [h, hf]

/-- Putting a group back changes the group of its index, and no other. -/
theorem Team.group_putGroup (T : Team) (G : Group) (g : Nat) :
    (T.putGroup G).group g = if g = G.idx then (T.group g).map fun _ => G else T.group g := by
  unfold Team.group Team.putGroup
  simp only
  rw [find?_map_of_iff (p := fun x : Group => decide (x.idx = g)) (f := fun x => if x.idx = G.idx then G else x)]
  · by_cases h : g = G.idx
    · simp only [h, if_true]
      cases e : T.groups.find? (fun x => decide (x.idx = G.idx)) with
      | none => rfl
      | some H => have := List.find?_some e; simp at this; simp [this]
    · simp only [h, if_false]
      cases e : T.groups.find? (fun x => decide (x.idx = g)) with
      | none => rfl
      | some H =>
        have := List.find?_some e
        simp at this
        have h' : ¬ H.idx = G.idx := fun e => h (this ▸ e)
        simp [h']
  · intro x
    by_cases h : x.idx = G.idx <;> simp [h]

/-- The group whose turn it is, with its team, is found by its numbers. -/
theorem State.find_of_current {s : State} {T : Team} {G : Group} (h : s.current = some (T, G)) :
    s.cur = some (T.uid, G.idx) ∧ s.team T.uid = some T ∧ T.group G.idx = some G := by
  unfold State.current at h
  split at h
  · cases h
  · rename_i t g hc
    unfold State.find at h
    split at h
    · cases h
    · rename_i T0 ht
      cases hg : T0.group g with
      | none => simp [hg] at h
      | some G0 =>
        simp [hg] at h
        obtain ⟨rfl, rfl⟩ := h
        have h1 := State.team_uid ht
        have h2 := Team.group_idx hg
        subst h1 h2
        exact ⟨hc, ht, hg⟩

/-- After a group is put back, it is found; other groups and teams are as before. -/
theorem State.find_put (s : State) (T : Team) (G : Group) (t g : Nat) (hT : s.team T.uid = some T) :
    (s.put T G).find t g =
      if t = T.uid then ((T.putGroup G).group g).map fun H => (T.putGroup G, H) else s.find t g := by
  unfold State.find State.put
  rw [State.team_modTeam s T.uid t (fun x => x.putGroup G) (fun _ => rfl)]
  by_cases h : t = T.uid
  · subst h; simp [hT]
  · simp [h]

end Sys2Proof.Machine
end

