-- ==== Sys2Proof/Laws/Ops.lean ====
section
/-! SUPPORT. What the moulds of the scalar and the lane words do where nothing holds them back, and everything they can do
otherwise. -/
namespace Sys2Proof.Machine

/-! ## Scalar words -/

/-- Register fields within the budget fail no budget check. -/
theorem budgetFail_none {G : Group} {fields : List (Nat × SReg)}
    (h : ∀ p ∈ fields, G.bud.sOk p.2.toNat = true) : budgetFail G fields = none := by
  unfold budgetFail firstBad
  rw [Option.map_eq_none_iff, List.find?_eq_none]
  simp only [List.mem_map, forall_exists_index, and_imp]
  rintro _ p hp rfl
  simp [h p hp]

/-- A scalar word that nothing holds back acts. -/
theorem scalarWord_acts {s : State} {T : Team} {G : Group} {fields : List (Nat × SReg)} {regs : List SReg} {effect : Bool}
    {act : Team → Group → Out} (hc : s.current = some (T, G)) (hb : ∀ p ∈ fields, G.bud.sOk p.2.toNat = true)
    (hp : ∀ r ∈ regs, G.pending r = false) (hq : G.queue = [] ∨ (effect = false ∧ G.tent.length < 16))
    (hh : effect = true → G.heldBack = false) : scalarWord s fields regs effect act = act T G := by
  unfold scalarWord
  have hany : regs.any G.pending = false := by
    rw [List.any_eq_false]; intro r hr; simp [hp r hr]
  simp only [hc, budgetFail_none hb, hany]
  rcases hq with hq | ⟨he, ht⟩
  · cases effect with
    | false => simp [hq]
    | true => simp [hq, hh rfl]
  · subst he
    have : ¬ 16 ≤ G.tent.length := by omega
    simp [this]

/-- No lane atomic of the group and no store of it to the scratchpads of its core is rejected, said request by request (R167). -/
theorem heldBack_false {G : Group}
    (h : ∀ r ∈ G.reqs, r.entry = true ∨ r.performed = true ∨ G.words < r.word ∨ (r.atom = none ∧ r.pads = [])) :
    G.heldBack = false := by
  unfold Group.heldBack
  rw [List.any_eq_false]
  intro r hr
  rcases h r hr with e | e | e | ⟨e, e'⟩
  · simp [e]
  · simp [e]
  · have : ¬ r.word ≤ G.words := by omega
    simp [this]
  · simp [e, e']

/-- Everything a scalar word can do: nothing without a turn, a trap or a wait, or its own effect. -/
theorem scalarWord_cases (s : State) (fields : List (Nat × SReg)) (regs : List SReg) (effect : Bool)
    (act : Team → Group → Out) :
    (s.current = none ∧ scalarWord s fields regs effect act = .next s) ∨
    ∃ T G, s.current = some (T, G) ∧
      ((∃ t, scalarWord s fields regs effect act = raise s T G t) ∨
       (∃ w, scalarWord s fields regs effect act = waitFor s T G w) ∨
       scalarWord s fields regs effect act = act T G) := by
  unfold scalarWord
  cases hc : s.current with
  | none => exact .inl ⟨rfl, rfl⟩
  | some p =>
    obtain ⟨T, G⟩ := p
    refine .inr ⟨T, G, rfl, ?_⟩
    simp only
    split
    · split
      · exact .inl ⟨_, rfl⟩
      · exact .inr (.inl ⟨_, rfl⟩)
    · split
      · exact .inr (.inl ⟨_, rfl⟩)
      · split
        · exact .inr (.inl ⟨_, rfl⟩)
        · split
          · exact .inr (.inr rfl)
          · split
            · exact .inr (.inl ⟨_, rfl⟩)
            · split
              · exact .inr (.inl ⟨_, rfl⟩)
              · exact .inr (.inr rfl)

/-! ## The request of an `amo` that waits (R167) -/

@[simp] theorem Group.withdraw_words (G : Group) : G.withdraw.words = G.words := rfl
@[simp] theorem Group.withdraw_spc (G : Group) : G.withdraw.spc = G.spc := rfl
@[simp] theorem Group.withdraw_pfx (G : Group) : G.withdraw.pfx = G.pfx := rfl
@[simp] theorem Group.withdraw_queue (G : Group) : G.withdraw.queue = G.queue := rfl
@[simp] theorem Group.withdraw_idx (G : Group) : G.withdraw.idx = G.idx := rfl
@[simp] theorem Group.withdraw_loads (G : Group) : G.withdraw.loads = G.loads := rfl
@[simp] theorem Group.withdraw_unseen (G : Group) : G.withdraw.unseen = G.unseen := rfl
@[simp] theorem Group.withdraw_sget (G : Group) (r : SReg) : G.withdraw.sget r = G.sget r := rfl

/-- A group whose requests all belong to words that it has issued withdraws none. -/
theorem Group.withdraw_eq {G : Group} (h : ∀ r ∈ G.reqs, r.word ≤ G.words) : G.withdraw = G := by
  have e : (G.reqs.filter fun r => r.performed || decide (r.word ≤ G.words)) = G.reqs := by
    rw [List.filter_eq_self]
    intro r hr
    simp [h r hr]
  unfold Group.withdraw
  rw [e]

/-- New requests all hold entries where the core has as many free and no senior request waits (R167). -/
theorem State.present_entered {s : State} {die core : Nat} {rs : List Req} (hs : s.seniorWaits die core = false)
    (hn : s.entriesUsed die core + rs.length ≤ 64) : ∀ r ∈ s.present die core false rs, r.entry = true := by
  intro r hr
  unfold State.present at hr
  simp only [hs, Bool.or_self, Bool.false_eq_true, if_false, List.mem_map] at hr
  obtain ⟨p, hp, rfl⟩ := hr
  have : p.2 < rs.length := by
    have := List.snd_lt_of_mem_zipIdx hp
    omega
  rw [if_pos (by omega)]

/-! ## Lane words -/

/-- The head of the queue that nothing holds back does what it does. -/
theorem laneReady_acts {s : State} {T : Team} {G : Group} {e : QEntry} {q : List QEntry} {opc : Nat} {f : LaneFields}
    {k : Team → Group → QEntry → LaneEnv → Out} (hc : s.current = some (T, G)) (hq : G.queue = e :: q)
    (hl : laneIllegal G.bud (f.toRaw opc) = none) (hw : G.collectorWaits (f.toRaw opc) = false) :
    laneReady s opc f k = k T G e (laneEnv T G e f) := by
  simp [laneReady, hc, hq, hl, hw]

/-- A word over registers that nothing holds back and that draws nothing issues with its effect. -/
theorem laneWord_acts {s : State} {T : Team} {G : Group} {e : QEntry} {q : List QEntry} {opc : Nat} {f : LaneFields}
    {o : LaneOp} (hc : s.current = some (T, G)) (hq : G.queue = e :: q) (hl : laneIllegal G.bud (f.toRaw opc) = none)
    (hw : G.collectorWaits (f.toRaw opc) = false) (ha : o.all = false) (hd : o.draws (laneEnv T G e f) = 0) :
    laneWord s opc f o =
      .next (s.put T ((o.act (laneEnv T G e f) G).issued f (o.busy opc f (laneEnv T G e f)))) := by
  unfold laneWord
  rw [laneReady_acts hc hq hl hw]
  simp only [ha, hd, Bool.false_and, State.takeDraws, if_true]
  rfl

/-! ## Checks and traps -/

@[simp] theorem onPass_pass (s : State) (T : Team) (G : Group) (k : Out) : onPass s T G .pass k = k := rfl

@[simp] theorem onPass_trap (s : State) (T : Team) (G : Group) (t : Trap) (k : Out) :
    onPass s T G (.trap t) k = raise s T G t := rfl

@[simp] theorem andThen_next (s : State) (f : State → Out) : andThen (.next s) f = f s := rfl

/-- Everything `report` can do: nothing, count a dropped record, stop, or write the record and signal the host. -/
theorem report_cases (s : State) (r : TrapRecord) :
    report s r = .next s ∨ (∃ i e, report s r = .next (s.putSlot i e)) ∨ (∃ a, report s r = .fault (.noSuchDramAddress a)) ∨
    ∃ i e a, report s r =
      .next { (s.setBytes ⟨false, a⟩ r.bytes).putSlot i e with interrupts := (s.setBytes ⟨false, a⟩ r.bytes).interrupts + 1 } := by
  unfold report
  split
  · exact .inl rfl
  · simp only
    split
    · exact .inr (.inl ⟨_, _, rfl⟩)
    · split
      · exact .inr (.inr (.inl ⟨_, rfl⟩))
      · exact .inr (.inr (.inr ⟨_, _, _, rfl⟩))

end Sys2Proof.Machine
end

