-- ==== Sys2Proof/Laws/Mem.lean ====
section
/-! SUPPORT. The memories: reading back what was written, and that every memory operation keeps the canonical form. -/
namespace Sys2Proof.Machine

/-! ## One byte -/

/-- The canonical form of a list with a first entry. -/
theorem Memory.wfFrom_cons (lo x : Nat) (y : Byte) (m : Memory) :
    Memory.wfFrom lo ((x, y) :: m) = true ↔ lo ≤ x ∧ y ≠ 0 ∧ Memory.wfFrom (x + 1) m = true := by
  simp [Memory.wfFrom, and_assoc]

/-- A byte below the lower bound is not listed. -/
theorem Memory.get_below (m : Memory) (lo a : Nat) (h : Memory.wfFrom lo m = true) (ha : a < lo) : m.get a = 0 := by
  induction m generalizing lo with
  | nil => rfl
  | cons p m ih =>
    obtain ⟨x, y⟩ := p
    rw [Memory.wfFrom_cons] at h
    have : a ≠ x := by omega
    rw [Memory.get, if_neg this]
    exact ih (x + 1) h.2.2 (by omega)

/-- A written byte is read back; every other byte is as before. -/
theorem Memory.get_set (m : Memory) (lo a b : Nat) (v : Byte) (h : Memory.wfFrom lo m = true) :
    (Memory.set m a v).get b = if b = a then v else m.get b := by
  induction m generalizing lo with
  | nil =>
    rw [Memory.set]
    split
    · rename_i hv; subst hv; split <;> rfl
    · rfl
  | cons p m ih =>
    obtain ⟨x, y⟩ := p
    have hz : a < x → Memory.get ((x, y) :: m) a = 0 := fun hax =>
      Memory.get_below _ x a ((Memory.wfFrom_cons x x y m).2 ⟨Nat.le_refl x, ((Memory.wfFrom_cons lo x y m).1 h).2⟩) hax
    rw [Memory.wfFrom_cons] at h
    rw [Memory.set]
    split
    · rename_i hax
      split
      · rename_i hv
        subst hv
        split
        · rename_i e; subst e; exact hz hax
        · rfl
      · rfl
    · split
      · rename_i h4 h5
        subst h5
        split
        · rename_i hv
          subst hv
          split
          · rename_i e; subst e; exact Memory.get_below m (b + 1) b h.2.2 (Nat.lt_succ_self b)
          · rename_i e; rw [Memory.get, if_neg e]
        · split
          · rename_i e; rw [Memory.get, if_pos e]
          · rename_i e; rw [Memory.get, if_neg e, Memory.get, if_neg e]
      · rename_i h4 h5
        rw [Memory.get, ih _ h.2.2]
        by_cases e : b = x
        · have : b ≠ a := fun e' => h5 (e'.symm.trans e)
          rw [if_pos e, if_neg this, Memory.get, if_pos e]
        · rw [if_neg e, Memory.get, if_neg e]

/-- A lower bound may be lowered. -/
theorem Memory.wfFrom_mono {m : Memory} {lo lo' : Nat} (h : Memory.wfFrom lo m = true) (hl : lo' ≤ lo) :
    Memory.wfFrom lo' m = true := by
  cases m with
  | nil => rfl
  | cons p m =>
    obtain ⟨x, y⟩ := p
    rw [Memory.wfFrom_cons] at h ⊢
    exact ⟨by omega, h.2⟩

/-- Writing a byte keeps the canonical form. -/
theorem Memory.wfFrom_set (m : Memory) (lo a : Nat) (v : Byte) (h : Memory.wfFrom lo m = true) (hl : lo ≤ a) :
    Memory.wfFrom lo (Memory.set m a v) = true := by
  induction m generalizing lo with
  | nil =>
    rw [Memory.set]
    split
    · rfl
    · rename_i hv; exact (Memory.wfFrom_cons _ _ _ _).2 ⟨hl, hv, rfl⟩
  | cons p m ih =>
    obtain ⟨x, y⟩ := p
    rw [Memory.wfFrom_cons] at h
    rw [Memory.set]
    split
    · split
      · exact (Memory.wfFrom_cons _ _ _ _).2 h
      · rename_i hax hv
        exact (Memory.wfFrom_cons _ _ _ _).2 ⟨hl, hv, (Memory.wfFrom_cons _ _ _ _).2 ⟨by omega, h.2⟩⟩
    · split
      · rename_i h4 h5
        subst h5
        split
        · exact Memory.wfFrom_mono h.2.2 (by omega)
        · rename_i hv; exact (Memory.wfFrom_cons _ _ _ _).2 ⟨h.1, hv, h.2.2⟩
      · rename_i h4 h5
        exact (Memory.wfFrom_cons _ _ _ _).2 ⟨h.1, h.2.1, ih (x + 1) h.2.2 (by omega)⟩

theorem Memory.wf_set {m : Memory} (h : m.wf = true) (a : Nat) (v : Byte) : (Memory.set m a v).wf = true :=
  Memory.wfFrom_set m 0 a v h (Nat.zero_le a)

/-! ## Several bytes -/

/-- Writing bytes keeps the canonical form. -/
theorem Memory.wf_write (m : Memory) (a : Nat) (bs : List Byte) (h : m.wf = true) : (Memory.write m a bs).wf = true := by
  induction bs generalizing m a with
  | nil => exact h
  | cons b bs ih => exact ih _ _ (Memory.wf_set h a b)

/-- Written bytes are read back; every byte outside them is as before. -/
theorem Memory.get_write (m : Memory) (a b : Nat) (bs : List Byte) (h : m.wf = true) :
    (Memory.write m a bs).get b = if a ≤ b ∧ b < a + bs.length then bs.getD (b - a) 0 else m.get b := by
  induction bs generalizing m a with
  | nil =>
    have : ¬ (a ≤ b ∧ b < a + ([] : List Byte).length) := by simp
    rw [if_neg this]; rfl
  | cons c bs ih =>
    simp only [Memory.write]
    rw [ih _ _ (Memory.wf_set h a c), Memory.get_set m 0 a b c h]
    by_cases e : b = a
    · subst e
      have h1 : ¬ (b + 1 ≤ b ∧ b < b + 1 + bs.length) := by omega
      have h2 : b ≤ b ∧ b < b + (c :: bs).length := by simp
      rw [if_neg h1, if_pos rfl, if_pos h2]
      simp
    · by_cases e2 : a ≤ b ∧ b < a + (c :: bs).length
      · have h1 : a + 1 ≤ b ∧ b < a + 1 + bs.length := by simp at e2; omega
        rw [if_pos h1, if_pos e2]
        obtain ⟨k, hk⟩ : ∃ k, b - a = k + 1 := ⟨b - a - 1, by omega⟩
        have hk2 : b - (a + 1) = k := by omega
        simp [hk, hk2]
      · have h1 : ¬ (a + 1 ≤ b ∧ b < a + 1 + bs.length) := by simp at e2; omega
        rw [if_neg h1, if_neg e, if_neg e2]

/-! ## The state's memories -/

/-- The three canonical forms. -/
theorem State.memWf_iff (s : State) :
    s.memWf = true ↔ Memory.wf s.mem = true ∧ Memory.wf s.hostMem = true ∧ Memory.wf s.safeTier = true := by
  simp [State.memWf, and_assoc]

/-- States with the same memories have the same form. -/
theorem State.memWf_congr {s t : State} (h1 : t.mem = s.mem) (h2 : t.hostMem = s.hostMem) (h3 : t.safeTier = s.safeTier) :
    t.memWf = s.memWf := by simp [State.memWf, h1, h2, h3]

theorem State.memWf_setByte {s : State} (h : s.memWf = true) (l : Loc) (b : Byte) : (s.setByte l b).memWf = true := by
  rw [State.memWf_iff] at h ⊢
  unfold State.setByte
  split
  · exact ⟨h.1, Memory.wf_set h.2.1 _ _, h.2.2⟩
  · exact ⟨Memory.wf_set h.1 _ _, h.2.1, h.2.2⟩

theorem State.memWf_setBytes {s : State} {l : Loc} {bs : List Byte} (h : s.memWf = true) :
    (s.setBytes l bs).memWf = true := by
  rw [State.memWf_iff] at h ⊢
  unfold State.setBytes
  split
  · exact ⟨h.1, Memory.wf_write _ _ _ h.2.1, h.2.2⟩
  · exact ⟨Memory.wf_write _ _ _ h.1, h.2.1, h.2.2⟩

theorem State.memWf_foldl {α : Type} (f : State → α → State) (hf : ∀ s x, s.memWf = true → (f s x).memWf = true)
    (l : List α) (s : State) (h : s.memWf = true) : (l.foldl f s).memWf = true := by
  induction l generalizing s with
  | nil => exact h
  | cons x l ih => exact ih _ (hf s x h)

theorem State.memWf_park {s : State} (h : s.memWf = true) (l : Loc) (copy : Bool) : (s.park l copy).memWf = true := by
  unfold State.park
  apply State.memWf_foldl _ _ _ _ h
  intro s T hs
  split
  · dsimp only
    split
    · exact State.memWf_setByte (State.memWf_setByte hs _ _) _ _
    · exact State.memWf_setByte hs _ _
  · exact hs

@[simp] theorem State.keepOld_mem (s : State) (l : Loc) (b : Byte) : (s.keepOld l b).mem = s.mem := rfl
@[simp] theorem State.keepOld_hostMem (s : State) (l : Loc) (b : Byte) : (s.keepOld l b).hostMem = s.hostMem := rfl
@[simp] theorem State.keepOld_poison (s : State) (l : Loc) (b : Byte) : (s.keepOld l b).poison = s.poison := rfl
@[simp] theorem State.keepOld_teams (s : State) (l : Loc) (b : Byte) : (s.keepOld l b).teams = s.teams := rfl
@[simp] theorem State.keepOld_launches (s : State) (l : Loc) (b : Byte) : (s.keepOld l b).launches = s.launches := rfl
@[simp] theorem State.keepOld_byteAt (s : State) (l m : Loc) (b : Byte) : (s.keepOld l b).byteAt m = s.byteAt m := rfl

theorem State.memWf_keepOld {s : State} (h : s.memWf = true) (l : Loc) (b : Byte) : (s.keepOld l b).memWf = true := h

/-- Where nothing was overwritten, a fetch that finds its pages answers the bytes that stand in memory (R32). -/
theorem State.fetch_fresh {s : State} {T : Team} {va n : Nat} (hf : s.fetchFail T (pagesOf va n) = none)
    (ho : s.overwritten = []) : s.fetch T va n = .ok (s.wordAt T va n false) := by
  unfold State.fetch
  rw [hf, ho]
  rfl

/-- Keeping a byte that a window shows changes only what is kept. -/
theorem State.keepPadByte_eq (s : State) (T : Team) (off : Nat) : ∃ l, s.keepPadByte T off = { s with overwritten := l } := by
  unfold State.keepPadByte
  split
  · exact ⟨s.overwritten, rfl⟩
  · exact ⟨_, rfl⟩

/-- The renewal of a line changes the core's caches alone (R188). -/
theorem State.renewLine_eq (s : State) (die core : Nat) (l : Loc) : ∃ c, s.renewLine die core l = { s with cores := c } := by
  unfold State.renewLine
  simp only
  split
  · exact ⟨_, rfl⟩
  · exact ⟨s.cores, rfl⟩

/-- The renewal after a load changes the core's caches alone (R188). -/
theorem State.renew_eq (s : State) (T : Team) (via : Via) (vas : List (Nat × Nat)) : ∃ c, s.renew T via vas = { s with cores := c } := by
  unfold State.renew
  simp only
  split
  · exact ⟨s.cores, rfl⟩
  · rename_i hc
    clear hc
    generalize (((s.missed T via false vas).map fun l => (⟨l.host, l.addr / 64 * 64⟩ : Loc)).eraseDups) = ls
    induction ls generalizing s with
    | nil => exact ⟨s.cores, rfl⟩
    | cons l ls ih =>
      obtain ⟨c, h⟩ := s.renewLine_eq T.die T.core l
      obtain ⟨d, k⟩ := ih (s.renewLine T.die T.core l)
      exact ⟨d, by rw [List.foldl_cons, k, h]⟩

/-- A load leaves every byte of memory as it was, its renewal included. -/
theorem State.renew_byteAt (s : State) (T : Team) (via : Via) (vas : List (Nat × Nat)) (l : Loc) :
    (s.renew T via vas).byteAt l = s.byteAt l := by
  obtain ⟨c, h⟩ := s.renew_eq T via vas
  rw [h]; rfl

/-- The renewal keeps the canonical form of the memories. -/
theorem State.memWf_renew {s : State} (h : s.memWf = true) (T : Team) (via : Via) (vas : List (Nat × Nat)) :
    (s.renew T via vas).memWf = true := by
  obtain ⟨c, k⟩ := s.renew_eq T via vas
  rw [k]; exact h

/-- A fold of steps that each change only what is kept changes only that. -/
theorem State.foldl_overwritten {α : Type} (f : State → α → State) (hf : ∀ s x, ∃ l, f s x = { s with overwritten := l })
    (xs : List α) (s : State) : ∃ l, xs.foldl f s = { s with overwritten := l } := by
  induction xs generalizing s with
  | nil => exact ⟨s.overwritten, rfl⟩
  | cons x xs ih =>
    obtain ⟨l, e⟩ := hf s x
    obtain ⟨l', e'⟩ := ih (f s x)
    exact ⟨l', by rw [List.foldl_cons, e', e]⟩

/-- Keeping what a write into a scratchpad replaces changes only what is kept. -/
theorem State.keepOldPad_eq (s : State) (T : Team) (off : Nat) (b : Byte) :
    ∃ l, s.keepOldPad T off b = { s with overwritten := l } := by
  unfold State.keepOldPad
  split
  · split
    · exact ⟨s.overwritten, rfl⟩
    · exact State.keepPadByte_eq s T off
  · exact State.foldl_overwritten _ (fun s _ => State.keepPadByte_eq s T _) _ s

/-- Keeping what writes of whole granules replace changes only what is kept. -/
theorem State.keepPads_eq (s : State) (T : Team) (offs : List Nat) : ∃ l, s.keepPads T offs = { s with overwritten := l } :=
  State.foldl_overwritten _ (fun s _ => State.foldl_overwritten _ (fun s _ => State.keepPadByte_eq s T _) _ s) offs s

theorem State.memWf_keepOldPad {s : State} (h : s.memWf = true) (T : Team) (off : Nat) (b : Byte) :
    (s.keepOldPad T off b).memWf = true := by
  obtain ⟨l, e⟩ := State.keepOldPad_eq s T off b
  rw [e]; exact h

theorem State.memWf_storePad {s : State} (h : s.memWf = true) (t o : Nat) (b : Byte) (full : Bool) :
    (s.storePad t o b full).memWf = true := by
  unfold State.storePad
  split
  · exact h
  · exact State.memWf_keepOldPad h _ _ _

/-- What a store has for the core's own scratchpads leaves the memories in their form (R167, R172). -/
theorem State.memWf_writePads {s : State} (h : s.memWf = true) (r : Req) : (s.writePads r).memWf = true :=
  State.memWf_foldl _ (fun _ _ hs => State.memWf_storePad hs _ _ _ _) _ _ h

theorem State.memWf_padStore {s : State} (h : s.memWf = true) (T : Team) (a : Nat) (b : Byte) (full : Bool) :
    (s.padStore T a b full).memWf = true := by
  unfold State.padStore
  split
  · exact State.memWf_storePad h _ _ _ _
  · exact h

theorem State.memWf_putByte {s : State} (h : s.memWf = true) (p : Place) (b : Byte) (copy : Bool) :
    (s.putByte p b copy).memWf = true := by
  unfold State.putByte
  split
  · exact State.memWf_park (State.memWf_setByte (State.memWf_keepOld h _ _) _ _) _ _
  · split
    · exact h
    · exact State.memWf_keepOldPad h _ _ _

/-! ## Outcomes -/

/-- An outcome that, where it is a next state, has its memories in canonical form. -/
def Out.memWf (o : Out) : Prop := ∀ t, o = .next t → t.memWf = true

theorem Out.memWf_next {s : State} (h : s.memWf = true) : Out.memWf (.next s) := by
  intro t e; cases e; exact h

theorem Out.memWf_fault (r : Fault) : Out.memWf (.fault r) := by intro t e; cases e

theorem Out.memWf_refused (r : Refusal) : Out.memWf (.refused r) := by intro t e; cases e

theorem Out.memWf_andThen {o : Out} {f : State → Out} (ho : Out.memWf o) (hf : ∀ s, s.memWf = true → Out.memWf (f s)) :
    Out.memWf (andThen o f) := by
  cases o with
  | next s => exact hf s (ho s rfl)
  | fault r => exact Out.memWf_fault r
  | refused r => exact Out.memWf_refused r

/-- Reporting a fault keeps the form. -/
theorem report_memWf {s : State} {r : TrapRecord} (h : s.memWf = true) : Out.memWf (report s r) := by
  rcases report_cases s r with e | ⟨i, e', e⟩ | ⟨a, e⟩ | ⟨i, e', a, e⟩ <;> rw [e]
  · exact Out.memWf_next h
  · exact Out.memWf_next h
  · exact Out.memWf_fault _
  · apply Out.memWf_next
    have h1 : (s.setBytes ⟨false, a⟩ r.bytes).memWf = true := State.memWf_setBytes h
    generalize s.setBytes ⟨false, a⟩ r.bytes = u at h1
    exact (State.memWf_congr rfl rfl rfl).trans h1

theorem raiseAt_memWf {s : State} (h : s.memWf = true) (T : Team) (G : Group) (t : Trap) (spc off lpc : Nat) :
    Out.memWf (raiseAt s T G t spc off lpc) := report_memWf (s := s.modTeam _ _) h

theorem raise_memWf {s : State} (h : s.memWf = true) (T : Team) (G : Group) (t : Trap) : Out.memWf (raise s T G t) :=
  raiseAt_memWf h _ _ _ _ _ _

theorem raiseLane_memWf {s : State} (h : s.memWf = true) (T : Team) (G : Group) (e : QEntry) (t : Trap) :
    Out.memWf (raiseLane s T G e t) := raiseAt_memWf h _ _ _ _ _ _

theorem raiseImprecise_memWf {s : State} (h : s.memWf = true) (g : Tag) (t : Trap) (off lpc extra : Nat) :
    Out.memWf (raiseImprecise s g t off lpc extra) := by
  unfold raiseImprecise
  dsimp only
  split
  · split
    · exact report_memWf (s := s.putTeam _) h
    · exact report_memWf h
  · exact report_memWf h

theorem waitFor_memWf {s : State} (h : s.memWf = true) (T : Team) (G : Group) (w : WaitFor) :
    Out.memWf (waitFor s T G w) := Out.memWf_next (s := s.put T _) h

/-- A scalar word keeps the form where its own effect does. -/
theorem scalarWord_memWf {s : State} (h : s.memWf = true) {fields : List (Nat × SReg)} {regs : List SReg} {effect : Bool}
    {act : Team → Group → Out} (ha : ∀ T G, Out.memWf (act T G)) : Out.memWf (scalarWord s fields regs effect act) := by
  rcases scalarWord_cases s fields regs effect act with ⟨-, e⟩ | ⟨T, G, -, ⟨t, e⟩ | ⟨w, e⟩ | e⟩ <;> rw [e]
  · exact Out.memWf_next h
  · exact raise_memWf h T G t
  · exact waitFor_memWf h T G w
  · exact ha T G

end Sys2Proof.Machine
end

