-- ==== Sys2Proof/Laws/Turn.lean ====
section
/-! SUPPORT. What a turn runs, and what a step takes from the agenda. -/
namespace Sys2Proof.Machine

/-- A scalar turn of a group that may issue and does not wait runs the word it fetches. -/
theorem scalarTurn_runs {s : State} {t g : Nat} {T : Team} {G : Group} (hf : s.find t g = some (T, G))
    (hm : s.mayIssue T G = true) (hw : G.wait = none) :
    scalarTurn s t g = andThen (runScalar { s with cur := some (t, g) } T G) fun s => .next (s.finishStops t g) := by
  unfold scalarTurn
  rw [hf]
  dsimp only
  rw [hm, hw]
  rfl

/-- A fetched word that decodes runs as its instruction. -/
theorem runScalar_ok {s : State} {T : Team} {G : Group} {bs : List Byte} {i : Instr}
    (hf : s.fetchScalar T G.fetchIndex = .ok bs) (hd : decodeScalar G.pfx (BitVec.ofNat 32 (ofBytes bs)) = .ok i) :
    runScalar s T G = exec i s := by
  unfold runScalar
  rw [hf]
  dsimp only [runScalarWord]
  rw [hd]

/-- A lane turn of a group that may issue, owes no empty turn and has no rejected request runs the head of its queue. -/
theorem laneTurn_runs {s : State} {t g : Nat} {T : Team} {G : Group} {e : QEntry} {q : List QEntry}
    (hf : s.find t g = some (T, G)) (hm : s.mayIssue T G = true) (hs : G.mustStop = false)
    (hr : ∀ r ∈ G.reqs, r.entry = true) (h0 : G.stall = 0) (hq : G.queue = e :: q) :
    laneTurn s t g = runLane { s with cur := some (t, g) } G e := by
  have h1 : (!s.mayIssue T G || G.mustStop || G.reqs.any (fun r => !r.entry)) = false := by
    have : G.reqs.any (fun r => !r.entry) = false := by
      rw [List.any_eq_false]; intro r h; simp [hr r h]
    rw [hm, hs, this]; rfl
  unfold laneTurn
  rw [hf]
  dsimp only
  rw [h1, hq]
  simp [h0]

/-- The head of the queue that does not fuse runs as its instruction. -/
theorem runLane_ok {s : State} {G : Group} {e : QEntry} {w : LaneBits} {i : Instr} (he : e.fetch = .word w)
    (hf : fusible G = none) (hd : decodeLane w = .ok i) : runLane s G e = exec i s := by
  unfold runLane
  rw [he]
  dsimp only
  rw [hf]
  dsimp only
  rw [hd]

/-- A step carries out the head of the agenda. -/
theorem step_cons {s : State} {x : Sched} {rest : List Sched} (h : s.agenda = x :: rest) :
    step s = x.run { s with agenda := rest } := by
  unfold step nextStep
  rw [h]

/-- With nothing in the agenda, the part does what it does of itself. -/
theorem step_nil {s : State} (h : s.agenda = []) : step s = autoStep s := by
  unfold step nextStep
  rw [h]

end Sys2Proof.Machine
end

