-- ==== Sys2Proof/Tests/Slice0.lean ====
section
/-! SUPPORT. The model's own tests: ill-formed terms refused, one word of every row of the two word tables decoded, worked
examples of the spec, and for every statement a state that meets its hypotheses. -/
namespace Sys2Proof.Tests
open Sys2Proof.Machine Sys2Proof.Slice0

set_option Elab.async false

/-! ## Well-formedness: one ill-formed term for each check -/

/-- Lane fields all zero but the guards and TYPE 8. -/
def fd : LaneFields :=
  { ga := .always, gb := .always, d := .v 0, a := .v 0, b := .v 0, c := .v 0, e := .v 0, wbs := false, lat := 0, type := .f32,
    func := 0, hint := .none, stall := 0, yld := false, rnd := .ctl, sat := false }

/-- Scalar terms that R36, R39, R75, R80, R193, R219, R225, R355 rule out. -/
theorem test_wf_refuses_scalar : ∀ i ∈
    ([.shli 1 2 64, .shri 1 2 64, .sari 1 2 (-1), .br .always 1 0, .vrun 0, .vrun 33, .fenceQ .grp,
      .cpy 0 0 3 false false false false 0, .cpy 0 54 3 false false false false 0, .cpy 0 1 3 false false false false 4,
      .cpy 0 1 3 true false true false 0, .cpy 0 1 3 true false false true 0, .qfence 0, .qwait 1 false 4 0,
      .csrw .clk 1, .csrw .stStale 1] : List Instr), i.wf = false := by decide

/-- Their neighbours within the limits are admitted. -/
theorem test_wf_admits_scalar : ∀ i ∈
    ([.shli 1 2 63, .sari 1 2 0, .br .always 0 0, .br .eq 1 0, .vrun 1, .vrun 32, .fenceQ .team,
      .cpy 0 1 3 false true true true 3, .cpy 0 53 3 true false false false 7, .qfence 1, .qwait 1 false 3 0,
      .qwait 1 true 7 0, .csrw .stFallback 1] : List Instr), i.wf = true := by decide

/-- Lane terms that break one rule of R42 to R57 each: guards, operand classes, the registers of a quad, a pair or an
accumulator, WBS and LAT, TYPE, FUNC, HINT, RND, SAT, the rows of one opcode. -/
theorem test_wf_refuses_lane : ∀ i ∈
    ([.vBscale { fd with ga := .pred 0 false, d := .p 1, func := 1 }, .vHrot { fd with gb := .pred 1 true, b := .s 1 },
      .vAdd { fd with d := .p 0, type := .i32 }, .vAdd { fd with d := .v 5, type := .i64 },
      .vAdd { fd with a := .l 0, type := .i64 }, .vFadd { fd with a := .spec .lane }, .vFadd { fd with c := .v 1 },
      .vAdd { fd with type := .f32 }, .vAdd { fd with type := .i32, func := 1 }, .vAdd { fd with type := .i32, hint := .ev },
      .vAdd { fd with type := .i32, rnd := .rtz }, .vMin { fd with type := .i32, sat := true },
      .vAdd { fd with type := .i32, wbs := true }, .vAdd { fd with d := .v 4, type := .i32, wbs := true, lat := 1 },
      .vAdd { fd with type := .i64, lat := 1 }, .vCmp { fd with d := .p 0, type := .i32, func := 6 },
      .vCmp { fd with d := .v 0, type := .i32 }, .vPnot { fd with d := .p 0, type := .b32, func := 12 },
      .vMovsFirst { fd with d := .s 0, type := .n32 }, .vMovsFirst { fd with d := .s 57, type := .n32 },
      .vMovsFirst { fd with d := .s 1, type := .n32, func := 1 }, .vMovsLast { fd with d := .s 1, type := .n32 },
      .vMovsAt { fd with d := .s 1, b := .v 1, type := .n32, func := 2 }, .vPmov { fd with d := .p 0, type := .b32, func := 1 },
      .vPmovToVector { fd with type := .b32 }, .vPmovPredCopy { fd with d := .p 0, type := .b32, func := 0xC2 },
      .vPack { fd with a := .v 2, type := .b32 }, .vUnpack { fd with d := .v 2, type := .b32 },
      .vQnt { fd with func := 8 }, .vQerr { fd with d := .v 4, c := .v 4, func := 1 }, .vCvt { fd with func := 11 },
      .vCvt { fd with type := .i32, func := 2, rnd := .rtz }, .vQswap { fd with func := 0 }, .vRed { fd with func := 6 },
      .vRed { fd with func := 0 }, .vBcast { fd with b := .v 1 }, .vLd { fd with a := .v 3, b := .v 0 },
      .vLd { fd with a := .s 1, func := 0x20 }, .vLd { fd with d := .v 2, a := .s 1, func := 8 },
      .vLds { fd with hint := .lc }, .vSt { fd with d := .v 4, a := .s 1 }, .vAtom { fd with a := .s 1, type := .i32, func := 7 },
      .vBadd { fd with a := .s 1, type := .n32 }, .vAmm { fd with d := .x 8, b := .imm 0, e := .s 1, type := .narrow },
      .vAmm { fd with d := .x 0, b := .imm 16, e := .s 1, type := .narrow },
      .vAmm { fd with d := .x 0, b := .imm 0, e := .s 62, type := .narrow }, .vAccclr { fd with d := .x 6, func := 2 },
      .vAccld { fd with d := .x 0, a := .v 1, b := .imm 8 }, .vMma { fd with type := .f32, func := 2 },
      .vMmac { fd with d := .v 248, type := .bf16 }, .vNop { fd with type := .i8, d := .v 1 }, .vNop fd] : List Instr),
    i.wf = false := by decide +kernel

/-! ## Decoding: a word of every row, put together from the fields of R34 and R42

The scalar words are the fixed bits of their row of the opcode table and the operand fields at their places; the lane words
are their fields at the places of R42. -/

def scalarArithWords : List (Nat × Instr) :=
  [(0x04108300, .add 1 2 3), (0x04108301, .sub 1 2 3), (0x04108302, .mul 1 2 3),
   (0x04108303, .mulh 1 2 3), (0x04108304, .mulhn 1 2 3), (0x04108305, .div 1 2 3),
   (0x04108306, .divn 1 2 3), (0x04108307, .rem 1 2 3), (0x04108308, .remn 1 2 3),
   (0x04108309, .and 1 2 3), (0x0410830A, .or 1 2 3), (0x0410830B, .xor 1 2 3),
   (0x0410830C, .andn 1 2 3), (0x0410830D, .shl 1 2 3), (0x0410830E, .shr 1 2 3),
   (0x0410830F, .sar 1 2 3), (0x04108310, .min 1 2 3), (0x04108311, .max 1 2 3),
   (0x04108312, .minn 1 2 3), (0x04108313, .maxn 1 2 3), (0x04108314, .seq 1 2 3),
   (0x04108315, .sne 1 2 3), (0x04108316, .slt 1 2 3), (0x04108317, .sltn 1 2 3),
   (0x04108018, .clz 1 2), (0x04108019, .ctz 1 2), (0x0410801A, .popc 1 2),
   (0x0410801B, .mov 1 2), (0x08108304, .sel 1 4 2 3), (0x0C10A000, .addi 1 2 (-8192)),
   (0x1010A000, .andi 1 2 (-8192)), (0x1410A000, .ori 1 2 (-8192)), (0x1810A000, .xori 1 2 (-8192)),
   (0x1C10803F, .shli 1 2 63), (0x2010803F, .shri 1 2 63), (0x2410803F, .sari 1 2 63),
   (0x2810A000, .slti 1 2 (-8192)), (0x2C10A000, .sltni 1 2 (-8192)), (0x3010A000, .muli 1 2 (-8192)),
   (0x341FFFFF, .li 1 (-1)), (0x381FFFFF, .addpc 1 (-1))]

theorem test_decode_scalar_arith : ∀ p ∈ scalarArithWords, decodeTableWord 32 p.1 = some p.2 := by decide +kernel

def scalarFlowWords : List (Nat × Instr) :=
  [(0x40C2FFFE, .br .lt 2 (-2)), (0x44C00007, .brm .nall 7), (0x48080000, .jmp (-524288)),
   (0x4C080000, .call (-524288)), (0x50008000, .jr 2), (0x50008001, .jrCall 2),
   (0x60000020, .vrun 32), (0x64009FFF, .vjmp 2 8191), (0x68108000, .vset 1 2),
   (0x6C000000, .vdrain), (0x6C000400, .vdrainIss), (0x7000000B, .mpredSet 11),
   (0x7000040B, .mpredAnd 11), (0x7000080B, .mpredAndn 11), (0x70000C0B, .mpredOr 11),
   (0x74100000, .mcount 1), (0x74100001, .mcountFirst 1), (0x74100002, .mcountLast 1)]

theorem test_decode_scalar_flow : ∀ p ∈ scalarFlowWords, decodeTableWord 32 p.1 = some p.2 := by decide +kernel

def scalarMemoryWords : List (Nat × Instr) :=
  [(0x8010A000, .ld 1 2 (-8192)), (0x8410A000, .ldw 1 2 (-8192)), (0x8810A000, .st 1 2 (-8192)),
   (0x8C10A000, .stw 1 2 (-8192)), (0x9010A000, .ldc 1 2 (-8192)), (0x9410800C, .amoLd 1 2 true .dev),
   (0x9400831C, .amoSt 2 3 true .dev), (0x9410832C, .amoSwap 1 2 3 true .dev), (0x9410833C, .amoCas 1 2 3 true .dev),
   (0x9410834C, .amoAdd 1 2 3 true .dev), (0x9410835C, .amoAnd 1 2 3 true .dev), (0x9410836C, .amoOr 1 2 3 true .dev),
   (0x9410837C, .amoXor 1 2 3 true .dev), (0x9410838C, .amoMin 1 2 3 true .dev), (0x9410839C, .amoMax 1 2 3 true .dev),
   (0x941083AC, .amoMinn 1 2 3 true .dev), (0x941083BC, .amoMaxn 1 2 3 true .dev)]

theorem test_decode_scalar_memory : ∀ p ∈ scalarMemoryWords, decodeTableWord 32 p.1 = some p.2 := by decide +kernel

def scalarWaitWords : List (Nat × Instr) :=
  [(0xA0000005, .fenceAcq .sys), (0xA0000405, .fenceRel .sys), (0xA0000805, .fenceFull .sys),
   (0xA0000C05, .fenceQ .sys), (0xA4000003, .bar 3), (0xA8000000, .dbar),
   (0xAC109489, .await .gen 1 2 9 .cell), (0xB01000C8, .cjoin 1 200), (0xB0108400, .cjoinR 1 2),
   (0xB4000000, .cleave), (0xB8000000, .yield)]

theorem test_decode_scalar_wait : ∀ p ∈ scalarWaitWords, decodeTableWord 32 p.1 = some p.2 := by decide +kernel

def scalarEngineWords : List (Nat × Instr) :=
  [(0xC01085C7, .cpy 1 2 5 true true false false 7), (0xC40000A5, .qfence 0xA5), (0xC8100213, .qwait 1 false 3 33),
   (0xCC100000, .mclose 1), (0xD00000C8, .mwait 200), (0xD0008400, .mwaitR 2),
   (0xD0000800, .mwaitAll), (0xD4000065, .amodeSt 5 3), (0xD4000465, .amodeCmp 5 3),
   (0xD8108000, .tbind 1 2), (0xDC00000F, .tmap 15), (0xE0108000, .launch 1 2),
   (0xE4108300, .flaunch 1 2 3), (0xE8100000, .fpost 1), (0xEC108000, .dredOpen 1 2),
   (0xEC008301, .dredPut 2 3), (0xEC108002, .dredClose 1 2), (0xEC000003, .dredWait),
   (0xF0108300, .dtake 1 2 3), (0xF0108301, .dtakeCorr 1 2 3), (0xF400800F, .cblk 2 15),
   (0xF4108400, .cblkR 1 2), (0xF4100807, .cblkWait 1 7)]

theorem test_decode_scalar_engine : ∀ p ∈ scalarEngineWords, decodeTableWord 32 p.1 = some p.2 := by decide +kernel

def scalarSystemWords : List (Nat × Instr) :=
  [(0xF80003FF, .trap 1023), (0xF80007FF, .brk 1023), (0xF8000800, .exit),
   (0xF8100C35, .csrr 1 .idPoint), (0xF8009012, .csrw .stFallback 2), (0xF8101400, .clock 1),
   (0xF8101800, .noise 1), (0xF8101801, .noise2 1), (0xFEABCDEF, .pfx 0x2ABCDEF)]

theorem test_decode_scalar_system : ∀ p ∈ scalarSystemWords, decodeTableWord 32 p.1 = some p.2 := by decide +kernel

/-- A lane word from its fields, GA = GB = 15, at the places of R42: OPC, D, A, B, C, E, TYPE, FUNC. -/
def lanePlaced (opc d a b c e type func : Nat) : LaneBits :=
  BitVec.ofNat 96 (opc * 2 ^ 88 + 15 * 2 ^ 84 + 15 * 2 ^ 79 + d * 2 ^ 68 + a * 2 ^ 58 + b * 2 ^ 48 + c * 2 ^ 38 + e * 2 ^ 28 +
    type * 2 ^ 21 + func * 2 ^ 13)

def integerWords : List (LaneBits × Instr) :=
  [(lanePlaced 0x01 0x4 0x8 0x10C 0x0 0x0 2 0x0, .vAdd { fd with d := .v 4, a := .v 8, b := .s 12, type := .i32 }),
   (lanePlaced 0x02 0x4 0x8 0x10C 0x0 0x0 6 0x0, .vSub { fd with d := .v 4, a := .v 8, b := .s 12, type := .n32 }),
   (lanePlaced 0x03 0x4 0x8 0x10C 0x0 0x0 1 0x0, .vMul { fd with d := .v 4, a := .v 8, b := .s 12, type := .i16 }),
   (lanePlaced 0x04 0x4 0x8 0x10C 0x0 0x0 4 0x0, .vMulh { fd with d := .v 4, a := .v 8, b := .s 12, type := .n8 }),
   (lanePlaced 0x08 0x4 0x8 0x10C 0x0 0x0 3 0x0, .vMin { fd with d := .v 4, a := .v 8, b := .s 12, type := .i64 }),
   (lanePlaced 0x09 0x4 0x8 0x10C 0x0 0x0 7 0x0, .vMax { fd with d := .v 4, a := .v 8, b := .s 12, type := .n64 }),
   (lanePlaced 0x05 0x4 0x8 0x10C 0xD 0x0 2 0x0, .vMad { fd with d := .v 4, a := .v 8, b := .s 12, c := .v 13, type := .i32 }),
   (lanePlaced 0x06 0x4 0x8 0x9 0x0 0x0 6 0xB, .vAddc { fd with d := .v 4, a := .v 8, b := .v 9, type := .n32, func := 0x0B }),
   (lanePlaced 0x07 0x4 0x8 0x9 0x0 0x0 6 0x5, .vSubb { fd with d := .v 4, a := .v 8, b := .v 9, type := .n32, func := 0x05 }),
   (lanePlaced 0x0A 0x4 0x8 0x0 0x0 0x0 0 0x0, .vAbs { fd with d := .v 4, a := .v 8, type := .i8 }),
   (lanePlaced 0x0B 0x4 0x202 0x0 0x0 0x0 2 0x0, .vNeg { fd with d := .v 4, a := .l 1, type := .i32 }),
   (lanePlaced 0x0C 0x4 0x8 0x37F 0x0 0x0 12 0x0, .vAnd { fd with d := .v 4, a := .v 8, b := .imm 127, type := .b32 }),
   (lanePlaced 0x0D 0x4 0x8 0x37F 0x0 0x0 12 0x0, .vOr { fd with d := .v 4, a := .v 8, b := .imm 127, type := .b32 }),
   (lanePlaced 0x0E 0x4 0x8 0x37F 0x0 0x0 12 0x0, .vXor { fd with d := .v 4, a := .v 8, b := .imm 127, type := .b32 }),
   (lanePlaced 0x10 0x4 0x8 0x37F 0x0 0x0 12 0x0, .vAndn { fd with d := .v 4, a := .v 8, b := .imm 127, type := .b32 }),
   (lanePlaced 0x11 0x4 0x8 0x37F 0x0 0x0 12 0x0, .vShl { fd with d := .v 4, a := .v 8, b := .imm 127, type := .b32 }),
   (lanePlaced 0x12 0x4 0x8 0x37F 0x0 0x0 12 0x0, .vShr { fd with d := .v 4, a := .v 8, b := .imm 127, type := .b32 }),
   (lanePlaced 0x13 0x4 0x8 0x37F 0x0 0x0 12 0x0, .vSar { fd with d := .v 4, a := .v 8, b := .imm 127, type := .b32 }),
   (lanePlaced 0x0F 0x4 0x8 0x0 0x0 0x0 12 0x0, .vNot { fd with d := .v 4, a := .v 8, type := .b32 }),
   (lanePlaced 0x14 0x4 0x8 0x303 0x305 0x0 6 0x0, .vBfe { fd with d := .v 4, a := .v 8, b := .imm 3, c := .imm 5, type := .n32 }),
   (lanePlaced 0x15 0x4 0x8 0x9 0x301 0x302 12 0x0, .vBfi { fd with d := .v 4, a := .v 8, b := .v 9, c := .imm 1, e := .imm 2, type := .b32 }),
   (lanePlaced 0x16 0x4 0x8 0x0 0x0 0x0 6 0x0, .vPopc { fd with d := .v 4, a := .v 8, type := .n32 }),
   (lanePlaced 0x17 0x4 0x8 0x0 0x0 0x0 6 0x0, .vClz { fd with d := .v 4, a := .v 8, type := .n32 }),
   (lanePlaced 0x18 0x4 0x8 0x0 0x0 0x0 6 0x0, .vBrev { fd with d := .v 4, a := .v 8, type := .n32 }),
   (lanePlaced 0x19 0x4 0x8 0x9 0xA 0x0 4 0x0, .vSad { fd with d := .v 4, a := .v 8, b := .v 9, c := .v 10, type := .n8 })]

theorem test_decode_lane_integer : ∀ p ∈ integerWords, (decodeLane p.1).toOption = some p.2 := by decide +kernel

def floatWords : List (LaneBits × Instr) :=
  [(lanePlaced 0x30 0x4 0x8 0x9 0x0 0x0 8 0x0, .vFadd { fd with d := .v 4, a := .v 8, b := .v 9 }),
   (lanePlaced 0x31 0x4 0x8 0x9 0x0 0x0 8 0x0, .vFsub { fd with d := .v 4, a := .v 8, b := .v 9 }),
   (lanePlaced 0x32 0x4 0x8 0x9 0x0 0x0 8 0x0, .vFmul { fd with d := .v 4, a := .v 8, b := .v 9 }),
   (lanePlaced 0x35 0x4 0x8 0x9 0x0 0x0 8 0x0, .vFmin { fd with d := .v 4, a := .v 8, b := .v 9 }),
   (lanePlaced 0x36 0x4 0x8 0x9 0x0 0x0 8 0x0, .vFmax { fd with d := .v 4, a := .v 8, b := .v 9 }),
   (lanePlaced 0x3E 0x4 0x8 0x9 0x0 0x0 8 0x0, .vFdivs { fd with d := .v 4, a := .v 8, b := .v 9 }),
   (lanePlaced 0x44 0x4 0x8 0x9 0x0 0x0 8 0x0, .vFscale { fd with d := .v 4, a := .v 8, b := .v 9 }),
   (lanePlaced 0x33 0xA 0xB 0x10C 0xD 0x0 8 0x0, .vFma { fd with d := .v 10, a := .v 11, b := .s 12, c := .v 13 }),
   (lanePlaced 0x34 0xA 0xB 0x10C 0xD 0x0 8 0x0, .vFms { fd with d := .v 10, a := .v 11, b := .s 12, c := .v 13 }),
   (lanePlaced 0x37 0x4 0x8 0x0 0x0 0x0 9 0x0, .vFrcp { fd with d := .v 4, a := .v 8, type := .f16 }),
   (lanePlaced 0x38 0x4 0x8 0x0 0x0 0x0 9 0x0, .vFrsq { fd with d := .v 4, a := .v 8, type := .f16 }),
   (lanePlaced 0x39 0x4 0x8 0x0 0x0 0x0 9 0x0, .vFsqrt { fd with d := .v 4, a := .v 8, type := .f16 }),
   (lanePlaced 0x3A 0x4 0x8 0x0 0x0 0x0 9 0x0, .vFexp2 { fd with d := .v 4, a := .v 8, type := .f16 }),
   (lanePlaced 0x3B 0x4 0x8 0x0 0x0 0x0 9 0x0, .vFlog2 { fd with d := .v 4, a := .v 8, type := .f16 }),
   (lanePlaced 0x3C 0x4 0x8 0x0 0x0 0x0 9 0x0, .vFsin { fd with d := .v 4, a := .v 8, type := .f16 }),
   (lanePlaced 0x3D 0x4 0x8 0x0 0x0 0x0 9 0x0, .vFcos { fd with d := .v 4, a := .v 8, type := .f16 }),
   (lanePlaced 0x3F 0x4 0x8 0x0 0x0 0x0 9 0x0, .vFfloor { fd with d := .v 4, a := .v 8, type := .f16 }),
   (lanePlaced 0x40 0x4 0x8 0x0 0x0 0x0 9 0x0, .vFceil { fd with d := .v 4, a := .v 8, type := .f16 }),
   (lanePlaced 0x41 0x4 0x8 0x0 0x0 0x0 9 0x0, .vFtrunc { fd with d := .v 4, a := .v 8, type := .f16 }),
   (lanePlaced 0x42 0x4 0x8 0x0 0x0 0x0 9 0x0, .vFround { fd with d := .v 4, a := .v 8, type := .f16 }),
   (lanePlaced 0x43 0x4 0x8 0x0 0x0 0x0 9 0x0, .vFclass { fd with d := .v 4, a := .v 8, type := .f16 }),
   (lanePlaced 0x45 0x4 0x8 0x0 0x0 0x0 9 0x0, .vFfrac { fd with d := .v 4, a := .v 8, type := .f16 })]

theorem test_decode_lane_float : ∀ p ∈ floatWords, (decodeLane p.1).toOption = some p.2 := by decide +kernel

def compareMoveWords : List (LaneBits × Instr) :=
  [(lanePlaced 0x60 0x202 0x4 0x300 0x0 0x0 2 0x2, .vCmp { fd with d := .p 2, a := .v 4, b := .imm 0, type := .i32, func := 0x02 }),
   (lanePlaced 0x61 0x203 0x4 0x5 0x0 0x0 10 0x7, .vFcmp { fd with d := .p 3, a := .v 4, b := .v 5, type := .bf16, func := 0x07 }),
   (lanePlaced 0x62 0x4 0x8 0x9 0x0 0x0 12 0x13, .vSel { fd with d := .v 4, a := .v 8, b := .v 9, type := .b32, func := 0x13 }),
   (lanePlaced 0x63 0x20B 0x0 0x0 0x0 0x0 12 0x21, .vPand { fd with d := .p 11, type := .b32, func := 0x21 }),
   (lanePlaced 0x64 0x20B 0x0 0x0 0x0 0x0 12 0x21, .vPor { fd with d := .p 11, type := .b32, func := 0x21 }),
   (lanePlaced 0x65 0x20B 0x0 0x0 0x0 0x0 12 0x21, .vPxor { fd with d := .p 11, type := .b32, func := 0x21 }),
   (lanePlaced 0x66 0x200 0x0 0x0 0x0 0x0 12 0xB, .vPnot { fd with d := .p 0, type := .b32, func := 0x0B }),
   (lanePlaced 0x67 0x201 0x8 0x0 0x0 0x0 12 0x0, .vPmov { fd with d := .p 1, a := .v 8, type := .b32 }),
   (lanePlaced 0x67 0x4 0x0 0x0 0x0 0x0 12 0x51, .vPmovToVector { fd with d := .v 4, type := .b32, func := 0x51 }),
   (lanePlaced 0x67 0x201 0x0 0x0 0x0 0x0 12 0x52, .vPmovPredCopy { fd with d := .p 1, type := .b32, func := 0x52 }),
   (lanePlaced 0x68 0x4 0x380 0x0 0x0 0x0 6 0x0, .vMov { fd with d := .v 4, a := .spec .lane, type := .n32 }),
   (lanePlaced 0x69 0x107 0x9 0x0 0x0 0x0 6 0x0, .vMovsFirst { fd with d := .s 7, a := .v 9, type := .n32 }),
   (lanePlaced 0x69 0x107 0x9 0x0 0x0 0x0 6 0x1, .vMovsLast { fd with d := .s 7, a := .v 9, type := .n32, func := 0x01 }),
   (lanePlaced 0x69 0x107 0x9 0x305 0x0 0x0 6 0x2, .vMovsAt { fd with d := .s 7, a := .v 9, b := .imm 5, type := .n32, func := 0x02 }),
   (lanePlaced 0x6A 0x13D 0x0 0x0 0x0 0x0 12 0x23, .vBallot { fd with d := .s 61, type := .b32, func := 0x23 })]

theorem test_decode_lane_compare_move : ∀ p ∈ compareMoveWords, (decodeLane p.1).toOption = some p.2 := by decide +kernel

def conversionWords : List (LaneBits × Instr) :=
  [(lanePlaced 0x70 0x4 0x8 0x0 0x0 0x0 8 0x2, .vCvt { fd with d := .v 4, a := .v 8, func := 0x02 }),
   (lanePlaced 0x71 0x4 0x8 0x0 0x0 0x0 12 0x1, .vPack { fd with d := .v 4, a := .v 8, type := .b32, func := 0x01 }),
   (lanePlaced 0x72 0x4 0x9 0x0 0x0 0x0 12 0x6, .vUnpack { fd with d := .v 4, a := .v 9, type := .b32, func := 0x06 }),
   (lanePlaced 0x73 0x201 0x8 0x0 0x9 0x0 8 0x1, .vBscale { fd with d := .p 1, a := .v 8, c := .v 9, func := 0x01 }),
   (lanePlaced 0x74 0x4 0x8 0x9 0x0 0x0 8 0x21, .vQnt { fd with d := .v 4, a := .v 8, b := .v 9, func := 0x21 }),
   (lanePlaced 0x75 0x4 0x8 0x9 0x0 0x0 8 0x21, .vDqnt { fd with d := .v 4, a := .v 8, b := .v 9, func := 0x21 }),
   (lanePlaced 0x76 0x4 0x8 0x9 0x5 0x0 8 0x1, .vQerr { fd with d := .v 4, a := .v 8, b := .v 9, c := .v 5, func := 0x01 }),
   (lanePlaced 0x77 0x4 0x8 0x107 0x0 0x0 8 0x1, .vHrot { fd with d := .v 4, a := .v 8, b := .s 7, func := 0x01 }),
   (lanePlaced 0x78 0x4 0x8 0x107 0x0 0x0 8 0x3, .vOsplit { fd with d := .v 4, a := .v 8, b := .s 7, func := 0x03 }),
   (lanePlaced 0x79 0x4 0x0 0x0 0x0 0x0 12 0x0, .vRand { fd with d := .v 4, type := .b32 })]

theorem test_decode_lane_conversion : ∀ p ∈ conversionWords, (decodeLane p.1).toOption = some p.2 := by decide +kernel

def crossLaneWords : List (LaneBits × Instr) :=
  [(lanePlaced 0x90 0x4 0x8 0x0 0x0 0x0 6 0x3, .vQswap { fd with d := .v 4, a := .v 8, type := .n32, func := 0x03 }),
   (lanePlaced 0x91 0x4 0x8 0x0 0x0 0x0 6 0x2, .vQbcast { fd with d := .v 4, a := .v 8, type := .n32, func := 0x02 }),
   (lanePlaced 0x92 0x4 0x8 0x0 0x0 0x0 2 0x2, .vQred { fd with d := .v 4, a := .v 8, type := .i32, func := 0x02 }),
   (lanePlaced 0x93 0x4 0x8 0x9 0x0 0x0 12 0x1, .vShfl { fd with d := .v 4, a := .v 8, b := .v 9, type := .b32, func := 0x01 }),
   (lanePlaced 0x94 0x4 0x8 0x9 0x0 0x0 12 0x15, .vPush { fd with d := .v 4, a := .v 8, b := .v 9, type := .b32, func := 0x15 }),
   (lanePlaced 0x95 0x4 0x8 0x305 0x0 0x0 12 0x0, .vBcast { fd with d := .v 4, a := .v 8, b := .imm 5, type := .b32 }),
   (lanePlaced 0x96 0x107 0x8 0x0 0x0 0x0 8 0x8, .vRed { fd with d := .s 7, a := .v 8, func := 0x08 }),
   (lanePlaced 0x97 0x4 0x8 0x0 0x0 0x0 6 0x10, .vScan { fd with d := .v 4, a := .v 8, type := .n32, func := 0x10 }),
   (lanePlaced 0x98 0x4 0x8 0x0 0x0 0x0 6 0x20, .vMatch { fd with d := .v 4, a := .v 8, type := .n32, func := 0x20 }),
   (lanePlaced 0x99 0x203 0x0 0x0 0x0 0x0 12 0x24, .vVote { fd with d := .p 3, type := .b32, func := 0x24 })]

theorem test_decode_lane_cross_lane : ∀ p ∈ crossLaneWords, (decodeLane p.1).toOption = some p.2 := by decide +kernel

def memoryWords : List (LaneBits × Instr) :=
  [(lanePlaced 0xA0 0x8 0x104 0x2 0x0 0x0 8 0x2, .vLd { fd with d := .v 8, a := .s 4, b := .v 2, func := 0x02 }),
   (lanePlaced 0xA1 0x0 0x104 0x2 0x8 0x0 8 0x2, .vSt { fd with a := .s 4, b := .v 2, c := .v 8, func := 0x02 }),
   (lanePlaced 0xA2 0x8 0x6 0x300 0x0 0x0 4 0x0, .vLds { fd with d := .v 8, a := .v 6, b := .imm 0, type := .n8 }),
   (lanePlaced 0xA3 0x0 0x6 0x300 0x8 0x0 3 0x0, .vSts { fd with a := .v 6, b := .imm 0, c := .v 8, type := .i64 }),
   (lanePlaced 0xA4 0x8 0x6 0x7 0x0 0x0 8 0x18, .vLdfe { fd with d := .v 8, a := .v 6, b := .v 7, func := 0x18 }),
   (lanePlaced 0xA5 0x0 0x6 0x7 0x8 0x0 8 0x8, .vStfe { fd with a := .v 6, b := .v 7, c := .v 8, func := 0x08 }),
   (lanePlaced 0xA6 0x0 0x104 0x2 0x8 0x0 2 0xB0, .vAtom { fd with a := .s 4, b := .v 2, c := .v 8, type := .i32, func := 0xB0 }),
   (lanePlaced 0xA7 0x5 0x104 0x2 0x8 0x9 12 0x7, .vAtomr { fd with d := .v 5, a := .s 4, b := .v 2, c := .v 8, e := .v 9, type := .b32, func := 0x07 }),
   (lanePlaced 0xA8 0x0 0x104 0x2 0x8 0x0 8 0x1, .vBadd { fd with a := .s 4, b := .v 2, c := .v 8, func := 0x01 })]

theorem test_decode_lane_memory : ∀ p ∈ memoryWords, (decodeLane p.1).toOption = some p.2 := by decide +kernel

def matrixWords : List (LaneBits × Instr) :=
  [(lanePlaced 0xC0 0x302 0x8 0x305 0x0 0x107 11 0x3, .vAmm { fd with d := .x 2, a := .v 8, b := .imm 5, e := .s 7, type := .narrow, func := 0x03 }),
   (lanePlaced 0xC1 0x0 0x8 0x305 0x303 0x0 12 0x0, .vAmw { fd with a := .v 8, b := .imm 5, c := .imm 3, type := .b32 }),
   (lanePlaced 0xC2 0x4 0x302 0x307 0x0 0x0 8 0x0, .vAccmov { fd with d := .v 4, a := .imm 2, b := .imm 7 }),
   (lanePlaced 0xC3 0x303 0x8 0x301 0x0 0x0 8 0x0, .vAccld { fd with d := .x 3, a := .v 8, b := .imm 1 }),
   (lanePlaced 0xC4 0x304 0x0 0x0 0x0 0x0 8 0x3, .vAccclr { fd with d := .x 4, func := 0x03 }),
   (lanePlaced 0xC5 0x307 0x105 0x8 0x0 0x0 8 0x0, .vAccscl { fd with d := .x 7, a := .s 5, b := .v 8 }),
   (lanePlaced 0xD0 0x4 0xA 0xC 0x0 0x107 11 0x0, .vMma { fd with d := .v 4, a := .v 10, b := .v 12, e := .s 7, type := .narrow }),
   (lanePlaced 0xD1 0x0 0xC 0xE 0x0 0x0 10 0x4, .vMmac { fd with a := .v 12, b := .v 14, type := .bf16, func := 0x04 })]

theorem test_decode_lane_matrix : ∀ p ∈ matrixWords, (decodeLane p.1).toOption = some p.2 := by decide +kernel

/-- The failing field of a word that does not decode. -/
def failsAt (r : Except Nat Instr) : Option Nat :=
  match r with
  | .error p => some p
  | .ok _ => none

/-- The words the spec writes out (R55, R106, R107, R177, and R55's latch example with `v.nop`, STALL 5 and YLD). -/
theorem test_decode_worked_lane_words :
    (decodeLane 0x3032C0200804000001000000).toOption = some (.vFadd { fd with ga := .pred 3 false, gb := .pred 5 true, d := .v 2, a := .v 2, b := .v 4 }) ∧
    (decodeLane 0x60F7A0201300000000404000).toOption = some (.vCmp { fd with d := .p 2, a := .v 4, b := .imm 0, type := .i32, func := 2 }) ∧
    (decodeLane 0x33F780A02D0C034001000000).toOption = some (.vFma { fd with d := .v 10, a := .v 11, b := .s 12, c := .v 13 }) ∧
    (decodeLane 0xA0F780841002000001004000).toOption = some (.vLd { fd with d := .v 8, a := .s 4, b := .v 2, func := 2 }) ∧
    (decodeLane (lanePlaced 0x01 0x00A 0x202 0x37F 0 0 2 0 + 1 <<< 25)).toOption = some (.vAdd { fd with d := .v 10, a := .l 1, b := .imm 127, lat := 1, type := .i32 }) ∧
    (decodeLane (BitVec.ofNat 96 (15 * 2 ^ 84 + 15 * 2 ^ 79 + 5 * 2 ^ 8 + 2 ^ 7))).toOption = some (.vNop { fd with type := .i8, stall := 5, yld := true }) := by decide +kernel

/-- R38's worked word. -/
theorem test_decode_worked_scalar_word : decodeTableWord 32 0x04310500 = some (.add 3 4 5) := by decide +kernel

/-- Words of reserved or broken encodings, with the failing field R58 names: an unassigned OP, an unassigned FN, SB of
`clz`, a register above 55 is in the fixed group and legal, COND 7, an unassigned SUB, a third prefix, a lane word whose
reserved bits are set, an unassigned OPC, TYPE 13. -/
theorem test_decode_refuses :
    failsAt (decodeScalar [] (BitVec.ofNat 32 (0x0F * 2 ^ 26))) = some 26 ∧ failsAt (decodeScalar [] 0x0400001C) = some 0 ∧
    failsAt (decodeScalar [] 0x04000118) = some 8 ∧ failsAt (decodeScalar [] (BitVec.ofNat 32 (0x10 * 2 ^ 26 + 7 * 2 ^ 22))) = some 22 ∧
    failsAt (decodeScalar [] 0xF8001C00) = some 10 ∧ failsAt (decodeScalar [0, 0] 0xFC000000) = some 26 ∧
    failsAt (decodeScalar [0] 0x04310500) = some 26 ∧ failsAt (decodeLane (lanePlaced 0x01 4 8 9 0 0 2 0 + 1)) = some 0 ∧
    failsAt (decodeLane (lanePlaced 0x1A 0 0 0 0 0 2 0)) = some 88 ∧ failsAt (decodeLane (lanePlaced 0x68 4 8 0 0 0 13 0)) = some 21 := by
  decide +kernel

/-! ## The small machine of the witnesses

One team of one group on core 0 of die 0; page 0 of device memory is mapped, readable, writable and executable. -/

/-- Its group, about to run a scalar word. -/
def G0 : Group := placedGroup 32 0 1

/-- Its team. -/
def T0 : Team := placedTeam 32 0 0 0

/-- A team with one group. -/
def own (T : Team) (G : Group) : Team := { T with groups := [G] }

/-- The machine at the turn of a group. -/
def mk (T : Team) (G : Group) : State := { State.reset.withFetchWord 32 0 with cur := some (0, 0), teams := [own T G] }

/-- A group with a scalar register set. -/
def Gr (r : SReg) (x : DWord) : Group := G0.sset r x

/-- No lane word is outstanding, every register is in the budgets and none is pending; no atomic and no store to own scratchpads
is rejected. -/
def idle (G : Group) : Bool :=
  G.queue.isEmpty && (G.reqs.all fun r => r.entry || r.performed || (r.atom.isNone && r.pads.isEmpty)) &&
    (List.range 64).all fun r => G.bud.sOk r && !G.pending (BitVec.ofNat 6 r)

theorem acts_of {s : State} {T : Team} {G : Group} (h : s.current = some (T, G)) (hi : idle G = true) (rs : List SReg)
    (e : Bool) : ScalarActs s T G rs e := by
  simp only [idle, Bool.and_eq_true, List.all_eq_true, List.mem_range, List.isEmpty_iff] at hi
  refine ⟨h, fun r _ => ?_, .inl hi.1.1, fun _ r hr => ?_⟩
  · have := hi.2 r.toNat r.isLt
    simpa using this
  · have := hi.1.2 r hr
    simp only [Bool.or_eq_true, Bool.and_eq_true, Option.isNone_iff_eq_none, List.isEmpty_iff] at this
    rcases this with (e | e) | e
    · exact .inl e
    · exact .inr (.inl e)
    · exact .inr (.inr (.inr e))

theorem test_witness_scalar_turn (rs : List SReg) (e : Bool) : ScalarActs (mk T0 G0) (own T0 G0) G0 rs e :=
  acts_of (by decide +kernel) (by decide +kernel) rs e

/-- A step goes on. -/
def goesOn (o : Out) : Bool :=
  match o with
  | .next _ => true
  | _ => false

theorem next_of {o : Out} (h : goesOn o = true) : ∃ t, o = .next t := by
  cases o with
  | next t => exact ⟨t, rfl⟩
  | fault f => cases h
  | refused r => cases h

/-! ## The step, decoding, registers -/

/-- A scalar word, R38's, where it is fetched. -/
theorem test_witness_scalar_step :
    let s := State.reset.withFetchWord 32 0x04310500
    s.agenda = .scalar T0.uid G0.idx :: [] ∧ (popped s []).find T0.uid G0.idx = some (T0, G0) ∧
      (popped s []).mayIssue T0 G0 = true ∧ G0.wait = none ∧
      (turnOf (popped s []) T0.uid G0.idx).fetchScalar T0 (G0.spc + BitVec.ofNat 32 G0.pfx.length).toNat =
        .ok [0x00, 0x05, 0x31, 0x04] ∧
      (decodeScalar G0.pfx (BitVec.ofNat 32 (ofBytes [0x00, 0x05, 0x31, 0x04]))).toOption = some (.add 3 4 5) := by
  decide +kernel

/-- A lane word at the head of the queue, and a device row at the head of the agenda. -/
theorem test_witness_lane_step :
    let w : LaneBits := 0x60F7A0201300000000404000
    let s := State.reset.withFetchWord 96 w.toNat
    let T := placedTeam 96 w.toNat 0 0
    let G := placedGroup 96 w.toNat 1
    let e : QEntry := { fetch := .word w, snap := G.sregs, spc := 0, off := 0, lpc := 0, run := 0 }
    s.agenda = .lane T.uid G.idx :: [] ∧ (popped s []).find T.uid G.idx = some (T, G) ∧ (popped s []).mayIssue T G = true ∧
      G.mustStop = false ∧ (∀ r ∈ G.reqs, r.entry = true) ∧ G.stall = 0 ∧ G.queue = [e] ∧ fusible G = none ∧
      (decodeLane w).toOption.isSome = true ∧ Instr.inTurn .fullReset = false ∧
      goesOn (step { State.reset with agenda := [.instr .fullReset] }) = true := by decide +kernel

/-- Terms the two round trips speak of, at the widest immediates. -/
theorem test_witness_encodings :
    (∀ i ∈ ([.add 63 0 63, .li 1 (BitVec.intMin 64), .addi 1 2 0x7FFFFFFFFFFFFFFF, .br .le 4 (-1), .exit] : List Instr),
      i.wf = true ∧ encodeScalar i ≠ [] ∧ decodeRun (encodeScalar i) = some i) ∧
    (∀ p ∈ integerWords ++ floatWords ++ compareMoveWords, p.2.wf = true ∧ encodeLane p.2 = some p.1) ∧
    (∀ p ∈ conversionWords ++ crossLaneWords ++ memoryWords ++ matrixWords, p.2.wf = true ∧ encodeLane p.2 = some p.1) := by
  decide +kernel

theorem test_witness_canonical_step :
    (State.reset.withFetchWord 32 0x04310500).memWf = true ∧ goesOn (step (State.reset.withFetchWord 32 0x04310500)) = true := by
  decide +kernel

/-- Immediates where the clauses meet: 63 and 64, 0, 1, 32 and 33. -/
theorem test_witness_immediates : (63 : DWord).toNat ≤ 63 ∧ 64 ≤ (64 : DWord).toNat ∧ (0 : DWord).toNat = 0 ∧
    32 < (33 : DWord).toNat ∧ 1 ≤ (1 : DWord).toNat ∧ (32 : DWord).toNat ≤ 32 := by decide

theorem test_witness_free_predicate : ∀ k : Fin 12, G0.predBusy k.val = false := by decide +kernel

/-- Both outcomes of each branch have operands: a zero, a negative and a positive register, three kinds of mask. -/
theorem test_witness_branches :
    (G0.sget 5).toInt = 0 ∧ ((Gr 5 (-1)).sget 5).toInt < 0 ∧ 0 < ((Gr 5 7).sget 5).toInt ∧ G0.mask = BitVec.allOnes 96 ∧
      (G0.setMask 0).mask = 0 ∧ (G0.setMask 5).mask ≠ 0 ∧ (G0.setMask 5).mask ≠ BitVec.allOnes 96 ∧
      ({ G0 with loads := [(1, 62)] } : Group).pending 62 = true ∧ (63 : BitVec 14).toNat ≤ 63 ∧ 63 < (64 : BitVec 14).toNat := by decide +kernel

theorem test_witness_vdrain : (mk T0 G0).lanesRetired (own T0 G0) G0 = true := by decide +kernel

/-- One word and the most words a `vrun` may release, and its rerun from offset 3. -/
theorem test_witness_vrun :
    let n (G : Group) (snap : Vector DWord 64) (off k : Nat) : Nat :=
      match releaseWords (mk T0 G) (own T0 G) G snap off (k - off) with
      | .ok es => es.length
      | _ => 99
    n G0 G0.sregs 0 1 = 1 ∧ n G0 G0.sregs 0 32 = 32 ∧ n { G0 with rerun := some ⟨3, G0.sregs⟩ } G0.sregs 3 32 = 29 ∧
      G0.queue.length + 32 ≤ 32 ∧ (∀ r, G0.pending r = false) := by decide +kernel

/-- Every plain scalar word goes on there. -/
theorem test_witness_scalar_frame : (plainWords 1 2 3 4 5 .eq .any 0).all (fun x => goesOn (exec x.1 (mk T0 G0))) = true := by
  decide +kernel

/-- A group with a lane word in its queue, and a write of s4. -/
theorem test_witness_tentative :
    (placedGroup 96 0 1).queue ≠ [] ∧ ∀ r, r ∉ ([4] : List SReg) →
      ((fun G : Group => G.sset 4 9) (placedGroup 96 0 1)).sget r = (placedGroup 96 0 1).sget r := by decide +kernel

/-! ## Scalar memory -/

/-- Every address below 64 KiB is on the page that serves reads and writes. -/
theorem test_witness_page : PageServes (mk T0 G0) (own T0 G0) 4088 8 { r := true, w := true } ∧
    PageServes (mk T0 G0) (own T0 G0) 4092 4 { r := true } :=
  ⟨⟨by decide, placedPage, by decide +kernel, by decide, by decide⟩, by decide, placedPage, by decide +kernel, by decide, by decide⟩

theorem arraysServe_of {s : State} {T : Team} {va n : Nat} {store : Bool}
    (h : ((List.range n).all fun i => (s.padOf T ((va + i) % 2 ^ 64)).isNone) = true) : ArraysServe s T va n store := by
  intro i hi W o hp
  simp only [List.all_eq_true, List.mem_range] at h
  have := h i hi
  rw [hp] at this
  exact absurd this Bool.false_ne_true

theorem test_witness_arrays (store : Bool) : ArraysServe (mk T0 G0) (own T0 G0) 4088 8 store :=
  arraysServe_of (by decide +kernel)

theorem test_witness_loads :
    G0.loads.length < 8 ∧ (mk T0 G0).loadPoison (own T0 G0) G0 .scalar 4088 8 = false ∧
      (mk T0 G0).loadPoison (own T0 G0) G0 .constant 4088 8 = false ∧ (mk T0 G0).servedByPad (own T0 G0) 4088 = false ∧
      (mk T0 G0).loadPoison (own T0 G0) G0 .home 4088 8 = false := by decide +kernel

/-- R33: after a store to the word at 4096 a fetch may still find the old word; another launch finds the new one. -/
theorem test_old_code :
    let s := (mk T0 G0).putByte (.mem ⟨false, 4097⟩) 7 false
    let t := s.putByte (.mem ⟨false, 4097⟩) 9 false
    s.wordAt (own T0 G0) 4096 4 false = [0, 7, 0, 0] ∧ s.wordAt (own T0 G0) 4096 4 true = [0, 0, 0, 0] ∧
      t.wordAt (own T0 G0) 4096 4 true = [0, 0, 0, 0] ∧
      t.wordAt { own T0 G0 with launch := 5 } 4096 4 true = [0, 9, 0, 0] := by decide +kernel

/-- A team with a page of scratchpad whose first granule is written. -/
def Tpad : Team :=
  { T0 with pages := 1, window := 32768, backing := [⟨false, 32768⟩], pad := [(0, 7)], written := [0] }

/-- A store of the group on its way to address 64. -/
def posted : Req :=
  { Req.of .store ⟨false, 0⟩ 0 0 0xFF 0 with lines := 2, data := [(64, 5), (65, 6)], entry := true }

/-- A byte in a written granule; on its way; in the cache; in memory alone. -/
theorem test_witness_byte_places :
    let s := mk Tpad G0
    let P := own Tpad G0
    let t := (mk T0 G0).putCore { (mk T0 G0).core 0 0 with l1 := [⟨⟨false, 0⟩, [some (List.replicate 64 3), none, none, none], .none, []⟩] }
    s.windowTeam P.die P.core P.asid 32783 = some P ∧ P.isWritten (32783 % 2 ^ 64 - P.window) = true ∧ s.team P.uid = some P ∧
      (mk T0 G0).windowTeam 0 0 placedAsid 64 = none ∧ (mk T0 G0).registered ⟨false, 64⟩ = none ∧
      ({ G0 with reqs := [posted] } : Group).postedByte ⟨false, 64⟩ = some 5 ∧ G0.postedByte ⟨false, 0⟩ = none ∧
      (t.core 0 0).lookup .l1 ⟨false, 63⟩ = some 3 ∧ (t.core 0 0).lookup .l1 ⟨false, 64⟩ = none ∧
      (mk T0 G0).fillByte 0 0 ⟨false, 64⟩ = 0 ∧ (mk T0 { G0 with reqs := [posted] }).fillByte 0 0 ⟨false, 64⟩ = 5 := by
  decide +kernel

/-- A load at the home renews an older copy of its line in the core's L1, so that a later load finds what this one found (R188);
the line of another group's store on its way is waited for. -/
theorem test_home_load_renews_line :
    let s := ((mk T0 G0).setBytes ⟨false, 0⟩ [9]).putCore
      { (mk T0 G0).core 0 0 with l1 := [⟨⟨false, 0⟩, [some (List.replicate 64 3), none, none, none], .none, []⟩] }
    let H : Group := { G0 with idx := G0.idx + 1, reqs := [posted] }
    let T := own T0 G0
    s.loadByte T G0 .l1 0 ⟨false, 0⟩ = 3 ∧ (s.renew T .home [(0, 8)]).loadByte T G0 .l1 0 ⟨false, 0⟩ = 9 ∧
      s.othersPosted T G0 [(64, 8)] = false ∧
      ({ s with teams := [{ T with groups := [G0, H] }] } : State).othersPosted { T with groups := [G0, H] } G0 [(64, 8)] = true := by
  decide +kernel

/-- Granule 1 of the own window is not written; granule 0 of a window of core 1 is registered, which core 0 reaches. -/
theorem test_witness_windows :
    let W : Team := { own Tpad G0 with uid := 5, core := 1 }
    let s : State := { mk T0 G0 with teams := [own T0 G0, W] }
    (mk Tpad G0).windowTeam 0 0 placedAsid 32784 = some (own Tpad G0) ∧ (own Tpad G0).isWritten (32784 % 2 ^ 64 - 32768) = false ∧
      s.windowTeam 0 0 placedAsid 32768 = none ∧ s.registered ⟨false, 32768⟩ = some (5, 0) ∧ s.team 5 = some W ∧
      G0.postedByte ⟨false, 32768⟩ = none := by decide +kernel

/-- Its own store is read back: no scratchpad serves the eight bytes, which lie at eight places. -/
theorem test_witness_read_back :
    (∀ i, i < 8 → (mk T0 G0).windowTeam 0 0 placedAsid (4088 + i) = none ∧
      ∃ e, (mk T0 G0).xlate 0 0 placedAsid (4088 + i) = .ok e ∧ (mk T0 G0).registered (e.loc (4088 + i)) = none ∧
        ∀ j, j < 8 → ∀ e', (mk T0 G0).xlate 0 0 placedAsid (4088 + j) = .ok e' → e'.loc (4088 + j) = e.loc (4088 + i) → i = j) ∧
    goesOn (exec (.st 1 2 0) (mk T0 (Gr 2 4088))) = true ∧ goesOn (exec (.stw 1 2 0) (mk T0 (Gr 2 4088))) = true := by
  have key : ∀ i, i < 8 → (mk T0 G0).xlate 0 0 placedAsid (4088 + i) = .ok placedPage := by decide +kernel
  have reg : ∀ i, i < 8 → (mk T0 G0).registered (placedPage.loc (4088 + i)) = none := by decide +kernel
  have loc : ∀ i, i < 8 → ∀ j, j < 8 → placedPage.loc (4088 + j) = placedPage.loc (4088 + i) → i = j := by decide +kernel
  have win : ∀ i, i < 8 → (mk T0 G0).windowTeam 0 0 placedAsid (4088 + i) = none := by decide +kernel
  refine ⟨fun i hi => ⟨win i hi, placedPage, key i hi, reg i hi, fun j hj e' he h => ?_⟩, by decide +kernel, by decide +kernel⟩
  rw [key j hj] at he
  cases he
  exact loc i hi j hj h

theorem notParked (s : State) (l : Loc) (h : (s.teams.all fun T => T.savedArea.isNone) = true) : NoneParkedAt s l := by
  intro T hT hn
  simp only [List.all_eq_true] at h
  have := h T hT
  cases hs : T.savedArea with
  | none => exact absurd hs hn
  | some a => simp [hs] at this

/-- A store at its home, on memory that no scratchpad, poison or saved team concerns; nothing on its way, one store, one granule
to register, a store to another line beside it. -/
theorem test_witness_store_performed :
    let G : Group := { G0 with reqs := [posted] }
    let s := mk T0 G
    let H (rs : List Req) (gs : List (Nat × Nat)) : Group := { G0 with reqs := rs, regs := gs }
    let work (H : Group) : List HomeWork := (mk Tpad H).homeWork (own Tpad H) H
    let far : Req := { posted with tag := ⟨false, 4096⟩, data := [(4096, 9)], stamp := 1, home := some 3 }
    s.memWf = true ∧ s.find 0 G.idx = some (own T0 G, G) ∧
      G.reqs[0]? = some posted ∧ posted.entry = true ∧ work (H [] []) = [] ∧ work (H [posted] []) = [.store 0 posted] ∧
      work (H [] [(0, 0)]) = [.register 0 0] ∧ work (H [posted, far] []) = [.store 0 posted, .store 1 far] ∧
      work (H [posted, { posted with stamp := 1 }] []) = [.store 0 posted] ∧ s.adds = [] ∧
      (∀ p ∈ posted.data, s.registered ⟨posted.tag.host, p.1⟩ = none ∧ s.poisoned ⟨posted.tag.host, p.1⟩ = false) ∧
      (s.teams.all fun T => T.savedArea.isNone) = true ∧ (posted.data.map (·.1)).Nodup ∧
      goesOn (exec (.homeSliceRequest 0 G.idx) s) = true := by decide +kernel

/-- The machine with page 0 mapped otherwise. -/
def mapped (e : Option TlbEntry) (G : Group) : State := (mk T0 G).putCore { (mk T0 G).core 0 0 with tlb := e.toList }

/-- Address 4 is misaligned for 8 bytes and 1 for 4; an unmapped page, and pages without read or write permission. -/
theorem test_witness_traps :
    (Gr 2 4).sget 2 = 4 ∧ 4 % 8 ≠ 0 ∧ 1 % 4 ≠ 0 ∧
      (match (mapped none G0).xlate 0 0 placedAsid 4088 with | .bad _ => true | _ => false) = true ∧
      (mapped (some { placedPage with r := false }) G0).xlate 0 0 placedAsid 4088 = .ok { placedPage with r := false } ∧
      (mapped (some { placedPage with w := false }) G0).xlate 0 0 placedAsid 4088 = .ok { placedPage with w := false } := by
  decide +kernel

/-- Address 4088 on a poisoned line, for a load, a constant load and an atomic. -/
theorem test_witness_poison_traps :
    let s : State := { mk T0 G0 with poison := [63] }
    s.current = some (own T0 G0, G0) ∧ s.loadPoison (own T0 G0) G0 .scalar 4088 8 = true ∧
      s.loadPoison (own T0 G0) G0 .constant 4088 8 = true ∧ s.servedByPad (own T0 G0) 4088 = false ∧
      s.atomicPoison (own T0 G0) 4088 8 = true ∧ G0.allPerformed = true := by decide +kernel

theorem test_witness_traps_turn (e : Option TlbEntry) (h : (mapped e G0).current = some (own T0 G0, G0)) (rs : List SReg) (b : Bool) :
    ScalarActs (mapped e G0) (own T0 G0) G0 rs b := acts_of h (by decide +kernel) rs b

/-- An atomic is served at address 4088; `amo.cas` finds its value (0 = s9) and another (s1 = 8). -/
theorem test_witness_atomics :
    G0.allPerformed = true ∧ (mk T0 G0).atomicPoison (own T0 G0) 4088 8 = false ∧
      BitVec.ofNat 64 (loadValue (mk T0 (Gr 1 8)) (own T0 (Gr 1 8)) (Gr 1 8) .home 4088 8) ≠ (Gr 1 8).sget 1 ∧
      BitVec.ofNat 64 (loadValue (mk T0 (Gr 1 8)) (own T0 (Gr 1 8)) (Gr 1 8) .home 4088 8) = (Gr 1 8).sget 9 := by
  decide +kernel

/-- Writing eight bytes at 4088 leaves the byte at 4096, just behind, where it was. -/
theorem test_witness_atomic_frame :
    (mk T0 G0).memWf = true ∧ ∀ i, i < 8 → ∀ e, (mk T0 G0).xlate 0 0 placedAsid ((4088 + i) % 2 ^ 64) = .ok e →
      NoneParkedAt (mk T0 G0) (e.loc ((4088 + i) % 2 ^ 64)) ∧
      (mk T0 G0).writePlace 0 0 placedAsid ((4088 + i) % 2 ^ 64) (e.loc ((4088 + i) % 2 ^ 64)) ≠ .mem ⟨false, 4096⟩ := by
  have key : ∀ i, i < 8 → (mk T0 G0).xlate 0 0 placedAsid ((4088 + i) % 2 ^ 64) = .ok placedPage := by decide +kernel
  have ne : ∀ i, i < 8 → (mk T0 G0).writePlace 0 0 placedAsid ((4088 + i) % 2 ^ 64) (placedPage.loc ((4088 + i) % 2 ^ 64)) ≠
      .mem ⟨false, 4096⟩ := by decide +kernel
  refine ⟨by decide +kernel, fun i hi e he => ?_⟩
  rw [key i hi] at he
  cases he
  exact ⟨notParked _ _ (by decide +kernel), ne i hi⟩

/-- Its eight bytes lie at eight places. -/
theorem test_witness_atomic_places : ∀ i, i < 8 → ∀ j, j < 8 → j ≠ i →
    (mk T0 G0).writePlace 0 0 placedAsid ((4088 + j) % 2 ^ 64) (placedPage.loc ((4088 + j) % 2 ^ 64)) ≠
      (mk T0 G0).writePlace 0 0 placedAsid ((4088 + i) % 2 ^ 64) (placedPage.loc ((4088 + i) % 2 ^ 64)) := by decide +kernel

/-! ## Fences, barriers, waits, cells -/

/-- Where every access of a group is performed, every scope finds it so. -/
theorem test_performed (T : Team) (G : Group) (h : G.reqs = [] ∧ G.regs = []) (sc : Scope) : PerformedAt T G sc := by
  have all : WritesPerformed G := by unfold WritesPerformed; rw [h.1]; simp
  cases sc <;> simp only [PerformedAt]
  · exact .inr all
  · split
    · exact .inr all
    · exact ⟨all, h.2⟩
  all_goals exact ⟨all, h.2⟩

/-- Two groups, a store on its way: performed at group scope, not at any wider one; a granule to be registered holds up a
release at die scope. -/
theorem test_not_performed :
    let G : Group := { G0 with reqs := [posted] }
    let T : Team := { T0 with groups := [G, { G0 with idx := 1 }] }
    PerformedAt T G .grp ∧ ¬ PerformedAt T G .team ∧ ¬ PerformedAt T G .cell ∧ ¬ PerformedAt T G .die ∧
      ¬ PerformedAt T { G0 with regs := [(0, 0)] } .dev := by
  have p : ¬ WritesPerformed { G0 with reqs := [posted] } := by unfold WritesPerformed; decide
  refine ⟨trivial, fun h => h.elim (by decide) p, fun h => ?_, fun h => p h.1, fun h => absurd h.2 (by decide)⟩
  rw [PerformedAt, if_pos (by decide)] at h
  exact h.elim (by decide) p

/-- An atomic at 4088 follows nothing; one at 64 follows the group's own store to 64. -/
theorem test_witness_ordered :
    let G : Group := { G0 with reqs := [posted] }
    (∀ w, (mk T0 G0).ordered (own T0 G0) G0 [(4088, 8)] w = true) ∧ (mk T0 G).ordered (own T0 G) G [(64, 8)] false = false ∧
      (mk T0 G).ordered (own T0 G) G [(4088, 8)] true = true ∧ idle G = true ∧
      G0.reqs = [] ∧ G0.regs = [] := by decide +kernel

/-- A group all of whose accesses are performed, and one with a store on its way. -/
theorem test_witness_fences : G0.allPerformed = true ∧ ({ G0 with reqs := [posted] } : Group).allPerformed = false ∧
    idle { G0 with reqs := [posted] } = true ∧
    (let r : Req := { Req.of .store ⟨false, 0⟩ 0 0 0xFF 0 with pads := [(0, 17, 9)] }
     r.entry = false ∧ r.performed = false ∧ r.word ≤ G0.words ∧ r.pads ≠ [] ∧
       ({ G0 with reqs := [r] } : Group).heldBack = true) := by decide +kernel

/-- The die barrier: a plain launch, a front launch, and a phase that has changed. -/
theorem test_witness_barriers :
    let T := own T0 G0
    T.liveCount ≤ (T.bar 3).arrivals + 1 ∧ 3 < T.bars.length ∧
      ((mk T0 G0).launch T.launch).map (·.record.front) = some false ∧
      ({ G0 with arrived := some (3, !(T.bar 3).phase) } : Group).arrived = some (3, true) ∧
      idle { G0 with arrived := some (3, true) } = true ∧
      ((mk T0 G0).launch T.launch).map (fun L => (L.bar T.die).phase) = some false ∧
      (({ mk T0 G0 with launches := [{ placedLaunch 0 0 with record := { placedRecord with front := true } }] } : State).launch
        T.launch).map (·.record.front) = some true := by decide +kernel

/-- Two live groups of which one arrives at barrier 3; a die barrier that expects one group, or two. -/
theorem test_witness_arrivals_wait :
    let T : Team := { own T0 G0 with groups := [G0, { G0 with idx := 1 }] }
    let L : Launch := { placedLaunch 0 0 with record := { placedRecord with x := 2 }, placed := [(0, 2)] }
    (T.bar 3).arrivals + 1 < T.liveCount ∧ 3 < T.bars.length ∧ G0.arrived = none ∧
      ({ G0 with arrived := some (3, false) } : Group).arrived = some (3, (T.bar 3).phase) ∧ G0.arrivedDie = none ∧
      (placedLaunch 0 0).teamsOn 0 * (placedLaunch 0 0).header.team - ((placedLaunch 0 0).bar 0).exited ≤
        ((placedLaunch 0 0).bar 0).count + 1 ∧
      (L.bar 0).count + 1 < L.teamsOn 0 * L.header.team - (L.bar 0).exited ∧
      ({ G0 with arrivedDie := some false } : Group).arrivedDie = some (L.bar 0).phase ∧ L.record.front = false := by
  decide +kernel

/-- Values that meet each condition of `await` on a word 0, and values that do not. -/
theorem test_witness_await :
    let m := BitVec.ofNat 64 (loadValue (mk T0 G0) (own T0 G0) G0 .home 4088 8)
    m = 0 ∧ m ≠ 1 ∧ m.toInt < (1 : DWord).toInt ∧ (-1 : DWord).toInt ≤ m.toInt ∧ ¬ m.toInt < (0 : DWord).toInt ∧
      ¬ (1 : DWord).toInt ≤ m.toInt ∧ m.toNat < (1 : DWord).toNat ∧ (0 : DWord).toNat ≤ m.toNat ∧ m &&& 1 = 0 ∧
      (BitVec.ofNat 64 (loadValue ((mk T0 G0).setBytes ⟨false, 4088⟩ [1]) (own T0 G0) G0 .home 4088 8)) &&& 1 ≠ 0 := by
  decide +kernel

/-- A team that cannot enter a lull: another of its groups runs. -/
theorem test_witness_yield :
    let T : Team := { T0 with groups := [G0, { G0 with idx := 1 }] }
    let s : State := { mk T0 G0 with teams := [T] }
    s.current = some (T, G0) ∧ idle G0 = true ∧ s.lanesRetired T G0 = true ∧
      ((passed s T G0).team T.uid).map (fun T1 => ((passed s T G0).enterLull T1 (some G0.idx)).isNone) = some true := by
  decide +kernel

/-- Teams of the launch in cell `id`, as members 0 to n - 1. -/
def members (id n : Nat) : List Team := (List.range n).map fun i => { own T0 G0 with uid := 10 + i, num := 10 + i, cell := some (id, i) }

/-- A member; a full cell; a die with 512 cells; a cell with members 0 and 1; a member whose accesses are performed. -/
theorem test_witness_cells :
    let s (l : List Team) : State := { mk T0 G0 with teams := own T0 G0 :: l }
    let many : List Team := (List.range 512).map fun i => { own T0 G0 with uid := 10 + i, launch := 7 + i, cell := some (i % 256, 0) }
    (own { T0 with cell := some (5, 3) } G0).cell = some (5, 3) ∧ ((s (members 5 16)).cellMembers 0 0 5).length = 16 ∧
      (s many).cellMembers 0 0 255 = [] ∧ 512 ≤ (s many).cellRecords 0 ∧ (s []).cellRecords 0 < 512 ∧
      ((s (members 5 2)).cellMembers 0 0 5).filterMap (fun W => W.cell.map (·.2)) = [0, 1] ∧
      (mk { T0 with cell := some (5, 3) } G0).cellCopies (own { T0 with cell := some (5, 3) } G0) = false ∧
      ((mk { T0 with cell := some (5, 3) } G0).teams.all fun W => W.groups.all fun H => H.regs.isEmpty) = true ∧
      (s (members 5 16)).current = some (own T0 G0, G0) := by decide +kernel

/-! ## Copies, batches, arrays, launches, reductions, stack blocks -/

/-- A copy of one granule from 4096 to 8192, with a flag at 64. -/
def x0 : CopyDesc := { c0 := 4096, c1 := 8192, geo := 0, st := 0, flag := some 64, skind := false, dkind := false, dense := none }

theorem test_witness_copy_words :
    let G := ((((Gr 1 64).sset 2 4096).sset 3 8192).sset 4 0).sset 5 0
    let s := mk T0 G
    G.sget 2 = 4096 ∧ G.sget 3 = 8192 ∧ idle G = true ∧ s.current = some (own T0 G, G) ∧ G.allPerformed = true ∧
      s.checkCopy (own T0 G) x0 false = .pass ∧ s.checkCopy (own T0 G) x0 true = .pass ∧
      (s.queue (.core 0 0 3)).length < 16 ∧ (s.queue (.dd 0 7)).length < 32 ∧
      ((s.queue (.core 0 0 3)).filter (·.ownedBy 0 0)).length ≤ (0 : BitVec 6).toNat ∧
      (∀ Q ∈ fencedQueues (own T0 G) 0x1F, (s.queue Q).length < roomOf Q) := by decide +kernel

/-- An entry of the matrix stream in batch b. -/
def entry0 (op : MatrixOp) (b : Nat) : MatrixEntry :=
  { op := op, batch := b, started := false, word := 0, passes := 0, ascales := .none, bscales := .none, ready := none, born := 0, spc := 0,
    off := 0, lpc := 0 }

/-- A group with an entry of batch 0 unperformed and batch 1 open. -/
def Gb : Group := { G0 with stream := [entry0 (.accclr 0 1) 0], batch := 1 }

theorem test_witness_batches :
    Gb.openBatches < 16 ∧ G0.batchOver 255 = true ∧ Gb.batchOver 0 = false ∧ ((Gr 2 511).sget 2).toNat % 256 = 255 ∧
      (Gr 2 511).batchOver 255 = true ∧ G0.pendingEntries = [] ∧ idle Gb = true ∧ (mk T0 Gb).current = some (own T0 Gb, Gb) ∧
      G0.stream = [] ∧ Gb.stream.map (·.batch) = [0] ∧ ((Gb.batch : Int) - 1 - 0) % 256 = 0 ∧ ((Gb.batch : Int) - 1 - 240) % 256 = 16 := by
  decide +kernel

/-- A team that declares two arrays of a mode, its launch with it, on a calibrated die or not. -/
def Ta (m : ArrayMode) : Team := { T0 with arrays := List.replicate 2 ⟨m, none, ⟨0, []⟩, 0, 0⟩ }

def withArrays (m : ArrayMode) (G : Group) (calibrated : BitVec 8) : State :=
  { mk (Ta m) G with
    launches := [{ placedLaunch 0 0 with header := { placedHeader with arrays := 2 } }],
    control := { Control.reset with calibrated := calibrated } }

/-- Arrays 0 and 1 are declared, arrays 1 and 2 are not; both modes; calibrated and not. -/
theorem test_witness_array_modes :
    (∀ m ∈ ([.storage, .compute] : List ArrayMode),
      (withArrays m G0 1).current = some (own (Ta m) G0, G0) ∧ ((withArrays m G0 1).header (own (Ta m) G0)).arrays = 2 ∧
      (∀ k ∈ [0, 1], ((own (Ta m) G0).array k).map (·.mode) = some m ∧ (own (Ta m) G0).arrays[k]?.isSome = true) ∧
      (withArrays m G0 1).calibrated 0 = true ∧ (withArrays m G0 0).calibrated 0 = false) ∧
    (0 : BitVec 5).toNat + (1 : BitVec 5).toNat + 1 ≤ 2 ∧ ¬ (1 : BitVec 5).toNat + (1 : BitVec 5).toNat + 1 ≤ 2 := by
  decide +kernel

/-- Array 0 is in the wanted mode and array 1 in the other one, or switching. -/
theorem test_witness_array_order :
    ∀ m ∈ ([.compute, .toStorage, .toCompute] : List ArrayMode),
      let T : Team := { T0 with arrays := [⟨.storage, none, ⟨0, []⟩, 0, 0⟩, ⟨m, none, ⟨0, []⟩, 4, 0⟩] }
      (T.array 0).map (·.mode) = some .storage ∧ (T.array 1) = some ⟨m, none, ⟨0, []⟩, 4, 0⟩ ∧
        (List.range ((1 : BitVec 5).toNat + 1)).map ((0 : BitVec 5).toNat + ·) = [0] ++ 1 :: [] ∧
        ({ withArrays .storage G0 1 with teams := [own T G0] } : State).current = some (own T G0, G0) ∧ G0.mustStop = false := by
  decide +kernel

/-- A tile over all of array 1 in INT8 with map slot 2, and one in array 2, which no header of two arrays declares. -/
def tile1 : DWord := BitVec.ofNat 64 (1 + 384 * 2 ^ 14 + 64 * 2 ^ 32 + 0x38 * 2 ^ 41 + 2 ^ 47 + 2 * 2 ^ 48)
def tile2 : DWord := BitVec.ofNat 64 (2 + 384 * 2 ^ 14 + 64 * 2 ^ 32 + 0x38 * 2 ^ 41)

theorem test_witness_tiles :
    let T : Team := { Ta .storage with maps := [(2, ⟨1, [367]⟩)] }
    let G := (G0.sset 2 tile1).tset 3 tile1
    (3 : BitVec 4).toNat < G.bud.t ∧ (tileOf (G.sget 2)).ok 2 = true ∧ (tileOf tile2).ok 2 = false ∧
      (tileOf (G.tget 3)).map = true ∧ (∀ b ∈ G.busy, (tileOf (G.tget 3)).mslot ∉ b.maps) ∧ (T.mapSlot 2).bad = false ∧
      (tileOf (G.tget 3)).mslot = 2 ∧ (tileOf (G.tget 3)).array = 1 ∧ T.arrays[1]? = some ⟨.storage, none, ⟨0, []⟩, 0, 0⟩ ∧
      idle G = true ∧ (mk T G).current = some (own T G, G) := by decide +kernel

/-! Page tables at 1 MiB that map the first GiB (R387), and headers and records in memory (R65, R282, R303). -/

/-- The machine with memory contents, page tables and class 0 open. -/
def loaded0 (s : State) (contents : List (Nat × List Byte)) : State :=
  let s1 := ([(0x100000, leBytes 0x101001 8), (0x101000, leBytes 0x102001 8), (0x102000, leBytes 0xF 8)] ++ contents).foldl
    (fun (s : State) (p : Nat × List Byte) => s.setBytes ⟨false, p.1⟩ p.2) s
  { s1 with
    cores := ⟨8, 0, [], [], [placedPage], []⟩ :: s1.cores,
    asids := [(63, { placedSlot with words := placedSlot.words.set 1 0x100000 })], control := { s1.control with trained := true },
    classes := [(0, ⟨[8, 0, 16, 0x0807060504030201], List.replicate 4 none⟩)] }

/-- A header of one group: codes at 4096 and 8192, 16 words each, 8 registers; a front of rank 1 without dependences or none. -/
def headerBytes (front : Bool) : List Byte :=
  leBytes 0x4B48 2 ++ leBytes 1 2 ++ leBytes (if front then 64 else 0) 4 ++ leBytes 4096 8 ++ leBytes 8192 8 ++ leBytes 16 4 ++
    leBytes 16 4 ++ leBytes 0 8 ++ leBytes 1 12 ++ leBytes 8 2 ++ leBytes 8 1 ++ leBytes 4 1 ++ leBytes 2 1 ++ leBytes 0 71 ++
    (if front then leBytes 1 64 else leBytes 0 64) ++ leBytes 0 64

/-- A record that names the header at 0x3000, an address space and a class, on die 0, of one point. -/
def recordBytes (front : Bool) (asid : Nat) : List Byte :=
  leBytes 0x4352 2 ++ leBytes 1 2 ++ leBytes asid 2 ++ leBytes 1 1 ++ leBytes (if front then 1 else 0) 1 ++ leBytes 0x3000 8 ++
    leBytes 5 8 ++ leBytes (1 + 2 ^ 21 + 2 ^ 42) 8 ++ leBytes 0 32

/-- A front save record of rank 1 over one point with no line opened. -/
def frontBytes : List Byte := leBytes 0x01014653 8 ++ leBytes (1 + 2 ^ 21 + 2 ^ 42) 8 ++ leBytes 0 48

def accepted (v : Verdict) : Bool :=
  match v with
  | .accept .. => true
  | _ => false

def refusedWith (v : Verdict) : Option Nat :=
  match v with
  | .refuse c => some c
  | _ => none

/-- The machine with a header and a record at 0x3100, in s2, and a front record at 0x3200, in s3. -/
def sLaunch (front : Bool) : State :=
  loaded0 (mk T0 ((Gr 2 0x3100).sset 3 0x3200)) [(0x3000, headerBytes front), (0x3100, recordBytes front 0), (0x3200, frontBytes)]

/-- The group there, and what the dispatcher says to a record, with or without a front save record. -/
def GLn : Group := (Gr 2 0x3100).sset 3 0x3200

def verdict (front form : Bool) (saved : Option Nat) : Verdict :=
  (sLaunch front).vet (.program placedAsid form) ((sLaunch front).loadBytes (own T0 GLn) GLn .home 0x3100 64) saved

theorem test_witness_launches :
    (sLaunch false).current = some (own T0 GLn, GLn) ∧ (sLaunch true).current = some (own T0 GLn, GLn) ∧
      (sLaunch false).loadPoison (own T0 GLn) GLn .home 0x3100 64 = false ∧
      (sLaunch true).loadPoison (own T0 GLn) GLn .home 0x3100 64 = false ∧ idle GLn = true ∧ GLn.allPerformed = true := by
  decide +kernel

theorem test_witness_verdicts :
    accepted (verdict false false none) = true ∧ accepted (verdict true true none) = true ∧
      accepted (verdict true true (some (GLn.sget 3).toNat)) = true ∧
      refusedWith (verdict true false none) = some 0xFF06 ∧ refusedWith (verdict false true none) = some 0xFF06 := by
  decide +kernel

theorem test_witness_launch_access :
    PageServes (mk T0 G0) (own T0 G0) 0x3100 64 { r := true } ∧ ArraysServe (mk T0 G0) (own T0 G0) 0x3100 64 false :=
  ⟨⟨by decide, placedPage, by decide +kernel, by decide, by decide⟩, arraysServe_of (by decide +kernel)⟩

/-- A front launch of one line of ten points, rank 1 without dependences, whose points below w are complete. -/
def Lf (w : Nat) (flight : BitVec 64) (reserved : Bool) : Launch :=
  { placedLaunch 0 0 with
    record := { placedRecord with front := true, x := 10 }, header := { placedHeader with front := some ⟨1, []⟩ },
    front := some { die := some 0, entries := 1, next := 1, done := w, lines := [⟨0, w, 0, flight⟩], reserved := reserved,
                    offered := [] } }

/-- A team without a point; a team whose point 3 is in flight; one whose point is complete already. -/
theorem test_witness_fpost :
    let T : Team := { T0 with point := some (3, 0, 0) }
    (own T0 G0).point = none ∧ (own T G0).point = some (3, 0, 0) ∧
      (({ mk T G0 with launches := [Lf 3 1 true] } : State).launch T.launch) = some (Lf 3 1 true) ∧
      (Lf 3 1 true).front.map (fun f => (Lf 3 1 true).complete f (3, 0, 0)) = some false ∧
      (Lf 4 0 true).front.map (fun f => (Lf 4 0 true).complete f (3, 0, 0)) = some true := by decide +kernel

/-- An object descriptor: id 9, a sum of natural 32-bit numbers, 2 contributors, 4 elements, 1000 ns, window 500 ns. -/
def objectBytes : List Byte := leBytes 9 2 ++ leBytes 3 1 ++ leBytes 2 1 ++ leBytes 4 4 ++ leBytes 1000 4 ++ leBytes 500 4 ++ leBytes 0 16

/-- The open object of that descriptor, at time 0. -/
def o0 : RedObj :=
  { launch := 0, id := 9, born := 40, desc := objectBytes, turn := 0, op := 3, ncon := 2, len := 4, t0 := 0, dl := 1000, corr := 500, peer := false, leaves := [],
    early := 0, union := 0, drops := 0, closed := false, windowOver := false, earlyResult := none, corrected := none, takers := [] }

theorem test_witness_reduction_open :
    let G := Gr 2 64
    let s := (mk T0 G).setBytes ⟨false, 64⟩ objectBytes
    let bs := s.loadBytes (own T0 G) G .home 64 32
    s.current = some (own T0 G, G) ∧ idle G = true ∧ s.checkGlobal (own T0 G) 1 8 { r := true } [⟨0xFF, 64, 32⟩] = .pass ∧
      s.poisonAt (own T0 G) G .home 64 32 = none ∧ G.allPerformed = true ∧ bs = objectBytes ∧ descriptorOk bs = true ∧
      bits (le bs 16 1) 0 1 = 0 ∧ s.object 0 (le bs 0 2) = none ∧ s.objects = [] ∧
      (∀ p ∈ s.putsOf 0 0, p.fence = true) := by decide +kernel

/-- Tickets for object 9: a put of contributor 1; a close; a take of a formed early result and of a formed corrected one,
to address 128. -/
theorem test_witness_reduction_words :
    let G := (Gr 2 (9 + 2 ^ 16)).sset 3 128
    let H := (Gr 2 9).sset 3 128
    let o1 : RedObj := { o0 with earlyResult := some [1, 2, 3, 4], corrected := some [1, 2, 3, 4], windowOver := true }
    let s (o : RedObj) : State := { mk T0 G with objects := [o] }
    let s1 := ((s o1).putObject { o1 with takers := o1.takers.filter (· ≠ (0, 0)) }).freeObjects
    (s o0).object 0 (field (G.sget 2) 0 12) = some o0 ∧ ticketOk (G.sget 2) true = true ∧ o0.closed = false ∧
      o0.ended (s o0).wallNs = false ∧ field (G.sget 2) 16 6 < o0.ncon ∧ (G.sget 3).toNat % 16 = 0 ∧
      (s o0).checkExtent (own T0 G) 1 { r := true } 128 (o0.len * o0.elemBytes) = .pass ∧ idle G = true ∧ idle H = true ∧
      ticketOk (H.sget 2) false = true ∧ (s o1).object 0 (field (H.sget 2) 0 12) = some o1 ∧
      (s o1).checkExtent (own T0 G) 2 { w := true } 128 (4 * o1.len) = .pass ∧
      (s o1).checkTarget (own T0 G) 128 (4 * o1.len) = .pass ∧ (o1.taken false).isSome = true ∧ (o1.taken true).isSome = true ∧
      (s1.writeResult (own T0 G) 128 [1, 2, 3, 4]).2 = none ∧ o0.taken false = none ∧ o0.taken true = none ∧
      (s o1).ordered (own T0 G) G [(128, 16)] true = true ∧ (s o1).storeRefused (own T0 G) 128 4 = false := by decide +kernel

/-- A take that waits for a result: it is formed, and a store of its group to the same words is on its way or is not; the line
that it writes is poisoned. -/
theorem test_witness_take_waits :
    let w : WaitFor := .take 40 false 64 5
    let o1 : RedObj := { o0 with earlyResult := some [1, 2, 3, 4], takers := [(0, 0)] }
    let G (rs : List Req) : Group := { G0 with wait := some ⟨w, 0⟩, reqs := rs }
    let s (rs : List Req) : State := { mk T0 (G rs) with objects := [o1] }
    (s []).objects.find? (·.born = 40) = some o1 ∧ (mk T0 (G [])).objects.find? (·.born = 40) = none ∧
      (s []).waitOver (own T0 (G [])) (G []) w = true ∧ (o1.taken false).map (·.1) = some [1, 2, 3, 4] ∧
      (s []).ordered (own T0 (G [])) (G []) [(64, 16)] true = true ∧ (s [posted]).ordered (own T0 (G [posted])) (G [posted]) [(64, 16)] true = false ∧
      ((s []).writeResult (own T0 (G [])) 64 [1, 2, 3, 4]).2 = none ∧
      (({ s [] with poison := [1] } : State).writeResult (own T0 (G [])) 64 [1, 2, 3, 4]).2 = some 64 := by decide +kernel

/-- A block of two `mode` commands and a flag at 512, at address 1024. -/
def blockBytes : List Byte := leBytes 2 8 ++ leBytes 512 8 ++ leBytes 3 32 ++ leBytes 3 32

/-- A block of no commands. -/
def noBlock : Block :=
  { id := 30, tag := (own T0 G0).tag G0 0, va := 0, flag := 0, cmds := [], next := 0, started := false, sent := 0, adds := 0,
    ahead := [], pages := [], seqs := [], told := false, fell := 0, fence := false }

theorem test_witness_blocks :
    let G := (Gr 2 1024).sset 1 1
    let s := (mk T0 G).setBytes ⟨false, 1024⟩ blockBytes
    let hd := s.loadBytes (own T0 G) G .scalar 1024 16
    let c := le hd 0 1
    let cmds := blockCmds (s.loadBytes (own T0 G) G .scalar 1040 (32 * c)) c
    s.current = some (own T0 G, G) ∧ idle G = true ∧ s.addsWait 0 0 = false ∧ 1024 % 64 = 0 ∧
      s.checkBlockRead (own T0 G) G 1024 16 = .pass ∧ c = 2 ∧ s.checkBlockRead (own T0 G) G 1040 (32 * c) = .pass ∧
      zeros hd 1 8 = true ∧ cmds.all cmdOk = true ∧ (G.sget 1).toNat % 16 < c ∧
      blockMisaligned (le hd 8 8) (cmds.drop 1) = none ∧ s.openBlocks 0 0 < 8 ∧ s.openBlocks 0 0 ≤ (0 : BitVec 3).toNat ∧
      8 ≤ ({ s with blocks := List.replicate 8 noBlock } : State).openBlocks 0 0 := by
  decide +kernel

/-! ## System words and faults -/

/-- An address space whose fault queue has room for 4 records at 2048, and whose debug stop is off or on; and one whose
queue is full. -/
def faultSlot (brk : Bool) (produced : Nat) : Slot :=
  ⟨[BitVec.ofNat 64 (2 ^ 8 + (if brk then 2 ^ 9 else 0) + 2 ^ 11 + 2 ^ 16 * placedAsid), 0, 0, 0,
    BitVec.ofNat 64 (produced + 4 * 2 ^ 32), 2048, 0, 0], List.replicate 8 none⟩

def faulting (brk : Bool) (produced : Nat) (G : Group) : State := { mk T0 G with asids := [(63, faultSlot brk produced)] }

theorem test_witness_system_words :
    (mk T0 G0).brkEnabled placedAsid = false ∧ (faulting true 0 G0).brkEnabled placedAsid = true ∧
      (faulting true 0 G0).current = some (own T0 G0, G0) ∧ (mk T0 G0).lanesRetired (own T0 G0) G0 = true ∧
      Csr.stFallback.writable = true ∧ G0.rng.toNat % 4 = 0 := by decide +kernel

/-- The numbers of the id words lie within their fields; writes of `ctl.rpt` and `ctl.rng` at the ends of their ranges. -/
theorem test_witness_status_words :
    let T := own T0 G0
    ((mk T0 G0).die 0).stale < 2 ^ 32 ∧ G0.idx < 8 ∧ 1 ≤ T.groups.length ∧ T.groups.length ≤ 8 ∧ G0.role < 4 ∧ T.num < 4096 ∧
      (∀ g ∈ T.g, g < 2 ^ 32) ∧ T.die < 8 ∧ T.core < coresOf T.die ∧ T.launch < 2 ^ 32 ∧ T.asid < 2 ^ 16 ∧
      (placedLaunch 0 0).record.cls < 16 ∧ T.point = none ∧
      (G0.csrSet .ctlRpt 0x54100).rpt = 0x54200 ∧ (G0.csrSet .ctlRpt 0x65700).rpt = 0x05600 ∧
      (G0.csrSet .ctlRng (BitVec.allOnes 64)).rng = 0x01FFFFFFFFFFFFFC := by decide +kernel

/-- The ring has room from its first slot, 2048, on; a full ring; no fault queue. -/
theorem test_witness_fault_queue :
    G0.status = .running ∧ G0.queue = [] ∧ (faulting false 0 G0).asidSlot placedAsid = some (63, faultSlot false 0) ∧
      field ((faultSlot false 0).word 4) 32 32 = 4 ∧ (0 + 2 ^ 32 - field ((faultSlot false 0).word 3) 32 32) % 2 ^ 32 ≠ 4 ∧
      ((faultSlot false 0).word 5).toNat + 64 * (0 % 4) + 64 ≤ dramBytes ∧
      (faulting false 4 G0).asidSlot placedAsid = some (63, faultSlot false 4) ∧
      (field ((faultSlot false 4).word 4) 0 32 + 2 ^ 32 - field ((faultSlot false 4).word 3) 32 32) % 2 ^ 32 = 4 ∧
      field (placedSlot.word 4) 32 32 = 0 ∧ ({ mk T0 G0 with asids := [] } : State).asidSlot placedAsid = none := by
  decide +kernel

theorem test_witness_record_room : RecordHasRoom (faulting true 3 G0) placedAsid := by
  intro i e h
  have : (faulting true 3 G0).asidSlot placedAsid = some (63, faultSlot true 3) := by decide +kernel
  rw [this] at h
  cases h
  intro _
  decide +kernel

/-- An unassigned OP (position 26) and a lane word of an unassigned OPC (88) are illegal; a fetch from no mapped page fails;
a group whose queue holds a word that could not be fetched. -/
theorem test_witness_illegal :
    let e : QEntry := { fetch := .fault .notMapped 77, snap := G0.sregs, spc := 0, off := 0, lpc := 0, run := 0 }
    scalarIllegal G0.bud G0.pfx (BitVec.ofNat 32 (0x0F * 2 ^ 26)) = some 26 ∧
      laneIllegal G0.bud (Raw.ofBits (lanePlaced 0x1A 0 0 0 0 0 2 0)) = some 88 ∧
      (match (mapped none G0).fetchScalar (own T0 G0) 0 with | .bad _ va => va | _ => 0) = 4096 ∧
      (mk T0 { G0 with queue := [e] }).current = some (own T0 { G0 with queue := [e] }, { G0 with queue := [e] }) := by
  decide +kernel

/-! ## Lane words -/

/-- A group at the turn of the lane word that heads its queue, under a mask; v0 to v31 are zero. -/
def Gl (mask : LaneMask) : Group :=
  let G := G0.setMask mask
  { G with vregs := (List.range 32).map fun i => (i, List.replicate 96 0),
           queue := [{ fetch := .word 0, snap := G.sregs, spc := 0, off := 0, lpc := 0, run := 0 }] }

/-- The entry at the head of its queue. -/
def el (mask : LaneMask) : QEntry := { fetch := .word 0, snap := (G0.setMask mask).sregs, spc := 0, off := 0, lpc := 0, run := 0 }

theorem laneActs_of (m : LaneMask) (G : Group) (opc : Nat) (f : LaneFields)
    (h : (G.idx = 0 ∧ G.queue = [el m]) ∧ laneIllegal G.bud (f.toRaw opc) = none ∧ G.collectorWaits (f.toRaw opc) = false)
    (T : Team) (hT : (mk T G).current = some (own T G, G)) : LaneActs (mk T G) (own T G) G (el m) opc f :=
  ⟨hT, ⟨[], h.1.2⟩, h.2.1, h.2.2⟩

/-- Every lane word of the tables above may head that queue: legal, its sources landed. -/
theorem test_witness_lane_words :
    (Gl 5).idx = 0 ∧ (Gl 5).queue = [el 5] ∧ (mk T0 (Gl 5)).current = some (own T0 (Gl 5), Gl 5) ∧
      (∀ p ∈ integerWords ++ floatWords ++ compareMoveWords, laneIllegal (Gl 5).bud (Raw.ofBits p.1) = none ∧
        (Gl 5).collectorWaits (Raw.ofBits p.1) = false) ∧
      (∀ p ∈ conversionWords ++ crossLaneWords ++ memoryWords ++ matrixWords, laneIllegal (Gl 5).bud (Raw.ofBits p.1) = none ∧
        (Gl 5).collectorWaits (Raw.ofBits p.1) = false) := by decide +kernel

/-- One of each class of the statements, with the shapes of D they tell apart. -/
theorem test_witness_lane_acts :
    LaneActs (mk T0 (Gl 5)) (own T0 (Gl 5)) (Gl 5) (el 5) 0x01 { fd with d := .v 10, a := .v 8, b := .s 12, type := .i32, sat := true } ∧
      LaneActs (mk T0 (Gl 5)) (own T0 (Gl 5)) (Gl 5) (el 5) 0x60 { fd with d := .p 2, a := .v 4, b := .imm 0, type := .i32, func := 2 } ∧
      LaneActs (mk T0 (Gl 5)) (own T0 (Gl 5)) (Gl 5) (el 5) 0x69 { fd with d := .s 7, a := .v 9, type := .n32 } ∧
      LaneActs (mk T0 (Gl 5)) (own T0 (Gl 5)) (Gl 5) (el 5) 0x30 { fd with d := .v 2, a := .v 2, b := .v 4 } ∧
      LaneActs (mk T0 (Gl 5)) (own T0 (Gl 5)) (Gl 5) (el 5) 0x00 { fd with type := .i8 } :=
  ⟨laneActs_of _ _ _ _ (by decide +kernel) _ (by decide +kernel), laneActs_of _ _ _ _ (by decide +kernel) _ (by decide +kernel),
   laneActs_of _ _ _ _ (by decide +kernel) _ (by decide +kernel), laneActs_of _ _ _ _ (by decide +kernel) _ (by decide +kernel),
   laneActs_of _ _ _ _ (by decide +kernel) _ (by decide +kernel)⟩

/-- The number of draw words a word is given, where it is. -/
def given (d : Drawn) : Option Nat :=
  match d with
  | .ok _ _ ws _ => some ws.length
  | _ => none

/-- Draws in live mode, in log mode and in replay mode from 4096 on; none where none are taken. -/
theorem test_witness_draws :
    let G (r : DWord) : Group := { Gl 5 with rng := r }
    let n (r : DWord) (k : Nat) : Option Nat := given ((mk T0 (G r)).takeDraws (own T0 (G r)) (G r) k 0 0 0)
    n 0 0 = some 0 ∧ n 0 384 = some 384 ∧ n (4096 + 1) 3 = some 3 ∧ (Gl 5).rng.toNat % 4 = 0 ∧
      (4096 + 1 : DWord).toNat % 4 = 1 ∧ (4096 + 2 : DWord).toNat % 4 = 2 := by decide +kernel

/-- Checks that pass at 4096 in log and in replay mode; in replay mode the words are loaded, the load is in flight, or they
are at hand. -/
theorem test_witness_draw_modes :
    let accs : List Access := (List.range 3).map fun i => ⟨0xFF, 4096 + 4 * i, 4⟩
    let G : Group := { Gl 5 with rng := 4096 + 2 }
    let s := mk T0 G
    let rs := s.loadReqs (own T0 G) .l1 .l1 ((List.range 3).map fun i => (4096 + 4 * i, 4)) .none (G.words + 1) 0 0 0
    let H (rs : List Req) : Group := { G with replay := some ⟨[1, 2, 3], none⟩, reqs := rs }
    let cached := s.putCore { s.core 0 0 with l1 := [⟨⟨false, 4096⟩, [some (List.replicate 64 3), none, none, none], .none, []⟩] }
    s.checkGlobal (own T0 G) 2 4 { w := true } accs = .pass ∧ s.checkGlobal (own T0 G) 1 4 { r := true } accs = .pass ∧
      (∀ i, i < 3 → s.loadPoison (own T0 G) G .l1 (G.drawAddr i) 4 = false ∧ G.drawAddr i = 4096 + 4 * i) ∧ rs ≠ [] ∧
      (∀ r ∈ rs, r.kind = .load ∧ r.word = G.words + 1) ∧
      cached.loadReqs (own T0 G) .l1 .l1 ((List.range 3).map fun i => (4096 + 4 * i, 4)) .none (G.words + 1) 0 0 0 = [] ∧
      given (s.takeDraws (own T0 G) (H []) 3 0 0 0) = some 3 ∧ given (s.takeDraws (own T0 G) (H rs) 3 0 0 0) = none ∧
      s.windowTeam 0 0 placedAsid 4096 = none := by decide +kernel

/-- Active lanes 0 and 2; all; none. -/
theorem test_witness_active :
    lanesOf ((Gl 5).active (el 5) fd) = [0, 2] ∧ (Gl (BitVec.allOnes 96)).active (el (BitVec.allOnes 96)) fd = BitVec.allOnes 96 ∧
      (Gl 0).active (el 0) fd = 0 ∧ FullMask (el (BitVec.allOnes 96)) ∧ ¬ FullMask (el 5) ∧
      (lanesOf ((Gl 5).active (el 5) fd)).Nodup ∧ 95 < ((Gl 5).vget 31).length ∧ (-3 : Int) < 0 := by
  refine ⟨by decide +kernel, by decide +kernel, by decide +kernel, ?_, ?_, by decide +kernel, by decide +kernel, by decide⟩
  · unfold FullMask; decide +kernel
  · unfold FullMask; decide +kernel

/-- A reduction of two lanes takes one draw under RND `.sr`, a scan as many, a quad reduction three a quad. -/
theorem test_witness_reduction_draws :
    let f : LaneFields := { fd with d := .s 7, a := .v 8, func := 8, rnd := .sr }
    (Gl 5).rounding f.rnd = 2 ∧ f.func.toNat % 16 = 8 ∧
      given ((mk T0 (Gl 5)).takeDraws (own T0 (Gl 5)) (Gl 5) 1 0 0 0) = some 1 ∧ (Gl 5).active (el 5) f ≠ 0 := by decide +kernel

/-- One and two words for `noise` and `noise.2`, in live mode, in log mode, in replay mode where they have been read; a load where
they have not; a stop where no page is mapped. -/
theorem test_witness_noise :
    let G (r : DWord) (x : Option Replay) : Group := { G0 with rng := r, replay := x }
    let d (s : State) (G : Group) (k : Nat) : Drawn := s.takeDraws (own T0 G) G k G.spc 0xFF 0xFFFFFFFF
    (∀ k ∈ [1, 2], given (d (mk T0 G0) G0 k) = some k ∧ given (d (mk T0 (G 4097 none)) (G 4097 none) k) = some k ∧
      (let H := G 4098 (some ⟨List.replicate k 1, none⟩)
       given (d (mk T0 H) H k) = some k)) ∧
      (match d (mk T0 (G 4098 none)) (G 4098 none) 1 with | .load .. => true | _ => false) = true ∧
      (match d (mapped none (G 4097 none)) (G 4097 none) 1 with | .stop (.trap _) => true | _ => false) = true := by decide +kernel

/-! ### Lane memory -/

/-- Fields of the memory words of the witnesses: base s2, offset v0 (zero), element types of 4 bytes. -/
def fm : LaneFields := { fd with a := .s 2, b := .v 0 }

theorem test_witness_lane_loads :
    let s := mk T0 (Gl 5)
    let T := own T0 (Gl 5)
    let as := laneAccesses (Gl 5) (el 5) fm ((laneEnv T (Gl 5) (el 5) fm).plainAddr true) 4
    as = [⟨0, 0, 4⟩, ⟨2, 0, 4⟩] ∧ s.checkGlobal T 1 1 { r := true } as = .pass ∧ s.checkGlobal T 2 1 { w := true } as = .pass ∧
      (∀ a ∈ as, s.loadPoison T (Gl 5) .l1 a.addr a.len = false ∧ s.loadPoison T (Gl 5) .home a.addr a.len = false) ∧
      laneOrder fm = none ∧ laneOrder { fm with func := 0x70 } = some .die ∧ (Gl 5).reqs = [] ∧ (Gl 5).regs = [] := by decide +kernel

/-- Scratchpad words on a page with granule 0 full or empty. -/
theorem test_witness_pad_words :
    let T (full : List Nat) : Team := own { Tpad with full := full } (Gl 5)
    let s (full : List Nat) : State := mk { Tpad with full := full } (Gl 5)
    let as := laneAccesses (Gl 5) (el 5) fm ((laneEnv (T []) (Gl 5) (el 5) fm).plainAddr false) 4
    (s []).checkPads (T []) 1 1 false as = .pass ∧ (s []).checkPads (T []) 1 4 false as = .pass ∧
      (s []).checkPads (T []) 2 4 true as = .pass ∧ (s []).granulesFull ((s []).granules (T []) as) = false ∧
      (s [0]).granulesFull ((s [0]).granules (T [0]) as) = true ∧ (s [0]).current = some (T [0], Gl 5) ∧
      (s []).padRef (T []) (17 % 2 ^ 32) = .at 0 17 ∧ (s []).padRef (T []) (18 % 2 ^ 32) = .at 0 18 ∧
      ((s []).team 0).isSome = true := by decide +kernel

/-- Offset 2 of lane 2 is misaligned for 4 bytes, lane 0's address is not. -/
theorem test_witness_misaligned_lane :
    let f : LaneFields := { fm with b := .v 1 }
    let G : Group := { Gl 5 with vregs := (1, (List.replicate 96 (0 : Word)).set 2 2) :: (Gl 5).vregs }
    let E := laneEnv (own T0 G) G (el 5) f
    lanesOf (G.active (el 5) f) = [0, 2] ∧ E.plainAddr true 2 % 4 ≠ 0 ∧ E.plainAddr true 0 % 4 = 0 ∧
      E.plainAddr false 2 % 4 ≠ 0 ∧ E.addr true false 0 2 % 4 ≠ 0 ∧ E.addr true false 0 0 % 4 = 0 := by decide +kernel

/-- A bank add on a page homed on die 4, which holds the stacks. -/
theorem test_witness_bank_add :
    let s := mapped (some { placedPage with die := 4 }) (Gl 5)
    let T := own T0 (Gl 5)
    let as := laneAccesses (Gl 5) (el 5) fm ((laneEnv T (Gl 5) (el 5) fm).plainAddr true) 4
    firstCheck [checkAlign 4 4 as, s.checkPages T 4 as, s.checkAddable T as, s.checkArrays T 4 true as] = .pass ∧
      s.current = some (T, Gl 5) := by decide +kernel

/-- A page of a B-die that is not writable is not bank-addable (R182). -/
theorem test_bank_add_protection :
    let s := mapped (some { placedPage with die := 4, w := false }) (Gl 5)
    let T := own T0 (Gl 5)
    let as := laneAccesses (Gl 5) (el 5) fm ((laneEnv T (Gl 5) (el 5) fm).plainAddr true) 4
    (match s.checkAddable T as with
     | .trap t => decide (t.kind = .notBankAddable ∧ t.acc = 4 ∧ t.lane = 0)
     | _ => false) = true := by decide +kernel

theorem test_witness_lane_atomics :
    let f : LaneFields := { fm with type := .i32 }
    let s := mk T0 (Gl 5)
    let T := own T0 (Gl 5)
    let E := laneEnv T (Gl 5) (el 5) f
    let as := laneAccesses (Gl 5) (el 5) f (E.addr true false 0) 4
    s.checkGlobal T 3 4 { r := true, w := true } as = .pass ∧ (Gl 5).active (el 5) f ≠ 0 ∧
      (let rs := s.atomicReqs T (as.map fun a => (a.addr, a.len)) (fun _ => none) 1 0 0xFF 0
       rs.all (·.entry) = true ∧ s.entered T as rs = as ∧ s.seniorWaits 0 0 = false ∧ s.entriesUsed 0 0 + rs.length ≤ 64) ∧
      (s.atomSteps T (Gl 5) f.type 0 (fun _ => 7) (fun _ => 0) as).2.2 = [] ∧
      (∀ a ∈ as, s.atomFault T a.addr a.len = none) ∧
      (∀ a ∈ as, ({ s with poison := [a.addr / 64] } : State).atomFault T a.addr a.len = some .storeFault) ∧ s.ordered T (Gl 5) (as.map fun a => (a.addr, a.len)) true = true ∧
      (let G : Group := { Gl 5 with reqs := [{ posted with data := [(0, 1)] }] }
       (mk T0 G).ordered (own T0 G) G (as.map fun a => (a.addr, a.len)) true = false) := by decide +kernel

/-! ### Matrix words -/

/-- A group under the full mask with a format block in s7 (INT8 by INT8, no block scales), a tile of array 1 in t5. -/
def Gm (fmt : DWord) : Group :=
  let G := (G0.sset 7 fmt).tset 5 (BitVec.ofNat 64 (1 + 384 * 2 ^ 14 + 64 * 2 ^ 32 + 0x38 * 2 ^ 41))
  { G with vregs := (List.range 32).map fun i => (i, List.replicate 96 0),
           queue := [{ fetch := .word 0, snap := G.sregs, spc := 0, off := 0, lpc := 0, run := 0 }] }

def em (fmt : DWord) : QEntry := { fetch := .word 0, snap := (G0.sset 7 fmt).sregs, spc := 0, off := 0, lpc := 0, run := 0 }

/-- The format word: A and B in INT8, scale format 1 (none), rounding 0. -/
def fmtw0 : DWord := BitVec.ofNat 64 (0x38 + 0x38 * 2 ^ 6 + 2 ^ 14)

theorem test_witness_matrix_words :
    let b := formatOf fmtw0
    let t := tileOf ((Gm fmtw0).tget 5)
    FullMask (em fmtw0) ∧ (Gm fmtw0).streamFull = false ∧ (Gm fmtw0).queue = [em fmtw0] ∧
      laneIllegal (Gm fmtw0).bud ({ fd with d := .x 0, a := .v 8, b := .imm 5, e := .s 7, type := .narrow } |>.toRaw 0xC0) = none ∧
      laneIllegal (Gm fmtw0).bud ({ fd with d := .v 0, a := .v 10, b := .v 12, e := .s 7, type := .narrow } |>.toRaw 0xD0) = none ∧
      snapReg (em fmtw0).snap 7 = fmtw0 ∧ b.legal = true ∧ b.rnd = 0 ∧ b.rnd < 3 ∧ mmaCodeOk b.afmt = true ∧ mmaCodeOk b.bfmt = true ∧
      (arrayFormat b.afmt).isSome = true ∧ t.rows ≠ 0 ∧ b.bfmt = t.wfmt ∧ (arrayFormat t.wfmt).isSome = true ∧ b.scaled = false ∧
      accsOf t ≤ min 8 (Gm fmtw0).bud.a ∧
      ((own (Ta .compute) (Gm fmtw0)).array t.array).map (·.mode) = some .compute ∧
      (withArrays .compute (Gm fmtw0) 1).calibrated 0 = true ∧
      (withArrays .compute (Gm fmtw0) 1).current = some (own (Ta .compute) (Gm fmtw0), Gm fmtw0) ∧
      (∀ x ∈ (Gm fmtw0).busy, 2 ∉ x.maps) := by
  refine ⟨?_, by decide +kernel⟩
  unfold FullMask; decide +kernel

/-- `v.amw` of column 63 of that tile, in storage mode, and of column 64, which it does not have. -/
theorem test_witness_weights :
    let t := tileOf ((Gm fmtw0).tget 5)
    63 < t.cols ∧ t.cols ≤ 64 ∧ arrayFormat t.wfmt = some (8, 64, 0) ∧
      (own (Ta .storage) (Gm fmtw0)).array t.array = some ⟨.storage, none, ⟨0, []⟩, 0, 0⟩ := by decide +kernel

/-- A queue whose first two words, `v.fmul v2, v3, v4` and `v.fadd v5, v2, v6` of one `vrun`, fuse. -/
def Gf : Group :=
  let q (w : LaneBits) (off : Nat) : QEntry := { fetch := .word w, snap := (G0.setMask 5).sregs, spc := 0, off := off, lpc := 0, run := 0 }
  { Gl 5 with queue := [q (lanePlaced 0x32 2 3 4 0 0 8 0) 0, q (lanePlaced 0x30 5 2 6 0 0 8 0) 1] }

theorem test_witness_fused :
    (mk T0 Gf).current = some (own T0 Gf, Gf) ∧ (fusePlan Gf 2).isSome = true ∧
      (((fusePlan Gf 2).getD []).all fun w => !Gf.collectorWaits (w.f.toRaw w.opc)) = true ∧
      given ((mk T0 Gf).takeDraws (own T0 Gf) Gf (fusedDraws (own T0 Gf) Gf ((fusePlan Gf 2).getD [])) 0 0 0) = some 0 ∧
      goesOn (exec (.fusedRun 2) (mk T0 Gf)) = true := by decide +kernel

/-- Under stochastic rounding its draws are logged where no page is mapped: the run stops. -/
theorem test_witness_fused_stops :
    let G : Group := { Gf with round := 2, rng := 4097 }
    let s := mapped none G
    s.current = some (own T0 G, G) ∧ (fusePlan G 2).isSome = true ∧
      (match s.takeDraws (own T0 G) G (fusedDraws (own T0 G) G ((fusePlan G 2).getD [])) 0 0 0 with
        | .stop (.trap _) => true
        | _ => false) = true := by decide +kernel

/-! ## The device rows -/

/-- A group with a wait, requests, and registers held. -/
def Gw (w : WaitFor) : Group := { G0 with wait := some ⟨w, 0⟩ }

/-- A long word's registers; waits that are over: an `await` for 0, an `amode` whose array has switched, the last one or not, a
`cblk` whose stream has room, a copy wait. -/
theorem test_witness_waits :
    let long : Busy := { word := 0, vecs := [4], preds := [], sregs := [], latches := [], maps := [], memory := false, matrix := false }
    let w1 : WaitFor := .arrays 1 1 [] true
    let w0 : WaitFor := .arrays 0 1 [1] true
    let T (w : WaitFor) : Team := own { T0 with arrays := [⟨.compute, none, ⟨0, []⟩, 1, 0⟩, ⟨.compute, none, ⟨0, []⟩, 1, 0⟩] } (Gw w)
    let U : Team := own { T0 with arrays := [⟨.compute, none, ⟨0, []⟩, 1, 0⟩, ⟨.storage, none, ⟨0, []⟩, 0, 0⟩] } (Gw w0)
    let wb : WaitFor := .blockRoom noBlock
    ({ G0 with busy := [long] } : Group).busy.findIdx? (fun b => !b.memory && !b.matrix) = some 0 ∧
      (mk T0 (Gw (.memory .eq 4088 0 .cell))).waitOver (own T0 (Gw (.memory .eq 4088 0 .cell))) (Gw (.memory .eq 4088 0 .cell))
        (.memory .eq 4088 0 .cell) = true ∧
      (mk (T w1) (Gw w1)).waitOver (T w1) (Gw w1) w1 = true ∧ (Gw w1).mustStop = false ∧
      (mk U (Gw w0)).waitOver U (Gw w0) w0 = true ∧ U.arrays[1]? = some ⟨.storage, none, ⟨0, []⟩, 0, 0⟩ ∧
      (mk T0 (Gw wb)).waitOver (own T0 (Gw wb)) (Gw wb) wb = true ∧
      (mk T0 (Gw (.copies (.core 0 0 0) 0))).waitOver (own T0 G0) (Gw (.copies (.core 0 0 0) 0)) (.copies (.core 0 0 0) 0) = true ∧
      (mk T0 G0).find 0 G0.idx = some (own T0 G0, G0) := by decide +kernel

/-- A load that may be answered; a request without an entry that finds one, and one that does not while 64 are in use. -/
theorem test_witness_requests :
    let load : Req := { Req.of .load ⟨false, 0⟩ 1 0 0xFF 0 with lines := 1, fill := .l1, entry := true }
    let G (n : Nat) : Group := { G0 with reqs := List.replicate n load ++ [{ load with entry := false }] }
    let may (n : Nat) : Bool := decide ((mk T0 (G n)).entriesUsed 0 0 < 64) && !(mk T0 (G n)).elderWaits 0 0 0 &&
      !(mk T0 (G n)).seniorWaits 0 0
    (G 1).reqs.findIdx? ((mk T0 (G 1)).canRespond (own T0 (G 1)) (G 1)) = some 0 ∧ load.bad = none ∧
      (G 63).reqs.findIdx? (fun r => !r.entry) = some 63 ∧ may 63 = true ∧ may 64 = false ∧
      (mk T0 { G0 with reqs := [posted] }).homeWork (own T0 { G0 with reqs := [posted] }) { G0 with reqs := [posted] } =
        [.store 0 posted] ∧
      ({ mk T0 G0 with poison := [1] } : State).refusedMark { posted with marks := [(1, 64, 0xFF)] } =
        some (.storeFault, 64, 0xFF) ∧
      (mk T0 { G0 with reqs := [posted] }).refusedMark posted = none := by decide +kernel

/-- A rejected store to an own scratchpad and a rejected lane atomic, each of which finds an entry and acts as it takes it: the
scratchpad then holds the byte, memory the sum (R167). -/
theorem test_rejected_requests_act_later :
    let pad : Req := { Req.of .store ⟨false, 32768⟩ 0 0 0xFF 0 with lines := 1, pads := [(0, 17, 9)] }
    let w : AtomWork := ⟨{ fm with type := .i32 }, false, [⟨3, 64, 5, 0⟩]⟩
    let atom : Req := { Req.of .atomic ⟨false, 0⟩ 0 0 0xFF 0 with lines := 2, atom := some w }
    let now (o : Out) (f : State → Bool) : Bool := match o with
      | .next t => f t
      | _ => false
    (mk T0 { G0 with reqs := [pad] }).seniorWaits 0 0 = false ∧
    now (representOne (mk Tpad { G0 with reqs := [pad] }) 0 G0.idx 0) (fun t =>
      (t.team 0).any fun T => T.padByte 17 = 9 && T.unregistered = [1] && T.groups.any fun G => G.reqs.all (·.performed) && G.regs = [(0, 1)]) ∧
    now (representOne (mk T0 { G0 with reqs := [atom] }) 0 G0.idx 0) (fun t =>
      t.bytesAt ⟨false, 64⟩ 4 = leBytes 5 4 && t.teams.any fun T => T.groups.any fun G => G.reqs.all (·.performed)) ∧
    (mk Tpad { G0 with reqs := [pad] }).wordInFlight (own T0 G0) 32784 8 = true ∧
    (mk Tpad { G0 with reqs := [{ pad with performed := true }] }).wordInFlight (own T0 G0) 32784 8 = false := by
  decide +kernel

/-- While 64 entries are in use the request of an `amo` is rejected: the word waits, and memory is as it was (R167). -/
theorem test_rejected_amo_waits :
    let load : Req := { Req.of .load ⟨false, 0⟩ 0 0 0xFF 0 with lines := 1, entry := true }
    let G : Group := { G0 with reqs := List.replicate 64 load }
    let s := mk T0 (G.sset 2 4088)
    (match execAmoAdd 1 2 3 false .team s with
     | .next t => decide (t.mem = s.mem ∧ (t.find 0 G.idx).map (fun p => (p.2.wait.map (·.what), p.2.reqs.length, p.2.spc)) =
        some (some .missEntry, 65, G.spc))
     | _ => false) = true := by decide +kernel

/-- Under `.dup` an f32 word's panel is 96 registers, K being 8 (R266, R268): B = v160 leaves TYPE as the first failing field, and
v161 B itself; a word of two-byte elements has 48. -/
theorem test_dup_panel_span :
    let bad (t : ElemType) (i : BitVec 8) : Option Nat := laneIllegal Budget.full (({ fd with type := t, b := .v i, func := 2 } :
      LaneFields).toRaw 0xD0)
    bad .f32 160 = some 21 ∧ bad .f32 161 = some 48 ∧ bad .bf16 208 = none ∧ bad .bf16 209 = some 48 := by decide +kernel

/-- The page tables map address 64; a message of die 0 with an old generation and one with the present one. -/
theorem test_witness_walk :
    ((loaded0 (mk T0 G0) []).walk placedAsid 64).isSome = true ∧ 79 < coresOf 0 ∧ canonical (BitVec.toNat (64 : DWord)) = true ∧
      (1 : BitVec 4) ≠ (mk T0 G0).gens.getD 0 0 ∧ (0 : BitVec 4) = (mk T0 G0).gens.getD 0 0 := by decide +kernel

/-- A poisoned granule makes the line of host memory it goes to poison (R227); a whole unwritten granule of a window that holds code
is kept as the window showed it when its first byte is written (R33). -/
theorem test_poisoned_host_line_and_kept_granule :
    ((mk T0 G0).putGranule (.mem ⟨true, 256⟩) none (List.replicate 16 1) true).poisoned ⟨true, 272⟩ = true ∧
      (let s : State := { mk { Tpad with written := [] } G0 with
         launches := [{ placedLaunch 0 0 with header := { placedHeader with scalBase := 32768, scalLen := 16 } }] }
       let t := s.storePad 0 1 9 false
       (t.overwritten.map (·.loc.addr)) = (List.range 16).map (32768 + ·) ∧ (t.team 0).map (·.padByte 1) = some 9) := by
  decide +kernel

/-- A copy that has not started, one that has its only granule to move, one that has moved it. -/
def copyAt (k : Option CopyStep) : CopyItem := .copy 9 (some (0, 0)) 0 placedAsid 0 0 x0 0 k

theorem test_witness_copy_rows :
    let Q : QueueId := .core 0 0 2
    let s (k : Option CopyStep) : State := (mk T0 G0).setQueue Q [copyAt k]
    let k (n : Nat) : CopyStep := ⟨n, false, false, 0, []⟩
    let r := CopyRun.moveGranules ⟨(s none).team 0, placedAsid, 0, 0, 9, x0⟩ (s (some (k 0))) (k 0) 16
    (s none).queue Q = [copyAt none] ∧ (s (some (k 1))).queue Q = [copyAt (some (k 1))] ∧ r.2.1.moved = 1 ∧ r.2.2 = [] ∧
      x0.geometry.count ≤ 1 ∧ x0.flag = some 64 ∧ (s none).flagFault 0 0 placedAsid (64 : DWord).toNat 9 = none := by decide +kernel

/-- Its granule 0 has a sound source that no granule of the copy writes, and one sound destination. -/
theorem test_witness_copy_granule :
    let s := (mk T0 G0).setBytes ⟨false, 4096⟩ [1, 2, 3]
    let C : CopyRun := ⟨s.team 0, placedAsid, 0, 0, 9, x0⟩
    let good (x : Except FaultKind (Place × Option Nat)) (p : Place) : Bool := match x with
      | .ok q => decide (q.1 = p)
      | .error _ => false
    0 < x0.geometry.count ∧ good (C.source s 0) (.mem ⟨false, 4096⟩) = true ∧ C.writer s (.mem ⟨false, 4096⟩) = none ∧
      s.placeBusy 9 (.mem ⟨false, 4096⟩) = false ∧ s.placePoisoned (.mem ⟨false, 4096⟩) = false ∧ s.memWf = true ∧
      (C.dests s 0).map (good · (.mem ⟨false, 8192⟩)) = [true] ∧ C.destPlaces s 0 = [.mem ⟨false, 8192⟩] ∧
      s.placePoisoned (.mem ⟨false, 8192⟩) = false ∧ (s.teams.all fun T => T.savedArea.isNone) = true ∧
      ((C.destPlaces s 0).flatMap fun q => (List.range 16).map q.plus).Nodup := by decide +kernel

theorem test_witness_flag_add : (mk T0 G0).xlate 0 0 placedAsid 64 = .ok placedPage ∧ (mk T0 G0).memWf = true := by decide +kernel

/-- Arrays that switch, with nothing on its way into them; an array that no pass runs on and one it runs on. -/
theorem test_witness_array_rows :
    (∀ m ∈ ([.toCompute, .toStorage] : List ArrayMode),
      (mk (Ta m) G0).team 0 = some (own (Ta m) G0) ∧ (own (Ta m) G0).arrays[1]? = some ⟨m, none, ⟨0, []⟩, 0, 0⟩ ∧
        (mk (Ta m) G0).storesInto (own (Ta m) G0) 1 0 = false ∧ (mk (Ta m) G0).entriesInto (own (Ta m) G0) 1 0 = false ∧
        ((mk (Ta m) G0).setQueue (.core 0 0 2) [copyAt none]).copiesBefore 0 10 = false ∧
        ∀ G ∈ (own (Ta m) G0).groups, ∀ e ∈ G.stream, e.onArray 1 = false) ∧
    (mk (Ta .toCompute) { G0 with reqs := [posted] }).storesInto
      { own (Ta .toCompute) G0 with pages := 1, backing := [⟨false, 0⟩] } 0 10 = true ∧
    (mk (Ta .compute) G0).teamCopies 0 = false ∧ (own (Ta .compute) G0).cell = none ∧
    ({ own (Ta .compute) G0 with ending := true } : Team).ending = true ∧
    (let t := (Gm fmtw0).tget 5
     let sg := segments (formatOf fmtw0) (tileOf t)
     (tileOf t).array = 1 ∧ (own (Ta .compute) G0).arrays[1]? = some ⟨.compute, none, ⟨0, []⟩, 0, 0⟩ ∧ sg.1 * 1 ≤ 0 + 1 ∧ 0 + 1 < sg.1 * 2) := by
  decide +kernel

theorem test_witness_matrix_rows :
    let op : MatrixOp := .mmac 0 0 [] []
    let e (b : Bool) : MatrixEntry := { entry0 op 0 with started := b, ready := some 4 }
    let G (b : Bool) : Group := { G0 with stream := [e b] }
    let scaled (x : Option Byte) : MatrixEntry := { entry0 op 0 with ascales := ⟨[[(64, ⟨false, 64⟩)]], [[x]]⟩ }
    (mk T0 (G false)).find 0 (G false).idx = some (own T0 (G false), G false) ∧ (G false).nextDigital = some (e false) ∧
      (mk T0 (G false)).firstReady 0 0 (G false).pipe 4 = true ∧ (mk T0 (G false)).scalesBusy (own T0 (G false)) (e false) = false ∧
      (e true).started = true ∧
      (scaled (some 3)).poisonedScale = none ∧ (scaled none).poisonedScale = some 64 ∧
      ((mk T0 G0).readEntry (own T0 G0) (scaled (some 3))).poisonedScale = none ∧ (MatrixOp.accclr 3 2).isAcc = true ∧
      (MatrixOp.accscl 3 0 []).isAcc = true ∧ (MatrixOp.accld 3 7 [] 5).isAcc = true ∧
      (MatrixOp.accmov fd 5 3 7 0 []).isAcc = true := by decide +kernel

/-- A count within the exact limit, formats of the arrays, a sum of infinities, fields of a product. -/
theorem test_witness_products :
    1 ∈ repeatList ∧ 32 ≤ exactLimit 1 ∧ (arrayFormat (formatOf fmtw0).afmt).isSome = true ∧
      (arrayFormat (tileOf tile1).wfmt).isSome = true ∧ 63 < (tileOf tile1).cols ∧
      ([FVal.inf false, .inf true] : List FVal).any FVal.isNan = false ∧ 95 < ((Gm fmtw0).vget 31).length := by decide +kernel

/-! ### Stack engines -/

/-- A page of die 4, which holds a stack, as die 0's TLB has it. -/
def stacked (G : Group) : State :=
  let s := mk T0 G
  (s.putDie 0 { s.die 0 with tlb := [{ placedPage with die := 4 }] }).putDie 4 { s.die 4 with tlb := [{ placedPage with die := 4 }] }

/-- A block of one command, started or not. -/
def block0 (c : List Byte) (started : Bool) (next flag : Nat) : Block :=
  { noBlock with va := 1024, flag := flag, cmds := [c], next := next, started := started }

/-- Commands: `mode` on, `mode` off, `flush`, an `addv` of 2 words from 4096 to 5120, a `scan` of 3 words at 4096 for words
equal to 0, results at 6144, room for 2. -/
def modeCmd (on : Bool) : List Byte := leBytes (if on then 0x103 else 3) 32
def flushCmd : List Byte := leBytes 2 32
def addvCmd : List Byte := leBytes 1 12 ++ leBytes 2 4 ++ leBytes 4096 8 ++ leBytes 5120 8
def scanCmd : List Byte := leBytes 0x20000 12 ++ leBytes 3 4 ++ leBytes 4096 8 ++ leBytes 6144 8

theorem test_witness_blocks_run :
    let s (c : List Byte) (b : Bool) : State := { stacked G0 with blocks := [block0 c b 0 0] }
    (s (modeCmd true) false).block 30 = some (block0 (modeCmd true) false 0 0) ∧
      (((s (modeCmd true) false).blocksOf 0 0).head?).map (·.id) = some 30 ∧
      cmdOp (modeCmd true) = 3 ∧ le (modeCmd true) 1 1 % 2 = 1 ∧ le (modeCmd false) 1 1 % 2 = 0 ∧ cmdOp (modeCmd false) = 3 ∧
      (s flushCmd true).deterministic placedAsid = false ∧ cmdOp flushCmd = 2 ∧
      (∀ a ∈ (s flushCmd true).adds, a.accepted = false ∨ a.tag.asid ≠ placedAsid) ∧
      goesOn (flushAdds (s flushCmd true) placedAsid) = true ∧ (block0 flushCmd true 0 0).cmds[0]? = some flushCmd := by decide +kernel

theorem test_witness_addv_scan :
    let s := stacked G0
    let g := (own T0 G0).tag G0 0
    cmdOp addvCmd = 1 ∧ le addvCmd 12 4 = 2 ∧ s.stackAbsent g 4096 8 = none ∧ s.stackAbsent g 5120 8 = none ∧
      s.stackFail g { r := true } false 4096 8 = none ∧ s.stackFail g { w := true } true 5120 8 = none ∧
      cmdOp scanCmd = 0 ∧ le scanCmd 12 4 = 3 ∧
      le scanCmd 2 2 = 2 ∧ s.stackAbsent g 6144 32 = none ∧ s.stackFail g { r := true } true 4096 12 = none ∧
      s.stackFail g { w := true } false 6144 32 = none ∧ s.engineBusy 30 g 4096 12 = false ∧ s.stackPoison g 4096 12 = [] ∧
      (s.stackWrite g 30 6144 (scanOutput (scanSelect (le scanCmd 1 1 / 16 % 4) (le scanCmd 1 1 % 16) (le scanCmd 4 4) (le scanCmd 8 4) 2
        ((List.range 3).map fun i => (i, s.stackWord g (4096 + 4 * i)))) 2)).2 = none ∧
      (block0 scanCmd true 1 512).cmds.length ≤ (block0 scanCmd true 1 512).next ∧
      s.flagFault 0 (coresOf 0) placedAsid 512 30 = none ∧
      (mk T0 G0).stackFail g { w := true } true 5120 8 = some (.notMapped, 5120) := by decide +kernel

/-- A group waits at a `cblk.wait` when a command of its block fails: it stops there at once, the word not done, and its team
freezes (R343, R344). -/
theorem test_failed_block_stops_its_wait :
    let G : Group := { G0 with wait := some ⟨.blocks 0, 7⟩ }
    let s : State := { stacked G with blocks := [block0 addvCmd true 0 0], asids := [] }
    (match failBlock s (block0 addvCmd true 0 0) .notStackHomed 9 5120 with
     | .next t => decide (t.blocks = [] ∧ (t.find 0 G0.idx).map (fun p => (p.1.frozen, p.2.status, p.2.wait, p.2.spc)) =
        some (true, .faulted, none, G0.spc))
     | _ => false) = true := by decide +kernel

/-- A running `addv`: no granule read, one read, the first poisoned; a page of its source; its add goes to a word of memory, or
into an array that computes. -/
theorem test_witness_addv_elements :
    let b (ahead : List (Option Byte)) (pages : List TlbEntry) : Block :=
      { block0 addvCmd true 0 0 with pages := pages, ahead := ahead, seqs := [7] }
    let s : State := { stacked G0 with blocks := [b [] []] }
    let e : TlbEntry := { placedPage with die := 4 }
    let ws : List Byte := [1, 0, 0, 0]
    (b [] []).ahead.length < 4 ∧ s.engineBusy 30 (b [] []).tag 4096 1 = false ∧ s.placePoisoned (s.sourcePlace (b [] [e]) 4096) = false ∧
      ({ s with poison := [64] } : State).placePoisoned (s.sourcePlace (b [] [e]) 4096) = true ∧ (b [] []).told = false ∧
      s.stackPages (b [] []).tag 4096 8 = [e] ∧ (b [] [e]).pages.find? (·.hits (b [] [e]).tag.asid 5120) = some e ∧
      (b (ws.map some) [e]).ahead = ws.map some ++ [] ∧ ws.length = 4 ∧ none ∈ (b (List.replicate 16 none) [e]).ahead.take 4 ∧
      s.addRefused (vectorAdd (b (ws.map some) [e]) addvCmd 0 1) = false ∧
      (∀ a ∈ s.adds, a.accepted = true ∨ a.block ≠ some (30, 1024)) := by decide +kernel

/-- An add on its way and one accepted, to a word of memory that nothing refuses. -/
def add0 (accepted : Bool) : BankAdd :=
  { tag := (own T0 G0).tag G0 0, seq := 0, core := some 0, va := 64, pa := 64, home := 4, float := false, value := 5, accepted := accepted, held := false,
    born := 0, word := some 1, block := none, off := 0, lpc := 0 }

/-- An add through the issuing core's own window goes to the scratchpad, registered or not; to a granule that is not written it takes
what its backing memory holds (R162, R172). -/
theorem test_bank_add_own_window :
    let a (va : Nat) : BankAdd := { add0 true with va := va, pa := va }
    let s := mk Tpad G0
    s.addPlace (a 32784) = .pad 0 16 ∧ s.addSource (a 32784) = .mem ⟨false, 32784⟩ ∧ s.addSource (a 32768) = .pad 0 0 ∧
      s.addPlace { a 32784 with core := none } = .mem ⟨false, 32784⟩ := by
  decide +kernel

theorem test_witness_bank_adds :
    let s (b : Bool) : State := { stacked G0 with adds := [add0 b] }
    (s false).adds[0]? = some (add0 false) ∧ (s false).addRefusal (add0 false) = none ∧ (s false).addUnentered (add0 false) = false ∧
      ({ stacked { G0 with reqs := [{ Req.of .bankAdd ⟨false, 0⟩ 1 0 0xFF 0 with lines := 2 }] } with adds := [add0 false] } :
        State).addUnentered (add0 false) = true ∧
      (∀ b ∈ (s false).adds.take 0, b.accepted = true) ∧ (s false).buffered (Config.bankOf 64) < 2048 ∧
      (s false).storeBefore (add0 false) = false ∧ (s true).homeRefusal ((s true).addPlace (add0 true)) = none ∧
      (add0 true).held = false ∧ (s true).addsBefore (add0 true) (s true).adds = false ∧
      (s false).addsBefore (add0 false) ((s false).adds.filter fun b => !b.accepted) = false ∧ (s true).addWindow (add0 true) = none ∧
      (let t : State := { stacked G0 with adds := [add0 true, { add0 true with word := some 2 }] }
       t.addsBefore { add0 true with word := some 2 } t.adds = true ∧ t.addPlace (add0 true) = .mem ⟨false, 64⟩) ∧ (s true).memWf = true ∧ (s true).registered ⟨false, 64⟩ = none ∧
      ((s true).teams.all fun T => T.savedArea.isNone) = true := by decide +kernel

/-! ### Reductions -/

/-- A put of contributor 1 from address 128 into object 9. -/
def put0 : Put := { id := 50, tag := (own T0 G0).tag G0 0, obj := 9, born := 40, idx := 1, src := 128, fence := false }

theorem test_witness_reduction_rows :
    let s (os : List RedObj) : State := { mk T0 G0 with puts := [put0], objects := os }
    (s [o0]).puts.find? (fun q => q.id = put0.id && !q.fence) = some put0 ∧
      (((s [o0]).putsOf 0 0).head?).map (·.id) = some put0.id ∧ (∀ x ∈ (s []).objects, x.born ≠ put0.born) ∧
      (s [o0]).objects.find? (·.born = put0.born) = some o0 ∧ (s [o0]).badGranule put0.tag 128 (o0.len * o0.elemBytes) = none ∧
      (s [o0]).engineBusy put0.id put0.tag 128 (o0.len * o0.elemBytes) = false ∧ (s [o0]).decides o0 = true ∧
      (s [o0]).object 0 9 = some o0 := by decide +kernel

/-- Arrivals on time (999 ns), late (1000, 1499), after the window (1500) and twice; the last contributor of two. -/
theorem test_witness_arrivals :
    let o1 := o0.arrive 999 1 [1, 2, 3, 4]
    o0.windowOver = false ∧ 1499 < o0.td + o0.corr ∧ o0.td + o0.corr ≤ 1500 ∧ o0.union.getLsbD 1 = false ∧
      o1.union.getLsbD 1 = true ∧ (∀ i, i < o0.ncon → (o1.arrive 1000 0 [0, 0, 0, 0]).union.getLsbD i = true) ∧
      (o1.early.getLsbD 1 = true) ∧ ¬ 1000 < o0.td := by decide +kernel

/-- A peer object, on a part whose index in the set is `k`. -/
def peered (k : DWord) : State :=
  { mk T0 G0 with objects := [{ o0 with peer := true }],
                  asids := [(63, { placedSlot with words := placedSlot.words.set 6 k })] }

theorem test_witness_peers :
    let p : RedObj := { o0 with peer := true }
    let s : State := { peered 0 with asids := [] }
    (⟨0, objectBytes⟩ : PeerHead).turn = p.turn ∧ (⟨0, objectBytes⟩ : PeerHead).desc = p.desc ∧
      (⟨1, objectBytes⟩ : PeerHead).turn ≠ p.turn ∧ (⟨0, []⟩ : PeerHead).desc ≠ p.desc ∧ s.decides p = true ∧ s.object 0 9 = some p ∧ p.td ≤ ({ s with wallNs := 1000 } : State).wallNs ∧
      p.td + p.corr ≤ ({ s with wallNs := 1500 } : State).wallNs ∧ 1 < p.ncon ∧ ([1, 2, 3, 4] : List Word).length = p.len := by
  decide +kernel

/-- Whatever index is the lowest of a set, some part of it does not decide the set's objects. -/
theorem test_witness_other_peers : ∃ k, (peered k).decides { o0 with peer := true } = false ∧
    (peered k).object 0 9 = some { o0 with peer := true } := by
  have h0 : (peered 0).decides { o0 with peer := true } = decide (0 = Config.lowestPeer 0) := rfl
  have h1 : (peered 1).decides { o0 with peer := true } = decide (1 = Config.lowestPeer 0) := rfl
  by_cases h : 0 = Config.lowestPeer 0
  · exact ⟨1, by rw [h1, ← h]; rfl, rfl⟩
  · exact ⟨0, by rw [h0, decide_eq_false h], rfl⟩

/-! ## Launches, the dispatcher, saves, the host, resets -/

/-- A launch of class 0 on die 0, its dispatch record, header and a handoff table in memory; nothing runs. -/
def sHost : State :=
  let s := loaded0 { mk T0 G0 with teams := [] } [(0x3000, headerBytes false), (0x3100, recordBytes false 0),
    (0x3200, recordBytes false placedAsid), (0x3400, leBytes 1 8 ++ leBytes 4096 8 ++ leBytes 8192 8 ++ leBytes 16 8)]
  { s with control := { Control.reset with trained := true, window := 1, udp := 0x10000 + 7000 } }

theorem test_witness_records :
    accepted (sHost.vet .host (recordBytes false placedAsid) none) = true ∧
      refusedWith (sHost.vet .host (recordBytes false 7) none) = some 0xFF01 ∧ (recordBytes false placedAsid).length = 64 ∧
      sHost.control.window.getLsbD 0 = true ∧ sHost.control.udp.getLsbD (16 + 0) = true ∧
      (7000 - sHost.control.udp.toNat % 2 ^ 16) = 0 ∧ (recordOf (recordBytes false placedAsid)).cls = 0 ∧
      BitVec.ofNat 64 (ofBytes [1, 2, 3, 4, 5, 6, 7, 8]) = sHost.tagOf 0 ∧
      BitVec.ofNat 64 (ofBytes [0, 2, 3, 4, 5, 6, 7, 8]) ≠ sHost.tagOf 0 ∧
      accepted (sHost.vet .network (recordBytes false placedAsid) none) = true ∧
      refusedWith (sHost.vet .network (recordBytes true placedAsid) none) = some 0xFF01 := by decide +kernel

/-- A launch at a stage, with a record. -/
def Lr (stage : LaunchStage) (r : Record) : Launch := { placedLaunch 0 0 with ended := 1, record := r, stage := stage }

def hosted (L : Launch) : State := { sHost with launches := [L] }

theorem test_witness_completion :
    let a := Lr .active { placedRecord with done := 64 }
    let c := Lr .completed { placedRecord with hand := 0x3400 }
    let Q : QueueId := .dd ((hosted c).handoffDie c ⟨4096, 8192, 16⟩) 7
    (hosted a).launch 0 = some a ∧ (hosted a).completes a = true ∧
      (((hosted a).putLaunch { a with stage := .completed, front := none }).dropObjects 0).flagRefused 8 0 a.asid 64 = false ∧
      (hosted c).dieRead c.asid 0x3400 8 = .ok (leBytes 1 8) ∧
      (hosted c).dieRead c.asid (0x3400 + 8) 24 = .ok (leBytes 4096 8 ++ leBytes 8192 8 ++ leBytes 16 8) ∧
      handoffEntries (leBytes 4096 8 ++ leBytes 8192 8 ++ leBytes 16 8) 1 = [⟨4096, 8192, 16⟩] ∧
      HandoffEntry.ok ⟨4096, 8192, 16⟩ = true ∧ ((hosted c).queue Q).length < 32 ∧
      (hosted c).checkCopy c.issuer (HandoffEntry.desc ⟨4096, 8192, 16⟩) true = .pass ∧
      (hosted (Lr (.handing [5]) placedRecord)).copiesLeft [5] = false := by decide +kernel

theorem test_witness_successors :
    let s (va : Nat) : State := { hosted (Lr .releasing { placedRecord with succ := va }) with launches := [] }
    (s 0x3100).dieRead placedAsid 0x3100 64 = .ok (recordBytes false 0) ∧
      accepted ((s 0x3100).vet (.successor placedAsid) (recordBytes false 0) none) = true ∧
      refusedWith ((s 0x3100).vet (.successor placedAsid) (recordBytes false 7) none) = some 0xFF01 := by decide +kernel

/-- A launch of two teams, one of them placed, each with one page of scratchpad. -/
def L2 : Launch :=
  { placedLaunch 0 0 with record := { placedRecord with x := 2 }, header := { placedHeader with scratch := 16384 } }

theorem test_witness_placement :
    ((hosted L2).choose 0).map (·.1) = some L2 ∧ (hosted L2).heldBack 0 = false ∧
      (hosted L2).offer L2 0 = some (.plain 1, 1) ∧ (hosted L2).newRoom L2 0 96 = none ∧
      (hosted L2).newRoom L2 0 0 = some ([0], 0) ∧ L2.header.pages = 1 ∧
      (match ({ hosted L2 with cores := ⟨0, 0, [], [], [{ placedPage with base := 0, size := 2097152 }], []⟩ :: sHost.cores } : State).xlate
        0 0 placedAsid (windowOf L2 0 1 + 16384 * 0) with
        | .ok e => e.r && e.w
        | _ => false) = true := by decide +kernel

theorem test_witness_fronts :
    (hosted (Lf 3 0 false)).launch 0 = some (Lf 3 0 false) ∧ (hosted (Lf 3 0 false)).frontDie (Lf 3 0 false) = some 0 ∧
      (Lf 3 0 false).reserve ≤ (hosted (Lf 3 0 false)).frontFree 0 ∧
      (Lf 3 0 true).front.map (fun f => ((Lf 3 0 true).canFire f 0 3, (Lf 3 0 true).firesBefore f 0 3)) = some (true, false) ∧
      (Lf 3 0 true).front.map (fun f => ((Lf 3 0 true).canFire f 0 5, (Lf 3 0 true).firesBefore f 0 5)) = some (true, true) := by
  decide +kernel

/-- A point fired out of order is not placed while one before it can fire (R301). -/
theorem test_fire_order :
    let L (flight : BitVec 64) : Launch :=
      { Lf 3 flight true with front := (Lf 3 flight true).front.map fun f => { f with offered := [(0, 5)] } }
    ((hosted (L 4)).offer (L 4) 0).isNone = true ∧ ((hosted (L 7)).offer (L 7) 0).isSome = true := by decide +kernel

/-- A group of small budgets, running or exited, and a team of it at some place. -/
def Gs : Group := { G0 with bud := { v := 1, s := 8, t := 0, a := 0 } }

def Tp (p : TeamPlace) (G : Group) : Team := { own T0 G with place := p }

/-- The machine with a team and a save pool of 1 MiB at 1 GiB. -/
def pooled (T : Team) : State :=
  { sHost with teams := [T], launches := [L2], control := { sHost.control with pool := 0x40000000, poolsz := 0x100000 } }

def area0 (count : Nat) (stopped pool : Bool) (why : SaveReason) : SaveArea :=
  { pa := 0x40000000, length := 768, reason := why, count := count, stopped := stopped, pool := pool, kept := none }

theorem test_witness_team_ends :
    let G : Group := { G0 with status := .exited }
    ∀ p ∈ ([.resident, .ending false] : List TeamPlace),
      (pooled (Tp p G)).team 0 = some (Tp p G) ∧ (pooled (Tp p G)).quiet (Tp p G) = true ∧ (Tp p G).groups ≠ [] ∧
        (let U : Team := own { Tp p G with arrays := [⟨.compute, none, ⟨0, []⟩, 0, 0⟩] } G
         (pooled U).quiet U = true ∧ U.cell = none ∧ ∃ A ∈ U.arrays, A.mode ≠ .storage) := by decide +kernel

/-- A member of a cell with an array in compute mode leaves its cell before the array switches (R234, R365); a granule of another
member that is not registered yet is waited for. -/
theorem test_exit_leaves_cell_first :
    let G : Group := { G0 with status := .exited }
    let U : Team := { own { Tp .resident G with arrays := [⟨.compute, none, ⟨0, []⟩, 0, 0⟩] } G with cell := some (5, 0) }
    let V : Team := { Tp .resident { G0 with regs := [(0, 3)] } with uid := 9, num := 1, cell := some (5, 1) }
    let cell (o : Out) : Option (Option (Nat × Nat) × Bool) := match o with
      | .next t => (t.team 0).map fun T => (T.cell, T.leaving)
      | _ => none
    U.liveCount = 0 ∧ (pooled U).teamCopies 0 = false ∧ G.performedAt U .cell = true ∧ (pooled U).cellWork U = false ∧
      goesOn (execArrayModeSwitchComplete 0 0 (pooled U)) = true ∧
      (match execArrayModeSwitchComplete 0 0 (pooled U) with
       | .next t => decide (t = pooled U)
       | _ => false) = true ∧
      cell (execTeamEnd 0 (pooled U)) = some (none, false) ∧
      cell (execTeamEnd 0 { pooled U with teams := [U, V] }) = some (some (5, 0), true) := by decide +kernel

/-- A team of one page of scratchpad that has exited with its first granule written: its place is sound. -/
theorem test_witness_write_back :
    let G : Group := { G0 with status := .exited }
    let T : Team := { Tp .resident G with pages := 1, window := 8192, pad := [(0, 7)], written := [0] }
    (pooled T).quiet T = true ∧ T.groups ≠ [] ∧ (pooled T).backTo T 0 = some ⟨false, 8192⟩ ∧
      (pooled T).poisoned ⟨false, 8192⟩ = false ∧ (pooled T).memWf = true ∧
      ((pooled T).launch T.launch).map (·.stage) = some .active ∧ T.padByte 0 = 7 := by decide +kernel

/-- A die without teams and one with a team of launch 0, pinned and not. -/
theorem test_witness_energy :
    (∀ T ∈ sHost.teams, T.present = true → T.die ≠ 0) ∧ 0 < sHost.dies.length ∧
      ((pooled (Tp .resident Gs)).teams.filter fun T => T.present && T.die = 0).length = 1 ∧
      (pooled (Tp .resident Gs)).launch (Tp .resident Gs).launch = some L2 ∧ sHost.control.pin.toNat / 2 ^ (8 * 0) % 256 = 0 ∧
      (State.repin sHost 7).control.pin.toNat / 2 ^ (8 * 0) % 256 ≠ 0 := by decide +kernel

theorem test_witness_saves :
    (pooled (Tp (.stopping (area0 0 false true .preempt)) Gs)).drained (Tp (.stopping (area0 0 false true .preempt)) Gs) = true ∧
      (area0 256 false true .preempt).count < (area0 256 false true .preempt).length ∧
      (area0 768 false true .preempt).length ≤ (area0 768 false true .preempt).count ∧
      (∀ i ∈ (Tp (.saving (area0 768 false true .preempt)) Gs).written, i < 0) ∧
      ((pooled (Tp .resident Gs)).stopFor (Tp .resident Gs) .preempt).isSome = true := by decide +kernel

/-- A save whose write-back meets poison freezes its team (R173, R361). -/
theorem test_refused_write_back_freezes :
    let T : Team := { Tp (.saving (area0 768 false true .preempt)) Gs with
      pages := 1, window := 8192, backing := [⟨false, 8192⟩], pad := [(0, 7)], written := [0] }
    let s : State := { pooled T with poison := [128], asids := [] }
    (s.writeBack T).2 ≠ [] ∧ (match execTeamSave T.uid s with
      | .next t => (t.team T.uid).any fun T' => T'.frozen && !T'.restoring
      | _ => false) = true := by decide +kernel

/-- No core of die 0 takes a team, and launch L2 has one ready; a group waits 5000 cycles with a threshold of 4096. -/
def crowded (T : Team) : State := { pooled T with gated := List.range 96 }

theorem test_witness_lulls :
    let w : WaitFor := .memory .eq 4088 0 .cell
    let G : Group := { Gs with wait := some ⟨w, 5000⟩ }
    let T := Tp .resident G
    let T1 : Team := { Tp (.saved (area0 768 false true .lull)) G with lull := true, lullWaits := [(0, w)] }
    ((crowded T).enterLull T none).isSome = true ∧ T.group G.idx = some G ∧ G.lullWait = some w ∧
      T1.thawing = none ∧ (pooled T1).launch T1.launch = some L2 ∧ L2.stage = .active ∧ (pooled T1).waitOver T1 G w = true ∧
      ({ T1 with metAt := some 7 } : Team).metAt ≠ none := by decide +kernel

/-- A saved team of one exited group, with its area; an area with state 2 does not load. -/
theorem test_witness_restore :
    let T : Team := { Tp (.saved (area0 768 false true .preempt)) Gs with restoring := true }
    let bytes (state : Nat) : List Byte := leBytes 0x5356 2 ++ leBytes 1 1 ++ leBytes state 253 ++ leBytes 0 256 ++ leBytes 0 24 ++
      leBytes 0 1 ++ leBytes 8 1 ++ leBytes 0 2 ++ leBytes 0 228
    let s (state : Nat) : State := (pooled T).setBytes ⟨false, 0x40000000⟩ (bytes state)
    T.savedArea = some (area0 768 false true .preempt) ∧ (s 0).restoreTurn T = true ∧ (s 0).letsReturn T = true ∧
      (s 0).oldRoom T 5 = some ([0], 0) ∧ T.pages = 0 ∧ ((s 0).loadTeam T (area0 768 false true .preempt) [0] 9).map (·.1.uid) = some T.uid ∧
      (s 0).arraysAwaited ((s 0).returned T T 5 0 []) = false ∧
      (let A : Team := { T with arrays := [⟨.compute, none, ⟨0, []⟩, 0, 0⟩], pages := 1, window := 8192 }
       let G : Group := { Gs with reqs := [{ Req.of .store ⟨false, 8192⟩ 0 0 0xFF 0 with lines := 1, data := [(8192, 5)] }] }
       let W : Team := { Tp .resident G with uid := 9, num := 1 }
       ({ s 0 with teams := [T, W] } : State).arraysAwaited ((s 0).returned A A 5 0 [⟨false, 8192⟩]) = true) ∧
      ((s 2).loadTeam T (area0 768 false true .preempt) [0] 9).isSome = false := by decide +kernel

theorem test_witness_watchdog :
    let s : State := { pooled (Tp .resident G0) with
      wallNs := 1000000, asids := [], control := { Control.reset with wdog := 1000 } }
    1000 * s.control.wdog.toNat ≠ 0 ∧ (Tp .resident G0).watch + 1000 * s.control.wdog.toNat ≤ s.wallNs ∧
      s.asidSlot placedAsid = none ∧ (0 : Nat) + 200000 ≤ s.wallNs := by decide +kernel

/-- A save that began late has its whole period, whatever the hang period says; each expiry restarts its own (R378). -/
theorem test_watchdog_periods :
    let T (watch since : Nat) : Team :=
      { Tp (.saving (area0 256 false true .preempt)) Gs with watch := watch, saveSince := since }
    let s : State := { pooled (T 0 0) with wallNs := 1000000, control := { Control.reset with wdog := 1000 } }
    s.watchOver (T 5 5) = none ∧ s.watchOver (T 5 0) = some .save ∧ s.watchOver (T 0 5) = some .idle ∧
      ((T 5 0).rewatch 1000000 .save).watch = 5 ∧ ((T 0 5).rewatch 1000000 .idle).saveSince = 5 := by decide +kernel

/-- A team whose dump the watchdog stopped was frozen before, and a retry leaves it frozen (R362, R379). -/
theorem test_dump_stays_frozen :
    (Tp .resident Gs).wasFrozen (area0 256 true false .dump) = true ∧
      (Tp .resident Gs).wasFrozen (area0 256 true true .preempt) = false := by decide +kernel

/-- A save that the watchdog finds half done; a fault queue that has no room to be full of; a drain that has lasted long enough. -/
theorem test_witness_watched_save :
    let T : Team := Tp (.saving (area0 256 false true .preempt)) Gs
    let D : Team := { Tp .resident Gs with drain := some 0 }
    let s (T : Team) : State := { pooled T with wallNs := 1000000, control := { (pooled T).control with wdog := 1000 } }
    (s T).control.wdog ≠ 0 ∧ T.watch + 1000 * (s T).control.wdog.toNat ≤ (s T).wallNs ∧
      (area0 256 false true .preempt).count < (area0 256 false true .preempt).length ∧ (s T).memWf = true ∧
      (s D).mayPreempt D = true ∧ (State.stopAll .preempt ((s D).preemptSet D) (s D)).isSome = true ∧ D.ending = false ∧
      (area0 256 true true .preempt).stopped = true := by decide +kernel

theorem test_witness_watchdog_room : RecordHasRoom (pooled (Tp .resident Gs)) placedAsid := by
  intro i e h
  rw [show (pooled (Tp .resident Gs)).asidSlot placedAsid = some (63, { placedSlot with words := placedSlot.words.set 1 0x100000 })
    from by decide +kernel] at h
  cases h
  decide +kernel

/-- A team in a lull since 5 thaws, and finds its core taken by a team placed at 9. -/
theorem test_witness_thaw_room :
    let W : Team := { Tp (.saved (area0 768 false true .lull)) Gs with lull := true, lullAt := 5, thawing := some 8 }
    let T : Team := { Tp .resident Gs with uid := 7, num := 1, placedAt := 9 }
    let s : State := { pooled T with teams := [T, W], gated := List.range 96 }
    s.launch 0 = some L2 ∧ (s.thawNeeds 0).map (·.uid) = some W.uid ∧ W.launch = L2.id ∧
      (s.teams.filter fun V => V.die = 0 && V.preemptable && s.mayPreempt V &&
        (decide (s.teamPriority V ≤ s.priority L2.record.cls) && decide (W.lullAt < V.placedAt))) = [T] ∧
      s.preemptSet T = [T] ∧ (s.preemptOne T (preemptMode (s.header T) T)).isSome = true := by decide +kernel

/-- A launch of class 1, of priority 1, which pre-empts at once, waits for room that a team of class 0 holds; so does a team of it
that is to be restored, and that team's launch then pre-empts (R297). -/
theorem test_witness_preemption :
    let L : Launch := { L2 with id := 1, record := { L2.record with cls := 1 } }
    let T := Tp .resident Gs
    let s : State := { crowded T with
      launches := [L2, L], classes := sHost.classes ++ [(1, ⟨[0x19, 0, 16, 0], List.replicate 4 none⟩)] }
    s.launch 1 = some L ∧ s.thawNeeds 0 = none ∧ s.dispatches L = true ∧ (s.offer L 0).isSome = true ∧ s.waited L 0 = true ∧
      s.firstThaw 0 = none ∧
      (s.afterPreemptions 0).dieRoom 0 L.header.budgets L.header.pages (decide (0 < L.header.arrays)) = false ∧
      (let W : Team := { Tp (.saved (area0 768 false true .preempt)) Gs with uid := 8, launch := 1, restoring := true }
       let r : State := { s with teams := s.teams ++ [W] }
       W ∈ r.teams ∧ r.letsReturn W = true ∧ r.waited L 0 = true ∧ (r.afterPreemptions 0).dieRoom 0 W.budgets W.pages false = false ∧
         (match execPreemptionWaitExpiry 1 0 r with
          | .next t => decide (t.teams ≠ r.teams)
          | _ => false) = true) ∧
      (s.teams.filter fun W => W.die = 0 && W.preemptable && decide (s.teamPriority W < s.priority L.record.cls)) = [T] ∧
      s.preemptSet T = [T] ∧ (s.preemptOne T (preemptMode (s.header T) T)).isSome = true := by decide +kernel

/-- Teams that the host's actions meet: frozen and resident, frozen and saved by the host, stopped in their save, running. -/
theorem test_witness_host_actions :
    let f (p : TeamPlace) : Team := { Tp p Gs with frozen := true }
    let one (T : Team) : Bool := decide ((pooled T).teams.filter (fun W => W.launch = 0 && W.die = T.die && W.num = T.num) = [T])
    one (f .resident) = true ∧ ((pooled (f .resident)).stopFor (f .resident) .host).isSome = true ∧
      ({ pooled (f .resident) with control := Control.reset } : State).stopFor (f .resident) .host = none ∧
      one (f (.saved (area0 768 false true .host))) = true ∧ one (f (.saving (area0 256 true true .preempt))) = true ∧
      (pooled (f .resident)).control.act16.toNat % 256 = 0 ∧ 0 + 768 ≤ dramBytes ∧ one (Tp .resident Gs) = true ∧
      (Tp .resident Gs).drain = none ∧ (Tp .resident Gs).cell = none ∧ (Tp .resident Gs).groups ≠ [] ∧
      ((pooled (Tp .resident Gs)).preemptOne (Tp .resident Gs) (preemptMode L2.header (Tp .resident Gs))).isSome = true ∧
      (pooled (Tp .resident Gs)).launch 0 = some L2 ∧ Tp .resident Gs ∈ (pooled (Tp .resident Gs)).named 0 .all ∧
      (Lr .completed placedRecord).stage = .completed := by decide +kernel

/-- Entries of the two tables that a commit takes and refuses; a second slot for the same ASID; pins of 7 to 14. -/
theorem test_witness_commits :
    let e : Slot := ⟨List.replicate 8 0, List.replicate 8 none⟩
    let c : Slot := ⟨List.replicate 4 0, [none, none, some 16, none]⟩
    asidEntryOk (e.merged 0x50800) = true ∧ asidEntryOk (e.merged 1) = false ∧ sHost.asidTaken 3 0x50800 = false ∧
      sHost.asidTaken 3 0xFFFF0800 = true ∧ sHost.asidTaken 63 0xFFFF0800 = false ∧
      (classEntryOk (c.merged 0x01010008) && sHost.minimumsOk 2 (c.merged 0x01010008)) = true ∧
      classEntryOk (c.merged 8) = false ∧ pinsOk 0x0E07 = true ∧ pinsOk 6 = false ∧ pinsOk 15 = false := by decide +kernel

/-- Poisoned and sound lines, idle and busy cores, an invalidation that waits for a store and one that does not. -/
theorem test_witness_host_memory_power :
    let p : State := { mk T0 G0 with poison := [3] }
    p.control.window.getLsbD 0 = false ∧ 3 ∈ p.poison ∧ 4 ∉ p.poison ∧ 64 * 4 + 64 ≤ dramBytes ∧
      p.idleCore 0 = false ∧ p.idleCore 1 = true ∧ (mk T0 G0).control.inval = none ∧ (mk T0 G0).underWay placedAsid = false ∧
      (mk T0 { G0 with reqs := [posted] }).underWay placedAsid = true := by decide +kernel

/-- The record window at 0x7000, and a part of it, an edge of it and all of it. -/
theorem test_witness_window :
    let s : State := { sHost with control := { sHost.control with window := 0x7001 } }
    s.control.window.getLsbD 0 = true ∧ s.control.window.toNat / 4096 * 4096 = 0x7000 ∧ (0 < 64 ∧ 64 ≤ 0x7000 ∧ 64 < 128 ∧ 128 ≤ 64 + 4096) ∧
      0x7000 + 64 + 8 ≤ dramBytes ∧ (s.slot 63).word 1 = 0x100000 ∧
      s.asidTaken 5 0x70800 = false := by decide +kernel

/-- A channel with a request: busy while an accepted add needs it. -/
theorem test_witness_channels :
    let s : State := { stacked G0 with adds := [add0 true] }
    s.channelBusy (Config.channelOf 64) = true ∧ (stacked G0).channelBusy (Config.channelOf 64) = false ∧
      ((s.putChannel ⟨5, .up, some (.down, 0)⟩).channel 5).pending = some (.down, 0) ∧
      s.wallNs < 0 + 1000000 ∧ 0 + 1000000 ≤ ({ s with wallNs := 1000000 } : State).wallNs := by
  refine ⟨?_, by decide +kernel, by decide +kernel, by decide +kernel, by decide +kernel⟩
  simp [State.channelBusy, add0]

theorem test_witness_resets :
    State.reset.control.trained = false ∧ 7 < State.reset.dies.length ∧ State.reset.checkpoint = none ∧
      ({ State.reset with control := { Control.reset with failed := 4 } } : State).control.failed.getLsbD 2 = true ∧
      ({ State.reset with checkpoint := some 5 } : State).wallNs < 5 ∧
      (∀ last, ({ State.reset with checkpoint := some 5, wallNs := 6 } : State).checkpoint = some last → last ≤ 6) ∧
      State.reset.memWf = true ∧
      (∀ i ∈ ([.dieReset 7, .pDieReset, .fullReset, .memoryTrained, .dieCalibrated 7 true] : List Instr),
        goesOn (exec i (mk T0 G0)) = true) := by decide +kernel

end Sys2Proof.Tests
end

section
/-! SUPPORT. The machine's statements: what a step runs (R19, R32, R79, R111), and s0 (R26). -/
namespace Sys2Proof.Slice0
open Sys2Proof.Machine

/-! ## A step runs what stands at the head of the agenda -/

/-- A step at a scalar turn runs the instruction that the fetched word decodes to; a stop that waited for the word
follows it. -/
theorem step_scalar_runs_decoded {s : State} {T : Team} {G : Group} {bs : List Byte} {i : Instr} {rest : List Sched}
    (ha : s.agenda = .scalar T.uid G.idx :: rest) (hfind : (popped s rest).find T.uid G.idx = some (T, G))
    (hissue : (popped s rest).mayIssue T G = true) (hwait : G.wait = none)
    (hfetch : (turnOf (popped s rest) T.uid G.idx).fetchScalar T G.fetchIndex = .ok bs)
    (hdec : decodeScalar G.pfx (BitVec.ofNat 32 (ofBytes bs)) = .ok i) :
    step s = andThen (exec i (turnOf (popped s rest) T.uid G.idx)) fun t => .next (t.finishStops T.uid G.idx) :=
  calc step s
    _ = scalarTurn (popped s rest) T.uid G.idx := step_cons ha
    _ = andThen (runScalar (turnOf (popped s rest) T.uid G.idx) T G) fun t => .next (t.finishStops T.uid G.idx) :=
      scalarTurn_runs hfind hissue hwait
    _ = _ := by rw [runScalar_ok hfetch hdec]

/-- A step at a lane turn runs the instruction that the head of the lane queue decodes to, where it does not fuse. -/
theorem step_lane_runs_decoded {s : State} {T : Team} {G : Group} {e : QEntry} {q : List QEntry} {w : LaneBits}
    {i : Instr} {rest : List Sched}
    (ha : s.agenda = .lane T.uid G.idx :: rest) (hfind : (popped s rest).find T.uid G.idx = some (T, G))
    (hissue : (popped s rest).mayIssue T G = true) (hstop : G.mustStop = false)
    (hreqs : ∀ r ∈ G.reqs, r.entry = true) (hstall : G.stall = 0) (hqueue : G.queue = e :: q)
    (hword : e.fetch = .word w) (hfuse : fusible G = none) (hdec : decodeLane w = .ok i) :
    step s = exec i (turnOf (popped s rest) T.uid G.idx) :=
  calc step s
    _ = laneTurn (popped s rest) T.uid G.idx := step_cons ha
    _ = runLane (turnOf (popped s rest) T.uid G.idx) G e := laneTurn_runs hfind hissue hstop hreqs hstall hqueue
    _ = exec i (turnOf (popped s rest) T.uid G.idx) := runLane_ok hword hfuse hdec

/-- A step carries out the device row at the head of the agenda. -/
theorem step_instr_runs_row {s : State} {i : Instr} {rest : List Sched} (ha : s.agenda = .instr i :: rest)
    (hrow : Instr.inTurn i = false) : step s = exec i (popped s rest) :=
  calc step s
    _ = Sched.run (.instr i) (popped s rest) := step_cons ha
    _ = exec i (popped s rest) := by simp [Sched.run, hrow]

/-- Settles O3: one clause for each kind of entry that runs an instruction. -/
theorem stepRunsTheDecodedInstruction : Obligations.StepRunsTheDecodedInstruction := by
  refine ⟨?scalar, ?lane, ?row⟩
  case scalar =>
    intro s T G bs i rest ha hfind hissue hwait hfetch hdec
    exact step_scalar_runs_decoded ha hfind hissue hwait hfetch hdec
  case lane =>
    intro s T G e q w i rest ha hfind hissue hstop hreqs hstall hqueue hword hfuse hdec
    exact step_lane_runs_decoded ha hfind hissue hstop hreqs hstall hqueue hword hfuse hdec
  case row =>
    intro s i rest ha hrow
    exact step_instr_runs_row ha hrow

/-! ## s0 -/

/-- Settles O9: s0 by the two rules of s0, any other register by the rule of a read after a write. -/
theorem registerZeroReadsZero : Obligations.RegisterZeroReadsZero := by
  intro G x
  refine ⟨G.sget_zero, G.sset_zero x, ?_⟩
  intro d r hd
  exact G.sget_sset d r x hd

end Sys2Proof.Slice0
end
